-- ==== Sys2Proof/Word.lean ====
section
/-! DEFINITION. The word types of the W628 and the index types of its numbered things (00_scope.md, Names and numbers). -/

namespace Sys2Proof

/-- A byte of the register window. -/
abbrev Byte := BitVec 8

/-- A 16-bit quantity: an element duration in µs, a counter, a sequence number. -/
abbrev Half := BitVec 16

/-- A value of the Time Base in µs, modulo 2^32 (R1). -/
abbrev Time := BitVec 32

/-- The payload of a code word, a pattern or a care mask. -/
abbrev Payload := BitVec 64

/-- A channel, 0 to 3. -/
abbrev Channel := Fin 4

/-- A burst descriptor's handle, 0 to 15. -/
abbrev Handle := Fin 16

/-- A block of the Pulse Store, 0 to 31. -/
abbrev BlockNo := Fin 32

/-- A timing profile, 0 to 7. -/
abbrev ProfileNo := Fin 8

/-- A code table entry, 0 to 127. -/
abbrev EntryNo := Fin 128

/-- A transmit output, 0 or 1. -/
abbrev Output := Fin 2

end Sys2Proof
end

