-- ==== Sys2Proof/Syntax.lean ====
section
/-! DEFINITION. The commands of the W628: one constructor per row of spec/opcode_table.json, with the operands that say which
channel, output, handle or byte the row is about. -/

namespace Sys2Proof

/-- The 22 commands of the register window (the table of R200). -/
inductive Cmd where
  | channelSet | channelGet | channelEnable | channelDisable | channelFlush | countersClear
  | profileCommit | profileRead | profileClear
  | entryCommit | entryRead | entryClear | tableClear
  | burstRelease
  | learnStart | learnAbort | learnCommit | learnDiscard
  | txSubmit | txStop | txAbort
  | runReset
  deriving DecidableEq, Repr

/-- The two events of a command that has one owner (section 9.4). DEDUCED (log 5), safe. -/
inductive CommandPhase where
  /-- The write of the command's opcode to CMD_OPCODE, taken by the BCU (R198, R202). -/
  | write
  /-- The command leaves the BCU: the check of R199, then the owner's part (R200). -/
  | take
  deriving DecidableEq, Repr

/-- The events of COUNTERS_CLEAR: its opcode write and its parts at three blocks, taken in any order (R200). -/
inductive ClearPhase where
  | write | lcu | sdc | mu
  deriving DecidableEq, Repr

/-- The events of an opcode that is not in the table of R200. -/
inductive OpcodePhase where
  /-- The write of the opcode byte (R198). -/
  | write (opcode : Byte)
  /-- The BCU's check, which refuses it (R199). -/
  | check
  deriving DecidableEq, Repr

/-- The blocks that send appends to the Event Queue (R147). The two engines of TXE send on their own account (R186, log 19). -/
inductive Sender where
  | lcu (c : Channel)
  | sdc
  | mu
  | txo (o : Output)
  deriving DecidableEq, Repr

/-- One constructor per row of spec/opcode_table.json, in the table's order. -/
inductive Instr where
  | pinReset
  | pendingChangeStart (c : Channel)
  | pendingChangeCancel (c : Channel)
  | acceptedEdge (c : Channel)
  | descriptorRequest (c : Channel)
  | descriptorAnswer (c : Channel)
  /-- `pick` says which block of the free-block list is granted where one is needed (R27, log 12). -/
  | elementWrite (c : Channel) (pick : BlockNo)
  | writeAnswer (c : Channel)
  | closeRequest (c : Channel)
  | abandonRequest (c : Channel)
  | endGapExpiry (c : Channel)
  | discardEndGapExpiry (c : Channel)
  | stuckLimitExpiry (c : Channel)
  | blankClaim (o : Output) (c : Channel)
  | claimDrop (o : Output) (c : Channel)
  | channelSet (phase : CommandPhase)
  | channelGet (phase : CommandPhase)
  | channelEnable (phase : CommandPhase)
  | channelDisable (phase : CommandPhase)
  | channelFlush (phase : CommandPhase)
  | channelPurge (c : Channel)
  | muChannelPart
  | countersClear (phase : ClearPhase)
  | profileCommit (phase : CommandPhase)
  | profileRead (phase : CommandPhase)
  | profileClear (phase : CommandPhase)
  | entryCommit (phase : CommandPhase)
  | entryRead (phase : CommandPhase)
  | entryClear (phase : CommandPhase)
  | tableClear (phase : CommandPhase)
  | burstRelease (phase : CommandPhase)
  | learnStart (phase : CommandPhase)
  | learnAbort (phase : CommandPhase)
  | learnCommit (phase : CommandPhase)
  | learnDiscard (phase : CommandPhase)
  | txSubmit (phase : CommandPhase)
  | txStop (phase : CommandPhase)
  | txAbort (phase : CommandPhase)
  | runReset
  | runResetTxe
  | runResetLcu (c : Channel)
  | runResetPst
  | runResetSdc
  | runResetMu
  | runResetEvq
  | undefinedOpcode (phase : OpcodePhase)
  | commandCompletion
  | cmdDoneClear (value : Byte)
  | irqEnableWrite (value : Byte)
  | eventThresholdWrite (value : Byte)
  | eventAgeWrite (value : Byte)
  | eventNext (value : Byte)
  | timeLatchRead
  | winSpaceWrite (value : Byte)
  | winIndexWrite (value : Byte)
  /-- `high` is true for the byte at 34h and false for the byte at 33h. -/
  | winOffsetWrite (high : Bool) (value : Byte)
  | winDataRead
  | winDataWrite (value : Byte)
  | registerWrite (address : BitVec 6) (value : Byte)
  | decoderTakeStart
  | takeRequest
  | takeAnswer
  | decodeEnd
  | decodeFinish
  | finishAnswer
  | undecodedAnswer
  | hostHoldDrop (h : Handle)
  | transmitHoldDrop (h : Handle)
  | codeWord
  | repeatNotice
  | pressAnswer
  | expiry (c : Channel)
  | learnTimeout
  | append (sender : Sender)
  | ageEvent
  | activation (o : Output)
  | elementEnd (o : Output)
  | frameEnd (o : Output)
  | gapEnd (o : Output)
  | tailEnd (o : Output)
  /-- Bit `c` of `lines` is the electrical level of LINE`c` at the tick's sample (R5): 1 is high. -/
  | microsecondTick (lines : BitVec 4)
  | millisecondTick
  deriving DecidableEq, Repr

end Sys2Proof
end

