-- ==== Sys2Proof/Decode.lean ====
section
/-! DEFINITION. The command a word of spec/opcode_table.json spells: no row of the table gives bits, so no word spells one.
Beside it the opcode bytes of the register window (the table of R200). -/

namespace Sys2Proof

/-- No row of the table has bits, so every word spells no command (log 4). -/
def decodeTableWord (_nbits _w : Nat) : Option Instr := none

/-- The opcode byte of each command (R200). -/
def Cmd.opcode : Cmd → Byte
  | .channelSet => 0x01#8
  | .channelGet => 0x02#8
  | .channelEnable => 0x03#8
  | .channelDisable => 0x04#8
  | .channelFlush => 0x05#8
  | .countersClear => 0x06#8
  | .profileCommit => 0x07#8
  | .profileRead => 0x08#8
  | .profileClear => 0x09#8
  | .entryCommit => 0x0A#8
  | .entryRead => 0x0B#8
  | .entryClear => 0x0C#8
  | .tableClear => 0x0D#8
  | .burstRelease => 0x0E#8
  | .learnStart => 0x0F#8
  | .learnAbort => 0x10#8
  | .learnCommit => 0x11#8
  | .learnDiscard => 0x12#8
  | .txSubmit => 0x13#8
  | .txStop => 0x14#8
  | .txAbort => 0x15#8
  | .runReset => 0x16#8

/-- The command an opcode byte names; none for a byte that is not in the table of R200, 00h included (R199). -/
def Cmd.ofOpcode (b : Byte) : Option Cmd :=
  match b.toNat with
  | 0x01 => some .channelSet
  | 0x02 => some .channelGet
  | 0x03 => some .channelEnable
  | 0x04 => some .channelDisable
  | 0x05 => some .channelFlush
  | 0x06 => some .countersClear
  | 0x07 => some .profileCommit
  | 0x08 => some .profileRead
  | 0x09 => some .profileClear
  | 0x0A => some .entryCommit
  | 0x0B => some .entryRead
  | 0x0C => some .entryClear
  | 0x0D => some .tableClear
  | 0x0E => some .burstRelease
  | 0x0F => some .learnStart
  | 0x10 => some .learnAbort
  | 0x11 => some .learnCommit
  | 0x12 => some .learnDiscard
  | 0x13 => some .txSubmit
  | 0x14 => some .txStop
  | 0x15 => some .txAbort
  | 0x16 => some .runReset
  | _ => none

end Sys2Proof
end

