-- ==== Sys2Proof/Config.lean ====
section
/-! DEFINITION. The fixed sizes and limits of the part (00_scope.md, Principal parameters). The spec leaves no value open that
an operand of a command or the order of the commands does not already leave open, so no constant here is without a body. -/

namespace Sys2Proof.Config

/-- Records other than RELEASE are admitted while the occupancy is below this number (R150). -/
def generalLimit : Nat := 60

/-- Places of the event queue (R148). -/
def queueCapacity : Nat := 64

/-- RETAINED descriptors at one time (R39). -/
def retainedLimit : Nat := 4

/-- Transmit holds on one descriptor (R42). -/
def transmitHoldLimit : Nat := 8

/-- Places of the transmit queue (R167). -/
def transmitQueueCapacity : Nat := 8

/-- The learning session fails when its mismatches reach this number (R136). -/
def mismatchLimit : Nat := 3

/-- The gap in µs where the profile gives no usable frame period (R180). -/
def defaultGap : Nat := 10000

/-- Slots in one block of the Pulse Store (R26). -/
def slotsPerBlock : Nat := 16

end Sys2Proof.Config
end

