-- ==== Sys2Proof/Machine/State.lean ====
section
/-! DEFINITION. The state of the W628, block by block (00_scope.md, Block diagram), as plain data, and the state after pin
reset. Messages that one block has sent and another has not taken yet are state: each waits in a mailbox of its sender. -/

namespace Sys2Proof.Machine

/-- What stops the machine: nothing does. The spec names no condition that stops the part, so the type has no constructor. -/
inductive Fault where
  deriving DecidableEq, Repr

/-- What the model refuses to run. -/
inductive Refusal where
  /-- Raised by no arm of `exec`: every row has its meaning. Safe. -/
  | notModelled (mnemonic : String)
  deriving DecidableEq, Repr

/-! ## Messages on their way -/

/-- Messages of one sender, oldest first, taken in the order they were sent. The first `early` of them were sent before the
sender took its part of a RUN_RESET that is not complete yet (R165, R189, log 14). -/
structure Mailbox (α : Type) where
  msgs : List α
  early : Nat
  deriving DecidableEq, Repr

/-! ## Time Base -/

/-- The Time Base (R1). -/
structure TimeBase where
  /-- The microsecond counter. -/
  counter : Time
  /-- The divider of the 1 ms tick, 0 to 999. -/
  divider : Nat
  /-- The moments of the 1 ms ticks that MILLISECOND_TICK has not taken yet, oldest first (log 25). -/
  msTicks : List Time
  deriving DecidableEq, Repr

/-! ## Event records -/

/-- The reason of a RELEASE (R115). -/
inductive ReleaseReason where
  | timeout | retrigger | superseded | group | entryChanged | learn | flush | disable
  deriving DecidableEq, Repr

/-- The failure reason of an undecodable burst (R66). -/
inductive FailReason where
  | leader | symbol | cell | trailing | length | noProfile
  deriving DecidableEq, Repr

/-- The reason of a LEARN_FAIL (R143). -/
inductive LearnFailReason where
  | timeout | mismatch | channelOff
  deriving DecidableEq, Repr

/-- The reason of a TX_ABORT (R186). -/
inductive TxAbortReason where
  | host | purged | sourceGone
  deriving DecidableEq, Repr

/-- The frame kind of a KEY record (R112). -/
inductive FrameKind where
  | full | repeated
  deriving DecidableEq, Repr

/-- The kind of an event record with its body (R147). -/
inductive EventBody where
  | press (entry : EntryNo) (keyId : Byte) (ambiguous : Bool) (toggle : Option Bool)
  | hold (entry : EntryNo) (keyId : Byte) (repeats : Half)
  | release (entry : EntryNo) (keyId : Byte) (repeats : Half) (reason : ReleaseReason) (heldMs : Half)
  | key (entry : EntryNo) (keyId : Byte) (repeats : Half) (frame : FrameKind) (ambiguous : Bool) (toggle : Option Bool)
  | unknown (profile : ProfileNo) (bits : Nat) (payload : Payload) (toggle : Option Bool)
  | undecoded (elements : Nat) (reason : FailReason) (handle : Option Handle)
  | lineStuck
  | learnDone (profile : ProfileNo) (bits : Nat) (payload : Payload) (existing : Option EntryNo)
  | learnFail (reason : LearnFailReason)
  | txDone (tag : Byte) (frames : Half)
  | txAbort (tag : Byte) (frames : Half) (reason : TxAbortReason)
  | overrun (lost : Half)
  deriving DecidableEq, Repr

/-- An append as its sender sends it: the channel or output number, the time stamp, the kind and body (R146). -/
structure Append where
  source : Byte
  stamp : Time
  body : EventBody
  deriving DecidableEq, Repr

/-- A record of the event queue (R146). -/
structure EventRecord where
  seq : Half
  source : Byte
  stamp : Time
  body : EventBody
  /-- The value of the Time Base when the record was admitted; it cannot be read. -/
  admitted : Time
  deriving DecidableEq, Repr

/-! ## Line Capture Units -/

/-- The electrical level that is a mark (R3). -/
inductive Polarity where
  | activeLow | activeHigh
  deriving DecidableEq, Repr

/-- The settings of one channel (R3). -/
structure Settings where
  polarity : Polarity
  glitchMin : Byte
  endGap : Half
  elementLimit : Byte
  stuckLimit : Byte
  /-- Bit p is set when profile p is in the set. -/
  profileSet : Byte
  holdWindow : Half
  reportUnknown : Bool
  reportUndecoded : Bool
  retainUndecoded : Bool
  reportStuck : Bool
  deriving DecidableEq, Repr

/-- The capture state (section 1.4); `opened` is OPEN. -/
inductive CaptureState where
  | disabled | idle | opened | discard | stuck | blanked
  deriving DecidableEq, Repr

/-- One sample of a line: the tick's time and the electrical level, true for high (R5). -/
structure Sample where
  time : Time
  level : Bool
  deriving DecidableEq, Repr

/-- The request to the store whose answer the LCU waits for, with the edge time that brought it about (R9, R10). -/
inductive LcuWait where
  | descriptor (edge : Time)
  | write (edge : Time)
  deriving DecidableEq, Repr

/-- The store's answer to a descriptor request or an element write (R30, R31). -/
inductive LcuAnswer where
  | granted (h : Handle)
  | noDescriptor
  | taken
  | noBlock
  deriving DecidableEq, Repr

/-- What an LCU sends the Pulse Store (R30 to R33, R36). -/
inductive StoreRequest where
  | descriptor (openTime : Time)
  | write (h : Handle) (position : Nat) (duration : Half)
  | close (h : Handle) (closeTime : Time)
  | abandon (h : Handle)
  | purge
  deriving DecidableEq, Repr

/-- What a transmit output sends an LCU (R16, R17). -/
inductive ClaimMsg where
  | claim | drop
  deriving DecidableEq, Repr

/-- The capture counters of one channel (R22). -/
structure LcuCounters where
  burstsClosed : Half
  glitches : Half
  tooLong : Half
  storeFull : Half
  noDescriptor : Half
  blankAbandoned : Half
  stuckEpisodes : Half
  deriving DecidableEq, Repr

/-- One Line Capture Unit (Chapter 1). -/
structure Lcu where
  settings : Settings
  capture : CaptureState
  /-- The first sample after RESET was released has been taken (R5). -/
  sampled : Bool
  /-- The accepted level: true is electrically high (R5). -/
  level : Bool
  /-- The edge time of the pending change, where there is one (R5, R6). -/
  change : Option Time
  /-- Samples that wait for an event of the LCU, oldest first (log 7). -/
  samples : List Sample
  /-- The handle of the open descriptor (section 1.4). -/
  handle : Option Handle
  /-- The number of elements written so far. -/
  count : Nat
  /-- The start time of the element in progress. -/
  elementStart : Time
  /-- The time from which the present level is timed for the end gap or the stuck limit (R15). -/
  measuringStart : Option Time
  blankCount : Nat
  counters : LcuCounters
  waiting : Option LcuWait
  answer : Option LcuAnswer
  toStore : Mailbox StoreRequest
  toQueue : Mailbox Append
  /-- Claims and drops of TXO0 and TXO1 that the LCU has not taken yet. -/
  claims : Vector (List ClaimMsg) 2
  deriving DecidableEq, Repr

/-! ## Pulse Store -/

/-- The slots of the Pulse Store: slot k of block b has address 16 b + k. Sorted by address, no address twice, no entry
with the duration 0, which is what an unlisted slot reads as (`Memory.wf`, log 13). -/
abbrev Memory := List (Nat × Half)

/-- The state of a burst descriptor (R28); `opened` is OPEN. -/
inductive DescriptorState where
  | free | opened | queued | decoding | retained
  deriving DecidableEq, Repr

/-- A burst descriptor (R28). -/
structure Descriptor where
  state : DescriptorState
  channel : Channel
  openTime : Time
  closeTime : Time
  count : Nat
  blocks : List BlockNo
  stale : Bool
  hostHold : Bool
  transmitHolds : Nat
  deriving DecidableEq, Repr

/-- The Pulse Store (Chapter 2). -/
structure PulseStore where
  descriptors : Vector Descriptor 16
  freeBlocks : List BlockNo
  slots : Memory
  /-- The burst queue, oldest close first (R35). -/
  queue : List Handle
  deriving DecidableEq, Repr

/-! ## Symbol Decoder -/

/-- How a bit is carried (R49). -/
inductive Encoding where
  | distance | width | biphase
  deriving DecidableEq, Repr

/-- Which received bit is bit 0 of the payload (R64). -/
inductive BitOrder where
  | lsbFirst | msbFirst
  deriving DecidableEq, Repr

/-- The mark and the space of a leader or repeat leader, in µs (R48). -/
structure MarkSpace where
  mark : Half
  space : Half
  deriving DecidableEq, Repr

/-- A timing profile (R48). -/
structure Profile where
  valid : Bool
  encoding : Encoding
  tolerance : Nat
  leader : Option MarkSpace
  repeatLeader : Option MarkSpace
  unit1 : Half
  unit2 : Half
  unit3 : Half
  minBits : Nat
  maxBits : Nat
  order : BitOrder
  toggle : Option Nat
  /-- The frame period in ms. -/
  period : Nat
  deriving DecidableEq, Repr

/-- A code word handed to the Match Unit (R72). -/
structure CodeWord where
  channel : Channel
  profile : ProfileNo
  bits : Nat
  payload : Payload
  toggle : Option Bool
  stamp : Time
  deriving DecidableEq, Repr

/-- A repeat notice handed to the Match Unit (R72). -/
structure Notice where
  channel : Channel
  profile : ProfileNo
  stamp : Time
  deriving DecidableEq, Repr

/-- What the decoder sends the Match Unit. -/
inductive MatchMsg where
  | word (w : CodeWord)
  | notice (n : Notice)
  deriving DecidableEq, Repr

/-- The result of a decode (R67). -/
inductive DecodeResult where
  | full (profile : ProfileNo) (bits : Nat) (payload : Payload) (toggle : Option Bool)
  | repeated (profile : ProfileNo)
  | undecodable (reason : FailReason)
  deriving DecidableEq, Repr

/-- What the decoder notes of a burst when its decode begins (R68, R69). -/
structure DecodeJob where
  handle : Handle
  channel : Channel
  openTime : Time
  count : Nat
  profileSet : Byte
  deriving DecidableEq, Repr

/-- The decoder's state with what it holds (section 3.6). -/
inductive DecoderState where
  | idle
  | decoding (job : DecodeJob)
  /-- `report` is the channel's report_undecoded setting when the decode ended (R73). -/
  | finishing (job : DecodeJob) (result : DecodeResult) (report : Bool)
  /-- `retained` is the handle that an UNDECODED record carried (R75). -/
  | reporting (job : DecodeJob) (retained : Option Handle)
  deriving DecidableEq, Repr

/-- The disposition of a decode finish (R37). -/
inductive Disposition where
  | free | retain
  deriving DecidableEq, Repr

/-- A request of the decoder that the store answers (R35, R37). -/
inductive DecoderRequest where
  | take
  | finish (h : Handle) (d : Disposition)
  deriving DecidableEq, Repr

/-- An answer on its way to the decoder (R35, R37, R74). -/
inductive DecoderAnswer where
  | took (h : Handle)
  | empty
  | stale
  | freed
  | retained
  | noRoom
  | admitted
  | refused
  deriving DecidableEq, Repr

/-- The decoder's counters of one channel (R76). -/
structure DecoderCounters where
  fullFrames : Half
  repeatFrames : Half
  undecodable : Half
  stale : Half
  notRetained : Half
  deriving DecidableEq, Repr

/-- The Symbol Decoder (Chapter 3). -/
structure Decoder where
  profiles : Vector Profile 8
  state : DecoderState
  request : Option DecoderRequest
  answer : Option DecoderAnswer
  /-- Host-hold drops that the store has not taken yet (R75). -/
  hostDrops : List Handle
  toMatch : Mailbox MatchMsg
  toQueue : Mailbox Append
  counters : Vector DecoderCounters 4
  deriving DecidableEq, Repr

/-! ## Match Unit -/

/-- How a key is reported (R80). -/
inductive EventMode where
  | edge | every
  deriving DecidableEq, Repr

/-- A code table entry (R80). -/
structure Entry where
  valid : Bool
  profile : ProfileNo
  bits : Nat
  pattern : Payload
  careMask : Payload
  keyId : Byte
  /-- Bit c is set when channel c is in the set. -/
  channels : BitVec 4
  group : Nat
  mode : EventMode
  confirm : Nat
  holdInterval : Nat
  deriving DecidableEq, Repr

/-- The state of a key record (R103). -/
inductive KeyState where
  | pending | pressed | tracking
  deriving DecidableEq, Repr

/-- A key record (R103); its channel is its place among the four. -/
structure KeyRecord where
  entry : EntryNo
  keyId : Byte
  group : Nat
  mode : EventMode
  confirm : Nat
  holdInterval : Nat
  state : KeyState
  confirmations : Nat
  repeats : Half
  toggle : Option Bool
  ambiguous : Bool
  reported : Bool
  created : Time
  heldMs : Half
  deadline : Time
  deriving DecidableEq, Repr

/-- The state of the learning session (R129). -/
inductive LearnState where
  | idle | listening | confirming | done
  deriving DecidableEq, Repr

/-- The word a session is confirming (R129). -/
structure Candidate where
  profile : ProfileNo
  bits : Nat
  payload : Payload
  deriving DecidableEq, Repr

/-- The result of a session (R129, R135). -/
structure LearnResult where
  channel : Channel
  profile : ProfileNo
  bits : Nat
  payload : Payload
  mask : Payload
  existing : Option EntryNo
  deriving DecidableEq, Repr

/-- The learning session (R129). -/
structure LearnSession where
  state : LearnState
  channel : Channel
  k : Nat
  /-- The time remaining in ms. -/
  remaining : Nat
  candidate : Option Candidate
  matchCount : Nat
  mismatches : Nat
  result : Option LearnResult
  /-- The moment of the tick that brought the time remaining to 0, until the expiry is taken (R137, log 25). -/
  expiredAt : Option Time
  deriving DecidableEq, Repr

/-- The Match Unit's counters of one channel (R99, R125). -/
structure MatchCounters where
  hits : Half
  ambiguous : Half
  unmatched : Half
  unconfirmed : Half
  orphanRepeats : Half
  unreportedPresses : Half
  deriving DecidableEq, Repr

/-- The Match Unit (Chapters 4 to 6). -/
structure MatchUnit where
  table : Vector Entry 128
  keys : Vector (Option KeyRecord) 4
  /-- The channel whose learn-divert flag is set (R130). -/
  divert : Option Channel
  learn : LearnSession
  /-- The channel whose PRESS waits for the Event Queue's answer (R113). -/
  awaiting : Option Channel
  /-- The answer on its way: true is ADMITTED. -/
  answer : Option Bool
  toQueue : Mailbox Append
  counters : Vector MatchCounters 4
  deriving DecidableEq, Repr

/-! ## Event Queue -/

/-- The Event Queue (Chapter 7). -/
structure EventQueue where
  /-- Oldest first. -/
  records : List EventRecord
  nextSeq : Half
  lost : Half
  overrunPending : Bool
  threshold : Byte
  ageLimit : Byte
  /-- EV_AGE (R161, log 21); EV_LEVEL is computed. -/
  evAge : Bool
  deriving DecidableEq, Repr

/-! ## Transmit Engine -/

/-- What a request sends (R166). -/
inductive TxSource where
  | entry (i : EntryNo)
  | word (p : ProfileNo) (bits : Nat) (payload : Payload)
  | burst (h : Handle)
  deriving DecidableEq, Repr

/-- How many frames a request sends (R166). -/
inductive RepeatMode where
  | once
  | count (n : Nat)
  | hold
  deriving DecidableEq, Repr

/-- The active part of a carrier cycle (R178). -/
inductive Duty where
  | quarter | third | half
  deriving DecidableEq, Repr

/-- A transmit request (R166). -/
structure TxRequest where
  tag : Byte
  output : Output
  source : TxSource
  mode : RepeatMode
  /-- In units of 125 ns; 0 is no carrier. -/
  carrier : Half
  duty : Duty
  /-- Bit c is set when channel c is blanked. -/
  blankSet : BitVec 4
  /-- In units of 100 µs. -/
  blankTail : Byte
  /-- In ms. -/
  rawGap : Byte
  deriving DecidableEq, Repr

/-- The copy of a source taken at activation (R172). -/
inductive TxSnapshot where
  | frame (profile : Profile) (bits : Nat) (payload : Payload)
  | burst (durations : List Half)
  deriving DecidableEq, Repr

/-- One element of a frame to emit: a mark or a space of `duration` µs (section 8.4). -/
structure Element where
  mark : Bool
  duration : Nat
  deriving DecidableEq, Repr

/-- The state of an output engine (R170). -/
inductive EngineState where
  | idle | frame | gap | tail
  deriving DecidableEq, Repr

/-- The end record an active request will get (R170). -/
inductive EndKind where
  | done
  | aborted (reason : TxAbortReason)
  deriving DecidableEq, Repr

/-- An output engine (R170). -/
structure Engine where
  state : EngineState
  request : Option TxRequest
  snapshot : Option TxSnapshot
  framesSent : Half
  frameStart : Time
  /-- The elements of the frame not yet ended, the one in progress first. -/
  elements : List Element
  /-- The start of the element in progress. -/
  elementStart : Time
  /-- The end of the last frame (R180). -/
  frameEnd : Time
  /-- The moment the engine entered TAIL (R182). -/
  tailStart : Time
  stopRequested : Bool
  endKind : EndKind
  toggle : Bool
  toQueue : Mailbox Append
  deriving DecidableEq, Repr

/-- The Transmit Engine (Chapter 8). -/
structure Transmit where
  engines : Vector Engine 2
  /-- The transmit queue, oldest first (R167). -/
  queue : List TxRequest
  /-- Transmit-hold drops that the store has not taken yet (R43). -/
  holdDrops : List Handle
  deriving DecidableEq, Repr

/-! ## Bus Interface and Command Unit -/

/-- The state of the command unit (section 9.4). -/
inductive CmdState where
  | idle | busy | done | error
  deriving DecidableEq, Repr

/-- The error codes of R203. -/
inductive CmdError where
  | badOpcode | badArg | channelNotDisabled | channelDisabled | profileEmpty | badTiming | inUse | entryEmpty | noSpace
  | badHandle | learnState
  deriving DecidableEq, Repr

/-- The argument registers ARG0 to ARG3 (R198). -/
structure Args where
  arg0 : Byte
  arg1 : Byte
  arg2 : Byte
  arg3 : Byte
  deriving DecidableEq, Repr

/-- A staging record as a snapshot or a copy carries it (R194, R198, R201). -/
inductive StagingRecord where
  | absent
  | channel (r : Vector Byte 10)
  | profile (r : Vector Byte 23)
  | entry (r : Vector Byte 25)
  | transmit (r : Vector Byte 21)
  deriving DecidableEq, Repr

/-- A part of a command that a block has not taken yet (R200). -/
inductive Part where
  | txe | lcu (c : Channel) | purge | pst | sdc | mu | evq
  deriving DecidableEq, Repr

/-- A command in flight: its snapshot, the parts still to be taken, and the answer so far (R198, R200). -/
structure InFlight where
  cmd : Option Cmd
  args : Args
  staging : StagingRecord
  parts : List Part
  error : Option CmdError
  result : Byte
  copy : StagingRecord
  deriving DecidableEq, Repr

/-- The Bus Interface and Command Unit (Chapter 9). -/
structure Bcu where
  cmdState : CmdState
  opcode : Byte
  error : Byte
  result : Byte
  collision : Bool
  cmdDone : Bool
  args : Args
  enableLevel : Bool
  enableAge : Bool
  enableDone : Bool
  winSpace : Byte
  winIndex : Byte
  winOffset : Nat
  counterCapture : Half
  timeLatch : Time
  channelStaging : Vector Byte 10
  profileStaging : Vector Byte 23
  entryStaging : Vector Byte 25
  transmitStaging : Vector Byte 21
  inFlight : Option InFlight
  /-- The byte the data lines carried in the last read cycle with a side effect; the lines themselves are computed (R190). The
  record is the model's: DESIGN CHOICE (log 23), unsafe. -/
  dataOut : Byte
  deriving DecidableEq, Repr

/-! ## The machine -/

/-- The W628 with the queue of commands that wait. -/
structure State where
  pending : List Instr
  tb : TimeBase
  lcus : Vector Lcu 4
  pst : PulseStore
  sdc : Decoder
  mu : MatchUnit
  evq : EventQueue
  txe : Transmit
  bcu : Bcu
  deriving DecidableEq, Repr

/-! ## Pin reset -/

/-- An empty mailbox. -/
def Mailbox.empty {α : Type} : Mailbox α := { msgs := [], early := 0 }

/-- The defaults of R3. -/
def Settings.default : Settings :=
  { polarity := .activeLow, glitchMin := 40#8, endGap := 10000#16, elementLimit := 255#8, stuckLimit := 50#8,
    profileSet := 0#8, holdWindow := 120#16, reportUnknown := false, reportUndecoded := false, retainUndecoded := false,
    reportStuck := true }

/-- A Line Capture Unit after pin reset (R24). The accepted level before the first sample is high: DESIGN CHOICE (log 8),
unsafe. -/
def Lcu.reset : Lcu :=
  { settings := .default, capture := .disabled, sampled := false, level := true, change := none, samples := [],
    handle := none, count := 0, elementStart := 0, measuringStart := none, blankCount := 0,
    counters := { burstsClosed := 0, glitches := 0, tooLong := 0, storeFull := 0, noDescriptor := 0, blankAbandoned := 0,
                  stuckEpisodes := 0 },
    waiting := none, answer := none, toStore := .empty, toQueue := .empty, claims := Vector.replicate 2 [] }

/-- A FREE descriptor (R28, R46). -/
def Descriptor.freed : Descriptor :=
  { state := .free, channel := 0, openTime := 0, closeTime := 0, count := 0, blocks := [], stale := false, hostHold := false,
    transmitHolds := 0 }

/-- The Pulse Store after pin reset (R46). -/
def PulseStore.reset : PulseStore :=
  { descriptors := Vector.replicate 16 .freed, freeBlocks := List.finRange 32, slots := [], queue := [] }

/-- The cleared values of R48. -/
def Profile.cleared : Profile :=
  { valid := false, encoding := .distance, tolerance := 0, leader := none, repeatLeader := none, unit1 := 0, unit2 := 0,
    unit3 := 0, minBits := 0, maxBits := 0, order := .lsbFirst, toggle := none, period := 0 }

/-- The Symbol Decoder after pin reset (R78). -/
def Decoder.reset : Decoder :=
  { profiles := Vector.replicate 8 .cleared, state := .idle, request := none, answer := none, hostDrops := [],
    toMatch := .empty, toQueue := .empty,
    counters := Vector.replicate 4 { fullFrames := 0, repeatFrames := 0, undecodable := 0, stale := 0, notRetained := 0 } }

/-- The cleared values of R80. -/
def Entry.cleared : Entry :=
  { valid := false, profile := 0, bits := 0, pattern := 0, careMask := 0, keyId := 0, channels := 0, group := 0,
    mode := .edge, confirm := 0, holdInterval := 0 }

/-- The learning session in IDLE (R129, R145). -/
def LearnSession.idle : LearnSession :=
  { state := .idle, channel := 0, k := 0, remaining := 0, candidate := none, matchCount := 0, mismatches := 0, result := none,
    expiredAt := none }

/-- The counters of R99 and R125 at 0. -/
def MatchCounters.zero : MatchCounters :=
  { hits := 0, ambiguous := 0, unmatched := 0, unconfirmed := 0, orphanRepeats := 0, unreportedPresses := 0 }

/-- The Match Unit after pin reset (R101, R127, R145). -/
def MatchUnit.reset : MatchUnit :=
  { table := Vector.replicate 128 .cleared, keys := Vector.replicate 4 none, divert := none, learn := .idle,
    awaiting := none, answer := none, toQueue := .empty, counters := Vector.replicate 4 .zero }

/-- The Event Queue after pin reset (R164). -/
def EventQueue.reset : EventQueue :=
  { records := [], nextSeq := 0, lost := 0, overrunPending := false, threshold := 1#8, ageLimit := 0, evAge := false }

/-- An output engine after pin reset (R188). -/
def Engine.reset : Engine :=
  { state := .idle, request := none, snapshot := none, framesSent := 0, frameStart := 0, elements := [], elementStart := 0,
    frameEnd := 0, tailStart := 0, stopRequested := false, endKind := .done, toggle := false, toQueue := .empty }

/-- The Transmit Engine after pin reset (R188). -/
def Transmit.reset : Transmit :=
  { engines := Vector.replicate 2 .reset, queue := [], holdDrops := [] }

/-- The command unit after pin reset (R205). -/
def Bcu.reset : Bcu :=
  { cmdState := .idle, opcode := 0, error := 0, result := 0, collision := false, cmdDone := false,
    args := { arg0 := 0#8, arg1 := 0#8, arg2 := 2#8, arg3 := 10#8 }, enableLevel := false, enableAge := false,
    enableDone := false, winSpace := 0, winIndex := 0, winOffset := 0, counterCapture := 0, timeLatch := 0,
    channelStaging := #v[0x00#8, 40#8, 0x10#8, 0x27#8, 255#8, 50#8, 0x00#8, 120#8, 0x00#8, 0x08#8],
    profileStaging := Vector.replicate 23 0, entryStaging := Vector.replicate 25 0,
    transmitStaging := Vector.replicate 21 0, inFlight := none, dataOut := 0 }

/-- The machine right after pin reset: every block in its pin-reset state (R205) and no command waiting. -/
def State.reset : State :=
  { pending := [], tb := { counter := 0, divider := 0, msTicks := [] }, lcus := Vector.replicate 4 .reset,
    pst := .reset, sdc := .reset, mu := .reset, evq := .reset, txe := .reset, bcu := .reset }

end Sys2Proof.Machine
end

