-- ==== Sys2Proof/Machine/Ops.lean ====
section
/-! DEFINITION. The operations that the meanings share: time, saturating counters, the slot memory, mailboxes, the homes of
the blocks' state, the parts of a command in flight (R200), and the appends to the Event Queue (R149). -/

namespace Sys2Proof.Machine

/-! ## Time (R1) -/

/-- The microseconds from `since` to `now`, modulo 2^32 (R1). -/
def elapsed (since now : Time) : Nat := (now - since).toNat

/-- The Time Base has reached the moment: their difference modulo 2^32 lies in the lower half. DEDUCED (log 17), unsafe. -/
def reached (moment now : Time) : Bool := decide (elapsed moment now < 2 ^ 31)

/-- The later of two moments that are not after `now` (R15). -/
def later (now a b : Time) : Time := if elapsed a now ≤ elapsed b now then a else b

/-- For how long a level that stands since `start` has stood up to the moment `upTo`; 0 if `upTo` is before `start` (R7). -/
def heldFor (start upTo now : Time) : Nat := if elapsed upTo now ≤ elapsed start now then elapsed start upTo else 0

/-- Milliseconds as microseconds of the Time Base (R1). -/
def msToTime (ms : Nat) : Time := BitVec.ofNat 32 (ms * 1000)

/-- A duration of 16 bits: a longer one is recorded as 65,535 µs (R7). -/
def clipDuration (us : Nat) : Half := BitVec.ofNat 16 (min us 65535)

/-- A 16-bit counter's increase, saturating at 65,535 (00_scope.md, Counters). -/
def bump (c : Half) : Half := if c = 65535#16 then c else c + 1

/-! ## Bytes (Chapter 9: multi-byte fields are little-endian) -/

/-- Byte `i` of a word, byte 0 the least significant. -/
def byteOf {n : Nat} (w : BitVec n) (i : Nat) : Byte := w.extractLsb' (8 * i) 8

/-- The 16-bit word of two bytes. -/
def half (lo hi : Byte) : Half := hi ++ lo

/-- The 64-bit word of eight bytes, `b0` the least significant. -/
def payloadOf (b0 b1 b2 b3 b4 b5 b6 b7 : Byte) : Payload := b7 ++ b6 ++ b5 ++ b4 ++ b3 ++ b2 ++ b1 ++ b0

/-- A number as a byte. -/
def natByte (n : Nat) : Byte := BitVec.ofNat 8 n

/-- A flag as a byte. -/
def boolByte (b : Bool) : Byte := if b then 1#8 else 0#8

/-- The channel a byte names, if it names one (R199). -/
def channelOf (b : Byte) : Option Channel := if h : b.toNat < 4 then some ⟨b.toNat, h⟩ else none

/-- The profile a byte names, if it names one (R199). -/
def profileOf (b : Byte) : Option ProfileNo := if h : b.toNat < 8 then some ⟨b.toNat, h⟩ else none

/-- The entry a byte names, if it names one (R199). -/
def entryOf (b : Byte) : Option EntryNo := if h : b.toNat < 128 then some ⟨b.toNat, h⟩ else none

/-- The handle a byte names, if it names one (R199). -/
def handleOf (b : Byte) : Option Handle := if h : b.toNat < 16 then some ⟨b.toNat, h⟩ else none

/-- The output a byte names, if it names one (R199). -/
def outputOf (b : Byte) : Option Output := if h : b.toNat < 2 then some ⟨b.toNat, h⟩ else none

/-- The four channels in ascending order. -/
def allChannels : List Channel := [0, 1, 2, 3]

/-! ## The slot memory (R26, log 13) -/

/-- What a slot reads as: its listed duration, or 0. -/
def Memory.read : Memory → Nat → Half
  | [], _ => 0
  | (b, w) :: m, a => if a = b then w else Memory.read m a

/-- Writes one slot and keeps the canonical form: a 0 is not listed. -/
def Memory.write : Memory → Nat → Half → Memory
  | [], a, v => if v = 0 then [] else [(a, v)]
  | (b, w) :: m, a, v =>
    if a < b then (if v = 0 then (b, w) :: m else (a, v) :: (b, w) :: m)
    else if a = b then (if v = 0 then m else (a, v) :: m)
    else (b, w) :: Memory.write m a v

/-- The canonical form: addresses strictly rising, no entry equal to what an unlisted slot reads as. -/
abbrev Memory.wf (m : Memory) : Prop := (m.map Prod.fst).Pairwise (· < ·) ∧ ∀ p ∈ m, p.2 ≠ 0

/-- The address of slot `k` of a block. -/
def slotAddress (b : BlockNo) (k : Nat) : Nat := Config.slotsPerBlock * b.val + k

/-! ## Mailboxes -/

/-- A message is sent. -/
def Mailbox.push {α : Type} (m : Mailbox α) (x : α) : Mailbox α := { m with msgs := m.msgs ++ [x] }

/-- The oldest message has been taken. -/
def Mailbox.pop {α : Type} (m : Mailbox α) : Mailbox α := { msgs := m.msgs.tail, early := m.early - 1 }

/-- Every message in the box was sent before the sender's part of a RUN_RESET. -/
def Mailbox.markEarly {α : Type} (m : Mailbox α) : Mailbox α := { m with early := m.msgs.length }

/-! ## The homes of the blocks' state -/

/-- The Line Capture Unit of a channel. -/
def State.lcu (s : State) (c : Channel) : Lcu := s.lcus[c.val]

/-- Replaces the Line Capture Unit of a channel. -/
def State.setLcu (s : State) (c : Channel) (l : Lcu) : State := { s with lcus := s.lcus.set c.val l }

/-- The value of the Time Base. -/
def State.now (s : State) : Time := s.tb.counter

/-- Replaces the Pulse Store. -/
def State.setPst (s : State) (p : PulseStore) : State := { s with pst := p }

/-- Replaces the Symbol Decoder. -/
def State.setSdc (s : State) (d : Decoder) : State := { s with sdc := d }

/-- Replaces the Match Unit. -/
def State.setMu (s : State) (m : MatchUnit) : State := { s with mu := m }

/-- Replaces the Event Queue. -/
def State.setEvq (s : State) (q : EventQueue) : State := { s with evq := q }

/-- Replaces the Transmit Engine. -/
def State.setTxe (s : State) (t : Transmit) : State := { s with txe := t }

/-- Replaces the command unit. -/
def State.setBcu (s : State) (b : Bcu) : State := { s with bcu := b }

/-- Replaces the queue of commands that wait. -/
def State.setPending (s : State) (l : List Instr) : State := { s with pending := l }

/-- The descriptor of a handle. -/
def PulseStore.descriptor (p : PulseStore) (h : Handle) : Descriptor := p.descriptors[h.val]

/-- Replaces the descriptor of a handle. -/
def PulseStore.setDescriptor (p : PulseStore) (h : Handle) (d : Descriptor) : PulseStore :=
  { p with descriptors := p.descriptors.set h.val d }

/-- A profile of the profile table. -/
def Decoder.profile (d : Decoder) (p : ProfileNo) : Profile := d.profiles[p.val]

/-- Replaces a profile of the profile table. -/
def Decoder.setProfile (d : Decoder) (p : ProfileNo) (x : Profile) : Decoder := { d with profiles := d.profiles.set p.val x }

/-- The decoder's counters of a channel. -/
def Decoder.counter (d : Decoder) (c : Channel) : DecoderCounters := d.counters[c.val]

/-- Replaces the decoder's counters of a channel. -/
def Decoder.setCounter (d : Decoder) (c : Channel) (x : DecoderCounters) : Decoder :=
  { d with counters := d.counters.set c.val x }

/-- An entry of the code table. -/
def MatchUnit.entry (m : MatchUnit) (i : EntryNo) : Entry := m.table[i.val]

/-- Replaces an entry of the code table. -/
def MatchUnit.setEntry (m : MatchUnit) (i : EntryNo) (e : Entry) : MatchUnit := { m with table := m.table.set i.val e }

/-- The key record of a channel. -/
def MatchUnit.key (m : MatchUnit) (c : Channel) : Option KeyRecord := m.keys[c.val]

/-- Replaces the key record of a channel. -/
def MatchUnit.setKey (m : MatchUnit) (c : Channel) (k : Option KeyRecord) : MatchUnit := { m with keys := m.keys.set c.val k }

/-- The Match Unit's counters of a channel. -/
def MatchUnit.counter (m : MatchUnit) (c : Channel) : MatchCounters := m.counters[c.val]

/-- Replaces the Match Unit's counters of a channel. -/
def MatchUnit.setCounter (m : MatchUnit) (c : Channel) (x : MatchCounters) : MatchUnit :=
  { m with counters := m.counters.set c.val x }

/-- The engine of an output. -/
def Transmit.engine (t : Transmit) (o : Output) : Engine := t.engines[o.val]

/-- Replaces the engine of an output. -/
def Transmit.setEngine (t : Transmit) (o : Output) (e : Engine) : Transmit := { t with engines := t.engines.set o.val e }

/-! ## Appends on their way to the Event Queue (R149) -/

/-- The channel-or-output number of a record (R146). -/
def channelByte (c : Channel) : Byte := natByte c.val

/-- The output number of a record (R146). -/
def outputByte (o : Output) : Byte := natByte o.val

/-- The appends a sender has sent and the Event Queue has not taken. -/
def State.outbox (s : State) : Sender → Mailbox Append
  | .lcu c => (s.lcu c).toQueue
  | .sdc => s.sdc.toQueue
  | .mu => s.mu.toQueue
  | .txo o => (s.txe.engine o).toQueue

/-- Replaces a sender's appends on their way. -/
def State.setOutbox (s : State) (m : Mailbox Append) : Sender → State
  | .lcu c => s.setLcu c { s.lcu c with toQueue := m }
  | .sdc => s.setSdc { s.sdc with toQueue := m }
  | .mu => s.setMu { s.mu with toQueue := m }
  | .txo o => s.setTxe (s.txe.setEngine o { s.txe.engine o with toQueue := m })

/-- Every sender of appends. -/
def allSenders : List Sender := [.lcu 0, .lcu 1, .lcu 2, .lcu 3, .sdc, .mu, .txo 0, .txo 1]

/-! ## A command in flight (section 9.4) -/

/-- The code of an error (R203). -/
def CmdError.code : CmdError → Byte
  | .badOpcode => 0x01#8
  | .badArg => 0x02#8
  | .channelNotDisabled => 0x03#8
  | .channelDisabled => 0x04#8
  | .profileEmpty => 0x05#8
  | .badTiming => 0x06#8
  | .inUse => 0x07#8
  | .entryEmpty => 0x08#8
  | .noSpace => 0x09#8
  | .badHandle => 0x0A#8
  | .learnState => 0x0B#8

/-- The arguments that a command uses name something inside the part (R199). -/
def argumentsNameParts (cmd : Cmd) (a : Args) : Bool :=
  match cmd with
  | .channelSet | .channelGet | .channelEnable | .channelDisable | .channelFlush | .countersClear | .learnStart =>
    (channelOf a.arg0).isSome
  | .profileCommit | .profileRead | .profileClear => (profileOf a.arg0).isSome
  | .entryCommit | .entryRead | .entryClear | .learnCommit => (entryOf a.arg0).isSome
  | .burstRelease => (handleOf a.arg0).isSome
  | .txStop => (outputOf a.arg0).isSome
  | .txAbort => (outputOf a.arg0).isSome && decide (a.arg1.toNat ≤ 1)
  | .tableClear | .learnAbort | .learnDiscard | .txSubmit | .runReset => true

/-- The BCU's own check of a command in flight (R199): none when it passes. -/
def InFlight.refusal (f : InFlight) : Option CmdError :=
  match f.cmd with
  | none => some .badOpcode
  | some cmd => if argumentsNameParts cmd f.args then none else some .badArg

/-- The parts of a command, in the order the BCU hands them on (R200). -/
def commandParts (cmd : Cmd) (a : Args) : List Part :=
  let lcuPart : List Part := match channelOf a.arg0 with
    | some c => [.lcu c]
    | none => []
  match cmd with
  | .channelSet | .channelGet | .channelEnable => lcuPart
  | .channelDisable | .channelFlush => lcuPart ++ [.purge, .mu]
  | .countersClear => lcuPart ++ [.sdc, .mu]
  | .profileCommit | .profileRead | .profileClear => [.sdc]
  | .entryCommit | .entryRead | .entryClear | .tableClear => [.mu]
  | .burstRelease => [.pst]
  | .learnStart | .learnAbort | .learnCommit | .learnDiscard => [.mu]
  | .txSubmit | .txStop | .txAbort => [.txe]
  | .runReset => [.txe, .lcu 0, .lcu 1, .lcu 2, .lcu 3, .pst, .sdc, .mu, .evq]

/-- The staging record a command's snapshot holds (R198, R200). -/
def Bcu.stagingFor (b : Bcu) : Cmd → StagingRecord
  | .channelSet => .channel b.channelStaging
  | .profileCommit => .profile b.profileStaging
  | .entryCommit | .learnCommit => .entry b.entryStaging
  | .txSubmit => .transmit b.transmitStaging
  | .channelGet | .channelEnable | .channelDisable | .channelFlush | .countersClear | .profileRead | .profileClear
  | .entryRead | .entryClear | .tableClear | .burstRelease | .learnStart | .learnAbort | .learnDiscard | .txStop | .txAbort
  | .runReset => .absent

/-- A write to CMD_OPCODE: accepted with its snapshot unless a command is BUSY (R198), else ignored with COLLISION (R202). -/
def Bcu.writeOpcode (b : Bcu) (opcode : Byte) : Bcu :=
  if b.cmdState = .busy then { b with collision := true }
  else
    let cmd := Cmd.ofOpcode opcode
    { b with
      opcode := opcode, collision := false, cmdDone := false, error := 0, result := 0, cmdState := .busy
      inFlight := some
        { cmd := cmd, args := b.args
          staging := match cmd with
            | some k => b.stagingFor k
            | none => .absent
          parts := match cmd with
            | some k => commandParts k b.args
            | none => []
          error := none, result := 0, copy := .absent } }

/-- Replaces a staging record by the copy that a reading command answered with (R201). -/
def Bcu.landCopy (b : Bcu) : StagingRecord → Bcu
  | .absent => b
  | .channel r => { b with channelStaging := r }
  | .profile r => { b with profileStaging := r }
  | .entry r => { b with entryStaging := r }
  | .transmit r => { b with transmitStaging := r }

/-- The completion event (R200, R201, R203): the copy lands, then the outcome and CMD_DONE are stored. -/
def Bcu.complete (b : Bcu) (error : Option CmdError) (result : Byte) (copy : StagingRecord) : Bcu :=
  { b.landCopy copy with
    cmdState := match error with
      | none => .done
      | some _ => .error
    error := match error with
      | none => 0
      | some e => e.code
    result := match error with
      | none => result
      | some _ => 0
    cmdDone := true
    inFlight := none }

/-- An owner's answer to its part (R200). -/
structure PartAnswer where
  error : Option CmdError := none
  result : Byte := 0
  copy : StagingRecord := .absent
  deriving DecidableEq, Repr

/-- The owner of a part has taken it and answered. -/
def Bcu.answerPart (b : Bcu) (p : Part) (a : PartAnswer) : Bcu :=
  match b.inFlight with
  | none => b
  | some f =>
    { b with inFlight := some { f with parts := f.parts.erase p, error := f.error.or a.error, result := a.result, copy := a.copy } }

/-- The owner of a part has taken it and answered. -/
def State.answerPart (s : State) (p : Part) (a : PartAnswer) : State := s.setBcu (s.bcu.answerPart p a)

/-- The command in flight, if it is `cmd`. -/
def State.inFlightAs (s : State) (cmd : Cmd) : Option InFlight :=
  s.bcu.inFlight.filter fun f => f.cmd == some cmd

/-- The "taken" form of a command: the BCU's check first, which completes a failing command at once (R199, log 6); then the
owner's part. Not due unless the command in flight is `cmd`. -/
def State.takeCommand (s : State) (cmd : Cmd) (owner : InFlight → State) : State :=
  match s.inFlightAs cmd with
  | none => s
  | some f =>
    match f.refusal with
    | some e => s.setBcu (s.bcu.complete (some e) 0 .absent)
    | none => owner f

/-! ## The way of RUN_RESET (R200, log 14) -/

/-- The parts of a RUN_RESET in flight that are not taken yet. -/
def State.resetParts (s : State) : List Part :=
  match s.inFlightAs .runReset with
  | some f => f.parts
  | none => []

/-- RUN_RESET's part has left the block of `sent` and is on its way to the block of `next` on the path of a mailbox whose
earlier messages have all been taken: what was sent afterwards waits behind it. -/
def State.resetBetween (s : State) (sent next : Part) (early : Nat) : Bool :=
  decide (next ∈ s.resetParts) && !decide (sent ∈ s.resetParts) && early == 0

/-- The store takes requests of channel `c`'s LCU: no part of RUN_RESET stands before them. -/
def State.storePathOpen (s : State) (c : Channel) : Bool := !s.resetBetween (.lcu c) .pst (s.lcu c).toStore.early

/-- The oldest request of channel `c`'s LCU that the store may take. -/
def State.storeRequest (s : State) (c : Channel) : Option StoreRequest :=
  if s.storePathOpen c then (s.lcu c).toStore.msgs.head? else none

/-- The Match Unit takes events: it waits for no answer to a PRESS (R113). -/
def MatchUnit.ready (m : MatchUnit) : Bool := m.awaiting.isNone

/-- The Match Unit takes events at this moment: it waits for no answer to a PRESS (R113), and it has counted every 1 ms tick of
an earlier moment (R115, R137, log 25). -/
def State.matchReady (s : State) : Bool := s.mu.ready && s.tb.msTicks.all (· == s.now)

/-- What another block does after a read of the code table, which the Match Unit takes as an event: where there is such a read,
it waits with the Match Unit for the answer to a PRESS (R98, R113, log 26). -/
def State.afterMatchRead (s : State) (reads : Bool) (act : State) : State := if reads && !s.mu.ready then s else act

end Sys2Proof.Machine
end

