-- ==== Sys2Proof/Machine/Operands.lean ====
section
/-! DEFINITION. The operand forms: the byte layouts of the staging records (R194), of the read-only window spaces (R195) and
of the event window (R196), with the range checks of a channel's settings (R3, R4), of a profile (R51, R52), of an entry (R83)
and of a transmit request (R168). -/

namespace Sys2Proof.Machine

/-! ## Channel settings (R3, R4, R194) -/

/-- The settings a channel staging record spells (R194). -/
def settingsOfBytes (r : Vector Byte 10) : Settings :=
  { polarity := if r[0].getLsbD 0 then .activeHigh else .activeLow
    glitchMin := r[1], endGap := half r[2] r[3], elementLimit := r[4], stuckLimit := r[5], profileSet := r[6]
    holdWindow := half r[7] r[8]
    reportUnknown := r[9].getLsbD 0, reportUndecoded := r[9].getLsbD 1, retainUndecoded := r[9].getLsbD 2
    reportStuck := r[9].getLsbD 3 }

/-- The flag byte of a channel staging record. -/
def settingsFlags (x : Settings) : Byte :=
  natByte (x.reportUnknown.toNat + 2 * x.reportUndecoded.toNat + 4 * x.retainUndecoded.toNat + 8 * x.reportStuck.toNat)

/-- The channel staging record of settings; unnamed bits are 0 (R194). -/
def settingsBytes (x : Settings) : Vector Byte 10 :=
  #v[match x.polarity with
      | .activeLow => 0x00#8
      | .activeHigh => 0x01#8,
     x.glitchMin, byteOf x.endGap 0, byteOf x.endGap 1, x.elementLimit, x.stuckLimit, x.profileSet,
     byteOf x.holdWindow 0, byteOf x.holdWindow 1, settingsFlags x]

/-- Every setting lies in its range (R3, R4): the end gap, an odd L, the stuck limit, the hold window in steps of 4 ms, and
retain_undecoded only with report_undecoded. -/
def settingsInRange (x : Settings) : Bool :=
  decide (1000 ≤ x.endGap.toNat) && decide (3 ≤ x.elementLimit.toNat) && x.elementLimit.toNat % 2 == 1
    && decide (x.stuckLimit.toNat ≤ 60)
    && decide (8 ≤ x.holdWindow.toNat) && decide (x.holdWindow.toNat ≤ 1020) && x.holdWindow.toNat % 4 == 0
    && (!x.retainUndecoded || x.reportUndecoded)

/-- Every profile that a profile set names is VALID in the profile table (R4). -/
def profileSetValid (profiles : Vector Profile 8) (set : Byte) : Bool :=
  (List.finRange 8).all fun p => !set.getLsbD p.val || profiles[p.val].valid

/-! ## Profiles (R48 to R52, R194) -/

/-- The encoding a code names (R194). -/
def encodingOf (b : Byte) : Option Encoding :=
  match b.toNat with
  | 0 => some .distance
  | 1 => some .width
  | 2 => some .biphase
  | _ => none

/-- The code of an encoding (R194). -/
def encodingByte : Encoding → Byte
  | .distance => 0x00#8
  | .width => 0x01#8
  | .biphase => 0x02#8

/-- The bit order a code names (R194). -/
def bitOrderOf (b : Byte) : Option BitOrder :=
  match b.toNat with
  | 0 => some .lsbFirst
  | 1 => some .msbFirst
  | _ => none

/-- The code of a bit order (R194). -/
def bitOrderByte : BitOrder → Byte
  | .lsbFirst => 0x00#8
  | .msbFirst => 0x01#8

/-- The field checks of R51 on the fields a profile staging record spells; none where one fails. Fields that the encoding
does not use take their cleared values (R50). -/
def profileOfBytes (r : Vector Byte 23) : Option Profile :=
  match encodingOf r[1], bitOrderOf r[20] with
  | some encoding, some order =>
    let k := r[2].toNat
    let leader := if r[3].getLsbD 0 then some (MarkSpace.mk (half r[4] r[5]) (half r[6] r[7])) else none
    let repeatLeader := if r[3].getLsbD 1 then some (MarkSpace.mk (half r[8] r[9]) (half r[10] r[11])) else none
    let minBits := r[18].toNat
    let maxBits := r[19].toNat
    let toggle := if r[3].getLsbD 2 then some r[21].toNat else none
    let biphase := encoding == .biphase
    if decide (1 ≤ k) && decide (k ≤ 12)
        && decide (1 ≤ minBits) && decide (minBits ≤ 64) && decide (1 ≤ maxBits) && decide (maxBits ≤ 64)
        && decide (minBits ≤ maxBits)
        && !(repeatLeader.isSome && biphase)
        && toggle.all (fun t => decide (t < minBits))
    then
      some
        { valid := true, encoding := encoding, tolerance := k, leader := leader, repeatLeader := repeatLeader
          unit1 := half r[12] r[13]
          unit2 := if biphase then 0 else half r[14] r[15]
          unit3 := if biphase then 0 else half r[16] r[17]
          minBits := minBits, maxBits := maxBits, order := order, toggle := toggle, period := r[22].toNat }
    else none
  | _, _ => none

/-- A nominal lies between 50 and 30,000 µs (R48). -/
def nominalInRange (n : Half) : Bool := decide (50 ≤ n.toNat) && decide (n.toNat ≤ 30000)

/-- Two nominals are separable under k, whichever is the larger (R52). -/
def separable (k : Nat) (x y : Half) : Bool :=
  decide (min x.toNat y.toNat * (32 + k) < max x.toNat y.toNat * (32 - k))

/-- The nominals a profile uses (R52). -/
def Profile.usedNominals (p : Profile) : List Half :=
  (match p.leader with
    | some l => [l.mark, l.space]
    | none => [])
  ++ (match p.repeatLeader with
    | some l => [l.mark, l.space]
    | none => [])
  ++ (match p.encoding with
    | .biphase => [p.unit1]
    | .distance => [p.unit1, p.unit2, p.unit3]
    | .width => [p.unit1, p.unit2, p.unit3])

/-- The timing checks of R52 pass. -/
def Profile.timingValid (p : Profile) : Bool :=
  p.usedNominals.all nominalInRange
    && (match p.encoding with
        | .distance => separable p.tolerance p.unit2 p.unit3
        | .width => separable p.tolerance p.unit1 p.unit2
        | .biphase => decide (p.tolerance ≤ 10))
    && (match p.leader, p.repeatLeader with
        | some l, some r => separable p.tolerance l.space r.space
        | _, _ => true)

/-- The mark or space of a leader that may be absent, as bytes; an absent field is 0 (R194). -/
def leaderWord (l : Option MarkSpace) (mark : Bool) : Half :=
  match l with
  | some x => if mark then x.mark else x.space
  | none => 0

/-- The profile staging record of a profile (R55, R194). -/
def profileBytes (p : Profile) : Vector Byte 23 :=
  let lm := leaderWord p.leader true
  let ls := leaderWord p.leader false
  let rm := leaderWord p.repeatLeader true
  let rs := leaderWord p.repeatLeader false
  #v[boolByte p.valid, encodingByte p.encoding, natByte p.tolerance,
     natByte (p.leader.isSome.toNat + 2 * p.repeatLeader.isSome.toNat + 4 * p.toggle.isSome.toNat),
     byteOf lm 0, byteOf lm 1, byteOf ls 0, byteOf ls 1, byteOf rm 0, byteOf rm 1, byteOf rs 0, byteOf rs 1,
     byteOf p.unit1 0, byteOf p.unit1 1, byteOf p.unit2 0, byteOf p.unit2 1, byteOf p.unit3 0, byteOf p.unit3 1,
     natByte p.minBits, natByte p.maxBits, bitOrderByte p.order, natByte (p.toggle.getD 0), natByte p.period]

/-! ## Entries (R80, R83, R194) -/

/-- A payload has no bit set at or above the bit count (R83). -/
def zeroAbove (bits : Nat) (x : Payload) : Bool := decide (x.toNat < 2 ^ bits)

/-- The event mode a code names (R194). -/
def eventModeOf (b : Byte) : Option EventMode :=
  match b.toNat with
  | 0 => some .edge
  | 1 => some .every
  | _ => none

/-- The code of an event mode (R194). -/
def eventModeByte : EventMode → Byte
  | .edge => 0x00#8
  | .every => 0x01#8

/-- The fields of an entry snapshot before its checks: what ENTRY_COMMIT reads of the staging record (R194) and what
LEARN_COMMIT builds (R141). -/
structure EntryFields where
  profile : Nat
  bits : Nat
  pattern : Payload
  careMask : Payload
  keyId : Byte
  channels : Byte
  group : Byte
  mode : Byte
  confirm : Byte
  hold : Byte
  deriving DecidableEq, Repr

/-- The fields an entry staging record spells; its state field is not read (R82). -/
def entryFields (r : Vector Byte 25) : EntryFields :=
  { profile := r[1].toNat, bits := r[2].toNat
    pattern := payloadOf r[3] r[4] r[5] r[6] r[7] r[8] r[9] r[10]
    careMask := payloadOf r[11] r[12] r[13] r[14] r[15] r[16] r[17] r[18]
    keyId := r[19], channels := r[20], group := r[21], mode := r[22], confirm := r[23], hold := r[24] }

/-- The field checks of R83 and the VALID entry that the fields make where they pass. -/
def entryOfFields (x : EntryFields) : Option Entry :=
  if h : x.profile < 8 then
    match eventModeOf x.mode with
    | none => none
    | some mode =>
      if decide (1 ≤ x.bits) && decide (x.bits ≤ 64) && zeroAbove x.bits x.pattern && zeroAbove x.bits x.careMask
          && x.channels != 0 && decide (x.channels.toNat < 16) && decide (x.group.toNat ≤ 15)
          && decide (1 ≤ x.confirm.toNat) && decide (x.confirm.toNat ≤ 4)
      then
        some
          { valid := true, profile := ⟨x.profile, h⟩, bits := x.bits, pattern := x.pattern, careMask := x.careMask
            keyId := x.keyId, channels := x.channels.setWidth 4, group := x.group.toNat, mode := mode
            confirm := x.confirm.toNat, holdInterval := x.hold.toNat }
      else none
  else none

/-- The entry staging record of an entry (R89, R194). -/
def entryBytes (e : Entry) : Vector Byte 25 :=
  #v[boolByte e.valid, natByte e.profile.val, natByte e.bits,
     byteOf e.pattern 0, byteOf e.pattern 1, byteOf e.pattern 2, byteOf e.pattern 3,
     byteOf e.pattern 4, byteOf e.pattern 5, byteOf e.pattern 6, byteOf e.pattern 7,
     byteOf e.careMask 0, byteOf e.careMask 1, byteOf e.careMask 2, byteOf e.careMask 3,
     byteOf e.careMask 4, byteOf e.careMask 5, byteOf e.careMask 6, byteOf e.careMask 7,
     e.keyId, e.channels.setWidth 8, natByte e.group, eventModeByte e.mode, natByte e.confirm, natByte e.holdInterval]

/-! ## Transmit requests (R166, R168, R194) -/

/-- The source of a transmit staging record, with the field checks of R168 on it. -/
def txSourceOf (r : Vector Byte 21) : Option TxSource :=
  match r[2].toNat with
  | 0 => (entryOf r[3]).map .entry
  | 1 =>
    match profileOf r[3] with
    | none => none
    | some p =>
      let payload := payloadOf r[5] r[6] r[7] r[8] r[9] r[10] r[11] r[12]
      if decide (1 ≤ r[4].toNat) && decide (r[4].toNat ≤ 64) && zeroAbove r[4].toNat payload
      then some (.word p r[4].toNat payload) else none
  | 2 =>
    match handleOf r[3] with
    | none => none
    | some h => if r[20] = 0 then none else some (.burst h)
  | _ => none

/-- The repeat mode of a transmit staging record; COUNT needs a frame count of at least 1 (R168). -/
def repeatModeOf (r : Vector Byte 21) : Option RepeatMode :=
  match r[13].toNat with
  | 0 => some .once
  | 1 => if r[14] = 0 then none else some (.count r[14].toNat)
  | 2 => some .hold
  | _ => none

/-- The duty a code names (R194). -/
def dutyOf (b : Byte) : Option Duty :=
  match b.toNat with
  | 0 => some .quarter
  | 1 => some .third
  | 2 => some .half
  | _ => none

/-- A carrier period is 0 or 64 to 800 units (R166). -/
def carrierInRange (p : Half) : Bool := p == 0 || (decide (64 ≤ p.toNat) && decide (p.toNat ≤ 800))

/-- The request a transmit staging record spells; none where a field check of R168 fails. -/
def txRequestOfBytes (r : Vector Byte 21) : Option TxRequest :=
  match outputOf r[1], txSourceOf r, repeatModeOf r, dutyOf r[17] with
  | some output, some source, some mode, some duty =>
    let carrier := half r[15] r[16]
    if carrierInRange carrier && decide (r[18].toNat < 16) then
      some { tag := r[0], output := output, source := source, mode := mode, carrier := carrier, duty := duty
             blankSet := r[18].setWidth 4, blankTail := r[19], rawGap := r[20] }
    else none
  | _, _, _, _ => none

/-! ## The event window (R196) -/

/-- The code of an event kind (R196). -/
def EventBody.kind : EventBody → Byte
  | .press _ _ _ _ => 0x01#8
  | .hold _ _ _ => 0x02#8
  | .release _ _ _ _ _ => 0x03#8
  | .key _ _ _ _ _ _ => 0x04#8
  | .unknown _ _ _ _ => 0x05#8
  | .undecoded _ _ _ => 0x06#8
  | .lineStuck => 0x07#8
  | .learnDone _ _ _ _ => 0x08#8
  | .learnFail _ => 0x09#8
  | .txDone _ _ => 0x0A#8
  | .txAbort _ _ _ => 0x0B#8
  | .overrun _ => 0x0C#8

/-- The code of a RELEASE reason (R196). -/
def ReleaseReason.code : ReleaseReason → Byte
  | .timeout => 1#8
  | .retrigger => 2#8
  | .superseded => 3#8
  | .group => 4#8
  | .entryChanged => 5#8
  | .learn => 6#8
  | .flush => 7#8
  | .disable => 8#8

/-- The code of an UNDECODED failure reason (R196). -/
def FailReason.code : FailReason → Byte
  | .leader => 1#8
  | .symbol => 2#8
  | .cell => 3#8
  | .trailing => 4#8
  | .length => 5#8
  | .noProfile => 6#8

/-- The code of a LEARN_FAIL reason (R196). -/
def LearnFailReason.code : LearnFailReason → Byte
  | .timeout => 1#8
  | .mismatch => 2#8
  | .channelOff => 3#8

/-- The code of a TX_ABORT reason (R196). -/
def TxAbortReason.code : TxAbortReason → Byte
  | .host => 1#8
  | .purged => 2#8
  | .sourceGone => 3#8

/-- The code of a KEY frame kind (R196). -/
def FrameKind.code : FrameKind → Byte
  | .full => 0#8
  | .repeated => 1#8

/-- An optional toggle as a byte; 0 where absent (R196). -/
def toggleByte (t : Option Bool) : Byte := boolByte (t.getD false)

/-- The eight bytes of a payload. -/
def payloadBytes (x : Payload) : List Byte :=
  [byteOf x 0, byteOf x 1, byteOf x 2, byteOf x 3, byteOf x 4, byteOf x 5, byteOf x 6, byteOf x 7]

/-- The presence byte of a record: bit 0 toggle, bit 1 handle, bit 2 existing entry (R196). -/
def EventBody.presence : EventBody → Byte
  | .press _ _ _ t | .key _ _ _ _ _ t | .unknown _ _ _ t => boolByte t.isSome
  | .undecoded _ _ h => if h.isSome then 2#8 else 0#8
  | .learnDone _ _ _ e => if e.isSome then 4#8 else 0#8
  | .hold _ _ _ | .release _ _ _ _ _ | .lineStuck | .learnFail _ | .txDone _ _ | .txAbort _ _ _ | .overrun _ => 0#8

/-- Bytes 9 onward of a record, by kind; the bytes after them are 0 (R196). -/
def EventBody.bytes : EventBody → List Byte
  | .press e k a t => [natByte e.val, k, boolByte a, toggleByte t]
  | .hold e k n => [natByte e.val, k, byteOf n 0, byteOf n 1]
  | .release e k n r h => [natByte e.val, k, byteOf n 0, byteOf n 1, r.code, byteOf h 0, byteOf h 1]
  | .key e k n f a t => [natByte e.val, k, byteOf n 0, byteOf n 1, f.code, boolByte a, toggleByte t]
  | .unknown p c x t => [natByte p.val, natByte c] ++ payloadBytes x ++ [toggleByte t]
  | .undecoded n r h => [natByte n, r.code, match h with
      | some x => natByte x.val
      | none => 0]
  | .lineStuck => []
  | .learnDone p c x e => [natByte p.val, natByte c] ++ payloadBytes x ++ [match e with
      | some i => natByte i.val
      | none => 0]
  | .learnFail r => [r.code]
  | .txDone t n => [t, byteOf n 0, byteOf n 1]
  | .txAbort t n r => [t, byteOf n 0, byteOf n 1, r.code]
  | .overrun n => [byteOf n 0, byteOf n 1]

/-- The bytes of a record in the event window, byte 0 first (R196). -/
def EventRecord.bytes (x : EventRecord) : List Byte :=
  [byteOf x.seq 0, byteOf x.seq 1, x.body.kind, x.source, byteOf x.stamp 0, byteOf x.stamp 1, byteOf x.stamp 2,
   byteOf x.stamp 3, x.body.presence] ++ x.body.bytes

/-- Byte `i` of the event window: of the head record, or 0 where the queue is empty, kind NONE included (R156, R196). -/
def EventQueue.windowByte (q : EventQueue) (i : Nat) : Byte :=
  match q.records with
  | [] => 0
  | x :: _ => (x.bytes[i]?).getD 0

/-! ## The read-only window spaces (R195) -/

/-- The eighteen counters of a channel, in the order of the COUNTERS space (R195). -/
def State.channelCounters (s : State) (c : Channel) : List Half :=
  let l := (s.lcu c).counters
  let d := s.sdc.counter c
  let m := s.mu.counter c
  [l.burstsClosed, l.glitches, l.tooLong, l.storeFull, l.noDescriptor, l.blankAbandoned, l.stuckEpisodes,
   d.fullFrames, d.repeatFrames, d.undecodable, d.stale, d.notRetained,
   m.hits, m.ambiguous, m.unmatched, m.unconfirmed, m.orphanRepeats, m.unreportedPresses]

/-- The element at a position of a burst: slot p mod 16 of the block at place p div 16 (R26). -/
def PulseStore.elementAt (p : PulseStore) (d : Descriptor) (position : Nat) : Half :=
  match d.blocks[position / Config.slotsPerBlock]? with
  | some b => Memory.read p.slots (slotAddress b (position % Config.slotsPerBlock))
  | none => 0

/-- The element durations of a burst by position (R26). -/
def PulseStore.elements (p : PulseStore) (d : Descriptor) : List Half := (List.range d.count).map (p.elementAt d)

/-- Byte `i` of the BURST space of a handle: 0 everywhere unless the descriptor is RETAINED (R44, R195). -/
def PulseStore.burstByte (p : PulseStore) (h : Handle) (i : Nat) : Byte :=
  let d := p.descriptor h
  if d.state = .retained then
    if i < 12 then
      (([channelByte d.channel, natByte d.count, byteOf d.openTime 0, byteOf d.openTime 1, byteOf d.openTime 2,
        byteOf d.openTime 3, byteOf d.closeTime 0, byteOf d.closeTime 1, byteOf d.closeTime 2, byteOf d.closeTime 3,
        boolByte d.hostHold, natByte d.transmitHolds])[i]?).getD 0
    else if (i - 12) / 2 < d.count then byteOf (p.elementAt d ((i - 12) / 2)) (i % 2)
    else 0
  else 0

/-- The code of a session state (R195, R197). -/
def LearnState.code : LearnState → Byte
  | .idle => 0#8
  | .listening => 1#8
  | .confirming => 2#8
  | .done => 3#8

/-- The bytes of the LEARN space (R144, R195). -/
def LearnSession.bytes (x : LearnSession) : List Byte :=
  [x.state.code, channelByte x.channel, natByte x.k, natByte (x.remaining % 256), natByte (x.remaining / 256),
   natByte x.matchCount, natByte x.mismatches]
  ++ match x.result with
    | none => List.replicate 21 0
    | some r => [channelByte r.channel, natByte r.profile.val, natByte r.bits] ++ payloadBytes r.payload
        ++ payloadBytes r.mask ++ [if r.existing.isSome then 4#8 else 0#8, match r.existing with
          | some i => natByte i.val
          | none => 0]

end Sys2Proof.Machine
end

