-- ==== Sys2Proof/Machine/Flags.lean ====
section
/-! DEFINITION. The flags and conditions that are computed from the state: the interrupt conditions and the IRQ pin (R160 to
R163), the transmit pins (R178), the status bytes (R191, R197) and what every register of the window reads. -/

namespace Sys2Proof.Machine

/-- The accepted level is active under the polarity (R3, R5). -/
def Lcu.isActive (l : Lcu) : Bool :=
  match l.settings.polarity with
  | .activeLow => !l.level
  | .activeHigh => l.level

/-- The number of records in the event queue (R148). -/
def EventQueue.occupancy (q : EventQueue) : Nat := q.records.length

/-- EV_LEVEL: the occupancy is at or above the threshold (R160). -/
def EventQueue.evLevel (q : EventQueue) : Bool := decide (q.threshold.toNat ≤ q.occupancy)

/-- The head has been in the queue for at least the age limit, and the limit is not 0 (R161). -/
def EventQueue.headAged (q : EventQueue) (now : Time) : Bool :=
  match q.records with
  | [] => false
  | x :: _ => q.ageLimit != 0 && decide (q.ageLimit.toNat * 1000 ≤ elapsed x.admitted now)

/-- EV_AGE is judged again (R161). -/
def EventQueue.rejudgeAge (q : EventQueue) (now : Time) : EventQueue := { q with evAge := q.headAged now }

/-- The IRQ output is active, that is low (R163, R204). -/
def State.irqActive (s : State) : Bool :=
  (s.evq.evLevel && s.bcu.enableLevel) || (s.evq.evAge && s.bcu.enableAge) || (s.bcu.cmdDone && s.bcu.enableDone)

/-- The active units of a carrier cycle (R178). -/
def Duty.activeUnits : Duty → Nat → Nat
  | .quarter, p => p / 4
  | .third, p => p / 3
  | .half, p => p / 2

/-- The pin of an engine in unit `unit` (of 125 ns, 0 to 7) of the present microsecond: true is active, that is high. A mark
is a train of carrier cycles from its start, or steady with carrier 0; everything else is at rest (R170, R178). -/
def Engine.pin (e : Engine) (now : Time) (unit : Nat) : Bool :=
  match e.state, e.request, e.elements with
  | .frame, some r, x :: _ =>
    let us := elapsed e.elementStart now
    x.mark && decide (us < x.duration)
      && (r.carrier == 0 || decide ((us * 8 + unit) % r.carrier.toNat < r.duty.activeUnits r.carrier.toNat))
  | _, _, _ => false

/-- The pin TX`o` in unit `unit` of the present microsecond. -/
def State.txPin (s : State) (o : Output) (unit : Nat) : Bool := (s.txe.engine o).pin s.now unit

/-! ## Status bytes (R197) -/

/-- The code of a capture state (R197). -/
def CaptureState.code : CaptureState → Nat
  | .disabled => 0
  | .idle => 1
  | .opened => 2
  | .discard => 3
  | .stuck => 4
  | .blanked => 5

/-- CHAN_STATUS of a channel (R23, R197). -/
def Lcu.statusByte (l : Lcu) : Byte := natByte (l.capture.code + 8 * l.blankCount + 32 * l.isActive.toNat)

/-- The code of an engine state (R197). -/
def EngineState.code : EngineState → Nat
  | .idle => 0
  | .frame => 1
  | .gap => 2
  | .tail => 3

/-- TX_STATUS (R187, R197). -/
def Transmit.statusByte (t : Transmit) : Byte := natByte ((t.engine 0).state.code + 4 * (t.engine 1).state.code)

/-- The code of a command state (R197). -/
def CmdState.code : CmdState → Nat
  | .idle => 0
  | .busy => 1
  | .done => 2
  | .error => 3

/-- CMD_STATUS (R191). -/
def Bcu.statusByte (b : Bcu) : Byte := natByte (b.cmdState.code + 4 * b.collision.toNat + 8 * b.cmdDone.toNat)

/-- EVENT_STATUS (R159, R191). -/
def EventQueue.statusByte (q : EventQueue) : Byte :=
  natByte (q.evLevel.toNat + 2 * q.evAge.toNat + 4 * q.overrunPending.toNat)

/-- IRQ_ENABLE; bits 7:3 read 0 (R204). -/
def Bcu.enableByte (b : Bcu) : Byte := natByte (b.enableLevel.toNat + 2 * b.enableAge.toNat + 4 * b.enableDone.toNat)

/-- The number of FREE descriptors (R45). -/
def PulseStore.freeDescriptors (p : PulseStore) : Nat :=
  ((List.finRange 16).filter fun h => (p.descriptor h).state == .free).length

/-- The number of RETAINED descriptors (R39). -/
def PulseStore.retainedDescriptors (p : PulseStore) : Nat :=
  ((List.finRange 16).filter fun h => (p.descriptor h).state == .retained).length

/-! ## The window spaces through WIN_DATA (R192, R193) -/

/-- The length of the selected space; 0 where the number selects none (R192). -/
def spaceLength (space : Byte) : Nat :=
  match space.toNat with
  | 0 => 10
  | 1 => 23
  | 2 => 25
  | 3 => 21
  | 4 => 36
  | 5 => 522
  | 6 => 28
  | _ => 0

/-- The counter that an offset of the COUNTERS space lies in, where the index names a channel (R195). -/
def State.selectedCounter (s : State) : Option Half :=
  match channelOf s.bcu.winIndex with
  | some c => (s.channelCounters c)[s.bcu.winOffset / 2]?
  | none => none

/-- What a read of WIN_DATA returns (R193, R195); 0 at the length. -/
def State.windowByte (s : State) : Byte :=
  let i := s.bcu.winOffset
  if i < spaceLength s.bcu.winSpace then
    match s.bcu.winSpace.toNat with
    | 0 => (s.bcu.channelStaging[i]?).getD 0
    | 1 => (s.bcu.profileStaging[i]?).getD 0
    | 2 => (s.bcu.entryStaging[i]?).getD 0
    | 3 => (s.bcu.transmitStaging[i]?).getD 0
    | 4 =>
      match s.selectedCounter with
      | some n => if i % 2 = 0 then byteOf n 0 else byteOf s.bcu.counterCapture 1
      | none => 0
    | 5 =>
      match handleOf s.bcu.winIndex with
      | some h => s.pst.burstByte h i
      | none => 0
    | 6 => (s.mu.learn.bytes[i]?).getD 0
    | _ => 0
  else 0

/-! ## The register map (R191) -/

/-- The byte a read of a register returns, as the state stands when the read is taken; addresses not in the map read 0
(R191). The read's own side effects are TIME_LATCH_READ and WIN_DATA_READ. -/
def State.readRegister (s : State) (a : BitVec 6) : Byte :=
  match a.toNat with
  | 0x00 => s.bcu.opcode
  | 0x01 => s.bcu.statusByte
  | 0x02 => s.bcu.error
  | 0x03 => s.bcu.result
  | 0x04 => s.bcu.args.arg0
  | 0x05 => s.bcu.args.arg1
  | 0x06 => s.bcu.args.arg2
  | 0x07 => s.bcu.args.arg3
  | 0x08 => s.bcu.enableByte
  | 0x09 => s.evq.statusByte
  | 0x0A => natByte s.evq.occupancy
  | 0x0B => s.evq.threshold
  | 0x0C => s.evq.ageLimit
  | 0x24 => byteOf s.now 0
  | 0x25 => byteOf s.bcu.timeLatch 1
  | 0x26 => byteOf s.bcu.timeLatch 2
  | 0x27 => byteOf s.bcu.timeLatch 3
  | 0x28 => (s.lcu 0).statusByte
  | 0x29 => (s.lcu 1).statusByte
  | 0x2A => (s.lcu 2).statusByte
  | 0x2B => (s.lcu 3).statusByte
  | 0x2C => s.mu.learn.state.code
  | 0x2D => s.txe.statusByte
  | 0x2E => natByte s.txe.queue.length
  | 0x2F => natByte s.pst.freeBlocks.length
  | 0x30 => natByte s.pst.freeDescriptors
  | 0x31 => s.bcu.winSpace
  | 0x32 => s.bcu.winIndex
  | 0x33 => natByte (s.bcu.winOffset % 256)
  | 0x34 => natByte (s.bcu.winOffset / 256)
  | 0x35 => s.windowByte
  | n => if 0x10 ≤ n ∧ n ≤ 0x23 then s.evq.windowByte (n - 0x10) else 0

end Sys2Proof.Machine
end

