-- ==== Sys2Proof/Machine/Capture.lean ====
section
/-! DEFINITION. The Line Capture Units: the line and the glitch filter (R5, R6), the capture state machine (R7 to R15) and the
blank claims (R16 to R18). -/

namespace Sys2Proof.Machine

/-! ## The line and the glitch filter -/

/-- What a sample asks of an LCU (R5, R6). -/
inductive LineAction where
  | start | cancel | accept
  deriving DecidableEq, Repr

/-- What a sample asks of the LCU as it stands: nothing, or one of three events. -/
def Lcu.lineAction (l : Lcu) (x : Sample) : Option LineAction :=
  match l.change with
  | none => if x.level = l.level then none else some .start
  | some edge =>
    if x.level = l.level then some .cancel
    else if l.settings.glitchMin.toNat ≤ elapsed edge x.time then some .accept
    else none

/-- Samples that ask for nothing leave the LCU's list (log 7). -/
def Lcu.settle (l : Lcu) : Lcu := { l with samples := l.samples.dropWhile fun x => (l.lineAction x).isNone }

/-- The sample whose event is next, with what it asks for. -/
def Lcu.nextAction (l : Lcu) : Option (LineAction × Sample) :=
  match l.samples with
  | [] => none
  | x :: _ => (l.lineAction x).map fun a => (a, x)

/-- A sample arrives: the first one after RESET gives the accepted level, every later one waits for its event (R5). -/
def Lcu.takeSample (l : Lcu) (x : Sample) : Lcu :=
  if l.sampled then { l with samples := l.samples ++ [x] }.settle else { l with sampled := true, level := x.level }

/-! ## Intervals (R7) -/

/-- Up to when the LCU knows the line to have stood in its accepted level: the edge time of a pending change, the time of a
sample that starts one, or now (R7). -/
def Lcu.steadyUntil (l : Lcu) (now : Time) : Time :=
  match l.change with
  | some edge => edge
  | none =>
    match l.samples with
    | x :: _ => x.time
    | [] => now

/-- The moment from which the present level is timed: the start of the element in progress in OPEN, the measuring start in
DISCARD (R13, R15); no other state times a level. -/
def Lcu.timedFrom (l : Lcu) : Option Time :=
  match l.capture with
  | .opened => some l.elementStart
  | .discard => l.measuringStart
  | .disabled | .idle | .stuck | .blanked => none

/-- A level has reached its interval by the moment `upTo`: the stuck limit for a mark, unless it is 0, the end gap for rest
(R7). -/
def Lcu.intervalReached (l : Lcu) (upTo now : Time) : Bool :=
  match l.timedFrom with
  | none => false
  | some start =>
    if l.isActive then
      l.settings.stuckLimit != 0 && decide (l.settings.stuckLimit.toNat * 1000 ≤ heldFor start upTo now)
    else decide (l.settings.endGap.toNat ≤ heldFor start upTo now)

/-- The expiry of an interval is due: no earlier pending change holds it back (R7). -/
def Lcu.expiryDue (l : Lcu) (now : Time) : Bool := l.intervalReached (l.steadyUntil now) now

/-! ## Leaving OPEN (R8, R10 to R13) -/

/-- The channel goes to DISCARD with a measuring start (R15). -/
def Lcu.toDiscard (l : Lcu) (measuringStart : Time) : Lcu :=
  { l with capture := .discard, measuringStart := some measuringStart }

/-- An open burst is abandoned: the abandon request is sent, the handle and the count are forgotten (R8). -/
def Lcu.abandonBurst (l : Lcu) : Lcu :=
  match l.handle with
  | none => { l with count := 0 }
  | some h => { l with toStore := l.toStore.push (.abandon h), handle := none, count := 0 }

/-- The burst closes: the close request is sent with the end of the last mark, and the channel goes to IDLE (R12). -/
def Lcu.closeBurst (l : Lcu) : Lcu :=
  match l.handle with
  | none => { l with capture := .idle }
  | some h =>
    { l with
      toStore := l.toStore.push (.close h l.elementStart), capture := .idle, handle := none, count := 0
      measuringStart := some l.elementStart
      counters := { l.counters with burstsClosed := bump l.counters.burstsClosed } }

/-- Rest in DISCARD has reached the end gap (R15). -/
def Lcu.toIdle (l : Lcu) : Lcu := { l with capture := .idle }

/-- A mark has reached the stuck limit (R13): abandon, STUCK, count, LINE_STUCK with the moment the limit was reached. -/
def Lcu.goStuck (l : Lcu) (c : Channel) : Lcu :=
  match l.timedFrom with
  | none => l
  | some start =>
    let a := l.abandonBurst
    let b := { a with
      capture := .stuck, measuringStart := some start
      counters := { a.counters with stuckEpisodes := bump a.counters.stuckEpisodes } }
    if l.settings.reportStuck then
      { b with toQueue := b.toQueue.push
                { source := channelByte c, stamp := start + msToTime l.settings.stuckLimit.toNat, body := .lineStuck } }
    else b

/-- The transition that belongs to an interval that has been reached (R12, R13, R15). -/
def Lcu.takeExpiry (l : Lcu) (c : Channel) : Lcu :=
  if l.isActive then l.goStuck c
  else
    match l.capture with
    | .opened => l.closeBurst
    | .discard => l.toIdle
    | .disabled | .idle | .stuck | .blanked => l

/-! ## Accepted edges (R9 to R11, R14, R15) -/

/-- In OPEN an accepted edge ends the element in progress: the limit check of R11, then the write of R10. -/
def Lcu.endElement (l : Lcu) (edge accepted : Time) : Lcu :=
  if l.settings.elementLimit.toNat < l.count + 1 then
    let a := l.abandonBurst
    ({ a with counters := { a.counters with tooLong := bump a.counters.tooLong } }).toDiscard accepted
  else
    match l.handle with
    | none => l
    | some h =>
      { l with
        waiting := some (.write edge)
        toStore := l.toStore.push (.write h l.count (clipDuration (elapsed l.elementStart edge))) }

/-- An accepted mark in IDLE asks the store for a descriptor; IDLE is left at the moment of the request, and the capture state
reads OPEN, without a handle, until the answer is taken (R9): DESIGN CHOICE (log 9), unsafe. -/
def Lcu.requestDescriptor (l : Lcu) (edge : Time) : Lcu :=
  { l with capture := .opened, waiting := some (.descriptor edge), toStore := l.toStore.push (.descriptor edge) }

/-- The capture state machine handles an accepted edge; `l` has the new level. `accepted` is the moment of acceptance. -/
def Lcu.handleEdge (l : Lcu) (edge accepted now : Time) : Lcu :=
  match l.capture with
  | .idle =>
    if l.isActive then l.requestDescriptor edge else l
  | .opened => l.endElement edge accepted
  | .discard =>
    { l with measuringStart := some (match l.measuringStart with
        | some m => later now m edge
        | none => edge) }
  | .stuck => if l.isActive then l else l.toDiscard accepted
  | .disabled | .blanked => l

/-- The pending change is accepted: the level changes and the capture state machine handles the edge (R6). -/
def Lcu.acceptChange (l : Lcu) (edge accepted now : Time) : Lcu :=
  ({ l with level := !l.level, change := none }).handleEdge edge accepted now

/-- A cancelled change is counted in IDLE, OPEN, DISCARD and STUCK (R6). -/
def Lcu.countGlitch (l : Lcu) : Lcu :=
  match l.capture with
  | .idle | .opened | .discard | .stuck => { l with counters := { l.counters with glitches := bump l.counters.glitches } }
  | .disabled | .blanked => l

/-! ## The events -/

/-- PENDING_CHANGE_START c (R5). -/
def execPendingChangeStart (c : Channel) (s : State) : Host.Outcome State Fault Refusal :=
  let l := s.lcu c
  match l.waiting, l.nextAction with
  | none, some (.start, x) => .next (s.setLcu c { l with change := some x.time }.settle)
  | _, _ => .next s

/-- PENDING_CHANGE_CANCEL c (R6); an interval that the change held back has been reached, and its transition is taken here
(R7). -/
def execPendingChangeCancel (c : Channel) (s : State) : Host.Outcome State Fault Refusal :=
  let l := s.lcu c
  match l.waiting, l.nextAction with
  | none, some (.cancel, x) =>
    let a := { l with change := none }.countGlitch
    let b := if a.intervalReached x.time s.now then a.takeExpiry c else a
    .next (s.setLcu c b.settle)
  | _, _ => .next s

/-- ACCEPTED_EDGE c (R6, R9 to R11, R14, R15). An interval that was reached before the change began is taken first (R7,
log 10). -/
def execAcceptedEdge (c : Channel) (s : State) : Host.Outcome State Fault Refusal :=
  let l := s.lcu c
  match l.waiting, l.nextAction, l.change with
  | none, some (.accept, x), some edge =>
    if l.expiryDue s.now then .next s else .next (s.setLcu c (l.acceptChange edge x.time s.now).settle)
  | _, _, _ => .next s

/-- DESCRIPTOR_ANSWER c (R9). -/
def execDescriptorAnswer (c : Channel) (s : State) : Host.Outcome State Fault Refusal :=
  let l := s.lcu c
  let a := { l with waiting := none, answer := none }
  match l.waiting, l.answer with
  | some (.descriptor edge), some (.granted h) =>
    .next (s.setLcu c
      { a with capture := .opened, handle := some h, count := 0, elementStart := edge, measuringStart := none })
  | some (.descriptor _), some .noDescriptor =>
    .next (s.setLcu c
      (({ a with counters := { a.counters with noDescriptor := bump a.counters.noDescriptor } }).toDiscard s.now))
  | _, _ => .next s

/-- WRITE_ANSWER c (R10). -/
def execWriteAnswer (c : Channel) (s : State) : Host.Outcome State Fault Refusal :=
  let l := s.lcu c
  let a := { l with waiting := none, answer := none }
  match l.waiting, l.answer with
  | some (.write edge), some .taken => .next (s.setLcu c { a with count := l.count + 1, elementStart := edge })
  | some (.write _), some .noBlock =>
    let b := a.abandonBurst
    .next (s.setLcu c
      (({ b with counters := { b.counters with storeFull := bump b.counters.storeFull } }).toDiscard s.now))
  | _, _ => .next s

/-- END_GAP_EXPIRY c (R12). -/
def execEndGapExpiry (c : Channel) (s : State) : Host.Outcome State Fault Refusal :=
  let l := s.lcu c
  if l.waiting.isNone && l.capture == .opened && !l.isActive && l.expiryDue s.now then .next (s.setLcu c l.closeBurst)
  else .next s

/-- DISCARD_END_GAP_EXPIRY c (R15). -/
def execDiscardEndGapExpiry (c : Channel) (s : State) : Host.Outcome State Fault Refusal :=
  let l := s.lcu c
  if l.waiting.isNone && l.capture == .discard && !l.isActive && l.expiryDue s.now then .next (s.setLcu c l.toIdle)
  else .next s

/-- STUCK_LIMIT_EXPIRY c (R13). -/
def execStuckLimitExpiry (c : Channel) (s : State) : Host.Outcome State Fault Refusal :=
  let l := s.lcu c
  if l.waiting.isNone && l.isActive && l.expiryDue s.now then .next (s.setLcu c (l.goStuck c)) else .next s

/-! ## Blank claims (R16, R17) -/

/-- The claims and drops of an output that the LCU has not taken. -/
def Lcu.claimsOf (l : Lcu) (o : Output) : List ClaimMsg := l.claims[o.val]

/-- Replaces the claims and drops of an output. -/
def Lcu.setClaims (l : Lcu) (o : Output) (ms : List ClaimMsg) : Lcu := { l with claims := l.claims.set o.val ms }

/-- The blank count goes up by 1 and never above 2; from 0 to 1 an enabled channel goes to BLANKED, and an open burst is
abandoned and counted (R16). -/
def Lcu.takeClaim (l : Lcu) : Lcu :=
  let a := { l with blankCount := min (l.blankCount + 1) 2 }
  if l.blankCount = 0 then
    match l.capture with
    | .disabled => a
    | .opened =>
      let b := a.abandonBurst
      { b with capture := .blanked, measuringStart := none
               counters := { b.counters with blankAbandoned := bump b.counters.blankAbandoned } }
    | .idle | .discard | .stuck | .blanked => { a with capture := .blanked, measuringStart := none }
  else a

/-- The blank count goes down by 1 and never below 0; from 1 to 0 a BLANKED channel goes to DISCARD (R17). -/
def Lcu.takeDrop (l : Lcu) (now : Time) : Lcu :=
  let a := { l with blankCount := l.blankCount - 1 }
  if l.blankCount = 1 ∧ l.capture = .blanked then a.toDiscard now else a

/-- BLANK_CLAIM o c (R16). -/
def execBlankClaim (o : Output) (c : Channel) (s : State) : Host.Outcome State Fault Refusal :=
  let l := s.lcu c
  match l.waiting, l.claimsOf o with
  | none, .claim :: rest => .next (s.setLcu c ((l.setClaims o rest).takeClaim))
  | _, _ => .next s

/-- CLAIM_DROP o c (R17). -/
def execClaimDrop (o : Output) (c : Channel) (s : State) : Host.Outcome State Fault Refusal :=
  let l := s.lcu c
  match l.waiting, l.claimsOf o with
  | none, .drop :: rest => .next (s.setLcu c ((l.setClaims o rest).takeDrop s.now))
  | _, _ => .next s

end Sys2Proof.Machine
end

