-- ==== Sys2Proof/Machine/Keys.lean ====
section
/-! DEFINITION. Key records (Chapter 5): creation, refresh, confirmation, removal, group exclusivity, expiry and repeat notices,
as operations on the Match Unit. Times and settings of other blocks come in as arguments. -/

namespace Sys2Proof.Machine

/-- The Match Unit sends an append (R114). -/
def MatchUnit.send (m : MatchUnit) (a : Append) : MatchUnit := { m with toQueue := m.toQueue.push a }

/-- Changes the Match Unit's counters of a channel. -/
def MatchUnit.count (m : MatchUnit) (c : Channel) (f : MatchCounters → MatchCounters) : MatchUnit :=
  m.setCounter c (f (m.counter c))

/-! ## Removal (R115, R116) -/

/-- The held time of a RELEASE: whole milliseconds from creation to the time stamp, at most 65,535, and 65,535 once the
record's field has reached it (R115). -/
def KeyRecord.heldTime (r : KeyRecord) (stamp : Time) : Half :=
  if r.heldMs = 65535#16 then r.heldMs else clipDuration (elapsed r.created stamp / 1000)

/-- The RELEASE of a record (R112, R115). -/
def KeyRecord.release (r : KeyRecord) (c : Channel) (reason : ReleaseReason) (stamp : Time) : Append :=
  { source := channelByte c, stamp := stamp, body := .release r.entry r.keyId r.repeats reason (r.heldTime stamp) }

/-- The channel's record is removed; a reported record sends its RELEASE (R115). -/
def MatchUnit.removeKey (m : MatchUnit) (c : Channel) (reason : ReleaseReason) (stamp : Time) : MatchUnit :=
  match m.key c with
  | none => m
  | some r => if r.reported then (m.send (r.release c reason stamp)).setKey c none else m.setKey c none

/-- A PENDING record that is removed by expiry, retrigger or supersede is counted as unconfirmed (R125). -/
def MatchUnit.countUnconfirmed (m : MatchUnit) (c : Channel) : MatchUnit :=
  match m.key c with
  | some r =>
    if r.state = .pending then m.count c fun x => { x with unconfirmed := bump x.unconfirmed } else m
  | none => m

/-- Removes the channel's record if it refers to a given entry (R86). -/
def MatchUnit.removeIfEntry (m : MatchUnit) (i : EntryNo) (stamp : Time) (c : Channel) : MatchUnit :=
  match m.key c with
  | some r => if r.entry = i then m.removeKey c .entryChanged stamp else m
  | none => m

/-- Removes every key record that refers to entry `i` (R86), in ascending channel order: DESIGN CHOICE (log 37), unsafe. -/
def MatchUnit.entryChanged (m : MatchUnit) (i : EntryNo) (stamp : Time) : MatchUnit :=
  allChannels.foldl (fun m c => m.removeIfEntry i stamp c) m

/-- Removes every key record, in ascending channel order (R88). -/
def MatchUnit.tableCleared (m : MatchUnit) (stamp : Time) : MatchUnit :=
  allChannels.foldl (fun m c => m.removeKey c .entryChanged stamp) m

/-! ## Group exclusivity (R119) -/

/-- Removes the record of one other channel if it is of the group (R119). -/
def MatchUnit.excludeOne (m : MatchUnit) (c : Channel) (g : Nat) (now : Time) (other : Channel) : MatchUnit :=
  if other = c then m
  else
    match m.key other with
    | some r => if r.group = g then m.removeKey other .group now else m
    | none => m

/-- Removes every record of group `g` on the other channels, in ascending channel order; group 0 is no group (R119). -/
def MatchUnit.excludeGroup (m : MatchUnit) (c : Channel) (g : Nat) (now : Time) : MatchUnit :=
  if g = 0 then m else allChannels.foldl (fun m other => m.excludeOne c g now other) m

/-! ## What a frame brings -/

/-- A frame that reaches a channel's record (section 5.2): its kind, its toggle, its lookup's AMBIGUOUS flag and its time
stamp; the moment it is taken and the deadline it gives (R108). -/
structure FrameArrival where
  kind : FrameKind
  toggle : Option Bool
  ambiguous : Bool
  stamp : Time
  now : Time
  deadline : Time
  deriving DecidableEq, Repr

/-- The deadline of a frame taken now: the hold window in microseconds later (R108). -/
def deadlineOf (now : Time) (holdWindow : Half) : Time := now + msToTime holdWindow.toNat

/-! ## PRESSED, HOLD, KEY (R109 to R112) -/

/-- A record reaches PRESSED: state and repeat count, then group exclusivity, then the PRESS is requested and the Match Unit
waits for its answer (R109, R113). -/
def MatchUnit.reachPressed (m : MatchUnit) (c : Channel) (r : KeyRecord) (f : FrameArrival) : MatchUnit :=
  let pressed := { r with state := .pressed, repeats := 0 }
  let a := (m.setKey c (some pressed)).excludeGroup c r.group f.now
  { a.send { source := channelByte c, stamp := f.stamp, body := .press r.entry r.keyId r.ambiguous r.toggle } with
    awaiting := some c }

/-- The confirm count has been reached (R109) or not. -/
def MatchUnit.confirm (m : MatchUnit) (c : Channel) (r : KeyRecord) (f : FrameArrival) : MatchUnit :=
  if r.confirm ≤ r.confirmations then m.reachPressed c r f else m.setKey c (some r)

/-- The KEY record of a TRACKING record (R112). -/
def KeyRecord.keyAppend (r : KeyRecord) (c : Channel) (f : FrameArrival) : Append :=
  { source := channelByte c, stamp := f.stamp
    body := match f.kind with
      | .full => .key r.entry r.keyId r.repeats .full f.ambiguous f.toggle
      | .repeated => .key r.entry r.keyId r.repeats .repeated r.ambiguous none }

/-- The record a frame of entry `e` creates (R106, R107). R107 gives a TRACKING record no confirmations; it holds 1 there:
DESIGN CHOICE (log 42), unsafe. -/
def KeyRecord.create (i : EntryNo) (e : Entry) (f : FrameArrival) : KeyRecord :=
  { entry := i, keyId := e.keyId, group := e.group, mode := e.mode, confirm := e.confirm, holdInterval := e.holdInterval
    state := match e.mode with
      | .edge => .pending
      | .every => .tracking
    confirmations := 1, repeats := 0, toggle := f.toggle, ambiguous := f.ambiguous, reported := false
    created := f.stamp, heldMs := 0, deadline := f.deadline }

/-- A frame creates a record on a channel that has none (R106, R107). -/
def MatchUnit.createKey (m : MatchUnit) (c : Channel) (i : EntryNo) (e : Entry) (f : FrameArrival) : MatchUnit :=
  let r := KeyRecord.create i e f
  match e.mode with
  | .edge => m.confirm c r f
  | .every => ((m.setKey c (some r)).excludeGroup c r.group f.now).send (r.keyAppend c f)

/-- A refresh (R108 to R111). -/
def MatchUnit.refreshKey (m : MatchUnit) (c : Channel) (r : KeyRecord) (f : FrameArrival) : MatchUnit :=
  let r := { r with deadline := f.deadline }
  match r.state with
  | .pending => m.confirm c { r with confirmations := r.confirmations + 1 } f
  | .pressed =>
    let n := { r with repeats := bump r.repeats }
    let a := m.setKey c (some n)
    if r.repeats ≠ 65535#16 ∧ 0 < r.holdInterval ∧ n.repeats.toNat % r.holdInterval = 0 ∧ r.reported then
      a.send { source := channelByte c, stamp := f.stamp, body := .hold r.entry r.keyId n.repeats }
    else a
  | .tracking =>
    let n := { r with repeats := bump r.repeats }
    (m.setKey c (some n)).send (n.keyAppend c f)

/-- A winning entry reaches the channel's record: creation, refresh, retrigger or supersede (R105, R117, R118). -/
def MatchUnit.winningFrame (m : MatchUnit) (c : Channel) (i : EntryNo) (f : FrameArrival) : MatchUnit :=
  match m.key c with
  | none => m.createKey c i (m.entry i) f
  | some r =>
    if r.entry = i then
      if r.toggle = f.toggle then m.refreshKey c r f
      else ((m.countUnconfirmed c).removeKey c .retrigger f.stamp).createKey c i (m.entry i) f
    else ((m.countUnconfirmed c).removeKey c .superseded f.stamp).createKey c i (m.entry i) f

/-- A repeat notice on a channel that is not diverted: it refreshes the record of its profile, or is an orphan (R120). -/
def MatchUnit.takeNotice (m : MatchUnit) (n : Notice) (f : FrameArrival) : MatchUnit :=
  let orphan := m.count n.channel fun x => { x with orphanRepeats := bump x.orphanRepeats }
  match m.key n.channel with
  | some r => if (m.entry r.entry).profile = n.profile then m.refreshKey n.channel r f else orphan
  | none => orphan

/-- A record expires: removed, a reported one with RELEASE TIMEOUT at the deadline, a PENDING one counted (R121). -/
def MatchUnit.expire (m : MatchUnit) (c : Channel) (deadline : Time) : MatchUnit :=
  (m.countUnconfirmed c).removeKey c .timeout deadline

/-- The Event Queue's answer to a PRESS (R113). -/
def MatchUnit.pressAnswered (m : MatchUnit) (c : Channel) (admitted : Bool) : MatchUnit :=
  let a := { m with awaiting := none, answer := none }
  if admitted then
    match a.key c with
    | some r => a.setKey c (some { r with reported := true })
    | none => a
  else a.count c fun x => { x with unreportedPresses := bump x.unreportedPresses }

/-- The held time of every record increases at a 1 ms tick, up to 65,535 (R115). -/
def MatchUnit.tickHeld (m : MatchUnit) : MatchUnit :=
  { m with keys := m.keys.map fun k => k.map fun r => { r with heldMs := bump r.heldMs } }

/-! ## The events of Chapter 5 that touch key records alone -/

/-- PRESS_ANSWER (R113). -/
def execPressAnswer (s : State) : Host.Outcome State Fault Refusal :=
  match s.mu.awaiting, s.mu.answer with
  | some c, some admitted => .next (s.setMu (s.mu.pressAnswered c admitted))
  | _, _ => .next s

/-- EXPIRY c (R121). -/
def execExpiry (c : Channel) (s : State) : Host.Outcome State Fault Refusal :=
  match s.mu.key c with
  | some r => if s.matchReady && reached r.deadline s.now then .next (s.setMu (s.mu.expire c r.deadline)) else .next s
  | none => .next s

end Sys2Proof.Machine
end

