-- ==== Sys2Proof/Machine/Match.lean ====
section
/-! DEFINITION. The code table and its commands (Chapter 4), the learning session (Chapter 6), and the words and notices that
the Symbol Decoder hands the Match Unit (R91, R120, R133). -/

namespace Sys2Proof.Machine

/-! ## Lookup (R92, R93) -/

/-- An entry fits a word (R92). -/
def Entry.fits (e : Entry) (w : CodeWord) : Bool :=
  e.valid && e.profile == w.profile && e.bits == w.bits && e.channels.getLsbD w.channel.val
    && ((w.payload ^^^ e.pattern) &&& e.careMask) == 0

/-- The entries that fit a word, lowest index first (R93). -/
def MatchUnit.fitting (m : MatchUnit) (w : CodeWord) : List EntryNo := (List.finRange 128).filter fun i => (m.entry i).fits w

/-- A word is looked up: matched and ambiguous are counted and the lowest fitting entry reaches the key record (R93), or it
is unmatched, counted, and reported where the channel asks for it (R94, R95). -/
def MatchUnit.lookup (m : MatchUnit) (w : CodeWord) (reportUnknown : Bool) (now deadline : Time) : MatchUnit :=
  match m.fitting w with
  | [] =>
    let a := m.count w.channel fun x => { x with unmatched := bump x.unmatched }
    if reportUnknown then
      a.send { source := channelByte w.channel, stamp := w.stamp, body := .unknown w.profile w.bits w.payload w.toggle }
    else a
  | i :: others =>
    let ambiguous := !others.isEmpty
    let a := m.count w.channel fun x =>
      { x with hits := bump x.hits, ambiguous := if ambiguous then bump x.ambiguous else x.ambiguous }
    a.winningFrame w.channel i
      { kind := .full, toggle := w.toggle, ambiguous := ambiguous, stamp := w.stamp, now := now, deadline := deadline }

/-! ## The learning session (R129 to R145) -/

/-- The session ends: IDLE with every field at 0, and the divert is cleared (R129, R130). -/
def MatchUnit.endLearn (m : MatchUnit) : MatchUnit := { m with learn := .idle, divert := none }

/-- The session fails: LEARN_FAIL with its reason, and IDLE (R136 to R138, R143). -/
def MatchUnit.failLearn (m : MatchUnit) (reason : LearnFailReason) (stamp : Time) : MatchUnit :=
  m.endLearn.send { source := channelByte m.learn.channel, stamp := stamp, body := .learnFail reason }

/-- The session listens or confirms (R130). -/
def LearnSession.active (l : LearnSession) : Bool := l.state == .listening || l.state == .confirming

/-- The suggested mask: all ones below the bit count but for the toggle position (R135). -/
def suggestedMask (bits : Nat) (toggle : Option Nat) : Payload :=
  let ones := BitVec.ofNat 64 (2 ^ bits - 1)
  match toggle with
  | some t => ones &&& ~~~(BitVec.twoPow 64 t)
  | none => ones

/-- The final confirming word: result, existing entry, divert cleared, DONE, LEARN_DONE (R135). -/
def MatchUnit.learnDone (m : MatchUnit) (w : CodeWord) (candidate : Candidate) (toggle : Option Nat) (matchCount : Nat) : MatchUnit :=
  let probe : CodeWord := { channel := m.learn.channel, profile := candidate.profile, bits := candidate.bits
                            payload := candidate.payload, toggle := none, stamp := w.stamp }
  let existing := (m.fitting probe).head?
  let result : LearnResult := { channel := m.learn.channel, profile := candidate.profile, bits := candidate.bits
                                payload := candidate.payload, mask := suggestedMask candidate.bits toggle
                                existing := existing }
  { m with
    learn := { m.learn with state := .done, matchCount := matchCount, result := some result, expiredAt := none }
    divert := none }.send
      { source := channelByte m.learn.channel, stamp := w.stamp
        body := .learnDone candidate.profile candidate.bits candidate.payload existing }

/-- A word taken by the session (R134 to R136). -/
def MatchUnit.learnWord (m : MatchUnit) (w : CodeWord) (toggle : Option Nat) : MatchUnit :=
  let word : Candidate := { profile := w.profile, bits := w.bits, payload := w.payload }
  match m.learn.candidate with
  | none => { m with learn := { m.learn with candidate := some word, matchCount := 1, state := .confirming } }
  | some candidate =>
    if word = candidate then
      let n := m.learn.matchCount + 1
      if m.learn.k ≤ n then m.learnDone w candidate toggle n
      else { m with learn := { m.learn with matchCount := n } }
    else
      let n := m.learn.mismatches + 1
      if Config.mismatchLimit ≤ n then m.failLearn .mismatch w.stamp
      else { m with learn := { m.learn with candidate := some word, matchCount := 1, mismatches := n } }

/-- A LEARN_START that passed its checks (R132). -/
def MatchUnit.startLearn (m : MatchUnit) (c : Channel) (k seconds : Nat) (now : Time) : MatchUnit :=
  { m.removeKey c .learn now with
    learn := { LearnSession.idle with state := .listening, channel := c, k := k, remaining := seconds * 1000 }
    divert := some c }

/-- The 1 ms tick of a listening or confirming session; the tick that brings the time remaining to 0 is the expiry (R137). -/
def MatchUnit.tickLearn (m : MatchUnit) (moment : Time) : MatchUnit :=
  if m.learn.active && decide (0 < m.learn.remaining) then
    { m with learn := { m.learn with
        remaining := m.learn.remaining - 1
        expiredAt := if m.learn.remaining = 1 then some moment else m.learn.expiredAt } }
  else m

/-! ## Words and notices (R91, R120, R133) -/

/-- The oldest word or notice the Match Unit may take: it takes events (R113, log 25), and no part of RUN_RESET
stands before the message (log 14). -/
def State.matchMessage (s : State) : Option MatchMsg :=
  if s.matchReady && !s.resetBetween .sdc .mu s.sdc.toMatch.early then s.sdc.toMatch.msgs.head? else none

/-- The Match Unit has taken the decoder's message: the decoder goes to IDLE, unless it had sent it before its part of a
RUN_RESET (R72, R79, R102). -/
def Decoder.handedOn (d : Decoder) : Decoder :=
  { d with
    toMatch := d.toMatch.pop
    state := if d.toMatch.early = 0 then .idle else d.state }

/-- CODE_WORD (R91): to the session of a diverted channel (R133), else to the lookup. -/
def execCodeWord (s : State) : Host.Outcome State Fault Refusal :=
  match s.matchMessage with
  | some (.word w) =>
    let settings := (s.lcu w.channel).settings
    let m :=
      if s.mu.divert = some w.channel then
        s.mu.learnWord w ((s.mu.learn.candidate.map fun x => (s.sdc.profile x.profile).toggle).join)
      else s.mu.lookup w settings.reportUnknown s.now (deadlineOf s.now settings.holdWindow)
    .next ((s.setMu m).setSdc s.sdc.handedOn)
  | _ => .next s

/-- REPEAT_NOTICE (R120): ignored on a diverted channel (R133). -/
def execRepeatNotice (s : State) : Host.Outcome State Fault Refusal :=
  match s.matchMessage with
  | some (.notice n) =>
    let m :=
      if s.mu.divert = some n.channel then s.mu
      else s.mu.takeNotice n
        { kind := .repeated, toggle := none, ambiguous := false, stamp := n.stamp, now := s.now
          deadline := deadlineOf s.now (s.lcu n.channel).settings.holdWindow }
    .next ((s.setMu m).setSdc s.sdc.handedOn)
  | _ => .next s

/-- LEARN_TIMEOUT (R137). -/
def execLearnTimeout (s : State) : Host.Outcome State Fault Refusal :=
  match s.mu.learn.expiredAt with
  | some moment =>
    if s.matchReady && s.mu.learn.active then .next (s.setMu (s.mu.failLearn .timeout moment)) else .next s
  | none => .next s

/-! ## Committing an entry (R82 to R86, R141) -/

/-- The commit of an entry snapshot: the field checks, the profile check, the consistency checks, then the table changes and
the key records of the entry are removed (R82 to R86). -/
def MatchUnit.commitEntry (m : MatchUnit) (i : EntryNo) (x : EntryFields) (profiles : Vector Profile 8) (now : Time) :
    Except CmdError MatchUnit :=
  match entryOfFields x with
  | none => .error .badArg
  | some e =>
    let p := profiles[e.profile.val]
    if p.valid then
      if p.minBits ≤ e.bits ∧ e.bits ≤ p.maxBits ∧ p.toggle.all (fun t => !e.careMask.getLsbD t) then
        .ok ((m.setEntry i e).entryChanged i now)
      else .error .badArg
    else .error .profileEmpty

/-- A clear of one entry (R87). -/
def MatchUnit.clearEntry (m : MatchUnit) (i : EntryNo) (now : Time) : MatchUnit :=
  if (m.entry i).valid then (m.setEntry i .cleared).entryChanged i now else m

/-- A clear of the whole table (R88). -/
def MatchUnit.clearTable (m : MatchUnit) (now : Time) : MatchUnit :=
  { m with table := Vector.replicate 128 .cleared }.tableCleared now

/-- The snapshot LEARN_COMMIT builds from the result and the staging snapshot (R141). -/
def LearnResult.entryFields (r : LearnResult) (staged : EntryFields) : EntryFields :=
  { staged with profile := r.profile.val, bits := r.bits, pattern := r.payload, careMask := r.mask }

end Sys2Proof.Machine
end

