-- ==== Sys2Proof/Machine/Store.lean ====
section
/-! DEFINITION. The Pulse Store (Chapter 2): requests of the Line Capture Units, the burst queue and the decoder's finish,
retention and the holds. -/

namespace Sys2Proof.Machine

/-! ## Descriptors and blocks -/

/-- A descriptor becomes FREE, and its blocks return to the free-block list (R27, R33). -/
def PulseStore.free (p : PulseStore) (h : Handle) : PulseStore :=
  { p.setDescriptor h .freed with freeBlocks := p.freeBlocks ++ (p.descriptor h).blocks }

/-- The FREE descriptor with the lowest handle (R30). -/
def PulseStore.lowestFree (p : PulseStore) : Option Handle :=
  (List.finRange 16).find? fun h => (p.descriptor h).state == .free

/-- The descriptor is OPEN for the channel (R34). -/
def PulseStore.openFor (p : PulseStore) (h : Handle) (c : Channel) : Bool :=
  (p.descriptor h).state == .opened && (p.descriptor h).channel == c

/-- A descriptor request granted: the descriptor is OPEN, empty and clear (R30). -/
def PulseStore.grant (p : PulseStore) (h : Handle) (c : Channel) (openTime : Time) : PulseStore :=
  p.setDescriptor h { Descriptor.freed with state := .opened, channel := c, openTime := openTime }

/-- The block the store grants: `pick` counted round the free-block list (R27, log 12). -/
def PulseStore.pickBlock (p : PulseStore) (pick : BlockNo) : Option BlockNo :=
  p.freeBlocks[pick.val % p.freeBlocks.length]?

/-- An element is placed in its slot of the burst's last block (R26, R31). -/
def PulseStore.place (p : PulseStore) (h : Handle) (b : BlockNo) (position : Nat) (duration : Half) : PulseStore :=
  { p.setDescriptor h { p.descriptor h with count := (p.descriptor h).count + 1 } with
    slots := Memory.write p.slots (slotAddress b (position % Config.slotsPerBlock)) duration }

/-- A block leaves the free-block list for the end of a descriptor's block list (R27, R31). -/
def PulseStore.grantBlock (p : PulseStore) (h : Handle) (b : BlockNo) : PulseStore :=
  { p.setDescriptor h { p.descriptor h with blocks := (p.descriptor h).blocks ++ [b] } with
    freeBlocks := p.freeBlocks.erase b }

/-- An element write (R31): the store after it and the answer. A stray write is answered as taken (R34). -/
def PulseStore.write (p : PulseStore) (c : Channel) (h : Handle) (position : Nat) (duration : Half) (pick : BlockNo) :
    PulseStore × LcuAnswer :=
  if p.openFor h c then
    if position % Config.slotsPerBlock = 0 then
      match p.pickBlock pick with
      | none => (p, .noBlock)
      | some b => ((p.grantBlock h b).place h b position duration, .taken)
    else
      match (p.descriptor h).blocks[position / Config.slotsPerBlock]? with
      | none => (p, .taken)
      | some b => (p.place h b position duration, .taken)
  else (p, .taken)

/-- A close request (R32); a stray one has no effect (R34). -/
def PulseStore.close (p : PulseStore) (c : Channel) (h : Handle) (closeTime : Time) : PulseStore :=
  if p.openFor h c then
    { p.setDescriptor h { p.descriptor h with state := .queued, closeTime := closeTime } with queue := p.queue ++ [h] }
  else p

/-- An abandon request (R33); a stray one has no effect (R34). -/
def PulseStore.abandon (p : PulseStore) (c : Channel) (h : Handle) : PulseStore := if p.openFor h c then p.free h else p

/-- The channel purge of one descriptor: QUEUED is freed and leaves the queue, DECODING becomes stale (R36). -/
def PulseStore.purgeOne (p : PulseStore) (c : Channel) (h : Handle) : PulseStore :=
  let d := p.descriptor h
  if d.channel = c then
    match d.state with
    | .queued => { p.free h with queue := p.queue.erase h }
    | .decoding => p.setDescriptor h { d with stale := true }
    | .free | .opened | .retained => p
  else p

/-- The channel purge (R36). -/
def PulseStore.purge (p : PulseStore) (c : Channel) : PulseStore := (List.finRange 16).foldl (·.purgeOne c) p

/-- A take request: the head of the queue becomes DECODING with the stale flag clear (R35). -/
def PulseStore.take (p : PulseStore) : PulseStore × DecoderAnswer :=
  match p.queue with
  | [] => (p, .empty)
  | h :: rest =>
    ({ p.setDescriptor h { p.descriptor h with state := .decoding, stale := false } with queue := rest }, .took h)

/-- A decode finish (R37, R39); a stray one is answered STALE (R34). -/
def PulseStore.finish (p : PulseStore) (h : Handle) (d : Disposition) : PulseStore × DecoderAnswer :=
  if (p.descriptor h).state = .decoding then
    if (p.descriptor h).stale then (p.free h, .stale)
    else
      match d with
      | .free => (p.free h, .freed)
      | .retain =>
        if p.retainedDescriptors < Config.retainedLimit then
          (p.setDescriptor h { p.descriptor h with state := .retained, hostHold := true, transmitHolds := 0 }, .retained)
        else (p.free h, .noRoom)
  else (p, .stale)

/-- The handle names a RETAINED descriptor with its host hold set (R41, R42). -/
def PulseStore.hostHeld (p : PulseStore) (h : Handle) : Bool :=
  (p.descriptor h).state == .retained && (p.descriptor h).hostHold

/-- A host-hold drop (R41): the burst is freed where it has no transmit hold (R38); a stray drop has no effect (R34). -/
def PulseStore.dropHostHold (p : PulseStore) (h : Handle) : PulseStore :=
  if p.hostHeld h then
    if (p.descriptor h).transmitHolds = 0 then p.free h else p.setDescriptor h { p.descriptor h with hostHold := false }
  else p

/-- A transmit-hold drop (R43): the burst is freed with its last hold (R38); a stray drop has no effect (R34). -/
def PulseStore.dropTransmitHold (p : PulseStore) (h : Handle) : PulseStore :=
  let d := p.descriptor h
  if d.state = .retained ∧ 0 < d.transmitHolds then
    if d.transmitHolds = 1 ∧ d.hostHold = false then p.free h
    else p.setDescriptor h { d with transmitHolds := d.transmitHolds - 1 }
  else p

/-- The store's answer to a transmit-hold request (R42). -/
inductive HoldAnswer where
  | added | full | badHandle
  deriving DecidableEq, Repr

/-- A transmit-hold request (R42). -/
def PulseStore.addTransmitHold (p : PulseStore) (h : Handle) : PulseStore × HoldAnswer :=
  if p.hostHeld h then
    if (p.descriptor h).transmitHolds < Config.transmitHoldLimit then
      (p.setDescriptor h { p.descriptor h with transmitHolds := (p.descriptor h).transmitHolds + 1 }, .added)
    else (p, .full)
  else (p, .badHandle)

/-! ## The events -/

/-- The store has taken the oldest request of an LCU, with an answer where the LCU waits for one. -/
def State.storeTook (s : State) (c : Channel) (p : PulseStore) (answer : Option LcuAnswer) : State :=
  (s.setPst p).setLcu c { s.lcu c with toStore := (s.lcu c).toStore.pop, answer := answer }

/-- DESCRIPTOR_REQUEST c (R30). -/
def execDescriptorRequest (c : Channel) (s : State) : Host.Outcome State Fault Refusal :=
  match s.storeRequest c with
  | some (.descriptor openTime) =>
    match s.pst.lowestFree with
    | some h => .next (s.storeTook c (s.pst.grant h c openTime) (some (.granted h)))
    | none => .next (s.storeTook c s.pst (some .noDescriptor))
  | _ => .next s

/-- ELEMENT_WRITE c (R31). -/
def execElementWrite (c : Channel) (pick : BlockNo) (s : State) : Host.Outcome State Fault Refusal :=
  match s.storeRequest c with
  | some (.write h position duration) =>
    let r := s.pst.write c h position duration pick
    .next (s.storeTook c r.1 (some r.2))
  | _ => .next s

/-- CLOSE_REQUEST c (R32). -/
def execCloseRequest (c : Channel) (s : State) : Host.Outcome State Fault Refusal :=
  match s.storeRequest c with
  | some (.close h closeTime) => .next (s.storeTook c (s.pst.close c h closeTime) (s.lcu c).answer)
  | _ => .next s

/-- ABANDON_REQUEST c (R33). -/
def execAbandonRequest (c : Channel) (s : State) : Host.Outcome State Fault Refusal :=
  match s.storeRequest c with
  | some (.abandon h) => .next (s.storeTook c (s.pst.abandon c h) (s.lcu c).answer)
  | _ => .next s

/-- CHANNEL_PURGE c (R36): the store's part of CHANNEL_FLUSH or CHANNEL_DISABLE. -/
def execChannelPurge (c : Channel) (s : State) : Host.Outcome State Fault Refusal :=
  match s.storeRequest c with
  | some .purge => .next ((s.storeTook c (s.pst.purge c) (s.lcu c).answer).answerPart .purge {})
  | _ => .next s

/-- TAKE_REQUEST (R35). None is taken while RUN_RESET's part is on its way from the store to the decoder (log 15). -/
def execTakeRequest (s : State) : Host.Outcome State Fault Refusal :=
  match s.sdc.request with
  | some .take =>
    if s.resetBetween .pst .sdc 0 then .next s
    else
      let r := s.pst.take
      .next ((s.setPst r.1).setSdc { s.sdc with request := none, answer := some r.2 })
  | _ => .next s

/-- DECODE_FINISH (R37). -/
def execDecodeFinish (s : State) : Host.Outcome State Fault Refusal :=
  match s.sdc.request with
  | some (.finish h d) =>
    let r := s.pst.finish h d
    .next ((s.setPst r.1).setSdc { s.sdc with request := none, answer := some r.2 })
  | _ => .next s

/-- HOST_HOLD_DROP h (R41): a drop the decoder has sent for the handle. -/
def execHostHoldDrop (h : Handle) (s : State) : Host.Outcome State Fault Refusal :=
  if h ∈ s.sdc.hostDrops then
    .next ((s.setPst (s.pst.dropHostHold h)).setSdc { s.sdc with hostDrops := s.sdc.hostDrops.erase h })
  else .next s

/-- TRANSMIT_HOLD_DROP h (R43): a drop the Transmit Engine has sent for the handle. -/
def execTransmitHoldDrop (h : Handle) (s : State) : Host.Outcome State Fault Refusal :=
  if h ∈ s.txe.holdDrops then
    .next ((s.setPst (s.pst.dropTransmitHold h)).setTxe { s.txe with holdDrops := s.txe.holdDrops.erase h })
  else .next s

end Sys2Proof.Machine
end

