-- ==== Sys2Proof/Machine/Channel.lean ====
section
/-! DEFINITION. The channel commands: CHANNEL_SET, CHANNEL_GET, CHANNEL_ENABLE, CHANNEL_DISABLE, CHANNEL_FLUSH and
COUNTERS_CLEAR (R4, R19 to R22), with the Match Unit's part of a disable or flush (R123, R138). -/

namespace Sys2Proof.Machine

/-! ## The owner's parts at a Line Capture Unit -/

/-- For how long a pending change has persisted at the last sample the LCU has taken: the present one, or the one before the
oldest that waits. Where the oldest is the sample that started the change, it has persisted for 0 µs (R6, log 7). -/
def Lcu.persistedFor (l : Lcu) (edge now : Time) : Nat :=
  match l.samples with
  | [] => elapsed edge now
  | x :: _ => elapsed edge x.time - 1

/-- New settings: a pending change that has persisted for the new glitch minimum is accepted with them (R4). -/
def Lcu.applySettings (l : Lcu) (x : Settings) (now : Time) : Lcu :=
  let a := { l with settings := x }
  match a.change with
  | some edge =>
    if x.glitchMin.toNat ≤ a.persistedFor edge now then { a with level := !a.level, change := none }.settle
    else a.settle
  | none => a.settle

/-- The checks of CHANNEL_SET, in their order (R4). -/
def Lcu.checkSettings (l : Lcu) (x : Settings) (profiles : Vector Profile 8) : Option CmdError :=
  if l.capture ≠ .disabled then some .channelNotDisabled
  else if !settingsInRange x then some .badArg
  else if !profileSetValid profiles x.profileSet then some .profileEmpty
  else none

/-- CHANNEL_ENABLE at the LCU (R19). -/
def Lcu.enable (l : Lcu) (now : Time) : Lcu :=
  if l.capture = .disabled then
    if 0 < l.blankCount then { l with capture := .blanked, measuringStart := none } else l.toDiscard now
  else l

/-- CHANNEL_DISABLE at the LCU (R20), with the purge passed on to the store (R36). -/
def Lcu.disable (l : Lcu) : Lcu :=
  let a := if l.capture = .disabled then l else { l.abandonBurst with capture := .disabled, measuringStart := none }
  { a with toStore := a.toStore.push .purge }

/-- CHANNEL_FLUSH at the LCU (R21), with the purge passed on to the store (R36). -/
def Lcu.flush (l : Lcu) (now : Time) : Lcu :=
  let a :=
    if l.capture = .disabled then l
    else if 0 < l.blankCount then { l.abandonBurst with capture := .blanked, measuringStart := none }
    else l.abandonBurst.toDiscard now
  { a with toStore := a.toStore.push .purge }

/-- All seven capture counters at 0 (R22). -/
def LcuCounters.zero : LcuCounters :=
  { burstsClosed := 0, glitches := 0, tooLong := 0, storeFull := 0, noDescriptor := 0, blankAbandoned := 0, stuckEpisodes := 0 }

/-- All five decoder counters at 0 (R76). -/
def DecoderCounters.zero : DecoderCounters :=
  { fullFrames := 0, repeatFrames := 0, undecodable := 0, stale := 0, notRetained := 0 }

/-- An LCU takes its part of a command on its channel: due while the part waits and the LCU waits for no answer of the store
(R9, R10). -/
def State.lcuPart (s : State) (f : InFlight) (act : Channel → Lcu → State) : State :=
  match channelOf f.args.arg0 with
  | none => s
  | some c => if Part.lcu c ∈ f.parts ∧ (s.lcu c).waiting = none then act c (s.lcu c) else s

/-! ## The commands -/

/-- CHANNEL_SET (R4). -/
def execChannelSet (phase : CommandPhase) (s : State) : Host.Outcome State Fault Refusal :=
  match phase with
  | .write => .next (s.setBcu (s.bcu.writeOpcode Cmd.channelSet.opcode))
  | .take =>
    .next (s.takeCommand .channelSet fun f =>
      s.lcuPart f fun c l =>
        match f.staging with
        | .channel r =>
          let x := settingsOfBytes r
          match l.checkSettings x s.sdc.profiles with
          | some e => s.answerPart (.lcu c) { error := some e }
          | none => (s.setLcu c (l.applySettings x s.now)).answerPart (.lcu c) {}
        | .absent | .profile _ | .entry _ | .transmit _ => s)

/-- CHANNEL_GET (R4, R201). -/
def execChannelGet (phase : CommandPhase) (s : State) : Host.Outcome State Fault Refusal :=
  match phase with
  | .write => .next (s.setBcu (s.bcu.writeOpcode Cmd.channelGet.opcode))
  | .take =>
    .next (s.takeCommand .channelGet fun f =>
      s.lcuPart f fun c l => s.answerPart (.lcu c) { copy := .channel (settingsBytes l.settings) })

/-- CHANNEL_ENABLE (R19). -/
def execChannelEnable (phase : CommandPhase) (s : State) : Host.Outcome State Fault Refusal :=
  match phase with
  | .write => .next (s.setBcu (s.bcu.writeOpcode Cmd.channelEnable.opcode))
  | .take =>
    .next (s.takeCommand .channelEnable fun f =>
      s.lcuPart f fun c l => (s.setLcu c (l.enable s.now)).answerPart (.lcu c) {})

/-- CHANNEL_DISABLE: the LCU's part (R20); the store's is CHANNEL_PURGE and the Match Unit's MU_CHANNEL_PART. -/
def execChannelDisable (phase : CommandPhase) (s : State) : Host.Outcome State Fault Refusal :=
  match phase with
  | .write => .next (s.setBcu (s.bcu.writeOpcode Cmd.channelDisable.opcode))
  | .take =>
    .next (s.takeCommand .channelDisable fun f =>
      s.lcuPart f fun c l => (s.setLcu c l.disable).answerPart (.lcu c) {})

/-- CHANNEL_FLUSH: the LCU's part (R21); the store's is CHANNEL_PURGE and the Match Unit's MU_CHANNEL_PART. -/
def execChannelFlush (phase : CommandPhase) (s : State) : Host.Outcome State Fault Refusal :=
  match phase with
  | .write => .next (s.setBcu (s.bcu.writeOpcode Cmd.channelFlush.opcode))
  | .take =>
    .next (s.takeCommand .channelFlush fun f =>
      s.lcuPart f fun c l => (s.setLcu c (l.flush s.now)).answerPart (.lcu c) {})

/-- The Match Unit's part of a disable: the record goes with reason DISABLE, then a listening or confirming session of the
channel fails with CHANNEL_OFF (R123, R138). -/
def MatchUnit.disableChannel (m : MatchUnit) (c : Channel) (now : Time) : MatchUnit :=
  let a := m.removeKey c .disable now
  if a.learn.active && a.learn.channel == c then a.failLearn .channelOff now else a

/-- MU_CHANNEL_PART (R123): the Match Unit's part of the CHANNEL_FLUSH or CHANNEL_DISABLE in flight. -/
def execMuChannelPart (s : State) : Host.Outcome State Fault Refusal :=
  match s.bcu.inFlight with
  | none => .next s
  | some f =>
    match channelOf f.args.arg0 with
    | none => .next s
    | some c =>
      if s.matchReady ∧ Part.mu ∈ f.parts then
        match f.cmd with
        | some .channelFlush => .next ((s.setMu (s.mu.removeKey c .flush s.now)).answerPart .mu {})
        | some .channelDisable => .next ((s.setMu (s.mu.disableChannel c s.now)).answerPart .mu {})
        | _ => .next s
      else .next s

/-- COUNTERS_CLEAR: its opcode write and its parts at the LCU, the Symbol Decoder and the Match Unit (R22, R76, R99, R125). -/
def execCountersClear (phase : ClearPhase) (s : State) : Host.Outcome State Fault Refusal :=
  match phase with
  | .write => .next (s.setBcu (s.bcu.writeOpcode Cmd.countersClear.opcode))
  | .lcu =>
    .next (s.takeCommand .countersClear fun f =>
      s.lcuPart f fun c l => (s.setLcu c { l with counters := .zero }).answerPart (.lcu c) {})
  | .sdc =>
    .next (s.takeCommand .countersClear fun f =>
      match channelOf f.args.arg0 with
      | none => s
      | some c => if Part.sdc ∈ f.parts then (s.setSdc (s.sdc.setCounter c .zero)).answerPart .sdc {} else s)
  | .mu =>
    .next (s.takeCommand .countersClear fun f =>
      match channelOf f.args.arg0 with
      | none => s
      | some c => if Part.mu ∈ f.parts ∧ s.matchReady then (s.setMu (s.mu.setCounter c .zero)).answerPart .mu {} else s)

end Sys2Proof.Machine
end

