-- ==== Sys2Proof/Machine/Decoder.lean ====
section
/-! DEFINITION. The Symbol Decoder (Chapter 3): reading a burst under one profile (R57 to R66), choosing among profiles (R67),
and the decoder's own events (R68 to R75). -/

namespace Sys2Proof.Machine

/-! ## Matching a duration (00_scope.md, Tolerance and separability) -/

/-- d ≈ n under the profile's tolerance: |d − n| × 32 ≤ n × k. -/
def Profile.near (p : Profile) (d : Nat) (n : Nat) : Bool := decide ((max d n - min d n) * 32 ≤ n * p.tolerance)

/-- How an attempt ends (R57, R66). -/
inductive AttemptResult where
  | full (bits : List Bool)
  | repeated
  | fail (reason : FailReason) (depth : Nat)
  deriving DecidableEq, Repr

/-- What a data step ends with: the bits received, or a failure (R59 to R62). -/
inductive DataResult where
  | bits (received : List Bool)
  | fail (reason : FailReason) (depth : Nat)
  deriving DecidableEq, Repr

/-! ## The data steps -/

/-- The DISTANCE data step from a position (R59); `got` is the bits received, in order. -/
def Profile.distanceStep (p : Profile) : List Nat → Nat → List Bool → DataResult
  | [], position, _ => .fail .symbol position
  | [mark], position, got => if p.near mark p.unit1.toNat then .bits got else .fail .symbol position
  | mark :: space :: rest, position, got =>
    if p.near mark p.unit1.toNat then
      if p.maxBits ≤ got.length then .fail .trailing (position + 1)
      else if p.near space p.unit2.toNat then p.distanceStep rest (position + 2) (got ++ [false])
      else if p.near space p.unit3.toNat then p.distanceStep rest (position + 2) (got ++ [true])
      else .fail .symbol (position + 1)
    else .fail .symbol position

/-- The bit of a WIDTH mark (R60). -/
def Profile.widthBit (p : Profile) (mark : Nat) : Option Bool :=
  if p.near mark p.unit1.toNat then some false
  else if p.near mark p.unit2.toNat then some true
  else none

/-- The WIDTH data step from a position (R60). -/
def Profile.widthStep (p : Profile) : List Nat → Nat → List Bool → DataResult
  | [], position, _ => .fail .symbol position
  | [mark], position, got =>
    match p.widthBit mark with
    | some b => .bits (got ++ [b])
    | none => .fail .symbol position
  | mark :: space :: rest, position, got =>
    match p.widthBit mark with
    | none => .fail .symbol position
    | some b =>
      if p.near space p.unit3.toNat then p.widthStep rest (position + 2) (got ++ [b]) else .fail .symbol (position + 1)

/-- A half that waits for its partner: its level, true for a mark, and the position of its element (R62). -/
structure PendingHalf where
  level : Bool
  position : Nat
  deriving DecidableEq, Repr

/-- What feeding one half gives (R62): the bits received and the half that waits, or the depth of a CELL failure. -/
inductive CellResult where
  | ok (received : List Bool) (waiting : Option PendingHalf)
  | fail (depth : Nat)
  deriving DecidableEq, Repr

/-- One half joins the sequence: it waits, or completes a cell of unlike halves, whose first half is the bit (R62). -/
def feedHalf (got : List Bool) (waiting : Option PendingHalf) (level : Bool) (position : Nat) : CellResult :=
  match waiting with
  | none => .ok got (some { level := level, position := position })
  | some h => if h.level = level then .fail h.position else .ok (got ++ [h.level]) none

/-- The BIPHASE data step from a position (R61, R62): even positions are marks. At the end a waiting half is completed by one
rest half. -/
def Profile.biphaseStep (p : Profile) : List Nat → Nat → List Bool → Option PendingHalf → DataResult
  | [], position, got, waiting =>
    match waiting with
    | none => .bits got
    | some _ =>
      match feedHalf got waiting false position with
      | .ok all _ => .bits all
      | .fail depth => .fail .cell depth
  | d :: rest, position, got, waiting =>
    let level := position % 2 == 0
    if p.near d p.unit1.toNat then
      match feedHalf got waiting level position with
      | .ok g w => p.biphaseStep rest (position + 1) g w
      | .fail depth => .fail .cell depth
    else if p.near d (2 * p.unit1.toNat) then
      match feedHalf got waiting level position with
      | .fail depth => .fail .cell depth
      | .ok g w =>
        match feedHalf g w level position with
        | .fail depth => .fail .cell depth
        | .ok g' w' => p.biphaseStep rest (position + 1) g' w'
    else .fail .symbol position

/-- The data step of the profile's encoding (R58). -/
def Profile.dataStep (p : Profile) (rest : List Nat) (position : Nat) : DataResult :=
  match p.encoding with
  | .distance => p.distanceStep rest position []
  | .width => p.widthStep rest position []
  | .biphase => p.biphaseStep rest position [] none

/-- The length test (R63). -/
def Profile.lengthTest (p : Profile) (n : Nat) : DataResult → AttemptResult
  | .fail reason depth => .fail reason depth
  | .bits got => if p.minBits ≤ got.length ∧ got.length ≤ p.maxBits then .full got else .fail .length n

/-- The trailer of a repeat frame: M for DISTANCE, M0 for WIDTH (R49). -/
def Profile.trailer (p : Profile) : Nat := p.unit1.toNat

/-- The first two elements are the leader (R58, step 1). -/
def Profile.leaderMatches (p : Profile) (ds : List Nat) : Bool :=
  match p.leader, ds with
  | some l, d0 :: d1 :: _ => p.near d0 l.mark.toNat && p.near d1 l.space.toNat
  | _, _ => false

/-- The burst is a repeat frame (R58, step 2). -/
def Profile.repeatMatches (p : Profile) (ds : List Nat) : Bool :=
  match p.repeatLeader, ds with
  | some l, [d0, d1, d2] => p.near d0 l.mark.toNat && p.near d1 l.space.toNat && p.near d2 p.trailer
  | _, _ => false

/-- An attempt on a burst under one profile (R57, R58). -/
def Profile.attempt (p : Profile) (ds : List Nat) : AttemptResult :=
  if p.leaderMatches ds then p.lengthTest ds.length (p.dataStep (ds.drop 2) 2)
  else if p.repeatMatches ds then .repeated
  else if p.leader.isSome then .fail .leader 0
  else p.lengthTest ds.length (p.dataStep ds 0)

/-! ## The code word (R64, R65) -/

/-- The number whose bits, least significant first, are the list. -/
def bitsValue : List Bool → Nat
  | [] => 0
  | b :: bs => b.toNat + 2 * bitsValue bs

/-- The payload of the bits received (R64). -/
def payloadOfBits (order : BitOrder) (got : List Bool) : Payload :=
  BitVec.ofNat 64 (bitsValue (match order with
    | .lsbFirst => got
    | .msbFirst => got.reverse))

/-- Clears a payload bit (R65). -/
def clearBit (x : Payload) (t : Nat) : Payload := x &&& ~~~(BitVec.twoPow 64 t)

/-- The toggle value of an assembled payload, where the profile has a toggle position (R65). -/
def Profile.toggleOf (p : Profile) (x : Payload) : Option Bool := p.toggle.map fun t => x.getLsbD t

/-- The payload with its toggle bit cleared (R65). -/
def Profile.withoutToggle (p : Profile) (x : Payload) : Payload :=
  match p.toggle with
  | some t => clearBit x t
  | none => x

/-- The decode result of an attempt that ended FULL (R64, R65). -/
def Profile.fullResult (p : Profile) (i : ProfileNo) (got : List Bool) : DecodeResult :=
  let x := payloadOfBits p.order got
  .full i got.length (p.withoutToggle x) (p.toggleOf x)

/-! ## Choosing among profiles (R67) -/

/-- Tries profiles in order; `best` is the deepest failure so far, the earlier one where two are equally deep (R67). -/
def tryProfiles (profiles : Vector Profile 8) (ds : List Nat) : List ProfileNo → Option (FailReason × Nat) → DecodeResult
  | [], best =>
    match best with
    | some (reason, _) => .undecodable reason
    | none => .undecodable .noProfile
  | i :: rest, best =>
    match (profiles[i.val]).attempt ds with
    | .full got => (profiles[i.val]).fullResult i got
    | .repeated => .repeated i
    | .fail reason depth =>
      tryProfiles profiles ds rest (match best with
        | some (r, d) => if d < depth then some (reason, depth) else some (r, d)
        | none => some (reason, depth))

/-- The profiles of a set in ascending number (R67). -/
def profilesOf (set : Byte) : List ProfileNo := (List.finRange 8).filter fun p => set.getLsbD p.val

/-- The result of a decode (R67). -/
def decodeBurst (profiles : Vector Profile 8) (set : Byte) (ds : List Nat) : DecodeResult :=
  tryProfiles profiles ds (profilesOf set) none

/-! ## The events -/

/-- DECODER_TAKE_START (R68). -/
def execDecoderTakeStart (s : State) : Host.Outcome State Fault Refusal :=
  if s.sdc.state = .idle ∧ s.sdc.request = none ∧ s.sdc.answer = none ∧ s.pst.queue ≠ [] then
    .next (s.setSdc { s.sdc with request := some .take })
  else .next s

/-- TAKE_ANSWER (R68, R69). Where the store's part of a RUN_RESET came between the taken request and this event, the descriptor
is read as it now stands: DESIGN CHOICE (log 36), unsafe. -/
def execTakeAnswer (s : State) : Host.Outcome State Fault Refusal :=
  match s.sdc.state, s.sdc.answer with
  | .idle, some (.took h) =>
    let d := s.pst.descriptor h
    .next (s.setSdc { s.sdc with
      answer := none
      state := .decoding { handle := h, channel := d.channel, openTime := d.openTime, count := d.count
                           profileSet := (s.lcu d.channel).settings.profileSet } })
  | .idle, some .empty => .next (s.setSdc { s.sdc with answer := none })
  | _, _ => .next s

/-- DECODE_END (R67, R70): the result, and the decode finish with its disposition. Every profile is read here; a result that
is handed on was made under contents that stood from the take (R56, log 16). -/
def execDecodeEnd (s : State) : Host.Outcome State Fault Refusal :=
  match s.sdc.state with
  | .decoding job =>
    let durations := (s.pst.elements { s.pst.descriptor job.handle with count := job.count }).map BitVec.toNat
    let result := decodeBurst s.sdc.profiles job.profileSet durations
    let settings := (s.lcu job.channel).settings
    let disposition := match result with
      | .undecodable _ => if settings.retainUndecoded then Disposition.retain else .free
      | .full _ _ _ _ | .repeated _ => .free
    .next (s.setSdc { s.sdc with
      state := .finishing job result settings.reportUndecoded, request := some (.finish job.handle disposition) })
  | _ => .next s

/-- Changes the decoder's counters of a channel. -/
def Decoder.count (d : Decoder) (c : Channel) (f : DecoderCounters → DecoderCounters) : Decoder := d.setCounter c (f (d.counter c))

/-- An undecodable burst that was not stale: it is counted, and reported where the channel asks for it (R73, R74). -/
def Decoder.undecodable (d : Decoder) (job : DecodeJob) (reason : FailReason) (report : Bool) (answer : DecoderAnswer) : Decoder :=
  let counted := d.count job.channel fun x =>
    { x with undecodable := bump x.undecodable
             notRetained := if answer = .noRoom then bump x.notRetained else x.notRetained }
  let handle := if answer = .retained then some job.handle else none
  if report then
    { counted with
      state := .reporting job handle
      toQueue := counted.toQueue.push
        { source := channelByte job.channel, stamp := job.openTime, body := .undecoded job.count reason handle } }
  else { counted with state := .idle }

/-- What the decoder does with the store's answer to its finish (R71 to R73). -/
def Decoder.finished (d : Decoder) (job : DecodeJob) (result : DecodeResult) (report : Bool) (answer : DecoderAnswer) : Decoder :=
  let a := { d with answer := none }
  match answer with
  | .stale => { a.count job.channel (fun x => { x with stale := bump x.stale }) with state := .idle }
  | .freed | .retained | .noRoom =>
    match result with
    | .full p bits payload toggle =>
      { a.count job.channel (fun x => { x with fullFrames := bump x.fullFrames }) with
        state := .reporting job none
        toMatch := a.toMatch.push (.word { channel := job.channel, profile := p, bits := bits, payload := payload
                                           toggle := toggle, stamp := job.openTime }) }
    | .repeated p =>
      { a.count job.channel (fun x => { x with repeatFrames := bump x.repeatFrames }) with
        state := .reporting job none
        toMatch := a.toMatch.push (.notice { channel := job.channel, profile := p, stamp := job.openTime }) }
    | .undecodable reason => a.undecodable job reason report answer
  | .took _ | .empty | .admitted | .refused => d

/-- FINISH_ANSWER (R71 to R74). -/
def execFinishAnswer (s : State) : Host.Outcome State Fault Refusal :=
  match s.sdc.state, s.sdc.answer with
  | .finishing job result report, some answer => .next (s.setSdc (s.sdc.finished job result report answer))
  | _, _ => .next s

/-- UNDECODED_ANSWER (R74, R75): on a refusal the host hold of a burst that the record named is dropped. -/
def execUndecodedAnswer (s : State) : Host.Outcome State Fault Refusal :=
  match s.sdc.state, s.sdc.answer with
  | .reporting _ _, some .admitted => .next (s.setSdc { s.sdc with state := .idle, answer := none })
  | .reporting _ (some h), some .refused =>
    .next (s.setSdc { s.sdc with state := .idle, answer := none, hostDrops := s.sdc.hostDrops ++ [h] })
  | .reporting _ none, some .refused => .next (s.setSdc { s.sdc with state := .idle, answer := none })
  | _, _ => .next s

end Sys2Proof.Machine
end

