-- ==== Sys2Proof/Machine/Transmit.lean ====
section
/-! DEFINITION. The Transmit Engine (Chapter 8): frame synthesis (R174 to R177), activation (R171 to R173), frames, gaps and the
tail (R179 to R182), and stop and abort (R183 to R185). -/

namespace Sys2Proof.Machine

/-! ## Frame synthesis -/

/-- The payload with its toggle bit replaced by the engine's toggle state (R174). -/
def setToggleBit (x : Payload) (t : Nat) (v : Bool) : Payload :=
  if v then x ||| BitVec.twoPow 64 t else x &&& ~~~(BitVec.twoPow 64 t)

/-- The payload bits in sending order (R174). -/
def sendingBits (order : BitOrder) (bits : Nat) (x : Payload) : List Bool :=
  let ascending := (List.range bits).map fun i => x.getLsbD i
  match order with
  | .lsbFirst => ascending
  | .msbFirst => ascending.reverse

/-- A mark of a frame. -/
def markOf (n : Half) : Element := { mark := true, duration := n.toNat }

/-- A space of a frame. -/
def spaceOf (n : Half) : Element := { mark := false, duration := n.toNat }

/-- The leader's two elements, where there is a leader (R174). -/
def leaderElements : Option MarkSpace → List Element
  | none => []
  | some l => [markOf l.mark, spaceOf l.space]

/-- The elements of the bits of a DISTANCE frame, with the trailing mark (R174). -/
def Profile.distanceElements (p : Profile) : List Bool → List Element
  | [] => [markOf p.unit1]
  | b :: bs => markOf p.unit1 :: spaceOf (if b then p.unit3 else p.unit2) :: p.distanceElements bs

/-- The elements of the bits of a WIDTH frame: a space after every bit but the last (R174). -/
def Profile.widthElements (p : Profile) : List Bool → List Element
  | [] => []
  | [b] => [markOf (if b then p.unit2 else p.unit1)]
  | b :: b' :: bs => markOf (if b then p.unit2 else p.unit1) :: spaceOf p.unit3 :: p.widthElements (b' :: bs)

/-- The halves of a BIPHASE frame: mark then rest for a 1, rest then mark for a 0 (R175). -/
def Profile.biphaseHalves (p : Profile) : List Bool → List Element
  | [] => []
  | true :: bs => markOf p.unit1 :: spaceOf p.unit1 :: p.biphaseHalves bs
  | false :: bs => spaceOf p.unit1 :: markOf p.unit1 :: p.biphaseHalves bs

/-- Adjacent elements of one level become one element (R175). -/
def mergeLevels : List Element → List Element
  | [] => []
  | x :: xs =>
    match mergeLevels xs with
    | [] => [x]
    | y :: ys => if x.mark = y.mark then { x with duration := x.duration + y.duration } :: ys else x :: y :: ys

/-- A rest at the end of a frame is not emitted (R175). -/
def dropFinalRest : List Element → List Element
  | [] => []
  | [x] => if x.mark then [x] else []
  | x :: y :: ys => x :: dropFinalRest (y :: ys)

/-- A full frame of a profile source (R174, R175). -/
def Profile.fullFrame (p : Profile) (bits : Nat) (payload : Payload) (toggle : Bool) : List Element :=
  let x := match p.toggle with
    | some t => setToggleBit payload t toggle
    | none => payload
  let sent := sendingBits p.order bits x
  match p.encoding with
  | .distance => leaderElements p.leader ++ p.distanceElements sent
  | .width => leaderElements p.leader ++ p.widthElements sent
  | .biphase => dropFinalRest (mergeLevels (leaderElements p.leader ++ p.biphaseHalves sent))

/-- A repeat frame: RM, RS and the trailer (R176). -/
def Profile.repeatFrame (p : Profile) (l : MarkSpace) : List Element := [markOf l.mark, spaceOf l.space, markOf p.unit1]

/-- A captured burst replayed: marks at even positions (R177). -/
def replayElements : List Half → Bool → List Element
  | [], _ => []
  | d :: ds, mark => { mark := mark, duration := d.toNat } :: replayElements ds (!mark)

/-- The frame an engine builds from its snapshot: a full frame first, then repeat frames where the profile has a repeat
leader (R176); every frame of a BURST source is the same replay (R177). -/
def TxSnapshot.frameElements (x : TxSnapshot) (first toggle : Bool) : List Element :=
  match x with
  | .burst ds => replayElements ds true
  | .frame p bits payload =>
    match p.repeatLeader with
    | some l => if first then p.fullFrame bits payload toggle else p.repeatFrame l
    | none => p.fullFrame bits payload toggle

/-! ## The engine -/

/-- A frame begins at a moment (R172, R180). -/
def Engine.beginFrame (e : Engine) (moment : Time) (first : Bool) : Engine :=
  { e with
    state := .frame, frameStart := moment, elementStart := moment
    elements := match e.snapshot with
      | some x => x.frameElements first e.toggle
      | none => [] }

/-- Sends a blank claim or a drop of an engine to every channel of a set, in ascending order (R181, R182). -/
def State.sendClaims (s : State) (o : Output) (set : BitVec 4) (msg : ClaimMsg) : State :=
  allChannels.foldl
    (fun s c =>
      if set.getLsbD c.val then s.setLcu c ((s.lcu c).setClaims o ((s.lcu c).claimsOf o ++ [msg])) else s)
    s

/-- Changes an engine. -/
def State.setEngine (s : State) (o : Output) (e : Engine) : State := s.setTxe (s.txe.setEngine o e)

/-- The end record of a request (R186). -/
def endRecord (o : Output) (now : Time) (tag : Byte) (frames : Half) : EndKind → Append
  | .done => { source := outputByte o, stamp := now, body := .txDone tag frames }
  | .aborted reason => { source := outputByte o, stamp := now, body := .txAbort tag frames reason }

/-- The handle whose transmit hold a request has (R42). -/
def TxRequest.heldBurst (r : TxRequest) : Option Handle :=
  match r.source with
  | .burst h => some h
  | .entry _ | .word _ _ _ => none

/-- The end of the tail: drops, the transmit hold, the end record, IDLE (R182). -/
def State.endTail (s : State) (o : Output) : State :=
  let e := s.txe.engine o
  match e.request with
  | none => s.setEngine o { e with state := .idle }
  | some r =>
    let a := s.sendClaims o r.blankSet .drop
    let ended := { e with
      state := .idle, request := none, snapshot := none, elements := []
      toQueue := e.toQueue.push (endRecord o s.now r.tag e.framesSent e.endKind) }
    a.setTxe { s.txe.setEngine o ended with holdDrops := s.txe.holdDrops ++ r.heldBurst.toList }

/-- The engine enters TAIL at a moment; with a blank tail of 0 the tail ends in the same event (R182). -/
def State.enterTail (s : State) (o : Output) (e : Engine) (moment : Time) : State :=
  let a := s.setEngine o { e with state := .tail, tailStart := moment, elements := [] }
  match e.request with
  | some r => if r.blankTail = 0 then a.endTail o else a
  | none => a

/-- The oldest queued request that names an output, with the others in their order (R167, R171). -/
def takeRequestFor (o : Output) : List TxRequest → Option (TxRequest × List TxRequest)
  | [] => none
  | r :: rest =>
    if r.output = o then some (r, rest)
    else (takeRequestFor o rest).map fun x => (x.1, r :: x.2)

/-- A code word stands under a profile as it now is, else the source is gone (R172). -/
def frameSnapshot (p : Profile) (bits : Nat) (payload : Payload) : Option TxSnapshot :=
  if p.valid ∧ p.minBits ≤ bits ∧ bits ≤ p.maxBits then some (.frame p bits payload) else none

/-- The source is an entry of the code table (R166). -/
def TxSource.isEntry : TxSource → Bool
  | .entry _ => true
  | .word _ _ _ | .burst _ => false

/-- The source snapshot of an activation; none where the source is gone (R172). The reads of an entry and of its profile are made
together, in the one event: DESIGN CHOICE (log 38), unsafe. -/
def State.sourceSnapshot (s : State) : TxSource → Option TxSnapshot
  | .entry i =>
    let e := s.mu.entry i
    if e.valid then frameSnapshot (s.sdc.profile e.profile) e.bits e.pattern else none
  | .word p bits payload => frameSnapshot (s.sdc.profile p) bits payload
  | .burst h => some (.burst (s.pst.elements (s.pst.descriptor h)))

/-- The toggle state after an activation: it inverts for a profile with a toggle position (R173). -/
def TxSnapshot.nextToggle (x : TxSnapshot) (toggle : Bool) : Bool :=
  match x with
  | .frame p _ _ => if p.toggle.isSome then !toggle else toggle
  | .burst _ => toggle

/-- The engine with a request made active: frames sent 0, stop requested clear, end kind DONE (R171). -/
def Engine.activate (e : Engine) : Engine := { e with framesSent := 0, stopRequested := false, endKind := .done }

/-- The activation of a request whose source is gone: TX_ABORT with SOURCE_GONE, and the engine stays IDLE (R171, R172). -/
def State.activateGone (s : State) (o : Output) (r : TxRequest) : State :=
  let e := (s.txe.engine o).activate
  s.setEngine o { e with toQueue := e.toQueue.push (endRecord o s.now r.tag 0 (.aborted .sourceGone)) }

/-- The activation of a request whose snapshot stands: the toggle state, the first frame, the claims (R171 to R173, R181). -/
def State.activateWith (s : State) (o : Output) (r : TxRequest) (x : TxSnapshot) : State :=
  let e := s.txe.engine o
  let active := { e.activate with request := some r, snapshot := some x, toggle := x.nextToggle e.toggle }
  (s.setEngine o (active.beginFrame s.now true)).sendClaims o r.blankSet .claim

/-- ACTIVATION o (R171 to R173, R181). -/
def execActivation (o : Output) (s : State) : Host.Outcome State Fault Refusal :=
  if (s.txe.engine o).state = .idle then
    match takeRequestFor o s.txe.queue with
    | none => .next s
    | some (r, rest) =>
      let a := s.setTxe { s.txe with queue := rest }
      .next (s.afterMatchRead r.source.isEntry (match s.sourceSnapshot r.source with
        | none => a.activateGone o r
        | some x => a.activateWith o r x))
  else .next s

/-- ELEMENT_END o (R179): an element other than the last ends at its duration and the next begins there. -/
def execElementEnd (o : Output) (s : State) : Host.Outcome State Fault Refusal :=
  let e := s.txe.engine o
  match e.state, e.elements with
  | .frame, x :: y :: rest =>
    if x.duration ≤ elapsed e.elementStart s.now then
      .next (s.setEngine o { e with elements := y :: rest, elementStart := e.elementStart + BitVec.ofNat 32 x.duration })
    else .next s
  | _, _ => .next s

/-- The request has sent its frames, or a stop was requested (R179). -/
def Engine.noMoreFrames (e : Engine) : Bool :=
  e.stopRequested ||
    match e.request with
    | none => true
    | some r =>
      match r.mode with
      | .once => e.framesSent == 1
      | .count n => e.framesSent.toNat == n
      | .hold => false

/-- The last element of the frame in progress, by its duration; 0 for a frame without elements, which no source gives
(log 29). -/
def Engine.lastElement (e : Engine) : Option Nat :=
  match e.elements with
  | [] => some 0
  | [x] => some x.duration
  | _ :: _ :: _ => none

/-- The frame ends at a moment: it is counted, and the engine goes to GAP, or to TAIL (R179). -/
def State.endFrame (s : State) (o : Output) (moment : Time) : State :=
  let e := s.txe.engine o
  let a := { e with framesSent := bump e.framesSent, frameEnd := moment, elements := [] }
  if a.noMoreFrames then s.enterTail o a moment else s.setEngine o { a with state := .gap }

/-- FRAME_END o (R179): the last element ends at its duration. -/
def execFrameEnd (o : Output) (s : State) : Host.Outcome State Fault Refusal :=
  let e := s.txe.engine o
  match e.state, e.lastElement with
  | .frame, some d =>
    if d ≤ elapsed e.elementStart s.now then .next (s.endFrame o (e.elementStart + BitVec.ofNat 32 d)) else .next s
  | _, _ => .next s

/-- When the gap of an engine ends: its start and its length (R180). -/
def Engine.gapEnds (e : Engine) : Time × Nat :=
  match e.snapshot, e.request with
  | some (.burst _), some r => (e.frameEnd, r.rawGap.toNat * 1000)
  | some (.frame p _ _), _ =>
    if 0 < p.period ∧ elapsed e.frameStart e.frameEnd < p.period * 1000 then (e.frameStart, p.period * 1000)
    else (e.frameEnd, Config.defaultGap)
  | _, _ => (e.frameEnd, Config.defaultGap)

/-- GAP_END o (R180): the next frame begins where the gap ends. -/
def execGapEnd (o : Output) (s : State) : Host.Outcome State Fault Refusal :=
  let e := s.txe.engine o
  if e.state = .gap ∧ e.gapEnds.2 ≤ elapsed e.gapEnds.1 s.now then
    .next (s.setEngine o (e.beginFrame (e.gapEnds.1 + BitVec.ofNat 32 e.gapEnds.2) false))
  else .next s

/-- TAIL_END o (R182). -/
def execTailEnd (o : Output) (s : State) : Host.Outcome State Fault Refusal :=
  let e := s.txe.engine o
  match e.state, e.request with
  | .tail, some r => if r.blankTail.toNat * 100 ≤ elapsed e.tailStart s.now then .next (s.endTail o) else .next s
  | _, _ => .next s

/-! ## Submission, stop and abort -/

/-- The source checks of a submission (R168, step 3), with the store after a transmit-hold request (R42). -/
def State.checkSource (s : State) (x : TxSource) : Except CmdError PulseStore :=
  match x with
  | .entry i => if (s.mu.entry i).valid then .ok s.pst else .error .entryEmpty
  | .word p bits _ =>
    let q := s.sdc.profile p
    if q.valid then (if q.minBits ≤ bits ∧ bits ≤ q.maxBits then .ok s.pst else .error .badArg) else .error .profileEmpty
  | .burst h =>
    match s.pst.addTransmitHold h with
    | (p, .added) => .ok p
    | (_, .full) => .error .noSpace
    | (_, .badHandle) => .error .badHandle

/-- The checks of a submission in their order, and the machine with the request accepted (R168, R169). -/
def State.submit (s : State) (r : Vector Byte 21) : Except CmdError (State × Byte) :=
  match txRequestOfBytes r with
  | none => .error .badArg
  | some request =>
    if Config.transmitQueueCapacity ≤ s.txe.queue.length then .error .noSpace
    else
      match s.checkSource request.source with
      | .error e => .error e
      | .ok p => .ok ((s.setPst p).setTxe { s.txe with queue := s.txe.queue ++ [request] }, request.tag)

/-- A submission comes to the check of a code table entry: the checks before it pass (R168, R98). -/
def State.submissionReadsEntry (s : State) (r : Vector Byte 21) : Bool :=
  decide (s.txe.queue.length < Config.transmitQueueCapacity) && (txRequestOfBytes r).any fun x => x.source.isEntry

/-- TX_STOP at the engine (R183). -/
def State.stopOutput (s : State) (o : Output) : State :=
  let e := s.txe.engine o
  match e.state with
  | .frame => s.setEngine o { e with stopRequested := true }
  | .gap => s.enterTail o e s.now
  | .tail | .idle => s

/-- The purge of TX_ABORT: queued requests that name the output end, in queue order (R185). -/
def State.purgeOutput (s : State) (o : Output) : State :=
  let gone := s.txe.queue.filter fun r => r.output == o
  let e := s.txe.engine o
  let records := gone.map fun r => endRecord o s.now r.tag 0 (.aborted .purged)
  let ended := { e with toQueue := { e.toQueue with msgs := e.toQueue.msgs ++ records } }
  s.setTxe { s.txe.setEngine o ended with
    queue := s.txe.queue.filter fun r => r.output != o
    holdDrops := s.txe.holdDrops ++ gone.filterMap TxRequest.heldBurst }

/-- TX_ABORT at the engine, without its purge (R184). -/
def State.abortOutput (s : State) (o : Output) : State :=
  let e := s.txe.engine o
  match e.state with
  | .frame | .gap => s.enterTail o { e with endKind := .aborted .host } s.now
  | .tail | .idle => s

end Sys2Proof.Machine
end

