-- ==== Sys2Proof/Machine/Commands.lean ====
section
/-! DEFINITION. The commands of the register window that are not about one channel (the table of R200): profiles (R50 to R55),
entries (R82 to R89), retained bursts (R41), learning (R131 to R141), transmission (R168 to R185), RUN_RESET's acceptance, the
undefined opcodes (R199) and the completion (R200, R203). -/

namespace Sys2Proof.Machine

/-! ## Parts at one owner -/

/-- An owner that always takes events takes its part of a command, once. -/
def State.ownerPart (s : State) (f : InFlight) (p : Part) (act : State) : State := if p ∈ f.parts then act else s

/-- The Match Unit takes its part of a command, once, when it takes events (R113, log 25). -/
def State.matchPart (s : State) (f : InFlight) (act : State) : State :=
  if Part.mu ∈ f.parts ∧ s.matchReady then act else s

/-! ## Profiles -/

/-- The channel's profile set names profile `p` (R3). -/
def Lcu.names (l : Lcu) (p : ProfileNo) : Bool := l.settings.profileSet.getLsbD p.val

/-- A VALID entry names profile `p` (R54). -/
def MatchUnit.namesProfile (m : MatchUnit) (p : ProfileNo) : Bool :=
  (List.finRange 128).any fun i => (m.entry i).valid && (m.entry i).profile == p

/-- An entry stands against a new content of its profile: its bit count outside the range, or its care mask over the toggle
position (R53). -/
def Entry.conflicts (e : Entry) (x : Profile) : Bool :=
  !(decide (x.minBits ≤ e.bits) && decide (e.bits ≤ x.maxBits)) || x.toggle.any fun t => e.careMask.getLsbD t

/-- The use checks of PROFILE_COMMIT (R53). -/
def State.commitInUse (s : State) (p : ProfileNo) (x : Profile) : Bool :=
  allChannels.any (fun c => (s.lcu c).names p && (s.lcu c).capture != .disabled)
    || (List.finRange 128).any fun i =>
        (s.mu.entry i).valid && (s.mu.entry i).profile == p && (s.mu.entry i).conflicts x

/-- The use checks of PROFILE_CLEAR (R54). -/
def State.clearInUse (s : State) (p : ProfileNo) : Bool :=
  allChannels.any (fun c => (s.lcu c).names p) || s.mu.namesProfile p

/-- The three stages of PROFILE_COMMIT (R50), with the profile that passes them. -/
def State.checkProfile (s : State) (p : ProfileNo) (r : Vector Byte 23) : Except CmdError Profile :=
  match profileOfBytes r with
  | none => .error .badArg
  | some x =>
    if !x.timingValid then .error .badTiming
    else if s.commitInUse p x then .error .inUse
    else .ok x

/-- A PROFILE_COMMIT comes to its use checks, which read the code table: the stages before them pass (R50, R53, R98). -/
def commitReadsEntries (r : Vector Byte 23) : Bool := (profileOfBytes r).any Profile.timingValid

/-- PROFILE_COMMIT (R50 to R53). -/
def execProfileCommit (phase : CommandPhase) (s : State) : Host.Outcome State Fault Refusal :=
  match phase with
  | .write => .next (s.setBcu (s.bcu.writeOpcode Cmd.profileCommit.opcode))
  | .take =>
    .next (s.takeCommand .profileCommit fun f =>
      match profileOf f.args.arg0, f.staging with
      | some p, .profile r =>
        s.ownerPart f .sdc (s.afterMatchRead (commitReadsEntries r) (match s.checkProfile p r with
          | .error e => s.answerPart .sdc { error := some e }
          | .ok x => (s.setSdc (s.sdc.setProfile p x)).answerPart .sdc {}))
      | _, _ => s)

/-- PROFILE_READ (R55, R201). -/
def execProfileRead (phase : CommandPhase) (s : State) : Host.Outcome State Fault Refusal :=
  match phase with
  | .write => .next (s.setBcu (s.bcu.writeOpcode Cmd.profileRead.opcode))
  | .take =>
    .next (s.takeCommand .profileRead fun f =>
      match profileOf f.args.arg0 with
      | some p => s.ownerPart f .sdc (s.answerPart .sdc { copy := .profile (profileBytes (s.sdc.profile p)) })
      | none => s)

/-- PROFILE_CLEAR (R54). -/
def execProfileClear (phase : CommandPhase) (s : State) : Host.Outcome State Fault Refusal :=
  match phase with
  | .write => .next (s.setBcu (s.bcu.writeOpcode Cmd.profileClear.opcode))
  | .take =>
    .next (s.takeCommand .profileClear fun f =>
      match profileOf f.args.arg0 with
      | some p =>
        s.ownerPart f .sdc (s.afterMatchRead true
          (if s.clearInUse p then s.answerPart .sdc { error := some .inUse }
           else (s.setSdc (s.sdc.setProfile p .cleared)).answerPart .sdc {}))
      | none => s)

/-! ## Entries -/

/-- The Match Unit's answer to a commit, accepted or refused (R82). -/
def State.commitAnswer (s : State) (x : Except CmdError MatchUnit) : State :=
  match x with
  | .error e => s.answerPart .mu { error := some e }
  | .ok m => (s.setMu m).answerPart .mu {}

/-- ENTRY_COMMIT (R82 to R86). -/
def execEntryCommit (phase : CommandPhase) (s : State) : Host.Outcome State Fault Refusal :=
  match phase with
  | .write => .next (s.setBcu (s.bcu.writeOpcode Cmd.entryCommit.opcode))
  | .take =>
    .next (s.takeCommand .entryCommit fun f =>
      match entryOf f.args.arg0, f.staging with
      | some i, .entry r => s.matchPart f (s.commitAnswer (s.mu.commitEntry i (entryFields r) s.sdc.profiles s.now))
      | _, _ => s)

/-- ENTRY_READ (R89, R201). -/
def execEntryRead (phase : CommandPhase) (s : State) : Host.Outcome State Fault Refusal :=
  match phase with
  | .write => .next (s.setBcu (s.bcu.writeOpcode Cmd.entryRead.opcode))
  | .take =>
    .next (s.takeCommand .entryRead fun f =>
      match entryOf f.args.arg0 with
      | some i => s.matchPart f (s.answerPart .mu { copy := .entry (entryBytes (s.mu.entry i)) })
      | none => s)

/-- ENTRY_CLEAR (R87). -/
def execEntryClear (phase : CommandPhase) (s : State) : Host.Outcome State Fault Refusal :=
  match phase with
  | .write => .next (s.setBcu (s.bcu.writeOpcode Cmd.entryClear.opcode))
  | .take =>
    .next (s.takeCommand .entryClear fun f =>
      match entryOf f.args.arg0 with
      | some i => s.matchPart f ((s.setMu (s.mu.clearEntry i s.now)).answerPart .mu {})
      | none => s)

/-- TABLE_CLEAR (R88). -/
def execTableClear (phase : CommandPhase) (s : State) : Host.Outcome State Fault Refusal :=
  match phase with
  | .write => .next (s.setBcu (s.bcu.writeOpcode Cmd.tableClear.opcode))
  | .take =>
    .next (s.takeCommand .tableClear fun f => s.matchPart f ((s.setMu (s.mu.clearTable s.now)).answerPart .mu {}))

/-! ## Retained bursts -/

/-- BURST_RELEASE (R41). -/
def execBurstRelease (phase : CommandPhase) (s : State) : Host.Outcome State Fault Refusal :=
  match phase with
  | .write => .next (s.setBcu (s.bcu.writeOpcode Cmd.burstRelease.opcode))
  | .take =>
    .next (s.takeCommand .burstRelease fun f =>
      match handleOf f.args.arg0 with
      | some h =>
        s.ownerPart f .pst
          (if s.pst.hostHeld h then (s.setPst (s.pst.dropHostHold h)).answerPart .pst {}
           else s.answerPart .pst { error := some .badHandle })
      | none => s)

/-! ## Learning -/

/-- The checks of LEARN_START, in their order (R131). -/
def State.checkLearnStart (s : State) (c : Channel) (k t : Byte) : Option CmdError :=
  if k.toNat < 2 ∨ 4 < k.toNat ∨ t.toNat < 1 ∨ 60 < t.toNat then some .badArg
  else if (s.lcu c).capture = .disabled then some .channelDisabled
  else if s.mu.learn.active then some .learnState
  else none

/-- LEARN_START (R131, R132). -/
def execLearnStart (phase : CommandPhase) (s : State) : Host.Outcome State Fault Refusal :=
  match phase with
  | .write => .next (s.setBcu (s.bcu.writeOpcode Cmd.learnStart.opcode))
  | .take =>
    .next (s.takeCommand .learnStart fun f =>
      match channelOf f.args.arg0 with
      | some c =>
        s.matchPart f (match s.checkLearnStart c f.args.arg2 f.args.arg3 with
          | some e => s.answerPart .mu { error := some e }
          | none =>
            (s.setMu (s.mu.startLearn c f.args.arg2.toNat f.args.arg3.toNat s.now)).answerPart .mu {})
      | none => s)

/-- LEARN_ABORT (R139). -/
def execLearnAbort (phase : CommandPhase) (s : State) : Host.Outcome State Fault Refusal :=
  match phase with
  | .write => .next (s.setBcu (s.bcu.writeOpcode Cmd.learnAbort.opcode))
  | .take =>
    .next (s.takeCommand .learnAbort fun f =>
      s.matchPart f
        (if s.mu.learn.state = .idle then s.answerPart .mu { error := some .learnState }
         else (s.setMu s.mu.endLearn).answerPart .mu {}))

/-- The commit of a learn result: the entry is committed and, where that is accepted, the session goes to IDLE (R141). -/
def MatchUnit.commitResult (m : MatchUnit) (i : EntryNo) (staged : EntryFields) (profiles : Vector Profile 8) (now : Time) :
    Except CmdError MatchUnit :=
  match m.learn.state, m.learn.result with
  | .done, some r =>
    match m.commitEntry i (r.entryFields staged) profiles now with
    | .error e => .error e
    | .ok a => .ok a.endLearn
  | _, _ => .error .learnState

/-- LEARN_COMMIT (R141). -/
def execLearnCommit (phase : CommandPhase) (s : State) : Host.Outcome State Fault Refusal :=
  match phase with
  | .write => .next (s.setBcu (s.bcu.writeOpcode Cmd.learnCommit.opcode))
  | .take =>
    .next (s.takeCommand .learnCommit fun f =>
      match entryOf f.args.arg0, f.staging with
      | some i, .entry r => s.matchPart f (s.commitAnswer (s.mu.commitResult i (entryFields r) s.sdc.profiles s.now))
      | _, _ => s)

/-- LEARN_DISCARD (R140). -/
def execLearnDiscard (phase : CommandPhase) (s : State) : Host.Outcome State Fault Refusal :=
  match phase with
  | .write => .next (s.setBcu (s.bcu.writeOpcode Cmd.learnDiscard.opcode))
  | .take =>
    .next (s.takeCommand .learnDiscard fun f =>
      s.matchPart f
        (if s.mu.learn.state = .done then (s.setMu s.mu.endLearn).answerPart .mu {}
         else s.answerPart .mu { error := some .learnState }))

/-! ## Transmission -/

/-- TX_SUBMIT (R168, R169). -/
def execTxSubmit (phase : CommandPhase) (s : State) : Host.Outcome State Fault Refusal :=
  match phase with
  | .write => .next (s.setBcu (s.bcu.writeOpcode Cmd.txSubmit.opcode))
  | .take =>
    .next (s.takeCommand .txSubmit fun f =>
      match f.staging with
      | .transmit r =>
        s.ownerPart f .txe (s.afterMatchRead (s.submissionReadsEntry r) (match s.submit r with
          | .error e => s.answerPart .txe { error := some e }
          | .ok (a, tag) => a.answerPart .txe { result := tag }))
      | .absent | .channel _ | .profile _ | .entry _ => s)

/-- TX_STOP (R183). -/
def execTxStop (phase : CommandPhase) (s : State) : Host.Outcome State Fault Refusal :=
  match phase with
  | .write => .next (s.setBcu (s.bcu.writeOpcode Cmd.txStop.opcode))
  | .take =>
    .next (s.takeCommand .txStop fun f =>
      match outputOf f.args.arg0 with
      | some o => s.ownerPart f .txe ((s.stopOutput o).answerPart .txe {})
      | none => s)

/-- TX_ABORT at the engine: the purge where it is asked for, then the active request (R184, R185). -/
def State.abortTransmit (s : State) (o : Output) (purge : Bool) : State :=
  (if purge then s.purgeOutput o else s).abortOutput o

/-- TX_ABORT (R184, R185). -/
def execTxAbort (phase : CommandPhase) (s : State) : Host.Outcome State Fault Refusal :=
  match phase with
  | .write => .next (s.setBcu (s.bcu.writeOpcode Cmd.txAbort.opcode))
  | .take =>
    .next (s.takeCommand .txAbort fun f =>
      match outputOf f.args.arg0 with
      | some o => s.ownerPart f .txe ((s.abortTransmit o (f.args.arg1 == 1)).answerPart .txe {})
      | none => s)

/-! ## The command unit's own events -/

/-- RUN_RESET: the write of its opcode (R198, R202); its parts are rows of their own. -/
def execRunReset (s : State) : Host.Outcome State Fault Refusal :=
  .next (s.setBcu (s.bcu.writeOpcode Cmd.runReset.opcode))

/-- UNDEFINED_OPCODE: the write of a byte to CMD_OPCODE (R198, R202), and the check that refuses one that is not in the table
(R199). -/
def execUndefinedOpcode (phase : OpcodePhase) (s : State) : Host.Outcome State Fault Refusal :=
  match phase with
  | .write opcode => .next (s.setBcu (s.bcu.writeOpcode opcode))
  | .check =>
    match s.bcu.inFlight with
    | none => .next s
    | some f =>
      match f.cmd with
      | none => .next (s.setBcu (s.bcu.complete (some .badOpcode) 0 .absent))
      | some _ => .next s

/-- COMMAND_COMPLETION (R200, R201, R203, R206): due when the command passed the BCU's check and its last part is answered. -/
def execCommandCompletion (s : State) : Host.Outcome State Fault Refusal :=
  match s.bcu.inFlight with
  | none => .next s
  | some f =>
    if f.refusal = none ∧ f.parts = [] then .next (s.setBcu (s.bcu.complete f.error f.result f.copy)) else .next s

end Sys2Proof.Machine
end

