-- ==== Sys2Proof/Machine/Queue.lean ====
section
/-! DEFINITION. The Event Queue (Chapter 7): admission with the release reserve and OVERRUN (R150 to R155), removal (R157), the
threshold (R160) and the age condition (R161). -/

namespace Sys2Proof.Machine

/-- A record of kind RELEASE, the one kind the release reserve admits (R150). -/
def EventBody.isRelease : EventBody → Bool
  | .release _ _ _ _ _ => true
  | .press _ _ _ _ | .hold _ _ _ | .key _ _ _ _ _ _ | .unknown _ _ _ _ | .undecoded _ _ _ | .lineStuck | .learnDone _ _ _ _
  | .learnFail _ | .txDone _ _ | .txAbort _ _ _ | .overrun _ => false

/-- A record is placed at the tail with the next sequence number and its admission time (R150, R155). -/
def EventQueue.place (q : EventQueue) (a : Append) (now : Time) : EventQueue :=
  { q with
    records := q.records ++ [{ seq := q.nextSeq, source := a.source, stamp := a.stamp, body := a.body, admitted := now }]
    nextSeq := q.nextSeq + 1 }

/-- With the pending-overrun flag set and the occupancy below the general limit, an OVERRUN is inserted (R153). -/
def EventQueue.insertOverrun (q : EventQueue) (now : Time) : EventQueue :=
  if q.overrunPending && decide (q.occupancy < Config.generalLimit) then
    { q.place { source := 0, stamp := now, body := .overrun q.lost } now with lost := 0, overrunPending := false }
  else q

/-- The admission limit of a kind (R150). -/
def admissionLimit (b : EventBody) : Nat := if b.isRelease then Config.queueCapacity else Config.generalLimit

/-- An append is judged against the occupancy (R150, R152): the queue after it, and whether it was admitted. -/
def EventQueue.judge (q : EventQueue) (a : Append) (now : Time) : EventQueue × Bool :=
  if q.occupancy < admissionLimit a.body then (q.place a now, true)
  else ({ q with lost := bump q.lost, overrunPending := true }, false)

/-- The Event Queue takes an append: first the OVERRUN, then the judgement (R150, R153). -/
def EventQueue.take (q : EventQueue) (a : Append) (now : Time) : EventQueue × Bool := (q.insertOverrun now).judge a now

/-- The head is removed, if there is one, and EV_AGE is judged for the new head (R157, R161). -/
def EventQueue.removeHead (q : EventQueue) (now : Time) : EventQueue :=
  match q.records with
  | [] => q
  | _ :: rest => ({ q with records := rest }).rejudgeAge now

/-- A write of the threshold: values 1 to 64 replace it, others are ignored (R160). -/
def EventQueue.writeThreshold (q : EventQueue) (v : Byte) : EventQueue :=
  if 1 ≤ v.toNat ∧ v.toNat ≤ Config.queueCapacity then { q with threshold := v } else q

/-- A write of the age limit, with EV_AGE judged at once (R161). -/
def EventQueue.writeAge (q : EventQueue) (v : Byte) (now : Time) : EventQueue := { q with ageLimit := v }.rejudgeAge now

/-- The answer to a PRESS goes to the Match Unit (R113) and the answer to an UNDECODED to the decoder, unless it was sent
before the decoder's part of a RUN_RESET (R79, R165); no other sender reads one (R149). -/
def State.deliverAnswer (s : State) (sender : Sender) (early : Nat) (b : EventBody) (admitted : Bool) : State :=
  match sender, b with
  | .mu, .press _ _ _ _ => s.setMu { s.mu with answer := some admitted }
  | .sdc, .undecoded _ _ _ =>
    if early = 0 then s.setSdc { s.sdc with answer := some (if admitted then .admitted else .refused) } else s
  | _, _ => s

/-- The Match Unit's appends sent after its part of a RUN_RESET wait behind that part (log 14). -/
def State.queuePathOpen (s : State) : Sender → Bool
  | .mu => !s.resetBetween .mu .evq s.mu.toQueue.early
  | .lcu _ | .sdc | .txo _ => true

/-- APPEND (R149, R150). -/
def execAppend (sender : Sender) (s : State) : Host.Outcome State Fault Refusal :=
  match (s.outbox sender).msgs with
  | [] => .next s
  | a :: _ =>
    if s.queuePathOpen sender then
      let r := s.evq.take a s.now
      .next (((s.setEvq r.1).setOutbox (s.outbox sender).pop sender).deliverAnswer sender (s.outbox sender).early a.body r.2)
    else .next s

/-- AGE_EVENT (R161). EV_AGE then stays true until a removal, a write of the age limit or a reset judges it again, also where
the head stays for 2^32 µs or more and its time in the queue wraps below the limit: DESIGN CHOICE (log 43), unsafe. -/
def execAgeEvent (s : State) : Host.Outcome State Fault Refusal :=
  if s.evq.headAged s.now then .next (s.setEvq { s.evq with evAge := true }) else .next s

/-- EVENT_NEXT: a write of any value removes the head (R157). -/
def execEventNext (_value : Byte) (s : State) : Host.Outcome State Fault Refusal := .next (s.setEvq (s.evq.removeHead s.now))

/-- EVENT_THRESHOLD_WRITE (R160). -/
def execEventThresholdWrite (value : Byte) (s : State) : Host.Outcome State Fault Refusal :=
  .next (s.setEvq (s.evq.writeThreshold value))

/-- EVENT_AGE_WRITE (R161). -/
def execEventAgeWrite (value : Byte) (s : State) : Host.Outcome State Fault Refusal :=
  .next (s.setEvq (s.evq.writeAge value s.now))

end Sys2Proof.Machine
end

