-- ==== Sys2Proof/Machine/Reset.lean ====
section
/-! DEFINITION. Pin reset (R205) and the parts of RUN_RESET, block by block (R189, R25, R47, R79, R102, R165). Each part is due
when the part before it has been taken and every message its sender sent before has been taken (log 14). -/

namespace Sys2Proof.Machine

/-- PIN_RESET: every block is in its pin-reset state (R205). The commands that wait are the model's own and are kept. -/
def execPinReset (s : State) : Host.Outcome State Fault Refusal := .next (State.reset.setPending s.pending)

/-- A part of RUN_RESET waits, and none of the given parts does any more. -/
def State.resetDue (s : State) (p : Part) (before : List Part) : Bool :=
  decide (p ∈ s.resetParts) && before.all fun q => !decide (q ∈ s.resetParts)

/-- An engine after its part of RUN_RESET (R189): at rest and IDLE, without request, its toggle state 0.
Frames sent is kept, stop requested is cleared and the end kind is DONE: DESIGN CHOICE (log 39), unsafe. -/
def Engine.runReset (e : Engine) : Engine :=
  { e with state := .idle, request := none, snapshot := none, elements := [], stopRequested := false, endKind := .done
           toggle := false, toQueue := e.toQueue.markEarly }

/-- RUN_RESET_TXE (R189). -/
def execRunResetTxe (s : State) : Host.Outcome State Fault Refusal :=
  if s.resetDue .txe [] then
    .next ((s.setTxe { s.txe with engines := s.txe.engines.map Engine.runReset, queue := [] }).answerPart .txe {})
  else .next s

/-- A Line Capture Unit after its part of RUN_RESET (R25). -/
def Lcu.runReset (l : Lcu) (now : Time) : Lcu :=
  let a := { l with handle := none, count := 0, blankCount := 0, toStore := l.toStore.markEarly, toQueue := l.toQueue.markEarly }
  if l.capture = .disabled then a else a.toDiscard now

/-- RUN_RESET_LCU c (R25): every claim and drop sent before is taken first (R189), and the LCU waits for no answer. -/
def execRunResetLcu (c : Channel) (s : State) : Host.Outcome State Fault Refusal :=
  if s.resetDue (.lcu c) [.txe] ∧ (s.lcu c).waiting = none ∧ (s.lcu c).claims.all List.isEmpty then
    .next ((s.setLcu c ((s.lcu c).runReset s.now)).answerPart (.lcu c) {})
  else .next s

/-- RUN_RESET_PST (R47): every request sent before is taken first. A hold drop taken after the part has no effect, so it leaves
here (R34, R189, log 15). -/
def execRunResetPst (s : State) : Host.Outcome State Fault Refusal :=
  if s.resetDue .pst [.txe, .lcu 0, .lcu 1, .lcu 2, .lcu 3] ∧ (allChannels.all fun c => (s.lcu c).toStore.early == 0) then
    let a := s.setPst { PulseStore.reset with slots := s.pst.slots }
    let b := (a.setSdc { a.sdc with hostDrops := [] }).setTxe { a.txe with holdDrops := [] }
    .next (b.answerPart .pst {})
  else .next s

/-- RUN_RESET_SDC (R79). A request of the decoder that the store has not taken, an answer on its way and a hold drop have no
effect any more (log 15). -/
def execRunResetSdc (s : State) : Host.Outcome State Fault Refusal :=
  if s.resetDue .sdc [.pst] then
    .next ((s.setSdc { s.sdc with
      state := .idle, request := none, answer := none, hostDrops := [], toMatch := s.sdc.toMatch.markEarly
      toQueue := s.sdc.toQueue.markEarly }).answerPart .sdc {})
  else .next s

/-- The Match Unit after its part of RUN_RESET: no key record, no session (R102, R128, R145). -/
def MatchUnit.runReset (m : MatchUnit) : MatchUnit :=
  { m.endLearn with keys := Vector.replicate 4 none, toQueue := m.toQueue.markEarly }

/-- RUN_RESET_MU (R102): every word and notice the decoder sent before is taken first, and the Match Unit waits for no
answer (R128). -/
def execRunResetMu (s : State) : Host.Outcome State Fault Refusal :=
  if s.resetDue .mu [.sdc] ∧ s.sdc.toMatch.early = 0 ∧ s.matchReady then .next ((s.setMu s.mu.runReset).answerPart .mu {})
  else .next s

/-- The Event Queue after its part of RUN_RESET: the threshold and the age limit are kept (R165). -/
def EventQueue.runReset (q : EventQueue) : EventQueue :=
  { q with records := [], nextSeq := 0, lost := 0, overrunPending := false, evAge := false }

/-- RUN_RESET_EVQ (R165): every append that a block sent before its own part is taken first. -/
def execRunResetEvq (s : State) : Host.Outcome State Fault Refusal :=
  if s.resetDue .evq [.mu] ∧ (allSenders.all fun x => (s.outbox x).early == 0) then
    .next ((s.setEvq s.evq.runReset).answerPart .evq {})
  else .next s

end Sys2Proof.Machine
end

