-- ==== Sys2Proof/Machine/Time.lean ====
section
/-! DEFINITION. The Time Base's two ticks: the microsecond, at which the counter and the divider advance and every line is
sampled (R1, R5), and the millisecond at the Match Unit (R115, R137). -/

namespace Sys2Proof.Machine

/-- The Time Base one microsecond later: the counter wraps modulo 2^32, the divider counts 0 to 999 on its own, and where it
wraps a 1 ms tick goes to the Match Unit (R1, log 25). -/
def TimeBase.tick (t : TimeBase) : TimeBase :=
  let wraps := decide (999 ≤ t.divider)
  { counter := t.counter + 1
    divider := if wraps then 0 else t.divider + 1
    msTicks := if wraps then t.msTicks ++ [t.counter + 1] else t.msTicks }

/-- Every LCU samples its line at the tick (R5). -/
def sampleLines (lcus : Vector Lcu 4) (now : Time) (lines : BitVec 4) : Vector Lcu 4 :=
  Vector.ofFn fun c : Fin 4 => (lcus[c.val]).takeSample { time := now, level := lines.getLsbD c.val }

/-- MICROSECOND_TICK (R1, R5): bit c of `lines` is the level of LINEc. -/
def execMicrosecondTick (lines : BitVec 4) (s : State) : Host.Outcome State Fault Refusal :=
  .next { s with tb := s.tb.tick, lcus := sampleLines s.lcus s.tb.tick.counter lines }

/-- MILLISECOND_TICK (R115, R137): the Match Unit takes the oldest 1 ms tick. -/
def execMillisecondTick (s : State) : Host.Outcome State Fault Refusal :=
  match s.tb.msTicks with
  | [] => .next s
  | moment :: rest => .next { s with tb := { s.tb with msTicks := rest }, mu := (s.mu.tickLearn moment).tickHeld }

end Sys2Proof.Machine
end

