-- ==== Sys2Proof/Machine/Window.lean ====
section
/-! DEFINITION. The bus cycles on the registers of the window that are no commands: CMD_STATUS (R203), IRQ_ENABLE (R204), the
Time Base latch (R2), the window selection (R192), the offset and the data port (R193) and the registers without a behaviour of
their own (R191). -/

namespace Sys2Proof.Machine

/-- A write to CMD_STATUS: bit 3 set clears CMD_DONE, other bits are ignored (R191, R203). -/
def Bcu.writeStatus (b : Bcu) (value : Byte) : Bcu := if value.getLsbD 3 then { b with cmdDone := false } else b

/-- A write to IRQ_ENABLE; bits 7:3 are ignored (R204). -/
def Bcu.writeEnable (b : Bcu) (value : Byte) : Bcu :=
  { b with enableLevel := value.getLsbD 0, enableAge := value.getLsbD 1, enableDone := value.getLsbD 2 }

/-- A write to WIN_SPACE (R192). -/
def Bcu.writeSpace (b : Bcu) (value : Byte) : Bcu := { b with winSpace := value, winOffset := 0 }

/-- A write to WIN_INDEX (R192). -/
def Bcu.writeIndex (b : Bcu) (value : Byte) : Bcu := { b with winIndex := value, winOffset := 0 }

/-- A write to a byte of WIN_OFFSET: the byte is replaced, and a value above the length of the space becomes the length
(R193). All eight bits of the high byte count: DESIGN CHOICE (log 40), unsafe. -/
def Bcu.writeOffset (b : Bcu) (high : Bool) (value : Byte) : Bcu :=
  let replaced := if high then value.toNat * 256 + b.winOffset % 256 else b.winOffset / 256 * 256 + value.toNat
  { b with winOffset := min replaced (spaceLength b.winSpace) }

/-- The offset after an access to WIN_DATA (R193). -/
def Bcu.advance (b : Bcu) : Bcu := { b with winOffset := if b.winOffset < spaceLength b.winSpace then b.winOffset + 1 else b.winOffset }

/-- The byte of the staging record at the offset is replaced; a write in a read-only space or at the length changes none
(R193). -/
def Bcu.stageByte (b : Bcu) (value : Byte) : Bcu :=
  let i := b.winOffset
  match b.winSpace.toNat with
  | 0 => { b with channelStaging := b.channelStaging.setIfInBounds i value }
  | 1 => { b with profileStaging := b.profileStaging.setIfInBounds i value }
  | 2 => { b with entryStaging := b.entryStaging.setIfInBounds i value }
  | 3 => { b with transmitStaging := b.transmitStaging.setIfInBounds i value }
  | _ => b

/-- What a read of WIN_DATA captures: the whole counter, at a counter's low byte (R193). With an index that names no channel
nothing is captured (log 22). -/
def State.capturedCounter (s : State) : Half :=
  if s.bcu.winSpace.toNat = 4 ∧ s.bcu.winOffset < spaceLength s.bcu.winSpace ∧ s.bcu.winOffset % 2 = 0 then
    s.selectedCounter.getD s.bcu.counterCapture
  else s.bcu.counterCapture

/-- A write to ARG0 to ARG3 stores the byte (R191, R198). -/
def Bcu.writeArg (b : Bcu) (address : BitVec 6) (value : Byte) : Bcu :=
  match address.toNat with
  | 0x04 => { b with args := { b.args with arg0 := value } }
  | 0x05 => { b with args := { b.args with arg1 := value } }
  | 0x06 => { b with args := { b.args with arg2 := value } }
  | 0x07 => { b with args := { b.args with arg3 := value } }
  | _ => b

/-! ## The events -/

/-- CMD_DONE_CLEAR (R203). -/
def execCmdDoneClear (value : Byte) (s : State) : Host.Outcome State Fault Refusal := .next (s.setBcu (s.bcu.writeStatus value))

/-- IRQ_ENABLE_WRITE (R204). -/
def execIrqEnableWrite (value : Byte) (s : State) : Host.Outcome State Fault Refusal :=
  .next (s.setBcu (s.bcu.writeEnable value))

/-- TIME_LATCH_READ (R2): the whole counter goes into the latch, and its low byte onto the data lines (R190). -/
def execTimeLatchRead (s : State) : Host.Outcome State Fault Refusal :=
  .next (s.setBcu { s.bcu with timeLatch := s.now, dataOut := byteOf s.now 0 })

/-- WIN_SPACE_WRITE (R192). -/
def execWinSpaceWrite (value : Byte) (s : State) : Host.Outcome State Fault Refusal := .next (s.setBcu (s.bcu.writeSpace value))

/-- WIN_INDEX_WRITE (R192). -/
def execWinIndexWrite (value : Byte) (s : State) : Host.Outcome State Fault Refusal := .next (s.setBcu (s.bcu.writeIndex value))

/-- WIN_OFFSET_WRITE (R193). -/
def execWinOffsetWrite (high : Bool) (value : Byte) (s : State) : Host.Outcome State Fault Refusal :=
  .next (s.setBcu (s.bcu.writeOffset high value))

/-- WIN_DATA_READ (R193): the byte at the offset goes onto the data lines, a counter may be captured, the offset advances. -/
def execWinDataRead (s : State) : Host.Outcome State Fault Refusal :=
  .next (s.setBcu { s.bcu.advance with dataOut := s.windowByte, counterCapture := s.capturedCounter })

/-- WIN_DATA_WRITE (R193). -/
def execWinDataWrite (value : Byte) (s : State) : Host.Outcome State Fault Refusal :=
  .next (s.setBcu (s.bcu.stageByte value).advance)

/-- REGISTER_WRITE (R191): ARG0 to ARG3 store the byte; read-only registers and addresses not in the map ignore it. A write to
a register with a behaviour of its own acts as that (log 24). -/
def execRegisterWrite (address : BitVec 6) (value : Byte) (s : State) : Host.Outcome State Fault Refusal :=
  match address.toNat with
  | 0x00 => .next (s.setBcu (s.bcu.writeOpcode value))
  | 0x01 => .next (s.setBcu (s.bcu.writeStatus value))
  | 0x08 => .next (s.setBcu (s.bcu.writeEnable value))
  | 0x0B => .next (s.setEvq (s.evq.writeThreshold value))
  | 0x0C => .next (s.setEvq (s.evq.writeAge value s.now))
  | 0x0D => .next (s.setEvq (s.evq.removeHead s.now))
  | 0x31 => .next (s.setBcu (s.bcu.writeSpace value))
  | 0x32 => .next (s.setBcu (s.bcu.writeIndex value))
  | 0x33 => .next (s.setBcu (s.bcu.writeOffset false value))
  | 0x34 => .next (s.setBcu (s.bcu.writeOffset true value))
  | 0x35 => .next (s.setBcu (s.bcu.stageByte value).advance)
  | _ => .next (s.setBcu (s.bcu.writeArg address value))

end Sys2Proof.Machine
end

