-- ==== Sys2Proof/Machine/Dispatch.lean ====
section
/-! DEFINITION. One arm per constructor of Instr: each calls the meaning of its row. -/

namespace Sys2Proof.Machine

/-- The effect of a command on everything but the queue of commands. -/
def exec (i : Instr) (s : State) : Host.Outcome State Fault Refusal :=
  match i with
  | .pinReset => Sys2Proof.Machine.execPinReset s
  | .pendingChangeStart c => Sys2Proof.Machine.execPendingChangeStart c s
  | .pendingChangeCancel c => Sys2Proof.Machine.execPendingChangeCancel c s
  | .acceptedEdge c => Sys2Proof.Machine.execAcceptedEdge c s
  | .descriptorRequest c => Sys2Proof.Machine.execDescriptorRequest c s
  | .descriptorAnswer c => Sys2Proof.Machine.execDescriptorAnswer c s
  | .elementWrite c pick => Sys2Proof.Machine.execElementWrite c pick s
  | .writeAnswer c => Sys2Proof.Machine.execWriteAnswer c s
  | .closeRequest c => Sys2Proof.Machine.execCloseRequest c s
  | .abandonRequest c => Sys2Proof.Machine.execAbandonRequest c s
  | .endGapExpiry c => Sys2Proof.Machine.execEndGapExpiry c s
  | .discardEndGapExpiry c => Sys2Proof.Machine.execDiscardEndGapExpiry c s
  | .stuckLimitExpiry c => Sys2Proof.Machine.execStuckLimitExpiry c s
  | .blankClaim o c => Sys2Proof.Machine.execBlankClaim o c s
  | .claimDrop o c => Sys2Proof.Machine.execClaimDrop o c s
  | .channelSet phase => Sys2Proof.Machine.execChannelSet phase s
  | .channelGet phase => Sys2Proof.Machine.execChannelGet phase s
  | .channelEnable phase => Sys2Proof.Machine.execChannelEnable phase s
  | .channelDisable phase => Sys2Proof.Machine.execChannelDisable phase s
  | .channelFlush phase => Sys2Proof.Machine.execChannelFlush phase s
  | .channelPurge c => Sys2Proof.Machine.execChannelPurge c s
  | .muChannelPart => Sys2Proof.Machine.execMuChannelPart s
  | .countersClear phase => Sys2Proof.Machine.execCountersClear phase s
  | .profileCommit phase => Sys2Proof.Machine.execProfileCommit phase s
  | .profileRead phase => Sys2Proof.Machine.execProfileRead phase s
  | .profileClear phase => Sys2Proof.Machine.execProfileClear phase s
  | .entryCommit phase => Sys2Proof.Machine.execEntryCommit phase s
  | .entryRead phase => Sys2Proof.Machine.execEntryRead phase s
  | .entryClear phase => Sys2Proof.Machine.execEntryClear phase s
  | .tableClear phase => Sys2Proof.Machine.execTableClear phase s
  | .burstRelease phase => Sys2Proof.Machine.execBurstRelease phase s
  | .learnStart phase => Sys2Proof.Machine.execLearnStart phase s
  | .learnAbort phase => Sys2Proof.Machine.execLearnAbort phase s
  | .learnCommit phase => Sys2Proof.Machine.execLearnCommit phase s
  | .learnDiscard phase => Sys2Proof.Machine.execLearnDiscard phase s
  | .txSubmit phase => Sys2Proof.Machine.execTxSubmit phase s
  | .txStop phase => Sys2Proof.Machine.execTxStop phase s
  | .txAbort phase => Sys2Proof.Machine.execTxAbort phase s
  | .runReset => Sys2Proof.Machine.execRunReset s
  | .runResetTxe => Sys2Proof.Machine.execRunResetTxe s
  | .runResetLcu c => Sys2Proof.Machine.execRunResetLcu c s
  | .runResetPst => Sys2Proof.Machine.execRunResetPst s
  | .runResetSdc => Sys2Proof.Machine.execRunResetSdc s
  | .runResetMu => Sys2Proof.Machine.execRunResetMu s
  | .runResetEvq => Sys2Proof.Machine.execRunResetEvq s
  | .undefinedOpcode phase => Sys2Proof.Machine.execUndefinedOpcode phase s
  | .commandCompletion => Sys2Proof.Machine.execCommandCompletion s
  | .cmdDoneClear value => Sys2Proof.Machine.execCmdDoneClear value s
  | .irqEnableWrite value => Sys2Proof.Machine.execIrqEnableWrite value s
  | .eventThresholdWrite value => Sys2Proof.Machine.execEventThresholdWrite value s
  | .eventAgeWrite value => Sys2Proof.Machine.execEventAgeWrite value s
  | .eventNext value => Sys2Proof.Machine.execEventNext value s
  | .timeLatchRead => Sys2Proof.Machine.execTimeLatchRead s
  | .winSpaceWrite value => Sys2Proof.Machine.execWinSpaceWrite value s
  | .winIndexWrite value => Sys2Proof.Machine.execWinIndexWrite value s
  | .winOffsetWrite high value => Sys2Proof.Machine.execWinOffsetWrite high value s
  | .winDataRead => Sys2Proof.Machine.execWinDataRead s
  | .winDataWrite value => Sys2Proof.Machine.execWinDataWrite value s
  | .registerWrite address value => Sys2Proof.Machine.execRegisterWrite address value s
  | .decoderTakeStart => Sys2Proof.Machine.execDecoderTakeStart s
  | .takeRequest => Sys2Proof.Machine.execTakeRequest s
  | .takeAnswer => Sys2Proof.Machine.execTakeAnswer s
  | .decodeEnd => Sys2Proof.Machine.execDecodeEnd s
  | .decodeFinish => Sys2Proof.Machine.execDecodeFinish s
  | .finishAnswer => Sys2Proof.Machine.execFinishAnswer s
  | .undecodedAnswer => Sys2Proof.Machine.execUndecodedAnswer s
  | .hostHoldDrop h => Sys2Proof.Machine.execHostHoldDrop h s
  | .transmitHoldDrop h => Sys2Proof.Machine.execTransmitHoldDrop h s
  | .codeWord => Sys2Proof.Machine.execCodeWord s
  | .repeatNotice => Sys2Proof.Machine.execRepeatNotice s
  | .pressAnswer => Sys2Proof.Machine.execPressAnswer s
  | .expiry c => Sys2Proof.Machine.execExpiry c s
  | .learnTimeout => Sys2Proof.Machine.execLearnTimeout s
  | .append sender => Sys2Proof.Machine.execAppend sender s
  | .ageEvent => Sys2Proof.Machine.execAgeEvent s
  | .activation o => Sys2Proof.Machine.execActivation o s
  | .elementEnd o => Sys2Proof.Machine.execElementEnd o s
  | .frameEnd o => Sys2Proof.Machine.execFrameEnd o s
  | .gapEnd o => Sys2Proof.Machine.execGapEnd o s
  | .tailEnd o => Sys2Proof.Machine.execTailEnd o s
  | .microsecondTick lines => Sys2Proof.Machine.execMicrosecondTick lines s
  | .millisecondTick => Sys2Proof.Machine.execMillisecondTick s

end Sys2Proof.Machine
end

