-- ==== Sys2Proof/Machine/Bus.lean ====
section
/-! DEFINITION. The pins of the register window (R190, R205): which cycle the levels of RESET, chip select and the strobes make,
what the data lines carry during it, and the command that is taken when its strobe returns high. -/

namespace Sys2Proof.Machine

/-- The levels of the bus pins during a cycle; true is high, and the four control pins are active low (00_scope.md, External
connections). `data` is what the controlling processor drives, of which a write cycle alone takes notice. -/
structure BusPins where
  reset : Bool
  chipSelect : Bool
  readStrobe : Bool
  writeStrobe : Bool
  address : BitVec 6
  data : Byte
  deriving DecidableEq, Repr

/-- The cycles of the bus (R190). -/
inductive BusCycle where
  | read (address : BitVec 6)
  | write (address : BitVec 6) (value : Byte)
  deriving DecidableEq, Repr

/-- The cycle the levels make; none while RESET is held (R205), with chip select high, with both strobes low (R190), and with
neither low. -/
def BusPins.cycle (p : BusPins) : Option BusCycle :=
  match p.reset, p.chipSelect, p.readStrobe, p.writeStrobe with
  | true, false, false, true => some (.read p.address)
  | true, false, true, false => some (.write p.address p.data)
  | _, _, _, _ => none

/-- The row of a command's opcode write (R198, R200). -/
def Cmd.writeRow : Cmd → Instr
  | .channelSet => .channelSet .write
  | .channelGet => .channelGet .write
  | .channelEnable => .channelEnable .write
  | .channelDisable => .channelDisable .write
  | .channelFlush => .channelFlush .write
  | .countersClear => .countersClear .write
  | .profileCommit => .profileCommit .write
  | .profileRead => .profileRead .write
  | .profileClear => .profileClear .write
  | .entryCommit => .entryCommit .write
  | .entryRead => .entryRead .write
  | .entryClear => .entryClear .write
  | .tableClear => .tableClear .write
  | .burstRelease => .burstRelease .write
  | .learnStart => .learnStart .write
  | .learnAbort => .learnAbort .write
  | .learnCommit => .learnCommit .write
  | .learnDiscard => .learnDiscard .write
  | .txSubmit => .txSubmit .write
  | .txStop => .txStop .write
  | .txAbort => .txAbort .write
  | .runReset => .runReset

/-- The row of a write to CMD_OPCODE (R198, R199). -/
def opcodeWriteRow (value : Byte) : Instr :=
  match Cmd.ofOpcode value with
  | some c => Cmd.writeRow c
  | none => .undefinedOpcode (.write value)

/-- The row of a write cycle, by the register at its address (R191). -/
def writeRow (address : BitVec 6) (value : Byte) : Instr :=
  match address.toNat with
  | 0x00 => opcodeWriteRow value
  | 0x01 => if value.getLsbD 3 then .cmdDoneClear value else .registerWrite address value
  | 0x08 => .irqEnableWrite value
  | 0x0B => .eventThresholdWrite value
  | 0x0C => .eventAgeWrite value
  | 0x0D => .eventNext value
  | 0x31 => .winSpaceWrite value
  | 0x32 => .winIndexWrite value
  | 0x33 => .winOffsetWrite false value
  | 0x34 => .winOffsetWrite true value
  | 0x35 => .winDataWrite value
  | _ => .registerWrite address value

/-- The command a cycle is taken as when its strobe returns high; none for a read without a side effect (R190, R191). -/
def BusCycle.command : BusCycle → Option Instr
  | .read address =>
    match address.toNat with
    | 0x24 => some .timeLatchRead
    | 0x35 => some .winDataRead
    | _ => none
  | .write address value => some (writeRow address value)

/-- What the part drives onto the data lines: the byte of the selected register for the whole of a read cycle; none, that is
undriven, at every other time (R190) and while RESET is held (R205). -/
def State.dataLines (s : State) (p : BusPins) : Option Byte :=
  match p.cycle with
  | some (.read address) => some (s.readRegister address)
  | some (.write _ _) => none
  | none => none

/-- The end of a cycle, at which its strobe returns high: its command, if it is one, joins the queue behind those that wait
(R190, log 41). -/
def State.endCycle (s : State) (p : BusPins) : State :=
  match p.cycle.bind BusCycle.command with
  | some c => s.setPending (s.pending ++ [c])
  | none => s

/-- The level of the IRQ pin, active low: high, that is inactive, while RESET is held (R163, R204, R205). -/
def State.irqPin (s : State) (p : BusPins) : Bool := !p.reset || !s.irqActive

/-- The level of the pin TX`o` in unit `unit` of the present microsecond: low, that is at rest, while RESET is held (R178, section
9.6). -/
def State.txLevel (s : State) (p : BusPins) (o : Output) (unit : Nat) : Bool := p.reset && s.txPin o unit

end Sys2Proof.Machine
end

