-- ==== Sys2Proof/Safety.lean ====
section
/-! DEFINITION. What the claims are about: which blocks a command may write, and the invariants that the spec states of the
machine's blocks (R1, R4, R16, R27, R29, R81, R104, R130, R148, R151, R155, R160, R167, R193, section 9.4). -/

namespace Sys2Proof.Machine

/-! ## Which blocks a command writes -/

/-- The blocks that own the state (00_scope.md, Block diagram). -/
inductive Block where
  | tb | lcu (c : Channel) | pst | sdc | mu | evq | txe | bcu
  deriving DecidableEq, Repr

/-- The four Line Capture Units. -/
def lineBlocks : List Block := [.lcu 0, .lcu 1, .lcu 2, .lcu 3]

/-- The blocks a command of the window writes: the BCU's at its write, the owners' and the BCU's when it is taken. -/
def commandBlocks (owners : List Block) : CommandPhase → List Block
  | .write => [.bcu]
  | .take => .bcu :: owners

/-- The block that sends an append. -/
def senderBlock : Sender → Block
  | .lcu c => .lcu c
  | .sdc => .sdc
  | .mu => .mu
  | .txo _ => .txe

/-- The blocks whose state a command may change; every other block's state it leaves as it is. -/
def writes : Instr → List Block
  | .pinReset => [.tb, .pst, .sdc, .mu, .evq, .txe, .bcu] ++ lineBlocks
  | .pendingChangeStart c | .pendingChangeCancel c | .acceptedEdge c | .descriptorAnswer c | .writeAnswer c
  | .endGapExpiry c | .discardEndGapExpiry c | .stuckLimitExpiry c => [.lcu c]
  | .blankClaim _ c | .claimDrop _ c => [.lcu c]
  | .descriptorRequest c | .elementWrite c _ | .closeRequest c | .abandonRequest c => [.pst, .lcu c]
  | .channelPurge c => [.pst, .lcu c, .bcu]
  | .channelSet p | .channelEnable p | .channelDisable p | .channelFlush p => commandBlocks lineBlocks p
  | .channelGet p | .profileRead p | .entryRead p => commandBlocks [] p
  | .muChannelPart => [.mu, .bcu]
  | .countersClear .write => [.bcu]
  | .countersClear .lcu => .bcu :: lineBlocks
  | .countersClear .sdc => [.bcu, .sdc]
  | .countersClear .mu => [.bcu, .mu]
  | .profileCommit p | .profileClear p => commandBlocks [.sdc] p
  | .entryCommit p | .entryClear p | .tableClear p | .learnStart p | .learnAbort p | .learnCommit p | .learnDiscard p =>
    commandBlocks [.mu] p
  | .burstRelease p => commandBlocks [.pst] p
  | .txSubmit p => commandBlocks [.txe, .pst] p
  | .txStop p | .txAbort p => commandBlocks (.txe :: lineBlocks) p
  | .runReset | .undefinedOpcode _ | .commandCompletion | .cmdDoneClear _ | .irqEnableWrite _ | .timeLatchRead
  | .winSpaceWrite _ | .winIndexWrite _ | .winOffsetWrite _ _ | .winDataRead | .winDataWrite _ => [.bcu]
  | .runResetTxe => [.txe, .bcu]
  | .runResetLcu c => [.lcu c, .bcu]
  | .runResetPst => [.pst, .sdc, .txe, .bcu]
  | .runResetSdc => [.sdc, .bcu]
  | .runResetMu => [.mu, .bcu]
  | .runResetEvq => [.evq, .bcu]
  | .eventThresholdWrite _ | .eventAgeWrite _ | .eventNext _ | .ageEvent => [.evq]
  | .registerWrite _ _ => [.bcu, .evq]
  | .decoderTakeStart | .takeAnswer | .decodeEnd | .finishAnswer | .undecodedAnswer => [.sdc]
  | .takeRequest | .decodeFinish | .hostHoldDrop _ => [.pst, .sdc]
  | .transmitHoldDrop _ => [.pst, .txe]
  | .codeWord | .repeatNotice => [.mu, .sdc]
  | .pressAnswer | .expiry _ | .learnTimeout => [.mu]
  | .append x => [.evq, senderBlock x]
  | .activation _ | .frameEnd _ | .tailEnd _ => .txe :: lineBlocks
  | .elementEnd _ | .gapEnd _ => [.txe]
  | .microsecondTick _ => .tb :: lineBlocks
  | .millisecondTick => [.tb, .mu]

/-- Outside the given blocks two states hold the same, and the same commands wait in them. -/
structure SameOutside (bs : List Block) (s t : State) : Prop where
  pending : t.pending = s.pending
  tb : .tb ∉ bs → t.tb = s.tb
  lcu : ∀ c, .lcu c ∉ bs → t.lcu c = s.lcu c
  pst : .pst ∉ bs → t.pst = s.pst
  sdc : .sdc ∉ bs → t.sdc = s.sdc
  mu : .mu ∉ bs → t.mu = s.mu
  evq : .evq ∉ bs → t.evq = s.evq
  txe : .txe ∉ bs → t.txe = s.txe
  bcu : .bcu ∉ bs → t.bcu = s.bcu

/-! ## Invariants of the blocks -/

/-- The Time Base's divider counts 0 to 999 (R1). -/
def TimeBase.sound (t : TimeBase) : Prop := t.divider < 1000

/-- The blank count never exceeds 2; while it is non-zero the channel is BLANKED or DISABLED, so it has no burst open; it is
non-zero whenever the channel is BLANKED (R16). While a request to the store is unanswered the capture state is OPEN (R10; for a
descriptor request log 9). -/
def Lcu.blankSound (l : Lcu) : Prop :=
  l.blankCount ≤ 2 ∧ (0 < l.blankCount → l.capture = .blanked ∨ l.capture = .disabled)
    ∧ (l.capture = .blanked → 0 < l.blankCount)
    ∧ (l.waiting ≠ none → l.capture = .opened)

/-- How often a block is on the free-block list or in a descriptor's block list. -/
def PulseStore.placesOf (p : PulseStore) (b : BlockNo) : Nat :=
  p.freeBlocks.count b + ∑ h : Handle, (p.descriptor h).blocks.count b

/-- The store's counts (R27, R29): every block is in exactly one place; a FREE descriptor holds no block; the burst queue holds
exactly the QUEUED descriptors, each once; at most four descriptors are RETAINED. -/
def PulseStore.sound (p : PulseStore) : Prop :=
  (∀ b, p.placesOf b = 1) ∧ (∀ h, (p.descriptor h).state = .free → (p.descriptor h).blocks = [])
    ∧ p.queue.Nodup ∧ (∀ h, h ∈ p.queue ↔ (p.descriptor h).state = .queued)
    ∧ p.retainedDescriptors ≤ Config.retainedLimit

/-- The profile consistency of the part: every profile that a channel's set names is VALID (R4), and every VALID entry
references a VALID profile under which it stands (R81). -/
def State.tablesSound (s : State) : Prop :=
  (∀ c p, (s.lcu c).names p = true → (s.sdc.profile p).valid = true)
    ∧ ∀ i, (s.mu.entry i).valid = true →
        (s.sdc.profile (s.mu.entry i).profile).valid = true
          ∧ (s.sdc.profile (s.mu.entry i).profile).minBits ≤ (s.mu.entry i).bits
          ∧ (s.mu.entry i).bits ≤ (s.sdc.profile (s.mu.entry i).profile).maxBits
          ∧ (∀ n, (s.mu.entry i).bits ≤ n → (s.mu.entry i).pattern.getLsbD n = false)
          ∧ (∀ n, (s.mu.entry i).bits ≤ n → (s.mu.entry i).careMask.getLsbD n = false)
          ∧ ∀ t, (s.sdc.profile (s.mu.entry i).profile).toggle = some t → (s.mu.entry i).careMask.getLsbD t = false

/-- The learn-divert flag is set for exactly the channel on which the session listens or confirms (R130), and that channel has
no key record (R104). The result is present in DONE alone, and in IDLE every field is 0 (R129, R144). -/
def MatchUnit.divertSound (m : MatchUnit) : Prop :=
  (∀ c, m.divert = some c ↔ m.learn.active = true ∧ m.learn.channel = c) ∧ (∀ c, m.divert = some c → m.key c = none)
    ∧ (m.learn.result.isSome = true ↔ m.learn.state = .done) ∧ (m.learn.state = .idle → m.learn = .idle)

/-- The sequence numbers increase by exactly one from head to tail, and the next one follows the tail's (R155). -/
def consecutive : List EventRecord → Half → Prop
  | [], _ => True
  | [x], next => x.seq + 1 = next
  | x :: y :: rest, next => x.seq + 1 = y.seq ∧ consecutive (y :: rest) next

/-- The event queue (R148, R152, R155, R160): 0 to 64 records with consecutive sequence numbers; a threshold of 1 to 64; the
pending-overrun flag set exactly while records are counted as lost; EV_AGE false while the queue is empty (R161). -/
def EventQueue.sound (q : EventQueue) : Prop :=
  q.occupancy ≤ Config.queueCapacity ∧ consecutive q.records q.nextSeq
    ∧ 1 ≤ q.threshold.toNat ∧ q.threshold.toNat ≤ Config.queueCapacity
    ∧ (q.overrunPending = true ↔ q.lost ≠ 0) ∧ (q.records = [] → q.evAge = false)

/-- At most 8 requests wait, and each output has at most one active request, which names that output; an engine is IDLE
exactly while it has none (R167, R170). -/
def Transmit.sound (t : Transmit) : Prop :=
  t.queue.length ≤ Config.transmitQueueCapacity
    ∧ ∀ o, ((t.engine o).state = .idle ↔ (t.engine o).request = none)
        ∧ ∀ r, (t.engine o).request = some r → r.output = o

/-- The command unit (section 9.4, R193, R198, R203): a command is in flight exactly while the state is BUSY; CMD_DONE and the
outcome bytes are clear then; DONE has error 00h, ERROR a code and result 00h; the offset is within the selected space. -/
def Bcu.sound (b : Bcu) : Prop :=
  (b.cmdState = .busy ↔ b.inFlight.isSome = true)
    ∧ (b.cmdState = .busy ∨ b.cmdState = .idle → b.cmdDone = false ∧ b.error = 0 ∧ b.result = 0)
    ∧ (b.cmdState = .done → b.error = 0) ∧ (b.cmdState = .error → b.error ≠ 0 ∧ b.result = 0)
    ∧ b.winOffset ≤ spaceLength b.winSpace

/-! ## One open descriptor per channel (R9, R29) -/

/-- The store answers the request (R30, R31). -/
def StoreRequest.answered : StoreRequest → Bool
  | .descriptor _ | .write _ _ _ => true
  | .close _ _ | .abandon _ | .purge => false

/-- The handle of the burst that a request ends (R32, R33). -/
def StoreRequest.ends : StoreRequest → Option Handle
  | .close h _ | .abandon h => some h
  | .descriptor _ | .write _ _ _ | .purge => none

/-- The request is the one that the LCU asked when it began to wait (R9, R10). -/
def LcuWait.asks : LcuWait → StoreRequest → Bool
  | .descriptor _, m => match m with
    | .descriptor _ => true
    | .write _ _ _ | .close _ _ | .abandon _ | .purge => false
  | .write _, m => match m with
    | .write _ _ _ => true
    | .descriptor _ | .close _ _ | .abandon _ | .purge => false

/-- The handle that an answer grants (R30). -/
def LcuAnswer.handle : LcuAnswer → Option Handle
  | .granted h => some h
  | .noDescriptor | .taken | .noBlock => none

/-- The handles of a channel's bursts that may be open: the LCU's own, that of a grant on its way, and those that its requests on
their way end. -/
def Lcu.handles (l : Lcu) : List Handle :=
  l.handle.toList ++ (l.answer.bind LcuAnswer.handle).toList ++ l.toStore.msgs.filterMap StoreRequest.ends

/-- The LCU keeps a handle in OPEN alone, and none while it asks for a descriptor. It waits for one answer at a time, and what
it asked is the last request it has sent (R9, R10). -/
def Lcu.askSound (l : Lcu) : Prop :=
  (l.handle ≠ none → l.capture = .opened) ∧ (∀ edge, l.waiting = some (.descriptor edge) → l.handle = none)
    ∧ match l.waiting, l.answer with
      | none, none => ∀ m ∈ l.toStore.msgs, m.answered = false
      | none, some _ => False
      | some w, none =>
        ∃ before m, l.toStore.msgs = before ++ [m] ∧ w.asks m = true ∧ ∀ x ∈ before, x.answered = false
      | some w, some a =>
        (∀ m ∈ l.toStore.msgs, m.answered = false) ∧ (∀ h, a = .granted h → ∃ edge, w = .descriptor edge)

/-- The LCU's part of a RUN_RESET has been taken, and the store's has not (R25, R47). -/
def State.awaitsStoreReset (s : State) (c : Channel) : Prop := .pst ∈ s.resetParts ∧ .lcu c ∉ s.resetParts

/-- At most one open descriptor on the LCU's channel `c` of a store (R29): it is the LCU's, that of a grant on its way, or that of
a close or abandon on its way. Where the LCU's part of a RUN_RESET has been taken and the store's has not (R25, R47), it is one
that the LCU has forgotten; the requests from before the LCU's part ask for nothing, and those after it end nothing. -/
def Lcu.openSound (l : Lcu) (awaitsReset : Prop) (p : PulseStore) (c : Channel) : Prop :=
  l.askSound
    ∧ (¬ awaitsReset → l.handles.length ≤ 1 ∧ ∀ h, p.openFor h c = true → h ∈ l.handles)
    ∧ (awaitsReset →
      (∀ h k, p.openFor h c = true → p.openFor k c = true → h = k)
        ∧ l.handle = none ∧ l.answer = none
        ∧ l.toStore.early ≤ l.toStore.msgs.length
        ∧ (∀ m ∈ l.toStore.msgs.take l.toStore.early, m.answered = false)
        ∧ ∀ m ∈ l.toStore.msgs.drop l.toStore.early, m.ends = none)

/-- One open descriptor per channel (R29). The parts of a RUN_RESET are taken once each, the store's after the LCUs'. -/
def State.openSound (s : State) : Prop :=
  s.resetParts.Nodup ∧ (∀ c, .lcu c ∈ s.resetParts → .pst ∈ s.resetParts)
    ∧ ∀ c, (s.lcu c).openSound (s.awaitsStoreReset c) s.pst c

/-! ## The release reserve (R151) -/

/-- A PRESS on its way. -/
def Append.isPress (a : Append) : Bool :=
  match a.body with
  | .press _ _ _ _ => true
  | .hold _ _ _ | .release _ _ _ _ _ | .key _ _ _ _ _ _ | .unknown _ _ _ _ | .undecoded _ _ _ | .lineStuck
  | .learnDone _ _ _ _ | .learnFail _ | .txDone _ _ | .txAbort _ _ _ | .overrun _ => false

/-- RELEASE records of channel `c` that the Match Unit has sent and the Event Queue has not taken. -/
def MatchUnit.releasesOnTheWay (m : MatchUnit) (c : Channel) : Nat :=
  m.toQueue.msgs.countP fun a => a.body.isRelease && a.source == channelByte c

/-- 1 where channel `c` has a record whose PRESS was admitted: its flag is set, or the answer that sets it is on its way. -/
def MatchUnit.pressAdmitted (m : MatchUnit) (c : Channel) : Nat :=
  if (m.key c).any KeyRecord.reported || (m.awaiting == some c && m.answer == some true) then 1 else 0

/-- The number of EDGE key records whose PRESS was admitted (R151). -/
def MatchUnit.admittedRecords (m : MatchUnit) : Nat := ∑ c : Channel, m.pressAdmitted c

/-- The waiting for a PRESS's answer (R113): only a PRESSED record has its reported flag set. While the Match Unit waits, the
record of the PRESS is PRESSED and unreported, and the PRESS is the last append on the way, or it has been taken and none is on
the way. Otherwise no PRESS is on the way. -/
def MatchUnit.pressSound (m : MatchUnit) : Prop :=
  (∀ c r, m.key c = some r → r.reported = true → r.state = .pressed)
    ∧ match m.awaiting with
      | none => m.answer = none ∧ ∀ a ∈ m.toQueue.msgs, a.isPress = false
      | some c =>
        (∃ r, m.key c = some r ∧ r.state = .pressed ∧ r.reported = false)
          ∧ match m.answer with
            | some _ => m.toQueue.msgs = []
            | none => ∃ before a, m.toQueue.msgs = before ++ [a] ∧ a.isPress = true ∧ ∀ x ∈ before, x.isPress = false

/-- The release reserve holds (R151): the occupancy with the records whose PRESS was admitted, and with the RELEASE records on
their way, never exceeds 64; each channel has at most one of these; every RELEASE on its way is the Match Unit's. -/
def State.reserveSound (s : State) : Prop :=
  s.mu.pressSound
    ∧ (∀ c, s.mu.releasesOnTheWay c + s.mu.pressAdmitted c ≤ 1)
    ∧ s.evq.occupancy + ∑ c : Channel, (s.mu.releasesOnTheWay c + s.mu.pressAdmitted c) ≤ Config.queueCapacity
    ∧ (∀ a ∈ s.mu.toQueue.msgs, a.body.isRelease = true → ∃ c, a.source = channelByte c)
    ∧ ∀ x, x ≠ .mu → ∀ a ∈ (s.outbox x).msgs, a.body.isRelease = false

/-! ## The one decode in flight (R29) -/

/-- The handle the decoder holds in the store: answered and not begun, in decode, or named by a finish not yet taken. -/
def Decoder.holds (d : Decoder) : Option Handle :=
  match d.state, d.request, d.answer with
  | .idle, _, some (.took h) => some h
  | .decoding job, _, _ => some job.handle
  | .finishing _ _ _, some (.finish h _), _ => some h
  | _, _, _ => none

/-- What the decoder has sent since its last part of a RUN_RESET and has not been told the taking of (R72, R74). -/
def Decoder.outstanding (d : Decoder) : Nat :=
  (d.toMatch.msgs.length - d.toMatch.early) + (d.toQueue.msgs.length - d.toQueue.early)
    + if d.answer = some .admitted ∨ d.answer = some .refused then 1 else 0

/-- The decoder hands on one result at a time, in REPORTING (R72, R74), and it has no answer of the store while it waits for
one (R68, R70). -/
def Decoder.sound (d : Decoder) : Prop :=
  d.outstanding ≤ 1 ∧ (d.outstanding = 1 → ∃ job h, d.state = .reporting job h)
    ∧ (d.request ≠ none → d.answer = none ∨ d.answer = some .admitted ∨ d.answer = some .refused)
    ∧ (d.request = some .take → d.state = .idle)
    ∧ (∀ h x, d.request = some (.finish h x) → ∃ job result report, d.state = .finishing job result report)
    ∧ (∀ job, d.state = .decoding job → d.answer = none)

/-- At most one descriptor is DECODING, and it is the one the decoder holds (R29, R35); none is between the store's part of a
RUN_RESET and the decoder's (R47, log 15). -/
def State.decodeSound (s : State) : Prop :=
  s.sdc.sound ∧ (∀ h, (s.pst.descriptor h).state = .decoding → s.sdc.holds = some h)
    ∧ (.sdc ∈ s.resetParts ∧ .pst ∉ s.resetParts → ∀ h, (s.pst.descriptor h).state ≠ .decoding)

end Sys2Proof.Machine
end

