-- ==== Sys2Proof/WellFormed.lean ====
section
/-! DEFINITION. Which terms of Instr are the rows' own events: a REGISTER_WRITE is a write to a register without a row of its
own, an UNDEFINED_OPCODE writes a byte that is no opcode, a CMD_DONE_CLEAR has bit 3 set. The meanings are total: an
ill-formed term acts as the bus cycle it is (log 24). -/

namespace Sys2Proof

/-- The addresses whose writes are rows of their own: CMD_OPCODE, IRQ_ENABLE, EVENT_THRESHOLD, EVENT_AGE, EVENT_NEXT and the
window registers (R191). -/
def hasOwnWriteRow (a : BitVec 6) : Bool :=
  a.toNat ∈ [0x00, 0x08, 0x0B, 0x0C, 0x0D, 0x31, 0x32, 0x33, 0x34, 0x35]

/-- The terms that are the event their row names. -/
def Instr.wellFormed : Instr → Bool
  | .registerWrite a v => !hasOwnWriteRow a && !(a.toNat == 0x01 && v.getLsbD 3)
  | .undefinedOpcode (.write b) => (Cmd.ofOpcode b).isNone
  | .cmdDoneClear v => v.getLsbD 3
  | .pinReset => true
  | .pendingChangeStart _ => true
  | .pendingChangeCancel _ => true
  | .acceptedEdge _ => true
  | .descriptorRequest _ => true
  | .descriptorAnswer _ => true
  | .elementWrite _ _ => true
  | .writeAnswer _ => true
  | .closeRequest _ => true
  | .abandonRequest _ => true
  | .endGapExpiry _ => true
  | .discardEndGapExpiry _ => true
  | .stuckLimitExpiry _ => true
  | .blankClaim _ _ => true
  | .claimDrop _ _ => true
  | .channelSet _ => true
  | .channelGet _ => true
  | .channelEnable _ => true
  | .channelDisable _ => true
  | .channelFlush _ => true
  | .channelPurge _ => true
  | .muChannelPart => true
  | .countersClear _ => true
  | .profileCommit _ => true
  | .profileRead _ => true
  | .profileClear _ => true
  | .entryCommit _ => true
  | .entryRead _ => true
  | .entryClear _ => true
  | .tableClear _ => true
  | .burstRelease _ => true
  | .learnStart _ => true
  | .learnAbort _ => true
  | .learnCommit _ => true
  | .learnDiscard _ => true
  | .txSubmit _ => true
  | .txStop _ => true
  | .txAbort _ => true
  | .runReset => true
  | .runResetTxe => true
  | .runResetLcu _ => true
  | .runResetPst => true
  | .runResetSdc => true
  | .runResetMu => true
  | .runResetEvq => true
  | .undefinedOpcode .check => true
  | .commandCompletion => true
  | .irqEnableWrite _ => true
  | .eventThresholdWrite _ => true
  | .eventAgeWrite _ => true
  | .eventNext _ => true
  | .timeLatchRead => true
  | .winSpaceWrite _ => true
  | .winIndexWrite _ => true
  | .winOffsetWrite _ _ => true
  | .winDataRead => true
  | .winDataWrite _ => true
  | .decoderTakeStart => true
  | .takeRequest => true
  | .takeAnswer => true
  | .decodeEnd => true
  | .decodeFinish => true
  | .finishAnswer => true
  | .undecodedAnswer => true
  | .hostHoldDrop _ => true
  | .transmitHoldDrop _ => true
  | .codeWord => true
  | .repeatNotice => true
  | .pressAnswer => true
  | .expiry _ => true
  | .learnTimeout => true
  | .append _ => true
  | .ageEvent => true
  | .activation _ => true
  | .elementEnd _ => true
  | .frameEnd _ => true
  | .gapEnd _ => true
  | .tailEnd _ => true
  | .microsecondTick _ => true
  | .millisecondTick => true

end Sys2Proof
end

