-- ==== Sys2Proof/Certificates/Slice0/Obligations.lean ====
section
/-! DEFINITION. The statements for the provers, chapter by chapter. Where a statement rests on a choice of the model, its
docstring names the log entry. -/

open Sys2Proof Sys2Proof.Machine

/-! ## The queue of commands, and pin reset -/

/-- A step with a command at the front of the queue is that command run on the state with the queue's rest. On an empty
queue the block idles, which is the model's choice (log 3). The parts of the state are apart: what replaces a block leaves
every other block, and what replaces one of the numbered parts of a block is read back there and leaves every other part. -/
def Obligations.StepRunsFrontCommand : Prop :=
  (∀ (s : State) (c : Instr), step (s.setPending (c :: s.pending)) = exec c s)
    ∧ (∀ s : State, s.pending = [] → step s = .next s)
    ∧ (∀ (s : State) (pending : List Instr) (pst : PulseStore) (sdc : Decoder) (mu : MatchUnit) (evq : EventQueue)
        (txe : Transmit) (bcu : Bcu),
      s.setPending pending = { s with pending := pending } ∧ s.setPst pst = { s with pst := pst }
      ∧ s.setSdc sdc = { s with sdc := sdc } ∧ s.setMu mu = { s with mu := mu } ∧ s.setEvq evq = { s with evq := evq }
      ∧ s.setTxe txe = { s with txe := txe } ∧ s.setBcu bcu = { s with bcu := bcu } ∧ s.now = s.tb.counter)
    ∧ (∀ (s : State) (c d : Channel) (l : Lcu), (s.setLcu c l).lcu d = (if d = c then l else s.lcu d)
      ∧ s.setLcu c l = { s with lcus := (s.setLcu c l).lcus })
    ∧ (∀ (l : Lcu) (o u : Output) (x : List ClaimMsg), (l.setClaims o x).claimsOf u = (if u = o then x else l.claimsOf u)
      ∧ l.setClaims o x = { l with claims := (l.setClaims o x).claims })
    ∧ (∀ (p : PulseStore) (h k : Handle) (d : Descriptor),
      (p.setDescriptor h d).descriptor k = (if k = h then d else p.descriptor k)
      ∧ p.setDescriptor h d = { p with descriptors := (p.setDescriptor h d).descriptors })
    ∧ (∀ (x : Decoder) (p q : ProfileNo) (y : Profile), (x.setProfile p y).profile q = (if q = p then y else x.profile q)
      ∧ x.setProfile p y = { x with profiles := (x.setProfile p y).profiles })
    ∧ (∀ (x : Decoder) (c d : Channel) (y : DecoderCounters), (x.setCounter c y).counter d = (if d = c then y else x.counter d)
      ∧ x.setCounter c y = { x with counters := (x.setCounter c y).counters })
    ∧ (∀ (m : MatchUnit) (i j : EntryNo) (e : Entry), (m.setEntry i e).entry j = (if j = i then e else m.entry j)
      ∧ m.setEntry i e = { m with table := (m.setEntry i e).table })
    ∧ (∀ (m : MatchUnit) (c d : Channel) (k : Option KeyRecord), (m.setKey c k).key d = (if d = c then k else m.key d)
      ∧ m.setKey c k = { m with keys := (m.setKey c k).keys })
    ∧ (∀ (m : MatchUnit) (c d : Channel) (y : MatchCounters), (m.setCounter c y).counter d = (if d = c then y else m.counter d)
      ∧ m.setCounter c y = { m with counters := (m.setCounter c y).counters })
    ∧ (∀ (t : Transmit) (o u : Output) (e : Engine), (t.setEngine o e).engine u = (if u = o then e else t.engine u)
      ∧ t.setEngine o e = { t with engines := (t.setEngine o e).engines })
    ∧ ∀ (s : State) (o : Output) (e : Engine), s.setEngine o e = s.setTxe (s.txe.setEngine o e)

/-- PIN_RESET puts every block in the state the spec gives it, from any state: every channel with its default settings,
the store empty, every profile and entry with its cleared values, no key record, no session, no awaited answer, the queue and
both engines empty, and the command unit idle. No sample has been taken since, so that the next one gives the accepted level, and
nothing from before the reset is on its way: no sample, tick, request, answer, claim, drop, word or append waits (where each
would wait is the model's, log 28). The commands that wait go on waiting (log 4). The values the model chose are not stated
here. -/
def Obligations.PinResetGivesSpecValues : Prop :=
  ∀ s : State, ∃ t, exec .pinReset s = .next t ∧ t.pending = s.pending
    ∧ t.tb.counter = 0 ∧ t.tb.divider = 0 ∧ t.tb.msTicks = [] ∧ t.bcu.timeLatch = 0
    ∧ (∀ c, (t.lcu c).sampled = false ∧ (t.lcu c).samples = [] ∧ (t.lcu c).waiting = none ∧ (t.lcu c).answer = none
        ∧ (t.lcu c).toStore = { msgs := [], early := 0 } ∧ (t.lcu c).toQueue = { msgs := [], early := 0 }
        ∧ ∀ o, (t.lcu c).claimsOf o = [])
    ∧ t.sdc.request = none ∧ t.sdc.answer = none ∧ t.sdc.hostDrops = []
    ∧ t.sdc.toMatch = { msgs := [], early := 0 } ∧ t.sdc.toQueue = { msgs := [], early := 0 }
    ∧ t.mu.answer = none ∧ t.mu.toQueue = { msgs := [], early := 0 }
    ∧ (∀ o, (t.txe.engine o).toQueue = { msgs := [], early := 0 }) ∧ t.txe.holdDrops = []
    ∧ (∀ c, (t.lcu c).capture = .disabled ∧ (t.lcu c).change = none ∧ (t.lcu c).handle = none ∧ (t.lcu c).count = 0
        ∧ (t.lcu c).measuringStart = none ∧ (t.lcu c).blankCount = 0 ∧ (t.lcu c).counters = .zero
        ∧ (t.lcu c).settings = { polarity := .activeLow, glitchMin := 40#8, endGap := 10000#16, elementLimit := 255#8
                                 stuckLimit := 50#8, profileSet := 0#8, holdWindow := 120#16, reportUnknown := false
                                 reportUndecoded := false, retainUndecoded := false, reportStuck := true })
    ∧ (∀ h, t.pst.descriptor h = { state := .free, channel := 0, openTime := 0, closeTime := 0, count := 0, blocks := []
                                   stale := false, hostHold := false, transmitHolds := 0 })
    ∧ (∀ b, b ∈ t.pst.freeBlocks) ∧ t.pst.freeBlocks.length = 32 ∧ t.pst.queue = []
    ∧ t.sdc.state = .idle ∧ (∀ c, t.sdc.counter c = .zero)
    ∧ (∀ p, t.sdc.profile p = { valid := false, encoding := .distance, tolerance := 0, leader := none, repeatLeader := none
                                unit1 := 0, unit2 := 0, unit3 := 0, minBits := 0, maxBits := 0, order := .lsbFirst
                                toggle := none, period := 0 })
    ∧ (∀ i, t.mu.entry i = { valid := false, profile := 0, bits := 0, pattern := 0, careMask := 0, keyId := 0, channels := 0
                             group := 0, mode := .edge, confirm := 0, holdInterval := 0 })
    ∧ (∀ c, t.mu.key c = none) ∧ t.mu.awaiting = none ∧ t.mu.divert = none
    ∧ t.mu.learn = { state := .idle, channel := 0, k := 0, remaining := 0, candidate := none, matchCount := 0, mismatches := 0
                     result := none, expiredAt := none }
    ∧ (∀ c, t.mu.counter c = .zero)
    ∧ t.evq.records = [] ∧ t.evq.nextSeq = 0 ∧ t.evq.lost = 0 ∧ t.evq.overrunPending = false ∧ t.evq.threshold = 1#8
    ∧ t.evq.ageLimit = 0 ∧ t.evq.evAge = false
    ∧ (∀ o, (t.txe.engine o).state = .idle ∧ (t.txe.engine o).request = none ∧ (t.txe.engine o).snapshot = none
        ∧ (t.txe.engine o).framesSent = 0 ∧ (t.txe.engine o).stopRequested = false ∧ (t.txe.engine o).toggle = false
        ∧ ∀ unit, t.txPin o unit = false)
    ∧ t.txe.queue = []
    ∧ t.bcu.cmdState = .idle ∧ t.bcu.cmdDone = false ∧ t.bcu.collision = false ∧ t.bcu.inFlight = none
    ∧ t.bcu.opcode = 0 ∧ t.bcu.error = 0 ∧ t.bcu.result = 0 ∧ t.bcu.args = { arg0 := 0#8, arg1 := 0#8, arg2 := 2#8, arg3 := 10#8 }
    ∧ t.bcu.enableLevel = false ∧ t.bcu.enableAge = false ∧ t.bcu.enableDone = false ∧ t.irqActive = false
    ∧ t.bcu.winSpace = 0 ∧ t.bcu.winIndex = 0 ∧ t.bcu.winOffset = 0 ∧ t.bcu.counterCapture = 0
    ∧ t.bcu.channelStaging = #v[0x00#8, 40#8, 0x10#8, 0x27#8, 255#8, 50#8, 0x00#8, 120#8, 0x00#8, 0x08#8]
    ∧ t.bcu.profileStaging = Vector.replicate 23 0 ∧ t.bcu.entryStaging = Vector.replicate 25 0
    ∧ t.bcu.transmitStaging = Vector.replicate 21 0

/-! ## Chapter 1: the Time Base and the Line Capture Units -/

/-- MICROSECOND_TICK: the counter advances by 1 and wraps; the divider counts 0 to 999 on its own, and each wrap of it is a
1 ms tick that waits for its event (log 25, the model's); every line is sampled, the first sample gives the accepted level, and
a later one waits for its event (log 7, the model's). Samples that ask for nothing leave from the front of those that wait:
exactly those that show the accepted level with no change pending, or the other level with a change pending for less than the
glitch minimum; every other sample stays at the front, and nothing else of the LCU changes. TIME_LATCH_READ: the read of the low byte copies the whole counter into the latch and returns its low byte; the
three upper bytes then read from the latch, also after the counter has moved on; writes to the latch bytes are ignored; pin
reset clears the latch and RUN_RESET leaves it. -/
def Obligations.TimeBaseTicksAndTheLatchIsConsistent : Prop :=
  (∀ (s : State) (lines : BitVec 4), s.tb.divider < 1000 →
    ∃ t, exec (.microsecondTick lines) s = .next t
      ∧ t = ({ s with tb := t.tb, lcus := t.lcus } : State)
      ∧ t.tb.counter.toNat = (s.tb.counter.toNat + 1) % 2 ^ 32
      ∧ t.tb.divider = (s.tb.divider + 1) % 1000
      ∧ t.tb.msTicks = (if s.tb.divider = 999 then s.tb.msTicks ++ [t.tb.counter] else s.tb.msTicks)
      ∧ ∀ c, ((s.lcu c).sampled = false → t.lcu c = { s.lcu c with sampled := true, level := lines.getLsbD c.val })
          ∧ ((s.lcu c).sampled = true →
              t.lcu c = ({ s.lcu c with
                samples := (s.lcu c).samples ++ [({ time := t.tb.counter, level := lines.getLsbD c.val } : Sample)] } : Lcu).settle))
    ∧ (∀ (l : Lcu) (idle : Sample → Prop),
      (∀ x, idle x ↔ l.change = none ∧ x.level = l.level
        ∨ ∃ edge, l.change = some edge ∧ x.level ≠ l.level ∧ (x.time - edge).toNat < l.settings.glitchMin.toNat) →
      ∃ left, l.samples = left ++ l.settle.samples ∧ (∀ x ∈ left, idle x) ∧ (∀ x rest, l.settle.samples = x :: rest → ¬ idle x)
        ∧ l.settle = { l with samples := l.settle.samples })
    ∧ (∀ (s : State) (v : Byte),
    (∃ t, exec .timeLatchRead s = .next t
      ∧ t = s.setBcu { s.bcu with timeLatch := s.now, dataOut := byteOf s.now 0 }
      ∧ s.readRegister 0x24#6 = t.bcu.dataOut
      ∧ ∀ u : State, u.bcu.timeLatch = t.bcu.timeLatch →
          u.readRegister 0x27#6 ++ u.readRegister 0x26#6 ++ u.readRegister 0x25#6 ++ t.bcu.dataOut = s.now)
    ∧ exec (.registerWrite 0x24#6 v) s = .next s ∧ exec (.registerWrite 0x25#6 v) s = .next s
    ∧ exec (.registerWrite 0x26#6 v) s = .next s ∧ exec (.registerWrite 0x27#6 v) s = .next s
    ∧ (∃ t, exec .pinReset s = .next t ∧ t.bcu.timeLatch = 0)
    ∧ ∃ t, exec .runReset s = .next t ∧ t.bcu.timeLatch = s.bcu.timeLatch)

/-- PENDING_CHANGE_START and PENDING_CHANGE_CANCEL: the sample at the head of those that wait (log 7, the model's) starts a
change with its own time as the edge time, or cancels the change and is counted as a glitch in IDLE, OPEN, DISCARD and
STUCK. Where the level has reached its interval, the transition that belongs to it is taken with the cancellation: what
END_GAP_EXPIRY, DISCARD_END_GAP_EXPIRY or STUCK_LIMIT_EXPIRY does, on the LCU whose change is gone and whose glitch is
counted. -/
def Obligations.SampleStartsOrCancelsAChange : Prop :=
  (∀ (s : State) (c : Channel) (x : Sample) (rest : List Sample),
    (s.lcu c).waiting = none → (s.lcu c).samples = x :: rest →
    ((s.lcu c).change = none → x.level ≠ (s.lcu c).level →
      exec (.pendingChangeStart c) s = .next (s.setLcu c { s.lcu c with change := some x.time }.settle))
    ∧ (∀ edge, (s.lcu c).change = some edge → x.level = (s.lcu c).level →
        (s.lcu c).intervalReached x.time s.now = false →
        exec (.pendingChangeCancel c) s = .next (s.setLcu c
          { s.lcu c with
            change := none
            counters := { (s.lcu c).counters with
              glitches :=
                if (s.lcu c).capture = CaptureState.disabled ∨ (s.lcu c).capture = CaptureState.blanked then (s.lcu c).counters.glitches
                else bump (s.lcu c).counters.glitches } }.settle)))
    ∧ (∀ (s : State) (c : Channel) (x : Sample) (rest : List Sample) (edge : Time),
    (s.lcu c).waiting = none → (s.lcu c).samples = x :: rest → (s.lcu c).change = some edge → x.level = (s.lcu c).level →
    (s.lcu c).intervalReached x.time s.now = true →
    ∃ t, exec (.pendingChangeCancel c) s = .next (s.setLcu c (t.lcu c).settle)
      ∧ exec (if (s.lcu c).isActive then .stuckLimitExpiry c
              else if (s.lcu c).capture = .opened then .endGapExpiry c else .discardEndGapExpiry c)
          (s.setLcu c { s.lcu c with
            change := none, counters := { (s.lcu c).counters with glitches := bump (s.lcu c).counters.glitches } }) = .next t)

/-- ACCEPTED_EDGE in IDLE and OPEN: the level changes; a mark in IDLE asks for a descriptor, and IDLE is left at that
moment (the capture state then reads OPEN, log 9, the model's); in OPEN the element in progress
is written at the element count with the difference of the edge times, at most 65,535, unless the count would exceed L: then
the burst is abandoned, too-long is counted, and DISCARD is measured from the acceptance. In STUCK an edge to rest leads to
DISCARD measured from the acceptance; in DISCARD the measuring start becomes the edge time, unless the measuring start is
later (log 11, the model's); in DISABLED and BLANKED, and for an edge to rest in IDLE, only the level changes. The acceptance here is that of
the waiting sample (log 7, the model's), and one before which no interval has been reached (log 10, the model's). -/
def Obligations.AcceptedEdgeMovesTheCapture : Prop :=
  (∀ (s : State) (c : Channel) (x : Sample) (rest : List Sample) (edge : Time),
    (s.lcu c).waiting = none → (s.lcu c).samples = x :: rest → (s.lcu c).change = some edge → x.level ≠ (s.lcu c).level →
    (s.lcu c).settings.glitchMin.toNat ≤ elapsed edge x.time → (s.lcu c).expiryDue s.now = false →
    ((s.lcu c).capture = .idle → (s.lcu c).isActive = false →
      exec (.acceptedEdge c) s = .next (s.setLcu c
        { s.lcu c with
          level := !(s.lcu c).level, change := none, capture := .opened
          waiting := some (.descriptor edge)
          toStore := (s.lcu c).toStore.push (.descriptor edge) }.settle))
    ∧ (∀ h, (s.lcu c).capture = .opened → (s.lcu c).handle = some h →
        ((s.lcu c).count + 1 ≤ (s.lcu c).settings.elementLimit.toNat →
          exec (.acceptedEdge c) s = .next (s.setLcu c
            { s.lcu c with
              level := !(s.lcu c).level, change := none, waiting := some (.write edge)
              toStore := (s.lcu c).toStore.push
                (.write h (s.lcu c).count (BitVec.ofNat 16 (min (elapsed (s.lcu c).elementStart edge) 65535))) }.settle))
        ∧ ((s.lcu c).settings.elementLimit.toNat < (s.lcu c).count + 1 →
          exec (.acceptedEdge c) s = .next (s.setLcu c
            { s.lcu c with
              level := !(s.lcu c).level, change := none, capture := .discard, handle := none, count := 0
              measuringStart := some x.time, toStore := (s.lcu c).toStore.push (.abandon h)
              counters := { (s.lcu c).counters with tooLong := bump (s.lcu c).counters.tooLong } }.settle))))
    ∧ (∀ (s : State) (c : Channel) (x : Sample) (rest : List Sample) (edge : Time),
    (s.lcu c).waiting = none → (s.lcu c).samples = x :: rest → (s.lcu c).change = some edge → x.level ≠ (s.lcu c).level →
    (s.lcu c).settings.glitchMin.toNat ≤ elapsed edge x.time → (s.lcu c).expiryDue s.now = false →
    ((s.lcu c).capture = .stuck → (s.lcu c).isActive = true →
      exec (.acceptedEdge c) s = .next (s.setLcu c
        { s.lcu c with
          level := !(s.lcu c).level, change := none, capture := .discard, measuringStart := some x.time }.settle))
    ∧ (∀ m, (s.lcu c).capture = .discard → (s.lcu c).measuringStart = some m →
        exec (.acceptedEdge c) s = .next (s.setLcu c
          { s.lcu c with
            level := !(s.lcu c).level, change := none
            measuringStart := some (if elapsed m s.now ≤ elapsed edge s.now then m else edge) }.settle))
    ∧ ((s.lcu c).capture = .disabled ∨ (s.lcu c).capture = .blanked
          ∨ (s.lcu c).capture = .idle ∧ (s.lcu c).isActive = true →
        exec (.acceptedEdge c) s = .next (s.setLcu c { s.lcu c with level := !(s.lcu c).level, change := none }.settle)))

/-- DESCRIPTOR_ANSWER and WRITE_ANSWER: a grant opens the burst with element 0 at the edge time; a refusal leads to DISCARD,
measured from now, and is counted no-descriptor; a taken write advances the count and starts the next element at the edge
time; a refused one abandons the burst, counts store-full and leads to DISCARD, measured from now. -/
def Obligations.StoreAnswersMoveTheCapture : Prop :=
  ∀ (s : State) (c : Channel) (edge : Time),
    ((s.lcu c).waiting = some (.descriptor edge) →
      (∀ h, (s.lcu c).answer = some (.granted h) →
        exec (.descriptorAnswer c) s = .next (s.setLcu c
          { s.lcu c with
            waiting := none, answer := none, capture := .opened, handle := some h, count := 0, elementStart := edge
            measuringStart := none }))
      ∧ ((s.lcu c).answer = some .noDescriptor →
        exec (.descriptorAnswer c) s = .next (s.setLcu c
          { s.lcu c with
            waiting := none, answer := none, capture := .discard, measuringStart := some s.now
            counters := { (s.lcu c).counters with noDescriptor := bump (s.lcu c).counters.noDescriptor } })))
    ∧ ((s.lcu c).waiting = some (.write edge) →
      ((s.lcu c).answer = some .taken →
        exec (.writeAnswer c) s = .next (s.setLcu c
          { s.lcu c with waiting := none, answer := none, count := (s.lcu c).count + 1, elementStart := edge }))
      ∧ (∀ h, (s.lcu c).answer = some .noBlock → (s.lcu c).handle = some h →
        exec (.writeAnswer c) s = .next (s.setLcu c
          { s.lcu c with
            waiting := none, answer := none, capture := .discard, measuringStart := some s.now, handle := none, count := 0
            toStore := (s.lcu c).toStore.push (.abandon h)
            counters := { (s.lcu c).counters with storeFull := bump (s.lcu c).counters.storeFull } })))

/-- An interval is measured in OPEN from the start of the element in progress and in DISCARD from the measuring start: a mark
against the stuck limit in ms, never with the limit 0; rest against the end gap. An expiry is due when the interval is reached
by now, or by a pending change's edge time where a change is pending, or by the time of the first sample that waits (logs 7 and
10, the model's); a moment before the start counts as 0 (log 11, the model's). A space in OPEN that reaches the end gap closes the burst with the end of its last mark, counts bursts
closed, and the channel is IDLE; rest in DISCARD that reaches it makes the channel IDLE and does nothing else. At the stuck
limit the open burst, if there is one, is abandoned; STUCK; stuck episodes; and, where report_stuck is on, a LINE_STUCK with
the channel and the moment the mark reached the limit. -/
def Obligations.ExpiriesEndTheBurstOrTheRest : Prop :=
  (∀ (l : Lcu) (now upTo : Time) (held : Time → Nat),
    (∀ start, held start = if (now - upTo).toNat ≤ (now - start).toNat then (upTo - start).toNat else 0) →
    (l.intervalReached upTo now = true ↔
      ∃ start, ((l.capture = .opened ∧ start = l.elementStart) ∨ (l.capture = .discard ∧ l.measuringStart = some start))
        ∧ (l.isActive = true → 0 < l.settings.stuckLimit.toNat ∧ l.settings.stuckLimit.toNat * 1000 ≤ held start)
        ∧ (l.isActive = false → l.settings.endGap.toNat ≤ held start))
    ∧ (upTo = (match l.change, l.samples with
        | some edge, _ => edge
        | none, x :: _ => x.time
        | none, [] => now) → l.expiryDue now = l.intervalReached upTo now))
    ∧ (∀ (s : State) (c : Channel), (s.lcu c).waiting = none → (s.lcu c).isActive = false → (s.lcu c).expiryDue s.now = true →
    (∀ h, (s.lcu c).capture = .opened → (s.lcu c).handle = some h →
      exec (.endGapExpiry c) s = .next (s.setLcu c
        { s.lcu c with
          capture := .idle, handle := none, count := 0, measuringStart := some (s.lcu c).elementStart
          toStore := (s.lcu c).toStore.push (.close h (s.lcu c).elementStart)
          counters := { (s.lcu c).counters with burstsClosed := bump (s.lcu c).counters.burstsClosed } }))
    ∧ ((s.lcu c).capture = .discard →
      exec (.discardEndGapExpiry c) s = .next (s.setLcu c { s.lcu c with capture := .idle })))
    ∧ (∀ (s : State) (c : Channel) (start : Time), (s.lcu c).waiting = none → (s.lcu c).isActive = true →
    (s.lcu c).expiryDue s.now = true →
    ((s.lcu c).capture = .opened ∧ start = (s.lcu c).elementStart ∧ (s.lcu c).handle.isSome = true
      ∨ (s.lcu c).capture = .discard ∧ (s.lcu c).measuringStart = some start ∧ (s.lcu c).handle = none) →
    exec (.stuckLimitExpiry c) s = .next (s.setLcu c
      { s.lcu c with
        capture := .stuck, handle := none, count := 0, measuringStart := some start
        toStore := (match (s.lcu c).handle with
          | some h => (s.lcu c).toStore.push (.abandon h)
          | none => (s.lcu c).toStore)
        counters := { (s.lcu c).counters with stuckEpisodes := bump (s.lcu c).counters.stuckEpisodes }
        toQueue := (if (s.lcu c).settings.reportStuck then
          (s.lcu c).toQueue.push
            { source := BitVec.ofNat 8 c.val
              stamp := start + BitVec.ofNat 32 ((s.lcu c).settings.stuckLimit.toNat * 1000), body := .lineStuck }
          else (s.lcu c).toQueue) }))

/-- BLANK_CLAIM: the count goes up by 1, never above 2. From 0 to 1 an open burst is abandoned and counted, and every
channel that is not DISABLED goes to BLANKED; from 1 on the capture state is unchanged. CLAIM_DROP: the count goes down by
1, never below 0. From 1 to 0 a BLANKED channel goes to DISCARD with the moment of the drop as its measuring start;
otherwise the capture state is unchanged. -/
def Obligations.BlankClaimsAndDropsMoveTheChannel : Prop :=
  (∀ (s : State) (o : Output) (c : Channel) (claims : List ClaimMsg), (s.lcu c).waiting = none →
    (s.lcu c).claimsOf o = .claim :: claims →
    ((s.lcu c).blankCount = 0 → (s.lcu c).capture ≠ .opened → (s.lcu c).capture ≠ .disabled →
      exec (.blankClaim o c) s = .next (s.setLcu c
        { (s.lcu c).setClaims o claims with capture := .blanked, blankCount := 1, measuringStart := none }))
    ∧ (∀ h, (s.lcu c).blankCount = 0 → (s.lcu c).capture = .opened → (s.lcu c).handle = some h →
      exec (.blankClaim o c) s = .next (s.setLcu c
        { (s.lcu c).setClaims o claims with
          capture := .blanked, blankCount := 1, measuringStart := none, handle := none, count := 0
          toStore := (s.lcu c).toStore.push (.abandon h)
          counters := { (s.lcu c).counters with blankAbandoned := bump (s.lcu c).counters.blankAbandoned } }))
    ∧ ((s.lcu c).capture = .disabled ∨ 0 < (s.lcu c).blankCount →
      exec (.blankClaim o c) s = .next (s.setLcu c
        { (s.lcu c).setClaims o claims with blankCount := min 2 ((s.lcu c).blankCount + 1) })))
    ∧ (∀ (s : State) (o : Output) (c : Channel) (claims : List ClaimMsg), (s.lcu c).waiting = none →
    (s.lcu c).claimsOf o = .drop :: claims →
    ((s.lcu c).blankCount = 1 → (s.lcu c).capture = .blanked →
      exec (.claimDrop o c) s = .next (s.setLcu c
        { (s.lcu c).setClaims o claims with capture := .discard, blankCount := 0, measuringStart := some s.now }))
    ∧ ((s.lcu c).blankCount ≠ 1 ∨ (s.lcu c).capture ≠ .blanked →
      exec (.claimDrop o c) s = .next (s.setLcu c
        { (s.lcu c).setClaims o claims with blankCount := (s.lcu c).blankCount - 1 })))

/-! ## Chapter 2: the Pulse Store -/

/-- DESCRIPTOR_REQUEST: the FREE descriptor with the lowest handle is granted, empty and clear, with the request's open
time, and the LCU is answered its handle; where none is FREE the store is unchanged and the LCU is refused. With no part of a
RUN_RESET waiting, the request that the store may take is the oldest one that the LCU has sent. -/
def Obligations.DescriptorRequestGrantsTheLowestFree : Prop :=
  (∀ (s : State) (c : Channel), (∀ f, s.bcu.inFlight = some f → f.cmd = some .runReset → f.parts = []) →
    s.storeRequest c = (s.lcu c).toStore.msgs.head?)
  ∧ ∀ (s : State) (c : Channel) (openTime : Time), s.storeRequest c = some (.descriptor openTime) →
    (∀ h, (s.pst.descriptor h).state = .free → (∀ k < h, (s.pst.descriptor k).state ≠ .free) →
      exec (.descriptorRequest c) s = .next
        ((s.setPst (s.pst.setDescriptor h
            { state := .opened, channel := c, openTime := openTime, closeTime := 0, count := 0, blocks := [], stale := false
              hostHold := false, transmitHolds := 0 })).setLcu c
          { s.lcu c with toStore := (s.lcu c).toStore.pop, answer := some (.granted h) }))
    ∧ ((∀ h, (s.pst.descriptor h).state ≠ .free) →
      exec (.descriptorRequest c) s = .next
        (s.setLcu c { s.lcu c with toStore := (s.lcu c).toStore.pop, answer := some .noDescriptor }))

/-- ELEMENT_WRITE: at a position that is a multiple of 16 any block of the free list is appended to the burst's list, or the
write is refused and the store unchanged where none is free; at another position the burst's last block takes it; the
duration is placed in its slot, the count goes up by 1; a stray write changes nothing and is answered as taken. A taken
write changes one slot: the element at its position reads as the duration, and every other slot of the store reads as
before, where the slot memory has its canonical form (log 13, the model's). -/
def Obligations.ElementWritePlacesTheDuration : Prop :=
  (∀ (s : State) (c : Channel) (pick : BlockNo) (h : Handle) (position : Nat) (duration : Half),
    s.storeRequest c = some (.write h position duration) →
    ((s.pst.descriptor h).state = .opened → (s.pst.descriptor h).channel = c →
      (∀ b, position % 16 ≠ 0 → (s.pst.descriptor h).blocks[position / 16]? = some b →
        exec (.elementWrite c pick) s = .next
          ((s.setPst { s.pst.setDescriptor h { s.pst.descriptor h with count := (s.pst.descriptor h).count + 1 } with
              slots := Memory.write s.pst.slots (16 * b.val + position % 16) duration }).setLcu c
            { s.lcu c with toStore := (s.lcu c).toStore.pop, answer := some .taken }))
      ∧ (position % 16 = 0 → s.pst.freeBlocks ≠ [] →
        ∃ b ∈ s.pst.freeBlocks, exec (.elementWrite c pick) s = .next
          ((s.setPst { s.pst.setDescriptor h { s.pst.descriptor h with
                count := (s.pst.descriptor h).count + 1, blocks := (s.pst.descriptor h).blocks ++ [b] } with
              freeBlocks := s.pst.freeBlocks.erase b
              slots := Memory.write s.pst.slots (16 * b.val) duration }).setLcu c
            { s.lcu c with toStore := (s.lcu c).toStore.pop, answer := some .taken }))
      ∧ (position % 16 = 0 → s.pst.freeBlocks = [] →
        exec (.elementWrite c pick) s = .next
          (s.setLcu c { s.lcu c with toStore := (s.lcu c).toStore.pop, answer := some .noBlock })))
    ∧ ((s.pst.descriptor h).state ≠ .opened ∨ (s.pst.descriptor h).channel ≠ c →
      exec (.elementWrite c pick) s = .next
        (s.setLcu c { s.lcu c with toStore := (s.lcu c).toStore.pop, answer := some .taken })))
    ∧ (∀ (s : State) (c : Channel) (pick : BlockNo) (h : Handle) (position : Nat) (duration : Half),
    s.storeRequest c = some (.write h position duration) → (s.pst.descriptor h).state = .opened →
    (s.pst.descriptor h).channel = c → (s.pst.descriptor h).blocks.length = (position + 15) / 16 →
    (position % 16 = 0 → s.pst.freeBlocks ≠ []) → Memory.wf s.pst.slots →
    ∃ t b, exec (.elementWrite c pick) s = .next t ∧ (t.lcu c).answer = some .taken
      ∧ (t.pst.descriptor h).blocks[position / 16]? = some b
      ∧ t.pst.elementAt (t.pst.descriptor h) position = duration
      ∧ ∀ a, a ≠ 16 * b.val + position % 16 → Memory.read t.pst.slots a = Memory.read s.pst.slots a)

/-- CLOSE_REQUEST and ABANDON_REQUEST: a close sets the close time, makes the descriptor QUEUED and appends its handle to
the burst queue; an abandon frees the descriptor and its blocks; a stray one only leaves its sender's mailbox. No answer is
sent. -/
def Obligations.CloseQueuesAndAbandonFrees : Prop :=
  ∀ (s : State) (c : Channel) (h : Handle),
    (∀ closeTime, s.storeRequest c = some (.close h closeTime) →
      ((s.pst.descriptor h).state = .opened → (s.pst.descriptor h).channel = c →
        exec (.closeRequest c) s = .next
          ((s.setPst { s.pst.setDescriptor h { s.pst.descriptor h with state := .queued, closeTime := closeTime } with
              queue := s.pst.queue ++ [h] }).setLcu c { s.lcu c with toStore := (s.lcu c).toStore.pop }))
      ∧ ((s.pst.descriptor h).state ≠ .opened ∨ (s.pst.descriptor h).channel ≠ c →
        exec (.closeRequest c) s = .next (s.setLcu c { s.lcu c with toStore := (s.lcu c).toStore.pop })))
    ∧ (s.storeRequest c = some (.abandon h) →
      ((s.pst.descriptor h).state = .opened → (s.pst.descriptor h).channel = c →
        exec (.abandonRequest c) s = .next
          ((s.setPst { s.pst.setDescriptor h .freed with
              freeBlocks := s.pst.freeBlocks ++ (s.pst.descriptor h).blocks }).setLcu c
            { s.lcu c with toStore := (s.lcu c).toStore.pop }))
      ∧ ((s.pst.descriptor h).state ≠ .opened ∨ (s.pst.descriptor h).channel ≠ c →
        exec (.abandonRequest c) s = .next (s.setLcu c { s.lcu c with toStore := (s.lcu c).toStore.pop })))

/-- CHANNEL_PURGE: every QUEUED descriptor of the channel is freed and leaves the queue, whose other members keep their
order; a DECODING descriptor of it is marked stale; every other descriptor is as before; exactly the freed descriptors'
blocks return to the free list. -/
def Obligations.ChannelPurgeFreesQueuedAndMarksStale : Prop :=
  ∀ (s : State) (c : Channel), s.storeRequest c = some .purge → s.pst.sound →
    ∃ t, exec (.channelPurge c) s = .next t
      ∧ t = ((s.setPst t.pst).setLcu c { s.lcu c with toStore := (s.lcu c).toStore.pop }).answerPart .purge {}
      ∧ (∀ h, t.pst.descriptor h =
          if (s.pst.descriptor h).channel = c ∧ (s.pst.descriptor h).state = .queued then .freed
          else if (s.pst.descriptor h).channel = c ∧ (s.pst.descriptor h).state = .decoding then
            { s.pst.descriptor h with stale := true }
          else s.pst.descriptor h)
      ∧ t.pst.queue = s.pst.queue.filter (fun h => (s.pst.descriptor h).channel ≠ c)
      ∧ t.pst.slots = s.pst.slots
      ∧ ∀ b, b ∈ t.pst.freeBlocks ↔
          b ∈ s.pst.freeBlocks ∨ ∃ h, (s.pst.descriptor h).channel = c ∧ (s.pst.descriptor h).state = .queued
            ∧ b ∈ (s.pst.descriptor h).blocks

/-- TAKE_REQUEST: the head of the burst queue becomes DECODING with its stale flag clear, leaves the queue, and its handle
is answered; with an empty queue the answer is EMPTY and the store is unchanged. No RUN_RESET stands between the store and
the decoder here (log 15, the model's). DECODER_TAKE_START and TAKE_ANSWER: an IDLE decoder with nothing outstanding and a
burst queued sends a take request; on a handle it begins the decode, noting the burst's channel, open time and count and the
channel's profile set as they stand (log 36, the model's); on EMPTY it stays IDLE. -/
def Obligations.DecoderTakesTheHeadBurst : Prop :=
  (∀ s : State, s.sdc.request = some .take → (.pst ∈ s.resetParts ∨ .sdc ∉ s.resetParts) →
    (∀ h rest, s.pst.queue = h :: rest →
      exec .takeRequest s = .next
        ((s.setPst { s.pst.setDescriptor h { s.pst.descriptor h with state := .decoding, stale := false } with
            queue := rest }).setSdc { s.sdc with request := none, answer := some (.took h) }))
    ∧ (s.pst.queue = [] →
      exec .takeRequest s = .next (s.setSdc { s.sdc with request := none, answer := some .empty })))
    ∧ (∀ s : State, s.sdc.state = .idle →
    (s.sdc.request = none → s.sdc.answer = none → s.pst.queue ≠ [] →
      exec .decoderTakeStart s = .next (s.setSdc { s.sdc with request := some .take }))
    ∧ (∀ h, s.sdc.answer = some (.took h) →
      exec .takeAnswer s = .next (s.setSdc { s.sdc with
        answer := none
        state := .decoding
          { handle := h, channel := (s.pst.descriptor h).channel, openTime := (s.pst.descriptor h).openTime
            count := (s.pst.descriptor h).count
            profileSet := (s.lcu (s.pst.descriptor h).channel).settings.profileSet } }))
    ∧ (s.sdc.answer = some .empty → exec .takeAnswer s = .next (s.setSdc { s.sdc with answer := none })))

/-- DECODE_FINISH: a stale burst is freed with the answer STALE; disposition FREE frees it with FREED; disposition RETAIN
keeps it with its host hold and no transmit holds where fewer than four are RETAINED, else frees it with NO_ROOM; a finish
that names no DECODING descriptor changes nothing and is answered STALE. -/
def Obligations.DecodeFinishFreesOrRetains : Prop :=
  (∀ p : PulseStore, p.retainedDescriptors = (Finset.univ.filter fun h : Handle => (p.descriptor h).state = .retained).card)
  ∧ ∀ (s : State) (h : Handle) (d : Disposition) (answer : DecoderAnswer), s.sdc.request = some (.finish h d) →
    ((s.pst.descriptor h).state = .decoding →
      (((s.pst.descriptor h).stale = true ∧ answer = .stale
          ∨ (s.pst.descriptor h).stale = false ∧ d = .free ∧ answer = .freed
          ∨ (s.pst.descriptor h).stale = false ∧ d = .retain ∧ 4 ≤ s.pst.retainedDescriptors ∧ answer = .noRoom) →
        exec .decodeFinish s = .next
          ((s.setPst { s.pst.setDescriptor h .freed with
              freeBlocks := s.pst.freeBlocks ++ (s.pst.descriptor h).blocks }).setSdc
            { s.sdc with request := none, answer := some answer }))
      ∧ ((s.pst.descriptor h).stale = false → d = .retain → s.pst.retainedDescriptors < 4 →
        exec .decodeFinish s = .next
          ((s.setPst (s.pst.setDescriptor h
              { s.pst.descriptor h with state := .retained, hostHold := true, transmitHolds := 0 })).setSdc
            { s.sdc with request := none, answer := some .retained })))
    ∧ ((s.pst.descriptor h).state ≠ .decoding →
      exec .decodeFinish s = .next (s.setSdc { s.sdc with request := none, answer := some .stale }))

/-- HOST_HOLD_DROP and TRANSMIT_HOLD_DROP: a drop clears the host hold, or takes one transmit hold away; the drop that takes
the last hold frees the descriptor and its blocks; a stray drop changes nothing in the store. BURST_RELEASE: a RETAINED
descriptor with its host hold set loses it, and is freed where it has no transmit hold; any other handle is refused with
BAD_HANDLE and the store unchanged. -/
def Obligations.LastHoldDropFreesTheBurst : Prop :=
  (∀ (s : State) (h : Handle),
    (h ∈ s.sdc.hostDrops →
      ∃ p, exec (.hostHoldDrop h) s = .next ((s.setPst p).setSdc { s.sdc with hostDrops := s.sdc.hostDrops.erase h })
        ∧ ((s.pst.descriptor h).state = .retained → (s.pst.descriptor h).hostHold = true →
            p = if (s.pst.descriptor h).transmitHolds = 0 then
                  { s.pst.setDescriptor h .freed with freeBlocks := s.pst.freeBlocks ++ (s.pst.descriptor h).blocks }
                else s.pst.setDescriptor h { s.pst.descriptor h with hostHold := false })
        ∧ ((s.pst.descriptor h).state ≠ .retained ∨ (s.pst.descriptor h).hostHold = false → p = s.pst))
    ∧ (h ∈ s.txe.holdDrops →
      ∃ p, exec (.transmitHoldDrop h) s = .next ((s.setPst p).setTxe { s.txe with holdDrops := s.txe.holdDrops.erase h })
        ∧ ((s.pst.descriptor h).state = .retained → 0 < (s.pst.descriptor h).transmitHolds →
            p = if (s.pst.descriptor h).transmitHolds = 1 ∧ (s.pst.descriptor h).hostHold = false then
                  { s.pst.setDescriptor h .freed with freeBlocks := s.pst.freeBlocks ++ (s.pst.descriptor h).blocks }
                else s.pst.setDescriptor h
                  { s.pst.descriptor h with transmitHolds := (s.pst.descriptor h).transmitHolds - 1 })
        ∧ ((s.pst.descriptor h).state ≠ .retained ∨ (s.pst.descriptor h).transmitHolds = 0 → p = s.pst)))
    ∧ (∀ (s : State) (f : InFlight) (h : Handle), s.bcu.inFlight = some f → f.cmd = some .burstRelease →
    f.args.arg0.toNat = h.val → .pst ∈ f.parts →
    ((s.pst.descriptor h).state = .retained → (s.pst.descriptor h).hostHold = true →
      ((s.pst.descriptor h).transmitHolds = 0 →
        exec (.burstRelease .take) s = .next ((s.setPst { s.pst.setDescriptor h .freed with
          freeBlocks := s.pst.freeBlocks ++ (s.pst.descriptor h).blocks }).answerPart .pst {}))
      ∧ (0 < (s.pst.descriptor h).transmitHolds →
        exec (.burstRelease .take) s = .next
          ((s.setPst (s.pst.setDescriptor h { s.pst.descriptor h with hostHold := false })).answerPart .pst {})))
    ∧ ((s.pst.descriptor h).state ≠ .retained ∨ (s.pst.descriptor h).hostHold = false →
      exec (.burstRelease .take) s = .next (s.answerPart .pst { error := some .badHandle })))

/-! ## Chapter 3: the Symbol Decoder -/

/-- The field checks on a profile staging record in its byte layout, the timing checks, the nominals a profile
uses, separability, and the field checks on an entry: which of them fail is what the rules say. -/
def Obligations.FieldAndTimingChecks : Prop :=
  (∀ r : Vector Byte 23, profileOfBytes r = none ↔
      2 < r[1].toNat ∨ 1 < r[20].toNat ∨ r[2].toNat < 1 ∨ 12 < r[2].toNat ∨ r[18].toNat < 1 ∨ 64 < r[18].toNat
        ∨ r[19].toNat < 1 ∨ 64 < r[19].toNat ∨ r[19].toNat < r[18].toNat
        ∨ (r[3].getLsbD 1 = true ∧ r[1].toNat = 2) ∨ (r[3].getLsbD 2 = true ∧ r[18].toNat ≤ r[21].toNat))
    ∧ (∀ p : Profile, p.timingValid = false ↔
      (∃ n ∈ p.usedNominals, n.toNat < 50 ∨ 30000 < n.toNat)
        ∨ (p.encoding = .distance ∧ separable p.tolerance p.unit2 p.unit3 = false)
        ∨ (p.encoding = .width ∧ separable p.tolerance p.unit1 p.unit2 = false)
        ∨ (p.encoding = .biphase ∧ 10 < p.tolerance)
        ∨ ∃ l r, p.leader = some l ∧ p.repeatLeader = some r ∧ separable p.tolerance l.space r.space = false)
    ∧ (∀ (p : Profile) (n : Half), n ∈ p.usedNominals ↔
      (∃ l, p.leader = some l ∧ (n = l.mark ∨ n = l.space)) ∨ (∃ l, p.repeatLeader = some l ∧ (n = l.mark ∨ n = l.space))
        ∨ n = p.unit1 ∨ (p.encoding ≠ .biphase ∧ (n = p.unit2 ∨ n = p.unit3)))
    ∧ (∀ (k : Nat) (x y : Half), x.toNat ≤ y.toNat →
      (separable k x y = true ↔ x.toNat * (32 + k) < y.toNat * (32 - k)) ∧ separable k y x = separable k x y)
    ∧ ∀ x : EntryFields, entryOfFields x = none ↔
      7 < x.profile ∨ x.bits < 1 ∨ 64 < x.bits ∨ (∃ n, x.bits ≤ n ∧ x.pattern.getLsbD n = true)
        ∨ (∃ n, x.bits ≤ n ∧ x.careMask.getLsbD n = true) ∨ x.channels = 0 ∨ 15 < x.channels.toNat ∨ 15 < x.group.toNat
        ∨ 1 < x.mode.toNat ∨ x.confirm.toNat < 1 ∨ 4 < x.confirm.toNat

/-- PROFILE_COMMIT and PROFILE_CLEAR: refused with the error of the first failing stage and the profile unchanged; else the
profile takes the record's fields, or its cleared values. A commit is IN_USE under an enabled channel that names the profile
or a VALID entry that conflicts with it; a clear under any channel or VALID entry that names it. The
use checks read the code table, which waits for the answer to a PRESS. -/
def Obligations.ProfileCommandsCheckAndWrite : Prop :=
  ∀ (s : State) (f : InFlight) (p : ProfileNo), s.bcu.inFlight = some f → f.args.arg0.toNat = p.val → .sdc ∈ f.parts →
    (∀ r, f.cmd = some .profileCommit → f.staging = .profile r →
      (profileOfBytes r = none →
        exec (.profileCommit .take) s = .next (s.answerPart .sdc { error := some .badArg }))
      ∧ ∀ x inUse, profileOfBytes r = some x →
        (inUse ↔ (∃ c, (s.lcu c).settings.profileSet.getLsbD p.val = true ∧ (s.lcu c).capture ≠ .disabled)
          ∨ ∃ i, (s.mu.entry i).valid = true ∧ (s.mu.entry i).profile = p
              ∧ ((s.mu.entry i).bits < x.minBits ∨ x.maxBits < (s.mu.entry i).bits
                ∨ ∃ t, x.toggle = some t ∧ (s.mu.entry i).careMask.getLsbD t = true)) →
        (x.timingValid = false →
          exec (.profileCommit .take) s = .next (s.answerPart .sdc { error := some .badTiming }))
        ∧ (x.timingValid = true → s.mu.awaiting = none → inUse →
          exec (.profileCommit .take) s = .next (s.answerPart .sdc { error := some .inUse }))
        ∧ (x.timingValid = true → s.mu.awaiting = none → ¬ inUse →
          exec (.profileCommit .take) s = .next ((s.setSdc (s.sdc.setProfile p x)).answerPart .sdc {})))
    ∧ (∀ inUse, f.cmd = some .profileClear → s.mu.awaiting = none →
      (inUse ↔ (∃ c, (s.lcu c).settings.profileSet.getLsbD p.val = true)
        ∨ ∃ i, (s.mu.entry i).valid = true ∧ (s.mu.entry i).profile = p) →
      (inUse → exec (.profileClear .take) s = .next (s.answerPart .sdc { error := some .inUse }))
      ∧ (¬ inUse →
        exec (.profileClear .take) s = .next ((s.setSdc (s.sdc.setProfile p .cleared)).answerPart .sdc {})))

/-- The lowest profile of the set whose attempt ends FULL or REPEAT gives the result; where all fail, the reason is that of
the deepest attempt, of the lowest profile among equally deep ones; an empty set gives NO_PROFILE. DECODE_END: the result is
what the burst's durations decode to, and the decode finish names the handle, with RETAIN exactly for an undecodable burst
of a channel with retain_undecoded on; all attempts fall in the one event (log 16, the model's). An attempt: the leader, the
repeat frame, LEADER at depth 0; then the data step from there. DISTANCE and WIDTH read pairs: SYMBOL at the element that
matches nothing, TRAILING after the trailer at the greatest bit count. BIPHASE reads halves: CELL at the element of the first
half of the first cell with like halves, SYMBOL at an element that is neither T nor 2T; a last mark half is a 1. The bits
read are FULL, or LENGTH at depth n outside the bit counts. -/
def Obligations.LowestReadingProfileWins : Prop :=
  (∀ (profiles : Vector Profile 8) (set : Byte) (ds : List Nat),
    (∀ i : ProfileNo, set.getLsbD i.val = true →
      (∀ j < i, set.getLsbD j.val = true → ∃ r d, (profiles[j.val]).attempt ds = .fail r d) →
      (∀ got, (profiles[i.val]).attempt ds = .full got →
        decodeBurst profiles set ds = (profiles[i.val]).fullResult i got)
      ∧ ((profiles[i.val]).attempt ds = .repeated → decodeBurst profiles set ds = .repeated i))
    ∧ (∀ (i : ProfileNo) (r : FailReason) (d : Nat), set.getLsbD i.val = true → (profiles[i.val]).attempt ds = .fail r d →
      (∀ j : ProfileNo, set.getLsbD j.val = true →
        ∃ r' d', (profiles[j.val]).attempt ds = .fail r' d' ∧ d' ≤ d ∧ (j < i → d' < d)) →
      decodeBurst profiles set ds = .undecodable r)
    ∧ (set = 0 → decodeBurst profiles set ds = .undecodable .noProfile))
    ∧ (∀ (s : State) (job : DecodeJob), s.sdc.state = .decoding job →
    ∃ result disposition, exec .decodeEnd s = .next (s.setSdc { s.sdc with
        state := .finishing job result (s.lcu job.channel).settings.reportUndecoded
        request := some (.finish job.handle disposition) })
      ∧ result = decodeBurst s.sdc.profiles job.profileSet
          ((List.range job.count).map fun p => (s.pst.elementAt (s.pst.descriptor job.handle) p).toNat)
      ∧ (disposition = .retain ↔
          (∃ reason, result = .undecodable reason) ∧ (s.lcu job.channel).settings.retainUndecoded = true))
    ∧ (∀ (p : Profile) (ds : List Nat),
    (∀ d n, p.near d n = true ↔ (d - n + (n - d)) * 32 ≤ n * p.tolerance)
    ∧ (p.leaderMatches ds = true ↔ ∃ l d0 d1 rest, p.leader = some l ∧ ds = d0 :: d1 :: rest
        ∧ p.near d0 l.mark.toNat = true ∧ p.near d1 l.space.toNat = true)
    ∧ (p.repeatMatches ds = true ↔ ∃ l d0 d1 d2, p.repeatLeader = some l ∧ ds = [d0, d1, d2]
        ∧ p.near d0 l.mark.toNat = true ∧ p.near d1 l.space.toNat = true ∧ p.near d2 p.unit1.toNat = true)
    ∧ (p.leaderMatches ds = false → p.repeatMatches ds = true → p.attempt ds = .repeated)
    ∧ (p.leaderMatches ds = false → p.repeatMatches ds = false → p.leader.isSome = true → p.attempt ds = .fail .leader 0)
    ∧ ∀ (start : Nat) (ended : List Bool → AttemptResult),
      (p.leaderMatches ds = true ∧ start = 2
        ∨ p.leaderMatches ds = false ∧ p.repeatMatches ds = false ∧ p.leader = none ∧ start = 0) →
      (∀ got, ended got = if p.minBits ≤ got.length ∧ got.length ≤ p.maxBits then .full got else .fail .length ds.length) →
      (p.encoding = .distance → ∀ (pairs : List (Nat × Nat)) (got : List Bool) (rest : List Nat),
        ds.drop start = (pairs.flatMap fun x => [x.1, x.2]) ++ rest → got.length ≤ p.maxBits →
        List.Forall₂ (fun x b => p.near x.1 p.unit1.toNat = true ∧ p.near x.2 (if b then p.unit3 else p.unit2).toNat = true
          ∧ (b = true → p.near x.2 p.unit2.toNat = false)) pairs got →
        (∀ d, rest = [d] → p.near d p.unit1.toNat = true → p.attempt ds = ended got)
        ∧ (∀ d more, rest = d :: more → p.near d p.unit1.toNat = false →
            p.attempt ds = .fail .symbol (start + 2 * pairs.length))
        ∧ (∀ d d' more, rest = d :: d' :: more → p.near d p.unit1.toNat = true →
          (got.length = p.maxBits → p.attempt ds = .fail .trailing (start + 2 * pairs.length + 1))
          ∧ (got.length < p.maxBits → p.near d' p.unit2.toNat = false → p.near d' p.unit3.toNat = false →
            p.attempt ds = .fail .symbol (start + 2 * pairs.length + 1))))
      ∧ (p.encoding = .width → ∀ (pairs : List (Nat × Nat)) (got : List Bool) (rest : List Nat) (reads : Nat → Bool → Prop),
        (∀ d b, reads d b ↔ p.near d (if b then p.unit2 else p.unit1).toNat = true
          ∧ (b = true → p.near d p.unit1.toNat = false)) →
        ds.drop start = (pairs.flatMap fun x => [x.1, x.2]) ++ rest →
        List.Forall₂ (fun x b => reads x.1 b ∧ p.near x.2 p.unit3.toNat = true) pairs got →
        (∀ d b, rest = [d] → reads d b → p.attempt ds = ended (got ++ [b]))
        ∧ (∀ d more, rest = d :: more → (∀ b, ¬ reads d b) → p.attempt ds = .fail .symbol (start + 2 * pairs.length))
        ∧ (∀ d b d' more, rest = d :: d' :: more → reads d b → p.near d' p.unit3.toNat = false →
            p.attempt ds = .fail .symbol (start + 2 * pairs.length + 1)))
      ∧ (p.encoding = .biphase → ∀ (read rest widths : List Nat) (halves : List (Bool × Nat)),
        ds.drop start = read ++ rest →
        List.Forall₂ (fun d w => w = 1 ∧ p.near d p.unit1.toNat = true
          ∨ w = 2 ∧ p.near d p.unit1.toNat = false ∧ p.near d (2 * p.unit1.toNat) = true) read widths →
        halves = (widths.zipIdx start).flatMap (fun x => List.replicate x.1 (x.2 % 2 == 0, x.2)) →
        (∀ n x y, halves[2 * n]? = some x → halves[2 * n + 1]? = some y → x.1 = y.1 →
          (∀ m < n, ∀ u v, halves[2 * m]? = some u → halves[2 * m + 1]? = some v → u.1 ≠ v.1) →
          p.attempt ds = .fail .cell x.2)
        ∧ ((∀ n x y, halves[2 * n]? = some x → halves[2 * n + 1]? = some y → x.1 ≠ y.1) →
          (∀ d more, rest = d :: more → p.near d p.unit1.toNat = false → p.near d (2 * p.unit1.toNat) = false →
            p.attempt ds = .fail .symbol (start + read.length))
          ∧ (∀ got : List Bool, rest = [] → ds.length % 2 = 1 → got.length = (halves.length + 1) / 2 →
            (∀ n x, halves[2 * n]? = some x → got[n]? = some x.1) → p.attempt ds = ended got))))

/-- FINISH_ANSWER: STALE drops the result and counts stale; else a full frame is counted and sent to the Match Unit as a
code word, a repeat frame as a repeat notice, and the decoder reports until it is taken; an undecodable burst is counted,
NO_ROOM also as not retained, and reported where report_undecoded was on, with the handle where it was retained.
UNDECODED_ANSWER: the decoder is IDLE again; where the refused record carried a handle, a host-hold drop of it is sent. -/
def Obligations.FinishAnswerHandsOnOrDropsTheResult : Prop :=
  (∀ (s : State) (job : DecodeJob) (result : DecodeResult) (report : Bool) (answer : DecoderAnswer) (k : DecoderCounters),
    s.sdc.state = .finishing job result report → s.sdc.answer = some answer → k = s.sdc.counter job.channel →
    (answer = .stale →
      exec .finishAnswer s = .next (s.setSdc { s.sdc.setCounter job.channel { k with stale := bump k.stale } with
        state := .idle, answer := none }))
    ∧ (answer = .freed → ∀ p bits payload toggle, result = .full p bits payload toggle →
      exec .finishAnswer s = .next (s.setSdc { s.sdc.setCounter job.channel { k with fullFrames := bump k.fullFrames } with
        state := .reporting job none, answer := none
        toMatch := s.sdc.toMatch.push (.word
          { channel := job.channel, profile := p, bits := bits, payload := payload, toggle := toggle
            stamp := job.openTime }) }))
    ∧ (answer = .freed → ∀ p, result = .repeated p →
      exec .finishAnswer s = .next (s.setSdc { s.sdc.setCounter job.channel { k with repeatFrames := bump k.repeatFrames } with
        state := .reporting job none, answer := none
        toMatch := s.sdc.toMatch.push (.notice { channel := job.channel, profile := p, stamp := job.openTime }) }))
    ∧ (∀ reason handle, result = .undecodable reason →
        (answer = .freed ∧ handle = none ∨ answer = .noRoom ∧ handle = none
          ∨ answer = .retained ∧ handle = some job.handle) →
      exec .finishAnswer s = .next (s.setSdc { s.sdc.setCounter job.channel
          { k with undecodable := bump k.undecodable
                   notRetained := if answer = .noRoom then bump k.notRetained else k.notRetained } with
        state := if report then .reporting job handle else .idle
        answer := none
        toQueue := if report then s.sdc.toQueue.push
            { source := channelByte job.channel, stamp := job.openTime, body := .undecoded job.count reason handle }
          else s.sdc.toQueue })))
    ∧ (∀ (s : State) (job : DecodeJob) (handle : Option Handle) (answer : DecoderAnswer),
    s.sdc.state = .reporting job handle → s.sdc.answer = some answer → answer = .admitted ∨ answer = .refused →
    exec .undecodedAnswer s = .next (s.setSdc { s.sdc with
      state := .idle, answer := none
      hostDrops := if answer = .refused then s.sdc.hostDrops ++ handle.toList else s.sdc.hostDrops }))

/-- A DISTANCE or WIDTH frame that the Transmit Engine builds reads back, under the same profile, as the word that was sent:
its bit count, its payload without the toggle bit, and the toggle sent. The profile has passed the timing checks and has a
leader, or no repeat leader either. The payload without the toggle bit has that bit 0 and every other bit as it was. -/
def Obligations.SentFrameDecodesToItsWord : Prop :=
  (∀ (p : Profile) (payload : Payload) (n : Nat), n < 64 →
    (p.withoutToggle payload).getLsbD n = (payload.getLsbD n && p.toggle != some n))
  ∧ ∀ (p : Profile) (i : ProfileNo) (bits : Nat) (payload : Payload) (toggle : Bool),
    p.encoding ≠ .biphase → p.timingValid = true → 1 ≤ bits → bits ≤ 64 → p.minBits ≤ bits → bits ≤ p.maxBits →
    (∀ n, bits ≤ n → payload.getLsbD n = false) → (∀ t, p.toggle = some t → t < bits) →
    p.leader.isSome = true ∨ p.repeatLeader = none →
    ∃ got, p.attempt ((p.fullFrame bits payload toggle).map Element.duration) = .full got
      ∧ p.fullResult i got = .full i bits (p.withoutToggle payload) (p.toggle.map fun _ => toggle)

/-- A BIPHASE frame that the Transmit Engine builds and whose first sent bit is 1 reads back, under the same profile, as the
word that was sent: its bit count, its payload without the toggle bit, and the toggle sent. -/
def Obligations.SentBiphaseFrameDecodesToItsWord : Prop :=
  ∀ (p : Profile) (i : ProfileNo) (bits : Nat) (payload : Payload) (toggle : Bool),
    p.encoding = .biphase → p.timingValid = true → 1 ≤ bits → bits ≤ 64 → p.minBits ≤ bits → bits ≤ p.maxBits →
    (∀ n, bits ≤ n → payload.getLsbD n = false) → (∀ t, p.toggle = some t → t < bits) → p.repeatLeader = none →
    (sendingBits p.order bits (match p.toggle with
      | some t => setToggleBit payload t toggle
      | none => payload)).head? = some true →
    ∃ got, p.attempt ((p.fullFrame bits payload toggle).map Element.duration) = .full got
      ∧ p.fullResult i got = .full i bits (p.withoutToggle payload) (p.toggle.map fun _ => toggle)

/-! ## Chapter 4: the code table and matching -/

/-- An entry fits a word when it is VALID, has the word's profile and bit count, names its channel, and its pattern agrees
with the payload in every bit its care mask sets. CODE_WORD on a channel that is not diverted: a word that fits no entry is
counted as unmatched, and reported as UNKNOWN where report_unknown is on; else the lowest fitting entry is counted as a hit,
as ambiguous where another fits too, and reaches the channel's key record with a deadline a hold window from now. The
decoder is IDLE again. -/
def Obligations.CodeWordReachesTheLowestFittingEntry : Prop :=
  (∀ (e : Entry) (w : CodeWord), e.fits w = true ↔
    e.valid = true ∧ e.profile = w.profile ∧ e.bits = w.bits ∧ e.channels.getLsbD w.channel.val = true
      ∧ ∀ n, e.careMask.getLsbD n = true → w.payload.getLsbD n = e.pattern.getLsbD n)
    ∧ (∀ (s : State) (w : CodeWord) (k : MatchCounters), s.matchMessage = some (.word w) → s.mu.divert ≠ some w.channel →
    s.sdc.toMatch.early = 0 → k = s.mu.counter w.channel →
    ((∀ i, (s.mu.entry i).fits w = false) →
      exec .codeWord s = .next
        ((s.setMu { s.mu.setCounter w.channel { k with unmatched := bump k.unmatched } with
            toQueue := if (s.lcu w.channel).settings.reportUnknown then s.mu.toQueue.push
                { source := channelByte w.channel, stamp := w.stamp
                  body := .unknown w.profile w.bits w.payload w.toggle }
              else s.mu.toQueue }).setSdc { s.sdc with toMatch := s.sdc.toMatch.pop, state := .idle }))
    ∧ (∀ i ambiguous, (s.mu.entry i).fits w = true → (∀ j < i, (s.mu.entry j).fits w = false) →
        (ambiguous = true ↔ ∃ j, j ≠ i ∧ (s.mu.entry j).fits w = true) →
      exec .codeWord s = .next
        ((s.setMu ((s.mu.setCounter w.channel
              { k with hits := bump k.hits, ambiguous := if ambiguous then bump k.ambiguous else k.ambiguous }).winningFrame
            w.channel i
            { kind := .full, toggle := w.toggle, ambiguous := ambiguous, stamp := w.stamp, now := s.now
              deadline := s.now + BitVec.ofNat 32 ((s.lcu w.channel).settings.holdWindow.toNat * 1000) })).setSdc
          { s.sdc with toMatch := s.sdc.toMatch.pop, state := .idle })))

/-- A change of an entry removes exactly the key records that refer to it, and those whose PRESS was admitted send RELEASE
with reason ENTRY_CHANGED and the present time, in ascending channel order; nothing else of the Match Unit changes. A commit
is refused with BAD_ARG by the field checks, with PROFILE_EMPTY under an EMPTY profile, and with BAD_ARG outside the
profile's bit counts or over its toggle position, in that order; an accepted one writes the entry and removes its key
records; a clear of a VALID entry clears it and removes them, of an EMPTY one does nothing; a table clear clears all 128
entries and removes every record, sending RELEASE in channel order. The channel
order of a change of one entry, and that no 1 ms tick of an earlier moment waits, are the model's (logs 37 and 25). -/
def Obligations.EntryCommandsCheckAndWrite : Prop :=
  (∀ (m : MatchUnit) (i : EntryNo) (now : Time), ∃ x, m.entryChanged i now = x
    ∧ x = { m with keys := x.keys, toQueue := x.toQueue }
    ∧ (∀ c, x.key c = if (m.key c).any (fun r => r.entry == i) then none else m.key c)
    ∧ x.toQueue = { m.toQueue with
        msgs := m.toQueue.msgs ++ ([0, 1, 2, 3] : List Channel).filterMap fun c => (m.key c).bind fun r =>
          if r.entry = i ∧ r.reported = true then
            some { source := channelByte c, stamp := now
                   body := .release r.entry r.keyId r.repeats .entryChanged (r.heldTime now) }
          else none })
    ∧ (∀ (s : State) (f : InFlight), s.bcu.inFlight = some f → .mu ∈ f.parts → s.mu.awaiting = none →
    (∀ m ∈ s.tb.msTicks, m = s.now) →
    (∀ (i : EntryNo) r, f.args.arg0.toNat = i.val → f.cmd = some .entryCommit → f.staging = .entry r →
      (entryOfFields (entryFields r) = none →
        exec (.entryCommit .take) s = .next (s.answerPart .mu { error := some .badArg }))
      ∧ ∀ e p, entryOfFields (entryFields r) = some e → p = s.sdc.profile e.profile →
        (p.valid = false → exec (.entryCommit .take) s = .next (s.answerPart .mu { error := some .profileEmpty }))
        ∧ (p.valid = true →
            e.bits < p.minBits ∨ p.maxBits < e.bits ∨ (∃ t, p.toggle = some t ∧ e.careMask.getLsbD t = true) →
          exec (.entryCommit .take) s = .next (s.answerPart .mu { error := some .badArg }))
        ∧ (p.valid = true → p.minBits ≤ e.bits → e.bits ≤ p.maxBits →
            (∀ t, p.toggle = some t → e.careMask.getLsbD t = false) →
          exec (.entryCommit .take) s = .next
            ((s.setMu ((s.mu.setEntry i e).entryChanged i s.now)).answerPart .mu {})))
    ∧ (∀ i : EntryNo, f.args.arg0.toNat = i.val → f.cmd = some .entryClear →
      ((s.mu.entry i).valid = true →
        exec (.entryClear .take) s = .next
          ((s.setMu ((s.mu.setEntry i .cleared).entryChanged i s.now)).answerPart .mu {}))
      ∧ ((s.mu.entry i).valid = false → exec (.entryClear .take) s = .next (s.answerPart .mu {})))
    ∧ (f.cmd = some .tableClear →
      ∃ m, exec (.tableClear .take) s = .next ((s.setMu m).answerPart .mu {})
        ∧ m = { s.mu with table := m.table, keys := m.keys, toQueue := m.toQueue }
        ∧ (∀ i, m.entry i = .cleared) ∧ (∀ c, m.key c = none)
        ∧ m.toQueue = { s.mu.toQueue with
            msgs := s.mu.toQueue.msgs ++ ([0, 1, 2, 3] : List Channel).filterMap fun c => (s.mu.key c).bind fun r =>
              if r.reported = true then
                some { source := channelByte c, stamp := s.now
                       body := .release r.entry r.keyId r.repeats .entryChanged (r.heldTime s.now) }
              else none }))

/-! ## Chapter 5: key records -/

/-- A frame on a channel without a record: an EVERY entry gives a TRACKING record and a KEY; an EDGE entry a PENDING record,
or, with a confirm count of 1, a PRESSED one with its PRESS, whose answer the Match Unit then waits for. A frame of another
entry, or of the same entry with another toggle: the old record is removed, with its RELEASE where its PRESS was admitted
and counted as unconfirmed where it was PENDING, and the new record is created as on an empty channel. The confirmations of a
TRACKING record, 1 here, are the model's choice (log 42). -/
def Obligations.FrameCreatesOrReplacesTheRecord : Prop :=
  (∀ (m : MatchUnit) (c : Channel) (i : EntryNo) (f : FrameArrival) (r : KeyRecord), m.key c = none → f.kind = .full →
    r = { entry := i, keyId := (m.entry i).keyId, group := (m.entry i).group, mode := (m.entry i).mode
          confirm := (m.entry i).confirm, holdInterval := (m.entry i).holdInterval, state := .pending, confirmations := 1
          repeats := 0, toggle := f.toggle, ambiguous := f.ambiguous, reported := false, created := f.stamp, heldMs := 0
          deadline := f.deadline } →
    ((m.entry i).mode = .every →
      m.winningFrame c i f =
        { (m.setKey c (some { r with state := .tracking })).excludeGroup c r.group f.now with
          toQueue := ((m.setKey c (some { r with state := .tracking })).excludeGroup c r.group f.now).toQueue.push
            { source := channelByte c, stamp := f.stamp, body := .key i r.keyId 0 .full f.ambiguous f.toggle } })
    ∧ ((m.entry i).mode = .edge → 1 < (m.entry i).confirm → m.winningFrame c i f = m.setKey c (some r))
    ∧ ((m.entry i).mode = .edge → (m.entry i).confirm ≤ 1 →
      m.winningFrame c i f =
        { (m.setKey c (some { r with state := .pressed })).excludeGroup c r.group f.now with
          toQueue := ((m.setKey c (some { r with state := .pressed })).excludeGroup c r.group f.now).toQueue.push
            { source := channelByte c, stamp := f.stamp, body := .press i r.keyId f.ambiguous f.toggle }
          awaiting := some c }))
    ∧ (∀ (m : MatchUnit) (c : Channel) (i : EntryNo) (f : FrameArrival) (r : KeyRecord) (k : MatchCounters), m.key c = some r →
    r.entry ≠ i ∨ r.toggle ≠ f.toggle → k = m.counter c →
    m.winningFrame c i f =
      MatchUnit.winningFrame
        { (m.setCounter c { k with unconfirmed := if r.state = .pending then bump k.unconfirmed else k.unconfirmed }).setKey c
            none with
          toQueue := if r.reported then m.toQueue.push
              { source := channelByte c, stamp := f.stamp
                body := .release r.entry r.keyId r.repeats (if r.entry = i then .retrigger else .superseded)
                  (r.heldTime f.stamp) }
            else m.toQueue }
        c i f)

/-- A frame of the record's own entry with its toggle: the deadline moves; PENDING counts a confirmation and is PRESSED at
the confirm count; PRESSED counts a repeat, with a HOLD where the count increased to a multiple of the hold interval and the
PRESS was admitted; TRACKING counts a repeat, with a KEY. -/
def Obligations.RefreshFollowsTheRecordState : Prop :=
  ∀ (m : MatchUnit) (c : Channel) (f : FrameArrival) (r d : KeyRecord), m.key c = some r → f.kind = .full →
    r.toggle = f.toggle → d = { r with deadline := f.deadline } →
    (r.state = .pending → r.confirmations + 1 < r.confirm →
      m.winningFrame c r.entry f = m.setKey c (some { d with confirmations := r.confirmations + 1 }))
    ∧ (r.state = .pending → r.confirm ≤ r.confirmations + 1 → ∀ x : MatchUnit,
        x = (m.setKey c (some { d with confirmations := r.confirmations + 1, state := .pressed, repeats := 0 })).excludeGroup
          c r.group f.now →
      m.winningFrame c r.entry f =
        { x with
          toQueue := x.toQueue.push
            { source := channelByte c, stamp := f.stamp, body := .press r.entry r.keyId r.ambiguous r.toggle }
          awaiting := some c })
    ∧ (r.state = .pressed → ∀ hold : Bool,
        (hold = true ↔ r.reported = true ∧ 0 < r.holdInterval ∧ r.repeats.toNat < 65535
          ∧ (r.repeats.toNat + 1) % r.holdInterval = 0) →
      m.winningFrame c r.entry f =
        { m.setKey c (some { d with repeats := bump r.repeats }) with
          toQueue := if hold then m.toQueue.push
              { source := channelByte c, stamp := f.stamp, body := .hold r.entry r.keyId (bump r.repeats) }
            else m.toQueue })
    ∧ (r.state = .tracking →
      m.winningFrame c r.entry f =
        { m.setKey c (some { d with repeats := bump r.repeats }) with
          toQueue := m.toQueue.push
            { source := channelByte c, stamp := f.stamp
              body := .key r.entry r.keyId (bump r.repeats) .full f.ambiguous f.toggle } })

/-- Group exclusivity: group 0 is no group; for another one, exactly the records of the group on the other channels are
removed, and those whose PRESS was admitted send RELEASE with reason GROUP, in ascending channel order. Nothing else of the
Match Unit changes: no counter, no entry, neither the session nor the divert, and no message sent before. -/
def Obligations.GroupKeepsOneRecord : Prop :=
  ∀ (m : MatchUnit) (c : Channel) (g : Nat) (now : Time),
    m.excludeGroup c 0 now = m
    ∧ (g ≠ 0 →
      (∀ d, (m.excludeGroup c g now).key d = if d ≠ c ∧ (m.key d).any (fun r => r.group == g) then none else m.key d)
      ∧ m.excludeGroup c g now =
          ({ m with keys := (m.excludeGroup c g now).keys, toQueue := (m.excludeGroup c g now).toQueue } : MatchUnit)
      ∧ (m.excludeGroup c g now).toQueue.early = m.toQueue.early
      ∧ (m.excludeGroup c g now).toQueue.msgs = m.toQueue.msgs
          ++ ([0, 1, 2, 3] : List Channel).filterMap fun d =>
            if d = c then none
            else (m.key d).bind fun r =>
              if r.group = g ∧ r.reported = true then
                some { source := channelByte d, stamp := now
                       body := .release r.entry r.keyId r.repeats .group (r.heldTime now) }
              else none)

/-- REPEAT_NOTICE: on a diverted channel it is ignored; a record whose entry has the notice's profile is refreshed, as by a
frame of its own entry and toggle while PENDING or PRESSED, with a KEY of kind REPEAT while TRACKING; otherwise it is
counted as an orphan. The decoder is IDLE again. -/
def Obligations.RepeatNoticeRefreshesOrIsAnOrphan : Prop :=
  ∀ (s : State) (n : Notice) (k : MatchCounters) (done : Decoder) (deadline : Time), s.matchMessage = some (.notice n) →
    s.sdc.toMatch.early = 0 → k = s.mu.counter n.channel →
    done = { s.sdc with toMatch := s.sdc.toMatch.pop, state := .idle } →
    deadline = s.now + BitVec.ofNat 32 ((s.lcu n.channel).settings.holdWindow.toNat * 1000) →
    (s.mu.divert = some n.channel → exec .repeatNotice s = .next (s.setSdc done))
    ∧ (s.mu.divert ≠ some n.channel →
      (s.mu.key n.channel = none
          ∨ (∃ r, s.mu.key n.channel = some r ∧ (s.mu.entry r.entry).profile ≠ n.profile) →
        exec .repeatNotice s = .next
          ((s.setMu (s.mu.setCounter n.channel { k with orphanRepeats := bump k.orphanRepeats })).setSdc done))
      ∧ (∀ r, s.mu.key n.channel = some r → (s.mu.entry r.entry).profile = n.profile →
        (r.state ≠ .tracking →
          exec .repeatNotice s = .next ((s.setMu (s.mu.winningFrame n.channel r.entry
            { kind := .full, toggle := r.toggle, ambiguous := r.ambiguous, stamp := n.stamp, now := s.now
              deadline := deadline })).setSdc done))
        ∧ (r.state = .tracking →
          exec .repeatNotice s = .next
            ((s.setMu
              { s.mu.setKey n.channel (some { r with repeats := bump r.repeats, deadline := deadline }) with
                toQueue := s.mu.toQueue.push
                  { source := channelByte n.channel, stamp := n.stamp
                    body := .key r.entry r.keyId (bump r.repeats) .repeated r.ambiguous none } }).setSdc done))))

/-- PRESS_ANSWER and EXPIRY: an admitted PRESS sets the record's reported flag, a refused one counts unreported presses; a
record whose deadline is reached (log 17, the model's) is removed, with RELEASE TIMEOUT at the deadline where it was
reported, and counted as unconfirmed where it was PENDING. The held time of a RELEASE is in whole milliseconds from creation
to the time stamp, at most 65,535, and 65,535 for a record whose tick count has reached it (log 34, the model's). No
1 ms tick of an earlier moment waits at an expiry (log 25, the model's). -/
def Obligations.PressAnswerAndExpiryEndTheWait : Prop :=
  (∀ (s : State) (c : Channel) (r : KeyRecord) (k : MatchCounters), s.mu.key c = some r → k = s.mu.counter c →
    (s.mu.awaiting = some c →
      (s.mu.answer = some true →
        exec .pressAnswer s = .next (s.setMu
          { s.mu.setKey c (some { r with reported := true }) with awaiting := none, answer := none }))
      ∧ (s.mu.answer = some false →
        exec .pressAnswer s = .next (s.setMu
          { s.mu.setCounter c { k with unreportedPresses := bump k.unreportedPresses } with
            awaiting := none, answer := none })))
    ∧ (s.mu.awaiting = none → (∀ m ∈ s.tb.msTicks, m = s.now) → (s.now - r.deadline).toNat < 2 ^ 31 →
      exec (.expiry c) s = .next (s.setMu
        { (s.mu.setCounter c { k with unconfirmed := if r.state = .pending then bump k.unconfirmed else k.unconfirmed }).setKey
            c none with
          toQueue := if r.reported then s.mu.toQueue.push
              { source := channelByte c, stamp := r.deadline
                body := .release r.entry r.keyId r.repeats .timeout (r.heldTime r.deadline) }
            else s.mu.toQueue })))
    ∧ (∀ (r : KeyRecord) (stamp : Time),
    (r.heldMs ≠ 65535#16 → (r.heldTime stamp).toNat = min 65535 ((stamp - r.created).toNat / 1000))
    ∧ (r.heldMs = 65535#16 → r.heldTime stamp = 65535#16))

/-! ## Chapter 6: learning -/

/-- LEARN_START: refused, in this order, with BAD_ARG for K outside 2 to 4 or t outside 1 to 60, CHANNEL_DISABLED, and
LEARN_STATE while a session runs, LISTENING or CONFIRMING; else the channel's record goes with reason LEARN, any result is discarded, and the session
listens on the channel with t seconds, no candidate and the divert set. An abort ends a session in any state but IDLE, a
discard one in DONE; a commit in DONE commits the entry built from the result and the staged fields and, where that is
accepted, ends the session; each is refused with LEARN_STATE otherwise. Ending the session sends nothing. No
1 ms tick of an earlier moment waits here (log 25, the model's). -/
def Obligations.LearnCommandsRunTheSession : Prop :=
  (∀ x : LearnSession, x.active = true ↔ x.state = .listening ∨ x.state = .confirming)
    ∧ (∀ (s : State) (f : InFlight) (c : Channel) (k t : Nat), s.bcu.inFlight = some f → f.cmd = some .learnStart →
    f.args.arg0.toNat = c.val → f.args.arg2.toNat = k → f.args.arg3.toNat = t → .mu ∈ f.parts → s.mu.awaiting = none →
    (∀ m ∈ s.tb.msTicks, m = s.now) →
    (k < 2 ∨ 4 < k ∨ t < 1 ∨ 60 < t →
      exec (.learnStart .take) s = .next (s.answerPart .mu { error := some .badArg }))
    ∧ (2 ≤ k → k ≤ 4 → 1 ≤ t → t ≤ 60 →
      ((s.lcu c).capture = .disabled →
        exec (.learnStart .take) s = .next (s.answerPart .mu { error := some .channelDisabled }))
      ∧ ((s.lcu c).capture ≠ .disabled →
        (s.mu.learn.active = true →
          exec (.learnStart .take) s = .next (s.answerPart .mu { error := some .learnState }))
        ∧ (s.mu.learn.active = false →
          exec (.learnStart .take) s = .next ((s.setMu { s.mu.setKey c none with
            learn := { state := .listening, channel := c, k := k, remaining := t * 1000, candidate := none, matchCount := 0
                       mismatches := 0, result := none, expiredAt := none }
            divert := some c
            toQueue := match (s.mu.key c).filter KeyRecord.reported with
              | some r => s.mu.toQueue.push
                  { source := channelByte c, stamp := s.now
                    body := .release r.entry r.keyId r.repeats .learn (r.heldTime s.now) }
              | none => s.mu.toQueue }).answerPart .mu {})))))
    ∧ (∀ (s : State) (f : InFlight), s.bcu.inFlight = some f → .mu ∈ f.parts → s.mu.awaiting = none →
    (∀ m ∈ s.tb.msTicks, m = s.now) →
    (f.cmd = some .learnAbort →
      (s.mu.learn.state = .idle → exec (.learnAbort .take) s = .next (s.answerPart .mu { error := some .learnState }))
      ∧ (s.mu.learn.state ≠ .idle →
        exec (.learnAbort .take) s = .next
          ((s.setMu { s.mu with learn := .idle, divert := none }).answerPart .mu {})))
    ∧ (f.cmd = some .learnDiscard →
      (s.mu.learn.state ≠ .done → exec (.learnDiscard .take) s = .next (s.answerPart .mu { error := some .learnState }))
      ∧ (s.mu.learn.state = .done →
        exec (.learnDiscard .take) s = .next
          ((s.setMu { s.mu with learn := .idle, divert := none }).answerPart .mu {})))
    ∧ (∀ (i : EntryNo) r, f.cmd = some .learnCommit → f.args.arg0.toNat = i.val → f.staging = .entry r →
      (s.mu.learn.state ≠ .done → exec (.learnCommit .take) s = .next (s.answerPart .mu { error := some .learnState }))
      ∧ ∀ x fields, s.mu.learn.state = .done → s.mu.learn.result = some x →
        fields = { entryFields r with
          profile := x.profile.val, bits := x.bits, pattern := x.payload, careMask := x.mask } →
        (∀ e, s.mu.commitEntry i fields s.sdc.profiles s.now = .error e →
          exec (.learnCommit .take) s = .next (s.answerPart .mu { error := some e }))
        ∧ (∀ m, s.mu.commitEntry i fields s.sdc.profiles s.now = .ok m →
          exec (.learnCommit .take) s = .next ((s.setMu { m with learn := .idle, divert := none }).answerPart .mu {}))))

/-- CODE_WORD on the diverted channel: the first word becomes the candidate; an equal word is counted, and with the k-th the
session is DONE with its result, the divert is cleared and LEARN_DONE is sent; a different one is the new candidate, and the
third of these fails the session with LEARN_FAIL MISMATCH. MILLISECOND_TICK counts every record's held time up to 65,535 and
a running session's time remaining down; the tick that brings it to 0 is the expiry, at which LEARN_TIMEOUT fails the
session with LEARN_FAIL TIMEOUT, stamped with the tick's moment (log 25, the model's). The suggested mask has every bit
below the bit count set but the one at the profile's toggle position. With no part of a RUN_RESET waiting, no PRESS unanswered and
no 1 ms tick of an earlier moment waiting (log 25, the model's), the word or notice that the Match Unit may take is the oldest one
that the decoder has sent. -/
def Obligations.LearningCountsMatchesAndTime : Prop :=
  (∀ s : State, (∀ f, s.bcu.inFlight = some f → f.cmd = some .runReset → f.parts = []) → s.mu.awaiting = none →
      (∀ m ∈ s.tb.msTicks, m = s.now) → s.matchMessage = s.sdc.toMatch.msgs.head?)
    ∧ (∀ (s : State) (w : CodeWord) (x : Candidate) (done : Decoder), s.matchMessage = some (.word w) →
    s.mu.divert = some w.channel → s.sdc.toMatch.early = 0 →
    x = { profile := w.profile, bits := w.bits, payload := w.payload } →
    done = { s.sdc with toMatch := s.sdc.toMatch.pop, state := .idle } →
    (s.mu.learn.candidate = none →
      exec .codeWord s = .next ((s.setMu { s.mu with learn := { s.mu.learn with
        candidate := some x, matchCount := 1, state := .confirming } }).setSdc done))
    ∧ (s.mu.learn.candidate = some x → s.mu.learn.matchCount + 1 < s.mu.learn.k →
      exec .codeWord s = .next ((s.setMu { s.mu with learn := { s.mu.learn with
        matchCount := s.mu.learn.matchCount + 1 } }).setSdc done))
    ∧ (∀ existing, s.mu.learn.candidate = some x → s.mu.learn.k ≤ s.mu.learn.matchCount + 1 →
        s.mu.learn.channel = w.channel → existing = (s.mu.fitting w).head? →
      exec .codeWord s = .next ((s.setMu { s.mu with
        learn := { s.mu.learn with
          state := .done, matchCount := s.mu.learn.matchCount + 1, expiredAt := none
          result := some { channel := w.channel, profile := w.profile, bits := w.bits, payload := w.payload
                           mask := suggestedMask w.bits (s.sdc.profile w.profile).toggle, existing := existing } }
        divert := none
        toQueue := s.mu.toQueue.push
          { source := channelByte w.channel, stamp := w.stamp
            body := .learnDone w.profile w.bits w.payload existing } }).setSdc done))
    ∧ (∀ y, s.mu.learn.candidate = some y → x ≠ y →
      (s.mu.learn.mismatches + 1 < 3 →
        exec .codeWord s = .next ((s.setMu { s.mu with learn := { s.mu.learn with
          candidate := some x, matchCount := 1, mismatches := s.mu.learn.mismatches + 1 } }).setSdc done))
      ∧ (3 ≤ s.mu.learn.mismatches + 1 →
        exec .codeWord s = .next ((s.setMu { s.mu with
          learn := .idle, divert := none
          toQueue := s.mu.toQueue.push
            { source := channelByte s.mu.learn.channel, stamp := w.stamp, body := .learnFail .mismatch } }).setSdc done))))
    ∧ (∀ s : State,
    (∀ moment rest, s.tb.msTicks = moment :: rest →
      ∃ t, exec .millisecondTick s = .next t
        ∧ t = ({ s with tb := { s.tb with msTicks := rest }, mu := { s.mu with keys := t.mu.keys, learn := t.mu.learn } } : State)
        ∧ (∀ c, t.mu.key c = (s.mu.key c).map fun r => { r with heldMs := bump r.heldMs })
        ∧ (s.mu.learn.active = true → 1 < s.mu.learn.remaining →
            t.mu.learn = { s.mu.learn with remaining := s.mu.learn.remaining - 1 })
        ∧ (s.mu.learn.active = true → s.mu.learn.remaining = 1 →
            t.mu.learn = { s.mu.learn with remaining := 0, expiredAt := some moment })
        ∧ (s.mu.learn.active = false ∨ s.mu.learn.remaining = 0 → t.mu.learn = s.mu.learn))
    ∧ (∀ moment, s.mu.learn.expiredAt = some moment → s.mu.learn.active = true → s.mu.awaiting = none →
        (∀ m ∈ s.tb.msTicks, m = s.now) →
      exec .learnTimeout s = .next (s.setMu { s.mu with
        learn := .idle, divert := none
        toQueue := s.mu.toQueue.push
          { source := channelByte s.mu.learn.channel, stamp := moment, body := .learnFail .timeout } })))
    ∧ ∀ (bits n : Nat) (toggle : Option Nat), bits ≤ 64 →
      ((suggestedMask bits toggle).getLsbD n = true ↔ n < bits ∧ toggle ≠ some n)

/-! ## Chapter 7: the event queue and the interrupt line -/

/-- APPEND: with the pending-overrun flag set and fewer than 60 records, an OVERRUN with the lost count is placed first and
both are cleared; then a record is placed at the tail below 64 for a RELEASE and below 60 for every other kind, with the
next sequence number and the present time as its admission time, and is answered ADMITTED, or it is counted as lost and
answered REFUSED. The Match Unit is told whether its PRESS was admitted, and the decoder whether its UNDECODED was; an
append of any other kind or sender only leaves its mailbox, and nothing outside the queue changes. Each sender has a mailbox
of its own, and with no part of a RUN_RESET waiting the path to the queue is open. -/
def Obligations.AppendIsAdmittedOrCounted : Prop :=
  (∀ (s : State) (x : Sender), (∀ f, s.bcu.inFlight = some f → f.cmd = some .runReset → f.parts = []) →
      s.queuePathOpen x = true)
    ∧ (∀ s : State, (∀ c, s.outbox (.lcu c) = (s.lcu c).toQueue) ∧ s.outbox .sdc = s.sdc.toQueue ∧ s.outbox .mu = s.mu.toQueue
      ∧ ∀ o, s.outbox (.txo o) = (s.txe.engine o).toQueue)
    ∧ (∀ (s : State) (x : Sender) (a : Append) (rest : List Append) (q : EventQueue), (s.outbox x).msgs = a :: rest →
    s.queuePathOpen x = true →
    (s.evq.overrunPending = true → s.evq.records.length < 60 →
      q = { s.evq with
        records := s.evq.records ++ [{ seq := s.evq.nextSeq, source := 0, stamp := s.now, body := .overrun s.evq.lost
                                       admitted := s.now }]
        nextSeq := s.evq.nextSeq + 1, lost := 0, overrunPending := false }) →
    (s.evq.overrunPending = false ∨ 60 ≤ s.evq.records.length → q = s.evq) →
    (∃ t, exec (.append x) s = .next t ∧ t.evq = (s.evq.take a s.now).1 ∧ (t.outbox x).msgs = rest)
      ∧ (q.records.length < 60 ∨ a.body.isRelease = true ∧ q.records.length < 64 →
          s.evq.take a s.now = ({ q with
            records := q.records ++ [{ seq := q.nextSeq, source := a.source, stamp := a.stamp, body := a.body
                                       admitted := s.now }]
            nextSeq := q.nextSeq + 1 }, true))
      ∧ (60 ≤ q.records.length → a.body.isRelease = false ∨ 64 ≤ q.records.length →
          s.evq.take a s.now =
            ({ q with lost := if q.lost = 65535#16 then 65535#16 else q.lost + 1, overrunPending := true }, false)))
    ∧ (∀ (s : State) (x : Sender) (a : Append) (rest : List Append) (admitted : Bool), (s.outbox x).msgs = a :: rest →
    s.queuePathOpen x = true → (s.outbox x).early = 0 → admitted = (s.evq.take a s.now).2 →
    (x = .mu → a.isPress = true →
      exec (.append x) s = .next ((s.setEvq (s.evq.take a s.now).1).setMu
        { s.mu with toQueue := { msgs := rest, early := 0 }, answer := some admitted }))
    ∧ (x = .sdc → (∃ n r h, a.body = .undecoded n r h) →
      exec (.append x) s = .next ((s.setEvq (s.evq.take a s.now).1).setSdc
        { s.sdc with
          toQueue := { msgs := rest, early := 0 }
          answer := some (if admitted = true then .admitted else .refused) }))
    ∧ ((x ≠ .mu ∨ a.isPress = false) → (x ≠ .sdc ∨ ∀ n r h, a.body ≠ .undecoded n r h) →
      exec (.append x) s = .next ((s.setEvq (s.evq.take a s.now).1).setOutbox { msgs := rest, early := 0 } x)))

/-- EVENT_NEXT removes the head, or an empty queue stays, and reads of it return 0; EV_LEVEL holds exactly while the
occupancy is at or above the threshold; thresholds 1 to 64 replace the threshold, others are ignored; every age limit is
taken; EV_AGE is judged again at each removal and write of the limit, true exactly when the limit is not 0 and the head has
been in the queue that long, and AGE_EVENT makes it true. -/
def Obligations.QueueRegistersMoveHeadThresholdAndAge : Prop :=
  ∀ (s : State) (v : Byte),
    (s.evq.evLevel = true ↔ s.evq.threshold.toNat ≤ s.evq.records.length)
    ∧ s.readRegister 0x0B#6 = s.evq.threshold ∧ s.readRegister 0x0C#6 = s.evq.ageLimit ∧ s.readRegister 0x0D#6 = 0
    ∧ (s.evq.records = [] → exec (.eventNext v) s = .next s)
    ∧ (∀ x rest, s.evq.records = x :: rest →
      exec (.eventNext v) s = .next (s.setEvq { s.evq with
        records := rest
        evAge := rest.head?.any fun y => s.evq.ageLimit != 0 && decide (s.evq.ageLimit.toNat * 1000 ≤ (s.now - y.admitted).toNat) }))
    ∧ exec (.eventThresholdWrite v) s = .next (s.setEvq { s.evq with
        threshold := if 1 ≤ v.toNat ∧ v.toNat ≤ 64 then v else s.evq.threshold })
    ∧ exec (.eventAgeWrite v) s = .next (s.setEvq { s.evq with
        ageLimit := v
        evAge := s.evq.records.head?.any fun y => v != 0 && decide (v.toNat * 1000 ≤ (s.now - y.admitted).toNat) })
    ∧ (∀ x rest, s.evq.records = x :: rest → s.evq.ageLimit ≠ 0 → s.evq.ageLimit.toNat * 1000 ≤ (s.now - x.admitted).toNat →
      exec .ageEvent s = .next (s.setEvq { s.evq with evAge := true }))

/-- The event window reads 0 everywhere with an empty queue, and otherwise the head record: its sequence number, source and
time stamp, and, for each of the twelve kinds, the kind's code, the presence byte and the bytes of its body; bytes that a
kind does not use, and those of an absent field, read 0. -/
def Obligations.EventWindowShowsTheHead : Prop :=
  ∀ s : State,
    (s.evq.records = [] → ∀ a : BitVec 6, 0x10 ≤ a.toNat → a.toNat ≤ 0x23 → s.readRegister a = 0)
    ∧ ∀ x rest, s.evq.records = x :: rest →
      s.readRegister 0x11#6 ++ s.readRegister 0x10#6 = x.seq ∧ s.readRegister 0x13#6 = x.source
      ∧ s.readRegister 0x17#6 ++ s.readRegister 0x16#6 ++ s.readRegister 0x15#6 ++ s.readRegister 0x14#6 = x.stamp
      ∧ ∀ (kind : Byte) (body : List Byte), kind = s.readRegister 0x12#6 →
        body = (List.range 12).map (fun n => s.readRegister (BitVec.ofNat 6 (0x18 + n))) →
        (∀ entry keyId ambiguous toggle, x.body = .press entry keyId ambiguous toggle → kind = 0x01#8 ∧
          body = [if toggle.isSome then 1 else 0, BitVec.ofNat 8 entry.val, keyId, if ambiguous then 1 else 0,
                  if toggle = some true then 1 else 0, 0, 0, 0, 0, 0, 0, 0])
        ∧ (∀ entry keyId repeats, x.body = .hold entry keyId repeats → kind = 0x02#8 ∧
          body = [0, BitVec.ofNat 8 entry.val, keyId, repeats.extractLsb' 0 8, repeats.extractLsb' 8 8, 0, 0, 0, 0, 0, 0, 0])
        ∧ (∀ entry keyId repeats reason held, x.body = .release entry keyId repeats reason held → kind = 0x03#8 ∧
          body = [0, BitVec.ofNat 8 entry.val, keyId, repeats.extractLsb' 0 8, repeats.extractLsb' 8 8, (match reason with
            | .timeout => 1
            | .retrigger => 2
            | .superseded => 3
            | .group => 4
            | .entryChanged => 5
            | .learn => 6
            | .flush => 7
            | .disable => 8), held.extractLsb' 0 8, held.extractLsb' 8 8, 0, 0, 0, 0])
        ∧ (∀ entry keyId repeats frame ambiguous toggle, x.body = .key entry keyId repeats frame ambiguous toggle →
          kind = 0x04#8 ∧
          body = [if toggle.isSome then 1 else 0, BitVec.ofNat 8 entry.val, keyId, repeats.extractLsb' 0 8,
                  repeats.extractLsb' 8 8, (match frame with
                    | .full => 0
                    | .repeated => 1), if ambiguous then 1 else 0, if toggle = some true then 1 else 0, 0, 0, 0, 0])
        ∧ (∀ profile bits payload toggle, x.body = .unknown profile bits payload toggle → kind = 0x05#8 ∧
          body = [if toggle.isSome then 1 else 0, BitVec.ofNat 8 profile.val, BitVec.ofNat 8 bits]
            ++ (List.range 8).map (fun n => payload.extractLsb' (8 * n) 8) ++ [if toggle = some true then 1 else 0])
        ∧ (∀ count reason handle, x.body = .undecoded count reason handle → kind = 0x06#8 ∧
          body = [if handle.isSome then 2 else 0, BitVec.ofNat 8 count, (match reason with
            | .leader => 1
            | .symbol => 2
            | .cell => 3
            | .trailing => 4
            | .length => 5
            | .noProfile => 6), (match handle with
            | some h => BitVec.ofNat 8 h.val
            | none => 0), 0, 0, 0, 0, 0, 0, 0, 0])
        ∧ (x.body = .lineStuck → kind = 0x07#8 ∧ body = List.replicate 12 0)
        ∧ (∀ profile bits payload existing, x.body = .learnDone profile bits payload existing → kind = 0x08#8 ∧
          body = [if existing.isSome then 4 else 0, BitVec.ofNat 8 profile.val, BitVec.ofNat 8 bits]
            ++ (List.range 8).map (fun n => payload.extractLsb' (8 * n) 8) ++ [(match existing with
              | some i => BitVec.ofNat 8 i.val
              | none => 0)])
        ∧ (∀ reason, x.body = .learnFail reason → kind = 0x09#8 ∧
          body = [0, (match reason with
            | .timeout => 1
            | .mismatch => 2
            | .channelOff => 3), 0, 0, 0, 0, 0, 0, 0, 0, 0, 0])
        ∧ (∀ tag frames, x.body = .txDone tag frames → kind = 0x0A#8 ∧
          body = [0, tag, frames.extractLsb' 0 8, frames.extractLsb' 8 8, 0, 0, 0, 0, 0, 0, 0, 0])
        ∧ (∀ tag frames reason, x.body = .txAbort tag frames reason → kind = 0x0B#8 ∧
          body = [0, tag, frames.extractLsb' 0 8, frames.extractLsb' 8 8, (match reason with
            | .host => 1
            | .purged => 2
            | .sourceGone => 3), 0, 0, 0, 0, 0, 0, 0])
        ∧ ∀ lost, x.body = .overrun lost → kind = 0x0C#8 ∧
          body = [0, lost.extractLsb' 0 8, lost.extractLsb' 8 8, 0, 0, 0, 0, 0, 0, 0, 0, 0]

/-! ## Chapter 8: the Transmit Engine -/

/-- TX_SUBMIT: refused, in this order, with BAD_ARG by the field checks, NO_SPACE with 8 requests waiting, and by the
source: an EMPTY entry, an EMPTY profile, a bit count outside the profile's, a burst without host hold or with 8 holds
already; else the request joins the tail, the result is its tag, and a burst has one transmit hold more. The read of
an entry waits for the answer to a PRESS. Which records of the transmit staging layout the field checks refuse, and what
request the others spell. -/
def Obligations.SubmitChecksAndQueues : Prop :=
  (∀ (s : State) (f : InFlight) (r : Vector Byte 21), s.bcu.inFlight = some f → f.cmd = some .txSubmit →
    f.staging = .transmit r → .txe ∈ f.parts →
    (txRequestOfBytes r = none → exec (.txSubmit .take) s = .next (s.answerPart .txe { error := some .badArg }))
    ∧ ∀ x accepted, txRequestOfBytes r = some x →
      accepted = (s.setTxe { s.txe with queue := s.txe.queue ++ [x] }).answerPart .txe { result := x.tag } →
      (8 ≤ s.txe.queue.length → exec (.txSubmit .take) s = .next (s.answerPart .txe { error := some .noSpace }))
      ∧ (s.txe.queue.length < 8 →
        (∀ i, x.source = .entry i → s.mu.awaiting = none →
          ((s.mu.entry i).valid = false →
            exec (.txSubmit .take) s = .next (s.answerPart .txe { error := some .entryEmpty }))
          ∧ ((s.mu.entry i).valid = true → exec (.txSubmit .take) s = .next accepted))
        ∧ (∀ p bits payload, x.source = .word p bits payload →
          ((s.sdc.profile p).valid = false →
            exec (.txSubmit .take) s = .next (s.answerPart .txe { error := some .profileEmpty }))
          ∧ ((s.sdc.profile p).valid = true → bits < (s.sdc.profile p).minBits ∨ (s.sdc.profile p).maxBits < bits →
            exec (.txSubmit .take) s = .next (s.answerPart .txe { error := some .badArg }))
          ∧ ((s.sdc.profile p).valid = true → (s.sdc.profile p).minBits ≤ bits → bits ≤ (s.sdc.profile p).maxBits →
            exec (.txSubmit .take) s = .next accepted))
        ∧ (∀ h d, x.source = .burst h → d = s.pst.descriptor h →
          (d.state ≠ .retained ∨ d.hostHold = false →
            exec (.txSubmit .take) s = .next (s.answerPart .txe { error := some .badHandle }))
          ∧ (d.state = .retained → d.hostHold = true → 8 ≤ d.transmitHolds →
            exec (.txSubmit .take) s = .next (s.answerPart .txe { error := some .noSpace }))
          ∧ (d.state = .retained → d.hostHold = true → d.transmitHolds < 8 →
            exec (.txSubmit .take) s = .next
              (accepted.setPst (s.pst.setDescriptor h { d with transmitHolds := d.transmitHolds + 1 }))))))
    ∧ ∀ (r : Vector Byte 21) (payload : Payload) (carrier : Nat),
      payload = r[12] ++ r[11] ++ r[10] ++ r[9] ++ r[8] ++ r[7] ++ r[6] ++ r[5] → carrier = r[15].toNat + 256 * r[16].toNat →
      (txRequestOfBytes r = none ↔
        1 < r[1].toNat ∨ 2 < r[2].toNat ∨ (r[2].toNat = 0 ∧ 127 < r[3].toNat)
          ∨ (r[2].toNat = 1 ∧ (7 < r[3].toNat ∨ r[4].toNat < 1 ∨ 64 < r[4].toNat
              ∨ ∃ n, r[4].toNat ≤ n ∧ payload.getLsbD n = true))
          ∨ (r[2].toNat = 2 ∧ (15 < r[3].toNat ∨ r[20].toNat = 0))
          ∨ 2 < r[13].toNat ∨ (r[13].toNat = 1 ∧ r[14].toNat = 0) ∨ (1 ≤ carrier ∧ carrier < 64) ∨ 800 < carrier
          ∨ 2 < r[17].toNat ∨ 15 < r[18].toNat)
      ∧ ∀ x, txRequestOfBytes r = some x →
        x.tag = r[0] ∧ x.output.val = r[1].toNat ∧ x.carrier.toNat = carrier ∧ x.blankTail = r[19] ∧ x.rawGap = r[20]
        ∧ (∀ c : Channel, x.blankSet.getLsbD c.val = r[18].getLsbD c.val)
        ∧ (r[2].toNat = 0 → ∃ i : EntryNo, x.source = .entry i ∧ i.val = r[3].toNat)
        ∧ (r[2].toNat = 1 → ∃ p : ProfileNo, x.source = .word p r[4].toNat payload ∧ p.val = r[3].toNat)
        ∧ (r[2].toNat = 2 → ∃ h : Handle, x.source = .burst h ∧ h.val = r[3].toNat)
        ∧ (r[13].toNat = 0 → x.mode = .once) ∧ (r[13].toNat = 1 → x.mode = .count r[14].toNat)
        ∧ (r[13].toNat = 2 → x.mode = .hold)
        ∧ (r[17].toNat = 0 → x.duty = .quarter) ∧ (r[17].toNat = 1 → x.duty = .third) ∧ (r[17].toNat = 2 → x.duty = .half)

/-- The source of an activation stands exactly when: an entry is VALID and its profile VALID with the entry's bit count in
its range; a code word's profile likewise; a held burst always. ACTIVATION: an IDLE engine takes the oldest request that
names its output. Where the source stands, the request is active with frames sent 0 and end kind DONE, its toggle state
inverted for a toggle profile, its first frame begins now, and a claim is sent to each channel of the blank set; where it is
gone, a TX_ABORT SOURCE_GONE is sent and the engine stays IDLE. The reads of an entry and of its profile fall together (log
38, the model's), and the read of an entry waits for the answer to a PRESS. -/
def Obligations.ActivationBeginsTheFrameOrEndsGone : Prop :=
  (∀ s : State,
    (∀ (p : ProfileNo) (bits : Nat) (payload : Payload),
      ((s.sdc.profile p).valid = true ∧ (s.sdc.profile p).minBits ≤ bits ∧ bits ≤ (s.sdc.profile p).maxBits →
        s.sourceSnapshot (.word p bits payload) = some (.frame (s.sdc.profile p) bits payload))
      ∧ ((s.sdc.profile p).valid = false ∨ bits < (s.sdc.profile p).minBits ∨ (s.sdc.profile p).maxBits < bits →
        s.sourceSnapshot (.word p bits payload) = none))
    ∧ (∀ i, s.sourceSnapshot (.entry i) =
        if (s.mu.entry i).valid then
          s.sourceSnapshot (.word (s.mu.entry i).profile (s.mu.entry i).bits (s.mu.entry i).pattern) else none)
    ∧ ∀ h, s.sourceSnapshot (.burst h) = some (.burst
        ((List.range (s.pst.descriptor h).count).map (s.pst.elementAt (s.pst.descriptor h)))))
    ∧ (∀ (s : State) (o : Output) (before after : List TxRequest) (r : TxRequest), (s.txe.engine o).state = .idle →
    s.txe.queue = before ++ r :: after → r.output = o → (∀ x ∈ before, x.output ≠ o) →
    (∀ i, r.source = .entry i → s.mu.awaiting = none) →
    (s.sourceSnapshot r.source = none →
      exec (.activation o) s = .next (s.setTxe { s.txe.setEngine o { s.txe.engine o with
          framesSent := 0, stopRequested := false, endKind := .done
          toQueue := (s.txe.engine o).toQueue.push
            { source := BitVec.ofNat 8 o.val, stamp := s.now, body := .txAbort r.tag 0 .sourceGone } } with
        queue := before ++ after }))
    ∧ (∀ x, s.sourceSnapshot r.source = some x →
      ∃ t toggle, exec (.activation o) s = .next t ∧ t = ({ s with txe := t.txe, lcus := t.lcus } : State)
        ∧ toggle = (match x with
          | .frame p _ _ => if p.toggle.isSome then !(s.txe.engine o).toggle else (s.txe.engine o).toggle
          | .burst _ => (s.txe.engine o).toggle)
        ∧ t.txe = { s.txe.setEngine o { s.txe.engine o with
            state := .frame, request := some r, snapshot := some x, framesSent := 0, frameStart := s.now
            elements := x.frameElements true toggle, elementStart := s.now, stopRequested := false, endKind := .done
            toggle := toggle } with queue := before ++ after }
        ∧ ∀ c, t.lcu c = if r.blankSet.getLsbD c.val then
              (s.lcu c).setClaims o ((s.lcu c).claimsOf o ++ [.claim]) else s.lcu c))

/-- ELEMENT_END and FRAME_END: an element ends at its duration and the next begins there; at the end of the last one the
frame is counted, and the engine goes to TAIL where a stop was requested, the mode is ONCE, or the COUNT is reached, and
otherwise to GAP. A blank tail of 0 ends in the same event, as TAIL_END would end it. GAP_END: the next frame begins where
the gap ends: the frame period after the frame's start where the frame was shorter than a non-zero period, else 10,000 µs
after its end; for a burst, the raw gap after its end. The moments are computed from the schedule (log 18, the model's). The elements of a frame: a
full frame first, and later too where there is no repeat leader; else RM, RS and the trailer; of a burst, its durations as
they were captured, the first a mark. A full frame of DISTANCE or WIDTH: the leader, then each bit in sending order with the
toggle in its place, then in DISTANCE a last mark. A full frame of BIPHASE: the leader, then the halves of the bits in sending
order, each run of one level an element of T for each half, a rest at the end left out; where the first sent bit is 0, the rest
half it begins with is joined to the leader's space, or begins the frame where there is no leader. -/
def Obligations.FrameEndsAndGapsRunTheRequest : Prop :=
  (∀ (s : State) (o : Output) (x : Element) (r : TxRequest) (e : Engine) (n : Half), e = s.txe.engine o → e.state = .frame →
    e.request = some r → n = bump e.framesSent → x.duration ≤ (s.now - e.elementStart).toNat →
    (∀ y rest, e.elements = x :: y :: rest →
      exec (.elementEnd o) s = .next (s.setEngine o { e with
        elements := y :: rest, elementStart := e.elementStart + BitVec.ofNat 32 x.duration }))
    ∧ (e.elements = [x] → ∀ ended : Engine,
        ended = { e with
          framesSent := n, elements := [], frameEnd := e.elementStart + BitVec.ofNat 32 x.duration } →
      (e.stopRequested = true ∨ r.mode = .once ∧ n = 1 ∨ r.mode = .count n.toNat → ∀ u : State,
          u = s.setEngine o { ended with state := .tail, tailStart := e.elementStart + BitVec.ofNat 32 x.duration } →
        (r.blankTail ≠ 0 → exec (.frameEnd o) s = .next u)
        ∧ (r.blankTail = 0 → exec (.frameEnd o) s = exec (.tailEnd o) u))
      ∧ (e.stopRequested = false → r.mode = .hold ∨ (∃ m, r.mode = .count m ∧ m ≠ n.toNat) →
        exec (.frameEnd o) s = .next (s.setEngine o { ended with state := .gap }))))
    ∧ (∀ (s : State) (o : Output) (r : TxRequest) (x : TxSnapshot) (start : Time) (us : Nat), (s.txe.engine o).state = .gap →
    (s.txe.engine o).request = some r → (s.txe.engine o).snapshot = some x →
    (match x with
      | .burst _ => start = (s.txe.engine o).frameEnd ∧ us = r.rawGap.toNat * 1000
      | .frame p _ _ =>
        (0 < p.period → ((s.txe.engine o).frameEnd - (s.txe.engine o).frameStart).toNat < p.period * 1000 →
          start = (s.txe.engine o).frameStart ∧ us = p.period * 1000)
        ∧ (p.period = 0 ∨ p.period * 1000 ≤ ((s.txe.engine o).frameEnd - (s.txe.engine o).frameStart).toNat →
          start = (s.txe.engine o).frameEnd ∧ us = 10000)) →
    us ≤ (s.now - start).toNat →
    exec (.gapEnd o) s = .next (s.setEngine o { s.txe.engine o with
      state := .frame, frameStart := start + BitVec.ofNat 32 us, elementStart := start + BitVec.ofNat 32 us
      elements := x.frameElements false (s.txe.engine o).toggle }))
    ∧ (∀ (p : Profile) (bits : Nat) (payload : Payload) (first toggle : Bool) (x : TxSnapshot), x = .frame p bits payload →
      (first = true ∨ p.repeatLeader = none → x.frameElements first toggle = p.fullFrame bits payload toggle)
      ∧ (∀ l, first = false → p.repeatLeader = some l → x.frameElements first toggle =
          [{ mark := true, duration := l.mark.toNat }, { mark := false, duration := l.space.toNat },
           { mark := true, duration := p.unit1.toNat }]))
    ∧ (∀ (ds : List Half) (first toggle : Bool) (x : TxSnapshot), x = .burst ds →
      (x.frameElements first toggle).length = ds.length
      ∧ ∀ n d, ds[n]? = some d → (x.frameElements first toggle)[n]? = some ({ mark := n % 2 == 0, duration := d.toNat } : Element))
    ∧ (∀ (p : Profile) (bits : Nat) (payload : Payload) (toggle : Bool) (lead : List Element) (sent : List Bool),
      lead = (match p.leader with
        | some l => [{ mark := true, duration := l.mark.toNat }, { mark := false, duration := l.space.toNat }]
        | none => []) →
      sent.length = bits →
      (∀ n, n < bits → ∀ place, place = (match p.order with
          | .lsbFirst => n
          | .msbFirst => bits - 1 - n) →
        sent[n]? = some (if p.toggle = some place ∧ place < 64 then toggle else payload.getLsbD place)) →
      (p.encoding = .distance → p.fullFrame bits payload toggle =
        lead ++ sent.flatMap (fun b => [({ mark := true, duration := p.unit1.toNat } : Element),
          { mark := false, duration := if b then p.unit3.toNat else p.unit2.toNat }])
        ++ [{ mark := true, duration := p.unit1.toNat }])
      ∧ (p.encoding = .width → p.fullFrame bits payload toggle =
        lead ++ (sent.flatMap (fun b => [({ mark := true, duration := if b then p.unit2.toNat else p.unit1.toNat } : Element),
          { mark := false, duration := p.unit3.toNat }])).dropLast)
      ∧ (p.encoding = .biphase → ∀ (runs : List (Bool × Nat)) (body : List Element),
        (∀ r ∈ runs, 1 ≤ r.2) → (∀ n x y, runs[n]? = some x → runs[n + 1]? = some y → x.1 ≠ y.1) →
        runs.flatMap (fun r => List.replicate r.2 r.1) = sent.flatMap (fun b => if b then [true, false] else [false, true]) →
        body = (if sent.getLast? = some true then runs.dropLast else runs).map
          (fun r => ({ mark := r.1, duration := r.2 * p.unit1.toNat } : Element)) →
        (sent[0]? = some true → p.fullFrame bits payload toggle = lead ++ body)
        ∧ (sent[0]? = some false →
          (p.leader = none → body[0]? = some { mark := false, duration := p.unit1.toNat }
            ∧ p.fullFrame bits payload toggle = body)
          ∧ ∀ l, p.leader = some l → p.fullFrame bits payload toggle =
            [{ mark := true, duration := l.mark.toNat }, { mark := false, duration := l.space.toNat + p.unit1.toNat }]
              ++ body.tail)))

/-- TAIL_END: a blank tail of n ends n times 100 µs after the entry: a drop goes to each channel of the blank set, a burst's
transmit hold is dropped, the end record is sent with the present time (log 18, the model's), and the engine is IDLE without
a request. -/
def Obligations.TailEndDropsClaimsAndReports : Prop :=
  ∀ (s : State) (o : Output) (r : TxRequest), (s.txe.engine o).state = .tail → (s.txe.engine o).request = some r →
    r.blankTail.toNat * 100 ≤ (s.now - (s.txe.engine o).tailStart).toNat →
    ∃ t, exec (.tailEnd o) s = .next t ∧ t = ({ s with txe := t.txe, lcus := t.lcus } : State)
      ∧ t.txe = { s.txe.setEngine o { s.txe.engine o with
          state := .idle, request := none, snapshot := none, elements := []
          toQueue := (s.txe.engine o).toQueue.push
            { source := BitVec.ofNat 8 o.val, stamp := s.now
              body := match (s.txe.engine o).endKind with
                | .done => .txDone r.tag (s.txe.engine o).framesSent
                | .aborted reason => .txAbort r.tag (s.txe.engine o).framesSent reason } } with
          holdDrops := s.txe.holdDrops ++ (match r.source with
            | .burst h => [h]
            | _ => []) }
      ∧ ∀ c, t.lcu c = if r.blankSet.getLsbD c.val then
            (s.lcu c).setClaims o ((s.lcu c).claimsOf o ++ [.drop]) else s.lcu c

/-- The transmit pin: at rest outside FRAME, in a space and from the end of a mark's duration on; in a mark without carrier
active to its end; in a mark with a carrier active in the first part of each cycle, a quarter, a third or a half of the
period rounded down, counted from the mark's start. `unit` is the unit of 125 ns in the present microsecond (log 33, the
model's). -/
def Obligations.PinCarriesTheMark : Prop :=
  ∀ (s : State) (o : Output) (unit : Nat),
    ((s.txe.engine o).state ≠ .frame → s.txPin o unit = false)
    ∧ ∀ r x rest us, (s.txe.engine o).state = .frame → (s.txe.engine o).request = some r →
        (s.txe.engine o).elements = x :: rest → us = (s.now - (s.txe.engine o).elementStart).toNat →
        (x.mark = false ∨ x.duration ≤ us → s.txPin o unit = false)
        ∧ (x.mark = true → us < x.duration →
          (r.carrier = 0 → s.txPin o unit = true)
          ∧ (r.carrier ≠ 0 →
            (s.txPin o unit = true ↔
              (us * 8 + unit) % r.carrier.toNat < r.carrier.toNat / (match r.duty with
                | .quarter => 4
                | .third => 3
                | .half => 2))))

/-- TX_STOP and TX_ABORT: a stop in FRAME is noted, in GAP leads to TAIL at once; an abort in FRAME and GAP leads to TAIL at
once with end kind ABORT HOST; in TAIL and IDLE neither does anything; a purge first takes every request of the output from
the queue, each with a TX_ABORT PURGED and, for a burst, a hold drop. A blank tail of 0 ends in the same event, as TAIL_END
would end it. -/
def Obligations.StopAndAbortEndTheRequest : Prop :=
  ∀ (s : State) (f : InFlight) (o : Output) (e : Engine), s.bcu.inFlight = some f → f.args.arg0.toNat = o.val →
    .txe ∈ f.parts → e = s.txe.engine o →
    (f.cmd = some .txStop →
      (e.state = .frame →
        exec (.txStop .take) s = .next ((s.setEngine o { e with stopRequested := true }).answerPart .txe {}))
      ∧ (∀ r u, e.state = .gap → e.request = some r →
          u = s.setEngine o { e with state := .tail, tailStart := s.now, elements := [] } →
        (r.blankTail ≠ 0 → exec (.txStop .take) s = .next (u.answerPart .txe {}))
        ∧ (r.blankTail = 0 → ∃ t, exec (.tailEnd o) u = .next t ∧ exec (.txStop .take) s = .next (t.answerPart .txe {})))
      ∧ (e.state = .tail ∨ e.state = .idle → exec (.txStop .take) s = .next (s.answerPart .txe {})))
    ∧ (∀ (gone : List TxRequest) (p : Engine) (v : State), f.cmd = some .txAbort → f.args.arg1.toNat ≤ 1 →
        (f.args.arg1 = 0 → p = e ∧ v = s) →
        (f.args.arg1 = 1 →
          gone = s.txe.queue.filter (fun r => r.output = o)
          ∧ p = { e with toQueue := { e.toQueue with
              msgs := e.toQueue.msgs ++ gone.map fun r =>
                { source := BitVec.ofNat 8 o.val, stamp := s.now, body := .txAbort r.tag 0 .purged } } }
          ∧ v = s.setTxe { s.txe.setEngine o p with
              queue := s.txe.queue.filter (fun r => r.output ≠ o)
              holdDrops := s.txe.holdDrops ++ gone.filterMap (fun r => match r.source with
                | .burst h => some h
                | .entry _ => none
                | .word _ _ _ => none) }) →
      (∀ r u, e.state = .frame ∨ e.state = .gap → e.request = some r →
          u = v.setEngine o { p with state := .tail, tailStart := s.now, elements := [], endKind := .aborted .host } →
        (r.blankTail ≠ 0 → exec (.txAbort .take) s = .next (u.answerPart .txe {}))
        ∧ (r.blankTail = 0 → ∃ t, exec (.tailEnd o) u = .next t ∧ exec (.txAbort .take) s = .next (t.answerPart .txe {})))
      ∧ (e.state = .tail ∨ e.state = .idle → exec (.txAbort .take) s = .next (v.answerPart .txe {})))

/-! ## Chapter 9: the register window and the commands -/

/-- The write of an opcode. While a command is BUSY it is ignored and sets COLLISION. Otherwise it is accepted: opcode
readback, flags and outcome cleared, BUSY, and the snapshot of ARG0 to ARG3 and of the staging record that the command uses,
with the command's parts by the table of 9.4. -/
def Obligations.OpcodeWriteIsTakenOrCollides : Prop :=
  ∀ (s : State) (opcode : Byte) (i : Instr),
    i = .undefinedOpcode (.write opcode) ∨ (opcode, i) ∈
      [(0x01#8, Instr.channelSet .write), (0x02#8, .channelGet .write), (0x03#8, .channelEnable .write),
       (0x04#8, .channelDisable .write), (0x05#8, .channelFlush .write), (0x06#8, .countersClear .write),
       (0x07#8, .profileCommit .write), (0x08#8, .profileRead .write), (0x09#8, .profileClear .write),
       (0x0A#8, .entryCommit .write), (0x0B#8, .entryRead .write), (0x0C#8, .entryClear .write),
       (0x0D#8, .tableClear .write), (0x0E#8, .burstRelease .write), (0x0F#8, .learnStart .write),
       (0x10#8, .learnAbort .write), (0x11#8, .learnCommit .write), (0x12#8, .learnDiscard .write),
       (0x13#8, .txSubmit .write), (0x14#8, .txStop .write), (0x15#8, .txAbort .write), (0x16#8, .runReset)] →
    (s.bcu.cmdState = .busy → exec i s = .next (s.setBcu { s.bcu with collision := true }))
    ∧ (s.bcu.cmdState ≠ .busy → ∃ f,
        exec i s = .next (s.setBcu { s.bcu with
          opcode := opcode, collision := false, cmdDone := false, error := 0, result := 0, cmdState := .busy
          inFlight := some f })
        ∧ f.cmd = Cmd.ofOpcode opcode ∧ f.args = s.bcu.args ∧ f.error = none
        ∧ (opcode = 0x01#8 → f.staging = .channel s.bcu.channelStaging)
        ∧ (opcode = 0x07#8 → f.staging = .profile s.bcu.profileStaging)
        ∧ (opcode = 0x0A#8 ∨ opcode = 0x11#8 → f.staging = .entry s.bcu.entryStaging)
        ∧ (opcode = 0x13#8 → f.staging = .transmit s.bcu.transmitStaging)
        ∧ (∀ c : Channel, f.args.arg0.toNat = c.val →
          (opcode.toNat ∈ [1, 2, 3] → f.parts = [.lcu c]) ∧ (opcode.toNat ∈ [4, 5] → f.parts = [.lcu c, .purge, .mu])
            ∧ (opcode.toNat = 6 → f.parts = [.lcu c, .sdc, .mu]))
        ∧ (opcode.toNat ∈ [7, 8, 9] → f.parts = [.sdc])
        ∧ (opcode.toNat ∈ [10, 11, 12, 13, 15, 16, 17, 18] → f.parts = [.mu])
        ∧ (opcode.toNat = 14 → f.parts = [.pst]) ∧ (opcode.toNat ∈ [19, 20, 21] → f.parts = [.txe])
        ∧ (opcode.toNat = 22 → f.parts = [.txe, .lcu 0, .lcu 1, .lcu 2, .lcu 3, .pst, .sdc, .mu, .evq]))

/-- An opcode byte that is not 01h to 16h is no command, and it completes ERROR with BAD_OPCODE, code 01h, and CMD_DONE. An
argument that names nothing inside the part completes ERROR with BAD_ARG, code 02h, and CMD_DONE; in the model this
completes in the event that would take the command's part (log 6). Nothing outside the BCU changes. -/
def Obligations.RefusedByTheCommandUnit : Prop :=
  ((∀ b : Byte, Cmd.ofOpcode b = none ↔ b.toNat = 0 ∨ 0x16 < b.toNat)
    ∧ ∀ (s : State) (f : InFlight), s.bcu.inFlight = some f → f.cmd = none →
      exec (.undefinedOpcode .check) s = .next (s.setBcu { s.bcu with
        cmdState := .error, error := 0x01#8, result := 0, cmdDone := true, inFlight := none }))
    ∧ (∀ (s : State) (f : InFlight) (i : Instr) (cmd : Cmd), s.bcu.inFlight = some f → f.cmd = some cmd →
    4 ≤ f.args.arg0.toNat ∧ (i, cmd) ∈
        [(Instr.channelSet .take, Cmd.channelSet), (.channelGet .take, .channelGet), (.channelEnable .take, .channelEnable),
         (.channelDisable .take, .channelDisable), (.channelFlush .take, .channelFlush), (.countersClear .lcu, .countersClear),
         (.countersClear .sdc, .countersClear), (.countersClear .mu, .countersClear), (.learnStart .take, .learnStart)]
      ∨ 8 ≤ f.args.arg0.toNat ∧ (i, cmd) ∈
        [(Instr.profileCommit .take, Cmd.profileCommit), (.profileRead .take, .profileRead), (.profileClear .take, .profileClear)]
      ∨ 128 ≤ f.args.arg0.toNat ∧ (i, cmd) ∈
        [(Instr.entryCommit .take, Cmd.entryCommit), (.entryRead .take, .entryRead), (.entryClear .take, .entryClear),
         (.learnCommit .take, .learnCommit)]
      ∨ 16 ≤ f.args.arg0.toNat ∧ i = .burstRelease .take ∧ cmd = .burstRelease
      ∨ 2 ≤ f.args.arg0.toNat ∧ (i, cmd) ∈ [(Instr.txStop .take, Cmd.txStop), (.txAbort .take, .txAbort)]
      ∨ 2 ≤ f.args.arg1.toNat ∧ i = .txAbort .take ∧ cmd = .txAbort →
    exec i s = .next (s.setBcu { s.bcu with
      cmdState := .error, error := 0x02#8, result := 0, cmdDone := true, inFlight := none }))

/-- An owner's answer takes its part from the command in flight and gives it the answer's error, where no part answered one
before, its result and its copy; nothing else changes. COMMAND_COMPLETION: a command that passed the BCU's check and has no part left completes ERROR with the code of its
refusal and result 00h, or DONE with error 00h and its result; a copy replaces its staging record; CMD_DONE is set.
Each error has its code of the table, 01h to 0Bh. CHANNEL_GET, PROFILE_READ and ENTRY_READ: the owner answers with a copy of the settings, the profile or the entry as it
stands, in the layout of the staging record, and nothing else changes; no 1 ms tick of an earlier moment waits at
ENTRY_READ (log 25, the model's). -/
def Obligations.CompletionStoresTheOutcome : Prop :=
  (∀ (s : State) (p : Part) (a : PartAnswer),
    (s.bcu.inFlight = none → s.answerPart p a = s)
    ∧ ∀ f g : InFlight, s.bcu.inFlight = some f →
        g = { f with
          parts := f.parts.erase p, result := a.result, copy := a.copy
          error := match f.error with
            | some e => some e
            | none => a.error } →
        s.answerPart p a = s.setBcu { s.bcu with inFlight := some g })
    ∧ (∀ (s : State) (f : InFlight), s.bcu.inFlight = some f → f.refusal = none → f.parts = [] →
    (∀ e, f.error = some e → f.copy = .absent → ∀ code : Byte,
      code = (match e with
        | .badOpcode => 0x01#8
        | .badArg => 0x02#8
        | .channelNotDisabled => 0x03#8
        | .channelDisabled => 0x04#8
        | .profileEmpty => 0x05#8
        | .badTiming => 0x06#8
        | .inUse => 0x07#8
        | .entryEmpty => 0x08#8
        | .noSpace => 0x09#8
        | .badHandle => 0x0A#8
        | .learnState => 0x0B#8) →
      exec .commandCompletion s = .next (s.setBcu { s.bcu with
        cmdState := .error, error := code, result := 0, cmdDone := true, inFlight := none }))
    ∧ (f.error = none →
      (f.copy = .absent →
        exec .commandCompletion s = .next (s.setBcu { s.bcu with
          cmdState := .done, error := 0, result := f.result, cmdDone := true, inFlight := none }))
      ∧ (∀ r, f.copy = .channel r →
        exec .commandCompletion s = .next (s.setBcu { s.bcu with
          cmdState := .done, error := 0, result := f.result, cmdDone := true, inFlight := none, channelStaging := r }))
      ∧ (∀ r, f.copy = .profile r →
        exec .commandCompletion s = .next (s.setBcu { s.bcu with
          cmdState := .done, error := 0, result := f.result, cmdDone := true, inFlight := none, profileStaging := r }))
      ∧ (∀ r, f.copy = .entry r →
        exec .commandCompletion s = .next (s.setBcu { s.bcu with
          cmdState := .done, error := 0, result := f.result, cmdDone := true, inFlight := none, entryStaging := r }))))
    ∧ (∀ (s : State) (f : InFlight), s.bcu.inFlight = some f →
    (∀ c : Channel, f.cmd = some .channelGet → f.args.arg0.toNat = c.val → .lcu c ∈ f.parts → (s.lcu c).waiting = none →
      exec (.channelGet .take) s = .next (s.answerPart (.lcu c) { copy := .channel (settingsBytes (s.lcu c).settings) }))
    ∧ (∀ p : ProfileNo, f.cmd = some .profileRead → f.args.arg0.toNat = p.val → .sdc ∈ f.parts →
      exec (.profileRead .take) s = .next (s.answerPart .sdc { copy := .profile (profileBytes (s.sdc.profile p)) }))
    ∧ (∀ i : EntryNo, f.cmd = some .entryRead → f.args.arg0.toNat = i.val → .mu ∈ f.parts → s.mu.awaiting = none →
        (∀ m ∈ s.tb.msTicks, m = s.now) →
      exec (.entryRead .take) s = .next (s.answerPart .mu { copy := .entry (entryBytes (s.mu.entry i)) })))

/-- CHANNEL_SET: refused, with no setting changed, by the first failing check: not DISABLED, a setting out of its range, a
profile of the set that is EMPTY; else every setting is replaced, and a pending change that has persisted for the new glitch
minimum is accepted. The change is judged at the last sample that the LCU has taken: the present one, or the one before the
oldest that waits, and the one that started the change where that one waits (log 7, the model's); where no sample waits, nothing
but what the rule names changes. -/
def Obligations.ChannelSetChecksAndReplaces : Prop :=
  ∀ (s : State) (f : InFlight) (c : Channel) (r : Vector Byte 10) (x : Settings) (inRange : Prop),
    s.bcu.inFlight = some f → f.cmd = some .channelSet → f.args.arg0.toNat = c.val → .lcu c ∈ f.parts →
    (s.lcu c).waiting = none → f.staging = .channel r → x = settingsOfBytes r →
    (inRange ↔ 1000 ≤ x.endGap.toNat ∧ 3 ≤ x.elementLimit.toNat ∧ x.elementLimit.toNat % 2 = 1 ∧ x.stuckLimit.toNat ≤ 60
      ∧ 8 ≤ x.holdWindow.toNat ∧ x.holdWindow.toNat ≤ 1020 ∧ x.holdWindow.toNat % 4 = 0
      ∧ (x.retainUndecoded = true → x.reportUndecoded = true)) →
    ((s.lcu c).capture ≠ .disabled →
      exec (.channelSet .take) s = .next (s.answerPart (.lcu c) { error := some .channelNotDisabled }))
    ∧ ((s.lcu c).capture = .disabled → ¬ inRange →
      exec (.channelSet .take) s = .next (s.answerPart (.lcu c) { error := some .badArg }))
    ∧ ((s.lcu c).capture = .disabled → inRange →
        (∃ p : ProfileNo, x.profileSet.getLsbD p.val = true ∧ (s.sdc.profile p).valid = false) →
      exec (.channelSet .take) s = .next (s.answerPart (.lcu c) { error := some .profileEmpty }))
    ∧ ((s.lcu c).capture = .disabled → inRange →
        (∀ p : ProfileNo, x.profileSet.getLsbD p.val = true → (s.sdc.profile p).valid = true) →
      ∀ persisted : Time → Nat,
        (∀ edge, persisted edge = (match (s.lcu c).samples with
          | [] => (s.now - edge).toNat
          | y :: _ => (y.time - edge).toNat - 1)) →
      ((∀ edge, (s.lcu c).change = some edge → persisted edge < x.glitchMin.toNat) →
        exec (.channelSet .take) s = .next ((s.setLcu c { s.lcu c with settings := x }.settle).answerPart (.lcu c) {}))
      ∧ (∀ edge, (s.lcu c).change = some edge → x.glitchMin.toNat ≤ persisted edge →
        exec (.channelSet .take) s = .next
          ((s.setLcu c { s.lcu c with settings := x, level := !(s.lcu c).level, change := none }.settle).answerPart
            (.lcu c) {})))
    ∧ ∀ l : Lcu, l.samples = [] → l.settle = l

/-- The layouts of the staging records, byte by byte and little-endian, as a command reads them and as a copy writes them:
the channel record of ten bytes, the profile record of 23 and the entry record of 25. The state byte is not read; absent fields
and unnamed bits are written as 0. In BIPHASE units 2 and 3 are not read and are 0. The records read back what a copy writes: all
settings; every profile that the field checks admit; every entry that the field checks admit. -/
def Obligations.StagingRecordsReadBack : Prop :=
  (∀ r : Vector Byte 10, settingsOfBytes r =
      { polarity := if r[0].getLsbD 0 then .activeHigh else .activeLow
        glitchMin := r[1], endGap := r[3] ++ r[2], elementLimit := r[4], stuckLimit := r[5], profileSet := r[6]
        holdWindow := r[8] ++ r[7], reportUnknown := r[9].getLsbD 0, reportUndecoded := r[9].getLsbD 1
        retainUndecoded := r[9].getLsbD 2, reportStuck := r[9].getLsbD 3 })
    ∧ (∀ x : Settings, settingsBytes x =
      #v[if x.polarity = .activeHigh then 1 else 0, x.glitchMin, x.endGap.extractLsb' 0 8, x.endGap.extractLsb' 8 8,
         x.elementLimit, x.stuckLimit, x.profileSet, x.holdWindow.extractLsb' 0 8, x.holdWindow.extractLsb' 8 8,
         (if x.reportUnknown then 1 else 0) + (if x.reportUndecoded then 2 else 0) + (if x.retainUndecoded then 4 else 0)
           + if x.reportStuck then 8 else 0])
    ∧ (∀ (r : Vector Byte 23) (p : Profile), profileOfBytes r = some p →
      p.valid = true
      ∧ r[1] = (match p.encoding with
        | .distance => 0
        | .width => 1
        | .biphase => 2)
      ∧ p.tolerance = r[2].toNat
      ∧ p.leader = (if r[3].getLsbD 0 then some { mark := r[5] ++ r[4], space := r[7] ++ r[6] } else none)
      ∧ p.repeatLeader = (if r[3].getLsbD 1 then some { mark := r[9] ++ r[8], space := r[11] ++ r[10] } else none)
      ∧ p.unit1 = r[13] ++ r[12]
      ∧ p.unit2 = (if p.encoding = .biphase then 0#16 else r[15] ++ r[14])
      ∧ p.unit3 = (if p.encoding = .biphase then 0#16 else r[17] ++ r[16])
      ∧ p.minBits = r[18].toNat ∧ p.maxBits = r[19].toNat
      ∧ r[20] = (match p.order with
        | .lsbFirst => 0
        | .msbFirst => 1)
      ∧ p.toggle = (if r[3].getLsbD 2 then some r[21].toNat else none) ∧ p.period = r[22].toNat)
    ∧ (∀ (p : Profile) (leader repeats : MarkSpace), leader = p.leader.getD ⟨0, 0⟩ → repeats = p.repeatLeader.getD ⟨0, 0⟩ →
      profileBytes p =
        #v[if p.valid then 1 else 0, (match p.encoding with
             | .distance => 0
             | .width => 1
             | .biphase => 2), BitVec.ofNat 8 p.tolerance,
           (if p.leader.isSome then 1 else 0) + (if p.repeatLeader.isSome then 2 else 0) + (if p.toggle.isSome then 4 else 0),
           leader.mark.extractLsb' 0 8, leader.mark.extractLsb' 8 8, leader.space.extractLsb' 0 8, leader.space.extractLsb' 8 8,
           repeats.mark.extractLsb' 0 8, repeats.mark.extractLsb' 8 8,
           repeats.space.extractLsb' 0 8, repeats.space.extractLsb' 8 8,
           p.unit1.extractLsb' 0 8, p.unit1.extractLsb' 8 8, p.unit2.extractLsb' 0 8, p.unit2.extractLsb' 8 8,
           p.unit3.extractLsb' 0 8, p.unit3.extractLsb' 8 8, BitVec.ofNat 8 p.minBits, BitVec.ofNat 8 p.maxBits,
           (match p.order with
             | .lsbFirst => 0
             | .msbFirst => 1), (match p.toggle with
             | some t => BitVec.ofNat 8 t
             | none => 0), BitVec.ofNat 8 p.period])
    ∧ (∀ r : Vector Byte 25, entryFields r =
      { profile := r[1].toNat, bits := r[2].toNat
        pattern := r[10] ++ r[9] ++ r[8] ++ r[7] ++ r[6] ++ r[5] ++ r[4] ++ r[3]
        careMask := r[18] ++ r[17] ++ r[16] ++ r[15] ++ r[14] ++ r[13] ++ r[12] ++ r[11]
        keyId := r[19], channels := r[20], group := r[21], mode := r[22], confirm := r[23], hold := r[24] })
    ∧ (∀ (x : EntryFields) (e : Entry), entryOfFields x = some e →
      e.valid = true ∧ e.profile.val = x.profile ∧ e.bits = x.bits ∧ e.pattern = x.pattern ∧ e.careMask = x.careMask
      ∧ e.keyId = x.keyId ∧ e.channels.setWidth 8 = x.channels ∧ e.group = x.group.toNat
      ∧ x.mode = (match e.mode with
        | .edge => 0
        | .every => 1)
      ∧ e.confirm = x.confirm.toNat ∧ e.holdInterval = x.hold.toNat)
    ∧ (∀ (e : Entry) (byte : Payload → Nat → Byte), (∀ x n, byte x n = x.extractLsb' (8 * n) 8) → entryBytes e =
      #v[if e.valid then 1 else 0, BitVec.ofNat 8 e.profile.val, BitVec.ofNat 8 e.bits,
         byte e.pattern 0, byte e.pattern 1, byte e.pattern 2, byte e.pattern 3,
         byte e.pattern 4, byte e.pattern 5, byte e.pattern 6, byte e.pattern 7,
         byte e.careMask 0, byte e.careMask 1, byte e.careMask 2, byte e.careMask 3,
         byte e.careMask 4, byte e.careMask 5, byte e.careMask 6, byte e.careMask 7,
         e.keyId, e.channels.setWidth 8, BitVec.ofNat 8 e.group, (match e.mode with
           | .edge => 0
           | .every => 1), BitVec.ofNat 8 e.confirm, BitVec.ofNat 8 e.holdInterval])
    ∧ (∀ x : Settings, settingsOfBytes (settingsBytes x) = x)
    ∧ (∀ p : Profile, p.valid = true → 1 ≤ p.tolerance → p.tolerance ≤ 12 → 1 ≤ p.minBits → p.minBits ≤ p.maxBits →
        p.maxBits ≤ 64 → p.period < 256 → (∀ t, p.toggle = some t → t < p.minBits) →
        (p.encoding = .biphase → p.repeatLeader = none ∧ p.unit2 = 0 ∧ p.unit3 = 0) →
        profileOfBytes (profileBytes p) = some p)
    ∧ ∀ e : Entry, e.valid = true → 1 ≤ e.bits → e.bits ≤ 64 → (∀ n, e.bits ≤ n → e.pattern.getLsbD n = false) →
        (∀ n, e.bits ≤ n → e.careMask.getLsbD n = false) → e.channels ≠ 0 → e.group ≤ 15 → 1 ≤ e.confirm → e.confirm ≤ 4 →
        e.holdInterval < 256 → entryOfFields (entryFields (entryBytes e)) = some e

/-- CHANNEL_ENABLE, CHANNEL_DISABLE and CHANNEL_FLUSH at the LCU: enabling a DISABLED channel gives BLANKED with a claim on
it, else DISCARD measured from now, and does nothing elsewhere; disabling and flushing abandon an open burst without
counting it, give DISABLED, or DISCARD measured from now, or BLANKED under a claim, and always send the purge. -/
def Obligations.ChannelSwitchesMoveTheCapture : Prop :=
  ∀ (s : State) (f : InFlight) (c : Channel) (l : Lcu) (ended : Mailbox StoreRequest), s.bcu.inFlight = some f →
    f.args.arg0.toNat = c.val → .lcu c ∈ f.parts → l = s.lcu c → l.waiting = none →
    ended = (match l.handle with
      | some h => l.toStore.push (.abandon h)
      | none => l.toStore) →
    (f.cmd = some .channelEnable →
      (l.capture = .disabled → 0 < l.blankCount →
        exec (.channelEnable .take) s = .next
          ((s.setLcu c { l with capture := .blanked, measuringStart := none }).answerPart (.lcu c) {}))
      ∧ (l.capture = .disabled → l.blankCount = 0 →
        exec (.channelEnable .take) s = .next
          ((s.setLcu c { l with capture := .discard, measuringStart := some s.now }).answerPart (.lcu c) {}))
      ∧ (l.capture ≠ .disabled → exec (.channelEnable .take) s = .next (s.answerPart (.lcu c) {})))
    ∧ (f.cmd = some .channelDisable →
      (l.capture ≠ .disabled →
        exec (.channelDisable .take) s = .next ((s.setLcu c { l with
          capture := .disabled, measuringStart := none, handle := none, count := 0
          toStore := ended.push .purge }).answerPart (.lcu c) {}))
      ∧ (l.capture = .disabled →
        exec (.channelDisable .take) s = .next
          ((s.setLcu c { l with toStore := l.toStore.push .purge }).answerPart (.lcu c) {})))
    ∧ (f.cmd = some .channelFlush →
      (l.capture ≠ .disabled → l.blankCount = 0 →
        exec (.channelFlush .take) s = .next ((s.setLcu c { l with
          capture := .discard, measuringStart := some s.now, handle := none, count := 0
          toStore := ended.push .purge }).answerPart (.lcu c) {}))
      ∧ (l.capture ≠ .disabled → 0 < l.blankCount →
        exec (.channelFlush .take) s = .next ((s.setLcu c { l with
          capture := .blanked, measuringStart := none, handle := none, count := 0
          toStore := ended.push .purge }).answerPart (.lcu c) {}))
      ∧ (l.capture = .disabled →
        exec (.channelFlush .take) s = .next
          ((s.setLcu c { l with toStore := l.toStore.push .purge }).answerPart (.lcu c) {})))

/-- MU_CHANNEL_PART and COUNTERS_CLEAR: a flush or disable removes the channel's record, with RELEASE FLUSH or DISABLE where
it was reported, and a disable then fails a running session of the channel with LEARN_FAIL CHANNEL_OFF; a clear sets the
channel's seven, five and six counters to 0, each at its owner. No 1 ms tick of an earlier moment
waits here (log 25, the model's). -/
def Obligations.ChannelPartsAtTheOwners : Prop :=
  ∀ (s : State) (f : InFlight) (c : Channel), s.bcu.inFlight = some f → f.args.arg0.toNat = c.val → s.mu.awaiting = none →
    (∀ m ∈ s.tb.msTicks, m = s.now) →
    (∀ m reason, .mu ∈ f.parts →
        (f.cmd = some .channelFlush ∧ reason = ReleaseReason.flush ∨ f.cmd = some .channelDisable ∧ reason = .disable) →
        (s.mu.key c = none → m = s.mu) →
        (∀ r, s.mu.key c = some r → m = { s.mu.setKey c none with
          toQueue := if r.reported then s.mu.toQueue.push
              { source := channelByte c, stamp := s.now
                body := .release r.entry r.keyId r.repeats reason (r.heldTime s.now) }
            else s.mu.toQueue }) →
      (f.cmd = some .channelFlush ∨ s.mu.learn.active = false ∨ s.mu.learn.channel ≠ c →
        exec .muChannelPart s = .next ((s.setMu m).answerPart .mu {}))
      ∧ (f.cmd = some .channelDisable → s.mu.learn.active = true → s.mu.learn.channel = c →
        exec .muChannelPart s = .next ((s.setMu { m with
          learn := .idle, divert := none
          toQueue := m.toQueue.push
            { source := channelByte c, stamp := s.now, body := .learnFail .channelOff } }).answerPart .mu {})))
    ∧ (f.cmd = some .countersClear →
      (.lcu c ∈ f.parts → (s.lcu c).waiting = none →
        exec (.countersClear .lcu) s = .next ((s.setLcu c { s.lcu c with counters :=
          { burstsClosed := 0, glitches := 0, tooLong := 0, storeFull := 0, noDescriptor := 0, blankAbandoned := 0
            stuckEpisodes := 0 } }).answerPart (.lcu c) {}))
      ∧ (.sdc ∈ f.parts →
        exec (.countersClear .sdc) s = .next ((s.setSdc (s.sdc.setCounter c
          { fullFrames := 0, repeatFrames := 0, undecodable := 0, stale := 0, notRetained := 0 })).answerPart .sdc {}))
      ∧ (.mu ∈ f.parts →
        exec (.countersClear .mu) s = .next ((s.setMu (s.mu.setCounter c
          { hits := 0, ambiguous := 0, unmatched := 0, unconfirmed := 0, orphanRepeats := 0
            unreportedPresses := 0 })).answerPart .mu {})))

/-- RUN_RESET at the Transmit Engine and a Line Capture Unit: both engines IDLE and at rest without request, toggle states
0, the queue empty, and neither drops nor end records; an LCU forgets its burst without an abandon, its blank count is 0,
and any channel but a DISABLED one is in DISCARD measured from now. At the Pulse Store, the Symbol Decoder, the Match Unit
and the Event Queue: every descriptor FREE and every block on the free list; the decoder IDLE with its profiles and counters
kept; no key record, no session and the code table and counters kept; the event queue empty with sequence number 0 and
nothing lost, its threshold and age limit kept. Each part is taken after what was sent before it; what was sent before stays
on its way, and drops that the store has not taken go (logs 14 and 15, the model's), and no 1 ms tick of an earlier moment
waits at the Match Unit's part (log 25, the model's). A message sent after the sender's part waits until the part of the block
it is sent to has been taken; messages on one path are taken in the order sent (log 14). -/
def Obligations.RunResetPartsEndTheWork : Prop :=
  (∀ s : State,
    s.resetParts = (match s.bcu.inFlight with
      | some f => if f.cmd = some .runReset then f.parts else []
      | none => [])
    ∧ (∀ c, s.storeRequest c =
        if .pst ∈ s.resetParts ∧ .lcu c ∉ s.resetParts ∧ (s.lcu c).toStore.early = 0 then none
        else (s.lcu c).toStore.msgs.head?)
    ∧ s.matchMessage =
        (if (.mu ∈ s.resetParts ∧ .sdc ∉ s.resetParts ∧ s.sdc.toMatch.early = 0) ∨ s.mu.awaiting ≠ none
            ∨ s.tb.msTicks.any (fun m => m != s.now) = true then none
        else s.sdc.toMatch.msgs.head?)
    ∧ ∀ x, s.queuePathOpen x = false ↔ x = .mu ∧ .evq ∈ s.resetParts ∧ .mu ∉ s.resetParts ∧ s.mu.toQueue.early = 0)
    ∧ (∀ (α : Type) (m : Mailbox α) (x : α),
      m.push x = { msgs := m.msgs ++ [x], early := m.early } ∧ m.pop = { msgs := m.msgs.drop 1, early := m.early - 1 }
      ∧ m.markEarly = { msgs := m.msgs, early := m.msgs.length })
    ∧ (∀ s : State,
    (.txe ∈ s.resetParts →
      ∃ t, exec .runResetTxe s = .next t ∧ t = (s.setTxe t.txe).answerPart .txe {}
        ∧ t.txe.queue = [] ∧ t.txe.holdDrops = s.txe.holdDrops
        ∧ ∀ o unit, (t.txe.engine o).state = .idle ∧ (t.txe.engine o).request = none ∧ (t.txe.engine o).toggle = false
            ∧ (t.txe.engine o).toQueue.msgs = (s.txe.engine o).toQueue.msgs ∧ t.txPin o unit = false)
    ∧ ∀ c, .lcu c ∈ s.resetParts → .txe ∉ s.resetParts → (s.lcu c).waiting = none →
      (∀ o, (s.lcu c).claimsOf o = []) →
      ((s.lcu c).capture ≠ .disabled →
        exec (.runResetLcu c) s = .next ((s.setLcu c { s.lcu c with
          capture := .discard, measuringStart := some s.now, handle := none, count := 0, blankCount := 0
          toStore := (s.lcu c).toStore.markEarly, toQueue := (s.lcu c).toQueue.markEarly }).answerPart (.lcu c) {}))
      ∧ ((s.lcu c).capture = .disabled →
        exec (.runResetLcu c) s = .next ((s.setLcu c { s.lcu c with
          handle := none, count := 0, blankCount := 0
          toStore := (s.lcu c).toStore.markEarly, toQueue := (s.lcu c).toQueue.markEarly }).answerPart (.lcu c) {})))
    ∧ (∀ s : State,
    (.pst ∈ s.resetParts → .txe ∉ s.resetParts → (∀ c, .lcu c ∉ s.resetParts) → (∀ c, (s.lcu c).toStore.early = 0) →
      ∃ t, exec .runResetPst s = .next t
        ∧ t = (((s.setPst t.pst).setSdc { s.sdc with hostDrops := [] }).setTxe { s.txe with holdDrops := [] }).answerPart .pst {}
        ∧ (∀ h, t.pst.descriptor h = .freed) ∧ (∀ b, t.pst.freeBlocks.count b = 1) ∧ t.pst.queue = [])
    ∧ (.sdc ∈ s.resetParts → .pst ∉ s.resetParts →
      exec .runResetSdc s = .next ((s.setSdc { s.sdc with
        state := .idle, request := none, answer := none, hostDrops := []
        toMatch := s.sdc.toMatch.markEarly, toQueue := s.sdc.toQueue.markEarly }).answerPart .sdc {}))
    ∧ (.mu ∈ s.resetParts → .sdc ∉ s.resetParts → s.sdc.toMatch.early = 0 → s.mu.awaiting = none →
        (∀ m ∈ s.tb.msTicks, m = s.now) →
      ∃ m, exec .runResetMu s = .next ((s.setMu m).answerPart .mu {})
        ∧ m = { s.mu with
            keys := m.keys, learn := .idle, divert := none, toQueue := s.mu.toQueue.markEarly }
        ∧ ∀ c, m.key c = none)
    ∧ (.evq ∈ s.resetParts → .mu ∉ s.resetParts → (∀ x, (s.outbox x).early = 0) →
      exec .runResetEvq s = .next ((s.setEvq { s.evq with
        records := [], nextSeq := 0, lost := 0, overrunPending := false, evAge := false }).answerPart .evq {})))

/-- The bus cycles: with RESET held, with chip select high, and with both strobes low or both high, the part drives no data
line and takes nothing. In a read cycle the data lines carry the byte of the addressed register; its end is taken as
TIME_LATCH_READ at 24h, as WIN_DATA_READ at 35h, and elsewhere as nothing. In a write cycle no data line is driven; its end is
taken as the row of the written register, at CMD_OPCODE as the row of the opcode. Their events join the queue behind those that
wait (log 41, the model's). While RESET is held, IRQ is inactive and the outputs are at rest.
CMD_DONE_CLEAR, IRQ_ENABLE_WRITE and REGISTER_WRITE: bit 3 clears CMD_DONE; bits 2:0 replace the three enables and read
back with bits 7:3 as 0; ARG0 to ARG3 store the byte; a write to a read-only register or to an address outside the map
changes nothing. The IRQ output is active exactly while EV_LEVEL, EV_AGE or CMD_DONE holds with its enable set; EV_LEVEL
holds exactly while the occupancy is at or above the threshold. -/
def Obligations.PlainRegistersAndTheInterruptLine : Prop :=
  (∀ (s : State) (v : Byte) (a : BitVec 6),
    exec (.cmdDoneClear v) s = .next (s.setBcu { s.bcu with cmdDone := s.bcu.cmdDone && !v.getLsbD 3 })
    ∧ (∃ t, exec (.irqEnableWrite v) s = .next t
      ∧ t = s.setBcu { s.bcu with enableLevel := v.getLsbD 0, enableAge := v.getLsbD 1, enableDone := v.getLsbD 2 }
      ∧ t.readRegister 0x08#6 = v &&& 0x07#8)
    ∧ exec (.registerWrite 0x04#6 v) s = .next (s.setBcu { s.bcu with args := { s.bcu.args with arg0 := v } })
    ∧ exec (.registerWrite 0x05#6 v) s = .next (s.setBcu { s.bcu with args := { s.bcu.args with arg1 := v } })
    ∧ exec (.registerWrite 0x06#6 v) s = .next (s.setBcu { s.bcu with args := { s.bcu.args with arg2 := v } })
    ∧ exec (.registerWrite 0x07#6 v) s = .next (s.setBcu { s.bcu with args := { s.bcu.args with arg3 := v } })
    ∧ ((a.toNat ∈ [0x02, 0x03, 0x09, 0x0A] ∨ (0x0E ≤ a.toNat ∧ a.toNat ≤ 0x30) ∨ 0x36 ≤ a.toNat) →
      exec (.registerWrite a v) s = .next s))
    ∧ (∀ (s : State) (p : BusPins),
      (p.reset = false ∨ p.chipSelect = true ∨ p.readStrobe = p.writeStrobe → s.dataLines p = none ∧ s.endCycle p = s)
      ∧ (p.reset = true → p.chipSelect = false → p.readStrobe = false → p.writeStrobe = true →
        s.dataLines p = some (s.readRegister p.address)
        ∧ s.endCycle p = (if p.address = 0x24#6 then s.setPending (s.pending ++ [.timeLatchRead])
            else if p.address = 0x35#6 then s.setPending (s.pending ++ [.winDataRead]) else s))
      ∧ (p.reset = true → p.chipSelect = false → p.readStrobe = true → p.writeStrobe = false →
        s.dataLines p = none
        ∧ ∀ c : Instr, c = (match p.address.toNat with
            | 0x00 => ([.undefinedOpcode (.write 0x00#8), .channelSet .write, .channelGet .write, .channelEnable .write,
                .channelDisable .write, .channelFlush .write, .countersClear .write, .profileCommit .write,
                .profileRead .write, .profileClear .write, .entryCommit .write, .entryRead .write, .entryClear .write,
                .tableClear .write, .burstRelease .write, .learnStart .write, .learnAbort .write, .learnCommit .write,
                .learnDiscard .write, .txSubmit .write, .txStop .write, .txAbort .write, .runReset] : List Instr).getD
                  p.data.toNat (.undefinedOpcode (.write p.data))
            | 0x01 => if p.data.getLsbD 3 then .cmdDoneClear p.data else .registerWrite p.address p.data
            | 0x08 => .irqEnableWrite p.data
            | 0x0B => .eventThresholdWrite p.data
            | 0x0C => .eventAgeWrite p.data
            | 0x0D => .eventNext p.data
            | 0x31 => .winSpaceWrite p.data
            | 0x32 => .winIndexWrite p.data
            | 0x33 => .winOffsetWrite false p.data
            | 0x34 => .winOffsetWrite true p.data
            | 0x35 => .winDataWrite p.data
            | _ => .registerWrite p.address p.data) →
          s.endCycle p = s.setPending (s.pending ++ [c]) ∧ c.wellFormed = true
          ∧ ∀ u, exec c u = exec (.registerWrite p.address p.data) u)
      ∧ (p.reset = false → s.irqPin p = true ∧ ∀ o unit, s.txLevel p o unit = false)
      ∧ (p.reset = true → s.irqPin p = !s.irqActive ∧ ∀ o unit, s.txLevel p o unit = s.txPin o unit))
    ∧ (∀ s : State, s.irqActive = true ↔
    (s.evq.threshold.toNat ≤ s.evq.records.length ∧ s.bcu.enableLevel = true)
      ∨ (s.evq.evAge = true ∧ s.bcu.enableAge = true) ∨ (s.bcu.cmdDone = true ∧ s.bcu.enableDone = true))

/-- The status registers read the state as it stands: CHAN_STATUS0 to 3, LEARN_STATUS, TX_STATUS, CMD_STATUS, EVENT_STATUS,
EVENT_COUNT, TXQ_COUNT, FREE_BLOCKS and FREE_DESC. A line is active, a mark, exactly when its accepted level is low under
ACTIVE_LOW and exactly when it is high under ACTIVE_HIGH. CMD_OPCODE reads the opcode of the last accepted command, CMD_ERROR and
CMD_RESULT the stored outcome, ARG0 to ARG3 the bytes last written, IRQ_ENABLE the three enables, WIN_SPACE and WIN_INDEX the
stored bytes, WIN_OFFSET the two bytes of the offset; addresses that no register has read 0. -/
def Obligations.RegisterReadsShowTheState : Prop :=
  (∀ l : Lcu, l.isActive = true ↔
    l.settings.polarity = .activeLow ∧ l.level = false ∨ l.settings.polarity = .activeHigh ∧ l.level = true)
  ∧ ∀ s : State,
    (s.readRegister 0x00#6 = s.bcu.opcode ∧ s.readRegister 0x02#6 = s.bcu.error ∧ s.readRegister 0x03#6 = s.bcu.result
      ∧ s.readRegister 0x04#6 = s.bcu.args.arg0 ∧ s.readRegister 0x05#6 = s.bcu.args.arg1
      ∧ s.readRegister 0x06#6 = s.bcu.args.arg2 ∧ s.readRegister 0x07#6 = s.bcu.args.arg3
      ∧ (s.readRegister 0x08#6).toNat = (if s.bcu.enableLevel then 1 else 0) + (if s.bcu.enableAge then 2 else 0)
          + (if s.bcu.enableDone then 4 else 0)
      ∧ s.readRegister 0x31#6 = s.bcu.winSpace ∧ s.readRegister 0x32#6 = s.bcu.winIndex
      ∧ (s.readRegister 0x33#6).toNat = s.bcu.winOffset % 256
      ∧ (s.readRegister 0x34#6).toNat = s.bcu.winOffset / 256 % 256) ∧
    (∀ (c : Channel) (x : Byte), x = s.readRegister (0x28#6 + BitVec.ofNat 6 c.val) → (s.lcu c).blankCount ≤ 2 →
      x.toNat % 8 = (match (s.lcu c).capture with
        | .disabled => 0
        | .idle => 1
        | .opened => 2
        | .discard => 3
        | .stuck => 4
        | .blanked => 5)
      ∧ x.toNat / 8 % 4 = (s.lcu c).blankCount ∧ x.toNat / 32 = if (s.lcu c).isActive then 1 else 0)
    ∧ s.readRegister 0x2C#6 = (match s.mu.learn.state with
        | .idle => 0#8
        | .listening => 1#8
        | .confirming => 2#8
        | .done => 3#8)
    ∧ (∀ o : Output, (s.readRegister 0x2D#6).toNat / 4 ^ o.val % 4 = match (s.txe.engine o).state with
        | .idle => 0
        | .frame => 1
        | .gap => 2
        | .tail => 3)
    ∧ (s.readRegister 0x01#6).toNat = (match s.bcu.cmdState with
        | .idle => 0
        | .busy => 1
        | .done => 2
        | .error => 3) + (if s.bcu.collision then 4 else 0) + (if s.bcu.cmdDone then 8 else 0)
    ∧ (s.readRegister 0x09#6).toNat = (if s.evq.threshold.toNat ≤ s.evq.records.length then 1 else 0)
        + (if s.evq.evAge then 2 else 0) + (if s.evq.overrunPending then 4 else 0)
    ∧ s.readRegister 0x0A#6 = BitVec.ofNat 8 s.evq.records.length ∧ s.readRegister 0x2E#6 = BitVec.ofNat 8 s.txe.queue.length
    ∧ s.readRegister 0x2F#6 = BitVec.ofNat 8 s.pst.freeBlocks.length
    ∧ (s.readRegister 0x30#6).toNat = (Finset.univ.filter fun h : Handle => (s.pst.descriptor h).state = .free).card
    ∧ ∀ a : BitVec 6, a.toNat = 0x0E ∨ a.toNat = 0x0F ∨ 0x36 ≤ a.toNat → s.readRegister a = 0

/-- The lengths of the seven spaces, and 0 for a number that selects none. WIN_SPACE_WRITE, WIN_INDEX_WRITE and
WIN_OFFSET_WRITE: a selection sets the offset to 0; a byte of the offset is
replaced, and an offset above the length of the space becomes the length (all eight bits of the high byte count, log 40,
the model's). WIN_DATA_WRITE: in a staging space the byte at the
offset is replaced and the offset advances; in a read-only space nothing but the offset changes; at the length, and in a
space that does not exist, nothing changes. -/
def Obligations.WindowSelectionOffsetAndWrites : Prop :=
  (∀ space : Byte, spaceLength space = [10, 23, 25, 21, 36, 522, 28].getD space.toNat 0)
    ∧ (∀ (s : State) (v : Byte),
    exec (.winSpaceWrite v) s = .next (s.setBcu { s.bcu with winSpace := v, winOffset := 0 })
    ∧ exec (.winIndexWrite v) s = .next (s.setBcu { s.bcu with winIndex := v, winOffset := 0 })
    ∧ ∀ high : Bool, ∃ t, exec (.winOffsetWrite high v) s = .next t ∧ t = s.setBcu { s.bcu with winOffset := t.bcu.winOffset }
      ∧ t.bcu.winOffset = min (spaceLength s.bcu.winSpace)
          (if high then 256 * v.toNat + s.bcu.winOffset % 256 else 256 * (s.bcu.winOffset / 256) + v.toNat))
    ∧ (∀ (s : State) (v : Byte) (n : Nat), n = s.bcu.winOffset →
    (∀ h : n < 10, s.bcu.winSpace = 0#8 → exec (.winDataWrite v) s = .next (s.setBcu { s.bcu with
      winOffset := n + 1, channelStaging := s.bcu.channelStaging.set n v }))
    ∧ (∀ h : n < 23, s.bcu.winSpace = 1#8 → exec (.winDataWrite v) s = .next (s.setBcu { s.bcu with
      winOffset := n + 1, profileStaging := s.bcu.profileStaging.set n v }))
    ∧ (∀ h : n < 25, s.bcu.winSpace = 2#8 → exec (.winDataWrite v) s = .next (s.setBcu { s.bcu with
      winOffset := n + 1, entryStaging := s.bcu.entryStaging.set n v }))
    ∧ (∀ h : n < 21, s.bcu.winSpace = 3#8 → exec (.winDataWrite v) s = .next (s.setBcu { s.bcu with
      winOffset := n + 1, transmitStaging := s.bcu.transmitStaging.set n v }))
    ∧ (4 ≤ s.bcu.winSpace.toNat → n < spaceLength s.bcu.winSpace →
      exec (.winDataWrite v) s = .next (s.setBcu { s.bcu with winOffset := n + 1 }))
    ∧ (spaceLength s.bcu.winSpace ≤ n → exec (.winDataWrite v) s = .next s))

/-- WIN_DATA_READ: the byte at the offset of the selected space goes onto the data lines and the offset advances, but not
past the length, where a read returns 0; the low byte of a counter captures the whole counter, and its high byte returns the
captured one; the eighteen counters stand in the order of the table, seven of the LCU, five of the decoder and six of the Match
Unit. What the BURST space shows of a handle: 0 everywhere unless the descriptor is RETAINED; of a RETAINED one the
channel, the element count, the open and close times, the host hold, the transmit holds, and each element below the count,
little-endian from offset 12; 0 at every position from the count on. The LEARN space: state, channel, K, time remaining,
matches and mismatches, then the result, 0 where there is none, with the presence and number of the existing entry; in IDLE
every byte is 0. An index that names no channel or handle reads 0 (what is captured then is log 22, the model's). -/
def Obligations.WinDataReadStreamsTheSpace : Prop :=
  (∀ (s : State) (n : Nat), n = s.bcu.winOffset →
    ∃ t, exec .winDataRead s = .next t
      ∧ t = s.setBcu { s.bcu with
          winOffset := t.bcu.winOffset, dataOut := t.bcu.dataOut, counterCapture := t.bcu.counterCapture }
      ∧ t.bcu.dataOut = s.readRegister 0x35#6
      ∧ (n < spaceLength s.bcu.winSpace → t.bcu.winOffset = n + 1)
      ∧ (spaceLength s.bcu.winSpace ≤ n → t.bcu.winOffset = n ∧ t.bcu.dataOut = 0)
      ∧ (∀ h : n < 10, s.bcu.winSpace = 0#8 → t.bcu.dataOut = s.bcu.channelStaging[n])
      ∧ (∀ h : n < 23, s.bcu.winSpace = 1#8 → t.bcu.dataOut = s.bcu.profileStaging[n])
      ∧ (∀ h : n < 25, s.bcu.winSpace = 2#8 → t.bcu.dataOut = s.bcu.entryStaging[n])
      ∧ (∀ h : n < 21, s.bcu.winSpace = 3#8 → t.bcu.dataOut = s.bcu.transmitStaging[n])
      ∧ (∀ c : Channel, s.bcu.winSpace = 4#8 → s.bcu.winIndex.toNat = c.val →
          ∀ (lcu : LcuCounters) (sdc : DecoderCounters) (mu : MatchCounters),
          lcu = (s.lcu c).counters → sdc = s.sdc.counter c → mu = s.mu.counter c → ∀ (k : Nat) (x : Half),
          [lcu.burstsClosed, lcu.glitches, lcu.tooLong, lcu.storeFull, lcu.noDescriptor, lcu.blankAbandoned, lcu.stuckEpisodes,
            sdc.fullFrames, sdc.repeatFrames, sdc.undecodable, sdc.stale, sdc.notRetained,
            mu.hits, mu.ambiguous, mu.unmatched, mu.unconfirmed, mu.orphanRepeats, mu.unreportedPresses][k]? = some x →
          (n = 2 * k → t.bcu.dataOut = x.setWidth 8 ∧ t.bcu.counterCapture = x)
          ∧ (n = 2 * k + 1 →
              t.bcu.dataOut = (s.bcu.counterCapture >>> 8).setWidth 8 ∧ t.bcu.counterCapture = s.bcu.counterCapture))
      ∧ (∀ h : Handle, s.bcu.winSpace = 5#8 → s.bcu.winIndex.toNat = h.val → n < 522 → t.bcu.dataOut = s.pst.burstByte h n)
      ∧ (s.bcu.winSpace = 6#8 → n < 28 → t.bcu.dataOut = s.mu.learn.bytes.getD n 0)
      ∧ (s.bcu.winSpace = 4#8 → 3 < s.bcu.winIndex.toNat →
          t.bcu.dataOut = 0 ∧ t.bcu.counterCapture = s.bcu.counterCapture)
      ∧ (s.bcu.winSpace = 5#8 → 15 < s.bcu.winIndex.toNat → t.bcu.dataOut = 0)
      ∧ (s.bcu.winSpace ≠ 4#8 → t.bcu.counterCapture = s.bcu.counterCapture))
    ∧ (∀ (s : State) (h : Handle) (d : Descriptor), d = s.pst.descriptor h →
    (d.state ≠ .retained → ∀ n, s.pst.burstByte h n = 0)
    ∧ (d.state = .retained → d.count ≤ 255 → d.transmitHolds ≤ 8 →
      (s.pst.burstByte h 0).toNat = d.channel.val ∧ (s.pst.burstByte h 1).toNat = d.count
      ∧ s.pst.burstByte h 5 ++ s.pst.burstByte h 4 ++ s.pst.burstByte h 3 ++ s.pst.burstByte h 2 = d.openTime
      ∧ s.pst.burstByte h 9 ++ s.pst.burstByte h 8 ++ s.pst.burstByte h 7 ++ s.pst.burstByte h 6 = d.closeTime
      ∧ (s.pst.burstByte h 10 = if d.hostHold then 1#8 else 0#8) ∧ (s.pst.burstByte h 11).toNat = d.transmitHolds
      ∧ (∀ p < d.count, s.pst.burstByte h (13 + 2 * p) ++ s.pst.burstByte h (12 + 2 * p) = s.pst.elementAt d p)
      ∧ ∀ p, d.count ≤ p → s.pst.burstByte h (12 + 2 * p) = 0 ∧ s.pst.burstByte h (13 + 2 * p) = 0))
    ∧ (∀ (x : LearnSession) (byte : Nat → Byte), (∀ n, byte n = x.bytes.getD n 0) →
    x.k < 256 → x.remaining < 65536 → x.matchCount < 256 → x.mismatches < 256 →
    (byte 0 = (match x.state with
        | .idle => 0
        | .listening => 1
        | .confirming => 2
        | .done => 3))
    ∧ (byte 1).toNat = x.channel.val ∧ (byte 2).toNat = x.k ∧ (byte 4 ++ byte 3 : BitVec 16).toNat = x.remaining
    ∧ (byte 5).toNat = x.matchCount ∧ (byte 6).toNat = x.mismatches
    ∧ (x.result = none → ∀ n, 7 ≤ n → byte n = 0)
    ∧ (∀ r, x.result = some r → r.bits < 256 →
      (byte 7).toNat = r.channel.val ∧ (byte 8).toNat = r.profile.val ∧ (byte 9).toNat = r.bits
      ∧ byte 17 ++ byte 16 ++ byte 15 ++ byte 14 ++ byte 13 ++ byte 12 ++ byte 11 ++ byte 10 = r.payload
      ∧ byte 25 ++ byte 24 ++ byte 23 ++ byte 22 ++ byte 21 ++ byte 20 ++ byte 19 ++ byte 18 = r.mask
      ∧ (r.existing = none → byte 26 = 0 ∧ byte 27 = 0)
      ∧ ∀ i, r.existing = some i → byte 26 = 4 ∧ (byte 27).toNat = i.val)
    ∧ (x = LearnSession.idle → ∀ n, byte n = 0))

/-! ## Invariants that every step keeps -/

/-- Every step keeps the event queue: at most 64 records with sequence numbers that rise by exactly one, a threshold of 1 to
64, the pending-overrun flag set exactly while records are counted as lost, and EV_AGE false on an empty queue. -/
def Obligations.StepKeepsTheEventQueue : Prop :=
  ∀ s t : State, s.evq.sound → step s = .next t → t.evq.sound

/-- Every step keeps the Pulse Store's counts: every block in exactly one place, FREE descriptors without blocks, the burst
queue exactly the QUEUED descriptors, each once, at most four RETAINED; and the slot memory's canonical form (log 13, the
model's). Every step keeps at most one descriptor OPEN per channel: the LCU's own, that of a grant on its way to the LCU, or
that of a close or abandon on its way to the store; between the LCU's and the store's part of a RUN_RESET, one that the LCU
has forgotten (logs 9 and 14, the model's). -/
def Obligations.StepKeepsTheStoreCounts : Prop :=
  (∀ s t : State, s.pst.sound ∧ Memory.wf s.pst.slots → step s = .next t → t.pst.sound ∧ Memory.wf t.pst.slots)
    ∧ (∀ s t : State, s.openSound ∧ s.bcu.sound → step s = .next t → t.openSound)
    ∧ ∀ s : State, s.openSound → ∀ (c : Channel) (h k : Handle),
        s.pst.openFor h c = true → s.pst.openFor k c = true → h = k

/-- Every step keeps the tables consistent: every profile that a channel's set names is VALID, and every VALID entry stands
under a VALID profile, with its bit count in the profile's range, no pattern or mask bit at or above it, and no mask bit at
the profile's toggle position. -/
def Obligations.StepKeepsTheTablesConsistent : Prop :=
  ∀ s t : State, s.tablesSound → step s = .next t → t.tablesSound

/-- Every step keeps the learn-divert rule: the flag is set for exactly the channel on which a session listens or confirms,
and that channel has no key record; a result is held in DONE alone, and in IDLE every field of the session is 0. -/
def Obligations.StepKeepsTheDivert : Prop :=
  ∀ s t : State, s.mu.divertSound → step s = .next t → t.mu.divertSound

/-- Every step keeps the release reserve: occupancy plus the records whose PRESS was admitted never exceeds 64, counting
RELEASE records that are on their way. -/
def Obligations.StepKeepsTheReleaseReserve : Prop :=
  ∀ s t : State, s.reserveSound → step s = .next t → t.reserveSound

/-- Every step keeps one decode in flight: at most one descriptor is DECODING, the one the decoder holds; none between the
store's part of a RUN_RESET and the decoder's (log 15, the model's). -/
def Obligations.StepKeepsOneDecode : Prop :=
  ∀ s t : State, s.decodeSound → step s = .next t → t.decodeSound

/-- Every step keeps every channel's blank count: at most 2, above 0 in BLANKED always and elsewhere only in a DISABLED
channel, so never with a burst open. While a request to the store is unanswered the capture state is OPEN (for a descriptor
request log 9, the model's). -/
def Obligations.StepKeepsTheBlankCounts : Prop :=
  ∀ s t : State, (∀ c, (s.lcu c).blankSound) → step s = .next t → ∀ c, (t.lcu c).blankSound

/-- Every step keeps the Time Base's divider below 1,000, the transmit queue at most 8 with each output's active request its
own, and the command unit's state, outcome and offset in agreement. -/
def Obligations.StepKeepsTimeTransmitAndCommandUnit : Prop :=
  ∀ s t : State, s.tb.sound ∧ s.txe.sound ∧ s.bcu.sound → step s = .next t → t.tb.sound ∧ t.txe.sound ∧ t.bcu.sound

/-- The invariants hold right after reset. -/
def Obligations.InvariantsHoldAtReset : Prop :=
  State.reset.evq.sound ∧ State.reset.pst.sound ∧ Memory.wf State.reset.pst.slots ∧ State.reset.openSound
    ∧ State.reset.tablesSound
    ∧ State.reset.mu.divertSound ∧ State.reset.reserveSound ∧ State.reset.decodeSound
    ∧ (∀ c, (State.reset.lcu c).blankSound) ∧ State.reset.tb.sound ∧ State.reset.txe.sound ∧ State.reset.bcu.sound
end

