-- ==== Sys2Proof/Laws/State.lean ====
section
/-! SUPPORT. One lemma per field of State per update of State, true by rfl, so that no later proof unfolds a record update;
and the same for the blocks whose parts are indexed. -/

namespace Sys2Proof.Machine

@[simp] theorem State.pending_setPending (s : State) (x : List Instr) : (s.setPending x).pending = x := rfl
@[simp] theorem State.tb_setPending (s : State) (x : List Instr) : (s.setPending x).tb = s.tb := rfl
@[simp] theorem State.lcus_setPending (s : State) (x : List Instr) : (s.setPending x).lcus = s.lcus := rfl
@[simp] theorem State.pst_setPending (s : State) (x : List Instr) : (s.setPending x).pst = s.pst := rfl
@[simp] theorem State.sdc_setPending (s : State) (x : List Instr) : (s.setPending x).sdc = s.sdc := rfl
@[simp] theorem State.mu_setPending (s : State) (x : List Instr) : (s.setPending x).mu = s.mu := rfl
@[simp] theorem State.evq_setPending (s : State) (x : List Instr) : (s.setPending x).evq = s.evq := rfl
@[simp] theorem State.txe_setPending (s : State) (x : List Instr) : (s.setPending x).txe = s.txe := rfl
@[simp] theorem State.bcu_setPending (s : State) (x : List Instr) : (s.setPending x).bcu = s.bcu := rfl
@[simp] theorem State.now_setPending (s : State) (x : List Instr) : (s.setPending x).now = s.now := rfl
@[simp] theorem State.lcu_setPending (s : State) (x : List Instr) (c : Channel) : (s.setPending x).lcu c = s.lcu c := rfl
@[simp] theorem State.setPending_setPending (s : State) (x y : List Instr) : (s.setPending x).setPending y = s.setPending y := rfl
@[simp] theorem State.setPending_self (s : State) : s.setPending s.pending = s := rfl

@[simp] theorem State.pending_setPst (s : State) (x : PulseStore) : (s.setPst x).pending = s.pending := rfl
@[simp] theorem State.tb_setPst (s : State) (x : PulseStore) : (s.setPst x).tb = s.tb := rfl
@[simp] theorem State.lcus_setPst (s : State) (x : PulseStore) : (s.setPst x).lcus = s.lcus := rfl
@[simp] theorem State.pst_setPst (s : State) (x : PulseStore) : (s.setPst x).pst = x := rfl
@[simp] theorem State.sdc_setPst (s : State) (x : PulseStore) : (s.setPst x).sdc = s.sdc := rfl
@[simp] theorem State.mu_setPst (s : State) (x : PulseStore) : (s.setPst x).mu = s.mu := rfl
@[simp] theorem State.evq_setPst (s : State) (x : PulseStore) : (s.setPst x).evq = s.evq := rfl
@[simp] theorem State.txe_setPst (s : State) (x : PulseStore) : (s.setPst x).txe = s.txe := rfl
@[simp] theorem State.bcu_setPst (s : State) (x : PulseStore) : (s.setPst x).bcu = s.bcu := rfl
@[simp] theorem State.now_setPst (s : State) (x : PulseStore) : (s.setPst x).now = s.now := rfl
@[simp] theorem State.lcu_setPst (s : State) (x : PulseStore) (c : Channel) : (s.setPst x).lcu c = s.lcu c := rfl
@[simp] theorem State.setPst_setPst (s : State) (x y : PulseStore) : (s.setPst x).setPst y = s.setPst y := rfl
@[simp] theorem State.setPst_self (s : State) : s.setPst s.pst = s := rfl

@[simp] theorem State.pending_setSdc (s : State) (x : Decoder) : (s.setSdc x).pending = s.pending := rfl
@[simp] theorem State.tb_setSdc (s : State) (x : Decoder) : (s.setSdc x).tb = s.tb := rfl
@[simp] theorem State.lcus_setSdc (s : State) (x : Decoder) : (s.setSdc x).lcus = s.lcus := rfl
@[simp] theorem State.pst_setSdc (s : State) (x : Decoder) : (s.setSdc x).pst = s.pst := rfl
@[simp] theorem State.sdc_setSdc (s : State) (x : Decoder) : (s.setSdc x).sdc = x := rfl
@[simp] theorem State.mu_setSdc (s : State) (x : Decoder) : (s.setSdc x).mu = s.mu := rfl
@[simp] theorem State.evq_setSdc (s : State) (x : Decoder) : (s.setSdc x).evq = s.evq := rfl
@[simp] theorem State.txe_setSdc (s : State) (x : Decoder) : (s.setSdc x).txe = s.txe := rfl
@[simp] theorem State.bcu_setSdc (s : State) (x : Decoder) : (s.setSdc x).bcu = s.bcu := rfl
@[simp] theorem State.now_setSdc (s : State) (x : Decoder) : (s.setSdc x).now = s.now := rfl
@[simp] theorem State.lcu_setSdc (s : State) (x : Decoder) (c : Channel) : (s.setSdc x).lcu c = s.lcu c := rfl
@[simp] theorem State.setSdc_setSdc (s : State) (x y : Decoder) : (s.setSdc x).setSdc y = s.setSdc y := rfl
@[simp] theorem State.setSdc_self (s : State) : s.setSdc s.sdc = s := rfl

@[simp] theorem State.pending_setMu (s : State) (x : MatchUnit) : (s.setMu x).pending = s.pending := rfl
@[simp] theorem State.tb_setMu (s : State) (x : MatchUnit) : (s.setMu x).tb = s.tb := rfl
@[simp] theorem State.lcus_setMu (s : State) (x : MatchUnit) : (s.setMu x).lcus = s.lcus := rfl
@[simp] theorem State.pst_setMu (s : State) (x : MatchUnit) : (s.setMu x).pst = s.pst := rfl
@[simp] theorem State.sdc_setMu (s : State) (x : MatchUnit) : (s.setMu x).sdc = s.sdc := rfl
@[simp] theorem State.mu_setMu (s : State) (x : MatchUnit) : (s.setMu x).mu = x := rfl
@[simp] theorem State.evq_setMu (s : State) (x : MatchUnit) : (s.setMu x).evq = s.evq := rfl
@[simp] theorem State.txe_setMu (s : State) (x : MatchUnit) : (s.setMu x).txe = s.txe := rfl
@[simp] theorem State.bcu_setMu (s : State) (x : MatchUnit) : (s.setMu x).bcu = s.bcu := rfl
@[simp] theorem State.now_setMu (s : State) (x : MatchUnit) : (s.setMu x).now = s.now := rfl
@[simp] theorem State.lcu_setMu (s : State) (x : MatchUnit) (c : Channel) : (s.setMu x).lcu c = s.lcu c := rfl
@[simp] theorem State.setMu_setMu (s : State) (x y : MatchUnit) : (s.setMu x).setMu y = s.setMu y := rfl
@[simp] theorem State.setMu_self (s : State) : s.setMu s.mu = s := rfl

@[simp] theorem State.pending_setEvq (s : State) (x : EventQueue) : (s.setEvq x).pending = s.pending := rfl
@[simp] theorem State.tb_setEvq (s : State) (x : EventQueue) : (s.setEvq x).tb = s.tb := rfl
@[simp] theorem State.lcus_setEvq (s : State) (x : EventQueue) : (s.setEvq x).lcus = s.lcus := rfl
@[simp] theorem State.pst_setEvq (s : State) (x : EventQueue) : (s.setEvq x).pst = s.pst := rfl
@[simp] theorem State.sdc_setEvq (s : State) (x : EventQueue) : (s.setEvq x).sdc = s.sdc := rfl
@[simp] theorem State.mu_setEvq (s : State) (x : EventQueue) : (s.setEvq x).mu = s.mu := rfl
@[simp] theorem State.evq_setEvq (s : State) (x : EventQueue) : (s.setEvq x).evq = x := rfl
@[simp] theorem State.txe_setEvq (s : State) (x : EventQueue) : (s.setEvq x).txe = s.txe := rfl
@[simp] theorem State.bcu_setEvq (s : State) (x : EventQueue) : (s.setEvq x).bcu = s.bcu := rfl
@[simp] theorem State.now_setEvq (s : State) (x : EventQueue) : (s.setEvq x).now = s.now := rfl
@[simp] theorem State.lcu_setEvq (s : State) (x : EventQueue) (c : Channel) : (s.setEvq x).lcu c = s.lcu c := rfl
@[simp] theorem State.setEvq_setEvq (s : State) (x y : EventQueue) : (s.setEvq x).setEvq y = s.setEvq y := rfl
@[simp] theorem State.setEvq_self (s : State) : s.setEvq s.evq = s := rfl

@[simp] theorem State.pending_setTxe (s : State) (x : Transmit) : (s.setTxe x).pending = s.pending := rfl
@[simp] theorem State.tb_setTxe (s : State) (x : Transmit) : (s.setTxe x).tb = s.tb := rfl
@[simp] theorem State.lcus_setTxe (s : State) (x : Transmit) : (s.setTxe x).lcus = s.lcus := rfl
@[simp] theorem State.pst_setTxe (s : State) (x : Transmit) : (s.setTxe x).pst = s.pst := rfl
@[simp] theorem State.sdc_setTxe (s : State) (x : Transmit) : (s.setTxe x).sdc = s.sdc := rfl
@[simp] theorem State.mu_setTxe (s : State) (x : Transmit) : (s.setTxe x).mu = s.mu := rfl
@[simp] theorem State.evq_setTxe (s : State) (x : Transmit) : (s.setTxe x).evq = s.evq := rfl
@[simp] theorem State.txe_setTxe (s : State) (x : Transmit) : (s.setTxe x).txe = x := rfl
@[simp] theorem State.bcu_setTxe (s : State) (x : Transmit) : (s.setTxe x).bcu = s.bcu := rfl
@[simp] theorem State.now_setTxe (s : State) (x : Transmit) : (s.setTxe x).now = s.now := rfl
@[simp] theorem State.lcu_setTxe (s : State) (x : Transmit) (c : Channel) : (s.setTxe x).lcu c = s.lcu c := rfl
@[simp] theorem State.setTxe_setTxe (s : State) (x y : Transmit) : (s.setTxe x).setTxe y = s.setTxe y := rfl
@[simp] theorem State.setTxe_self (s : State) : s.setTxe s.txe = s := rfl

@[simp] theorem State.pending_setBcu (s : State) (x : Bcu) : (s.setBcu x).pending = s.pending := rfl
@[simp] theorem State.tb_setBcu (s : State) (x : Bcu) : (s.setBcu x).tb = s.tb := rfl
@[simp] theorem State.lcus_setBcu (s : State) (x : Bcu) : (s.setBcu x).lcus = s.lcus := rfl
@[simp] theorem State.pst_setBcu (s : State) (x : Bcu) : (s.setBcu x).pst = s.pst := rfl
@[simp] theorem State.sdc_setBcu (s : State) (x : Bcu) : (s.setBcu x).sdc = s.sdc := rfl
@[simp] theorem State.mu_setBcu (s : State) (x : Bcu) : (s.setBcu x).mu = s.mu := rfl
@[simp] theorem State.evq_setBcu (s : State) (x : Bcu) : (s.setBcu x).evq = s.evq := rfl
@[simp] theorem State.txe_setBcu (s : State) (x : Bcu) : (s.setBcu x).txe = s.txe := rfl
@[simp] theorem State.bcu_setBcu (s : State) (x : Bcu) : (s.setBcu x).bcu = x := rfl
@[simp] theorem State.now_setBcu (s : State) (x : Bcu) : (s.setBcu x).now = s.now := rfl
@[simp] theorem State.lcu_setBcu (s : State) (x : Bcu) (c : Channel) : (s.setBcu x).lcu c = s.lcu c := rfl
@[simp] theorem State.setBcu_setBcu (s : State) (x y : Bcu) : (s.setBcu x).setBcu y = s.setBcu y := rfl
@[simp] theorem State.setBcu_self (s : State) : s.setBcu s.bcu = s := rfl

@[simp] theorem State.pending_setLcu (s : State) (c : Channel) (l : Lcu) : (s.setLcu c l).pending = s.pending := rfl
@[simp] theorem State.tb_setLcu (s : State) (c : Channel) (l : Lcu) : (s.setLcu c l).tb = s.tb := rfl
@[simp] theorem State.lcus_setLcu (s : State) (c : Channel) (l : Lcu) : (s.setLcu c l).lcus = s.lcus.set c.val l := rfl
@[simp] theorem State.pst_setLcu (s : State) (c : Channel) (l : Lcu) : (s.setLcu c l).pst = s.pst := rfl
@[simp] theorem State.sdc_setLcu (s : State) (c : Channel) (l : Lcu) : (s.setLcu c l).sdc = s.sdc := rfl
@[simp] theorem State.mu_setLcu (s : State) (c : Channel) (l : Lcu) : (s.setLcu c l).mu = s.mu := rfl
@[simp] theorem State.evq_setLcu (s : State) (c : Channel) (l : Lcu) : (s.setLcu c l).evq = s.evq := rfl
@[simp] theorem State.txe_setLcu (s : State) (c : Channel) (l : Lcu) : (s.setLcu c l).txe = s.txe := rfl
@[simp] theorem State.bcu_setLcu (s : State) (c : Channel) (l : Lcu) : (s.setLcu c l).bcu = s.bcu := rfl
@[simp] theorem State.now_setLcu (s : State) (c : Channel) (l : Lcu) : (s.setLcu c l).now = s.now := rfl

/-- The unit that was put in its place is read there. -/
@[simp] theorem State.lcu_setLcu_self (s : State) (c : Channel) (l : Lcu) : (s.setLcu c l).lcu c = l := by
  simp [State.lcu, State.setLcu]

/-- Another unit is as it was. -/
theorem State.lcu_setLcu_ne (s : State) {c d : Channel} (l : Lcu) (h : d ≠ c) : (s.setLcu c l).lcu d = s.lcu d := by
  have hv : c.val ≠ d.val := fun e => h (Fin.ext e.symm)
  simp [State.lcu, State.setLcu, hv]

/-- A unit read after an update, whichever unit it is. -/
theorem State.lcu_setLcu (s : State) (c d : Channel) (l : Lcu) : (s.setLcu c l).lcu d = if d = c then l else s.lcu d := by
  split
  · next h => subst h; simp
  · next h => exact State.lcu_setLcu_ne s l h

@[simp] theorem State.setLcu_setLcu (s : State) (c : Channel) (l m : Lcu) : (s.setLcu c l).setLcu c m = s.setLcu c m := by
  simp [State.setLcu]

@[simp] theorem State.setLcu_self (s : State) (c : Channel) : s.setLcu c (s.lcu c) = s := by
  simp [State.setLcu, State.lcu]

@[simp] theorem State.setLcu_setPst (s : State) (x : PulseStore) (c : Channel) (l : Lcu) :
    (s.setPst x).setLcu c l = (s.setLcu c l).setPst x := rfl
@[simp] theorem State.setLcu_setSdc (s : State) (x : Decoder) (c : Channel) (l : Lcu) :
    (s.setSdc x).setLcu c l = (s.setLcu c l).setSdc x := rfl
@[simp] theorem State.setLcu_setMu (s : State) (x : MatchUnit) (c : Channel) (l : Lcu) :
    (s.setMu x).setLcu c l = (s.setLcu c l).setMu x := rfl
@[simp] theorem State.setLcu_setEvq (s : State) (x : EventQueue) (c : Channel) (l : Lcu) :
    (s.setEvq x).setLcu c l = (s.setLcu c l).setEvq x := rfl
@[simp] theorem State.setLcu_setTxe (s : State) (x : Transmit) (c : Channel) (l : Lcu) :
    (s.setTxe x).setLcu c l = (s.setLcu c l).setTxe x := rfl
@[simp] theorem State.setLcu_setBcu (s : State) (x : Bcu) (c : Channel) (l : Lcu) :
    (s.setBcu x).setLcu c l = (s.setLcu c l).setBcu x := rfl

@[simp] theorem State.pending_answerPart (s : State) (p : Part) (a : PartAnswer) : (s.answerPart p a).pending = s.pending := rfl
@[simp] theorem State.tb_answerPart (s : State) (p : Part) (a : PartAnswer) : (s.answerPart p a).tb = s.tb := rfl
@[simp] theorem State.lcus_answerPart (s : State) (p : Part) (a : PartAnswer) : (s.answerPart p a).lcus = s.lcus := rfl
@[simp] theorem State.pst_answerPart (s : State) (p : Part) (a : PartAnswer) : (s.answerPart p a).pst = s.pst := rfl
@[simp] theorem State.sdc_answerPart (s : State) (p : Part) (a : PartAnswer) : (s.answerPart p a).sdc = s.sdc := rfl
@[simp] theorem State.mu_answerPart (s : State) (p : Part) (a : PartAnswer) : (s.answerPart p a).mu = s.mu := rfl
@[simp] theorem State.evq_answerPart (s : State) (p : Part) (a : PartAnswer) : (s.answerPart p a).evq = s.evq := rfl
@[simp] theorem State.txe_answerPart (s : State) (p : Part) (a : PartAnswer) : (s.answerPart p a).txe = s.txe := rfl
@[simp] theorem State.bcu_answerPart (s : State) (p : Part) (a : PartAnswer) :
    (s.answerPart p a).bcu = s.bcu.answerPart p a := rfl
@[simp] theorem State.now_answerPart (s : State) (p : Part) (a : PartAnswer) : (s.answerPart p a).now = s.now := rfl
@[simp] theorem State.lcu_answerPart (s : State) (p : Part) (a : PartAnswer) (c : Channel) :
    (s.answerPart p a).lcu c = s.lcu c := rfl

@[simp] theorem State.pending_setEngine (s : State) (o : Output) (e : Engine) : (s.setEngine o e).pending = s.pending := rfl
@[simp] theorem State.tb_setEngine (s : State) (o : Output) (e : Engine) : (s.setEngine o e).tb = s.tb := rfl
@[simp] theorem State.lcus_setEngine (s : State) (o : Output) (e : Engine) : (s.setEngine o e).lcus = s.lcus := rfl
@[simp] theorem State.pst_setEngine (s : State) (o : Output) (e : Engine) : (s.setEngine o e).pst = s.pst := rfl
@[simp] theorem State.sdc_setEngine (s : State) (o : Output) (e : Engine) : (s.setEngine o e).sdc = s.sdc := rfl
@[simp] theorem State.mu_setEngine (s : State) (o : Output) (e : Engine) : (s.setEngine o e).mu = s.mu := rfl
@[simp] theorem State.evq_setEngine (s : State) (o : Output) (e : Engine) : (s.setEngine o e).evq = s.evq := rfl
@[simp] theorem State.txe_setEngine (s : State) (o : Output) (e : Engine) : (s.setEngine o e).txe = s.txe.setEngine o e := rfl
@[simp] theorem State.bcu_setEngine (s : State) (o : Output) (e : Engine) : (s.setEngine o e).bcu = s.bcu := rfl
@[simp] theorem State.now_setEngine (s : State) (o : Output) (e : Engine) : (s.setEngine o e).now = s.now := rfl
@[simp] theorem State.lcu_setEngine (s : State) (o : Output) (e : Engine) (c : Channel) : (s.setEngine o e).lcu c = s.lcu c := rfl

@[simp] theorem State.pending_storeTook (s : State) (c : Channel) (p : PulseStore) (a : Option LcuAnswer) :
    (s.storeTook c p a).pending = s.pending := rfl
@[simp] theorem State.tb_storeTook (s : State) (c : Channel) (p : PulseStore) (a : Option LcuAnswer) :
    (s.storeTook c p a).tb = s.tb := rfl
@[simp] theorem State.pst_storeTook (s : State) (c : Channel) (p : PulseStore) (a : Option LcuAnswer) :
    (s.storeTook c p a).pst = p := rfl
@[simp] theorem State.sdc_storeTook (s : State) (c : Channel) (p : PulseStore) (a : Option LcuAnswer) :
    (s.storeTook c p a).sdc = s.sdc := rfl
@[simp] theorem State.mu_storeTook (s : State) (c : Channel) (p : PulseStore) (a : Option LcuAnswer) :
    (s.storeTook c p a).mu = s.mu := rfl
@[simp] theorem State.evq_storeTook (s : State) (c : Channel) (p : PulseStore) (a : Option LcuAnswer) :
    (s.storeTook c p a).evq = s.evq := rfl
@[simp] theorem State.txe_storeTook (s : State) (c : Channel) (p : PulseStore) (a : Option LcuAnswer) :
    (s.storeTook c p a).txe = s.txe := rfl
@[simp] theorem State.bcu_storeTook (s : State) (c : Channel) (p : PulseStore) (a : Option LcuAnswer) :
    (s.storeTook c p a).bcu = s.bcu := rfl
@[simp] theorem State.now_storeTook (s : State) (c : Channel) (p : PulseStore) (a : Option LcuAnswer) :
    (s.storeTook c p a).now = s.now := rfl
@[simp] theorem State.lcu_storeTook_self (s : State) (c : Channel) (p : PulseStore) (a : Option LcuAnswer) :
    (s.storeTook c p a).lcu c = { s.lcu c with toStore := (s.lcu c).toStore.pop, answer := a } := by
  simp [State.storeTook]

theorem State.lcu_storeTook_ne (s : State) {c d : Channel} (p : PulseStore) (a : Option LcuAnswer) (h : d ≠ c) :
    (s.storeTook c p a).lcu d = s.lcu d := by
  simp [State.storeTook, State.lcu_setLcu_ne, h]

@[simp] theorem PulseStore.descriptor_setDescriptor_self (p : PulseStore) (i : Handle) (x : Descriptor) :
    (p.setDescriptor i x).descriptor i = x := by
  simp [PulseStore.descriptor, PulseStore.setDescriptor]

theorem PulseStore.descriptor_setDescriptor_ne (p : PulseStore) {i j : Handle} (x : Descriptor) (h : j ≠ i) :
    (p.setDescriptor i x).descriptor j = p.descriptor j := by
  have hv : i.val ≠ j.val := fun e => h (Fin.ext e.symm)
  simp [PulseStore.descriptor, PulseStore.setDescriptor, hv]

theorem PulseStore.descriptor_setDescriptor (p : PulseStore) (i j : Handle) (x : Descriptor) :
    (p.setDescriptor i x).descriptor j = if j = i then x else p.descriptor j := by
  split
  · next h => subst h; simp
  · next h => exact PulseStore.descriptor_setDescriptor_ne p x h

@[simp] theorem PulseStore.freeBlocks_setDescriptor (p : PulseStore) (i : Handle) (x : Descriptor) :
    (p.setDescriptor i x).freeBlocks = p.freeBlocks := rfl
@[simp] theorem PulseStore.slots_setDescriptor (p : PulseStore) (i : Handle) (x : Descriptor) :
    (p.setDescriptor i x).slots = p.slots := rfl
@[simp] theorem PulseStore.queue_setDescriptor (p : PulseStore) (i : Handle) (x : Descriptor) :
    (p.setDescriptor i x).queue = p.queue := rfl

@[simp] theorem Decoder.profile_setProfile_self (p : Decoder) (i : ProfileNo) (x : Profile) :
    (p.setProfile i x).profile i = x := by
  simp [Decoder.profile, Decoder.setProfile]

theorem Decoder.profile_setProfile_ne (p : Decoder) {i j : ProfileNo} (x : Profile) (h : j ≠ i) :
    (p.setProfile i x).profile j = p.profile j := by
  have hv : i.val ≠ j.val := fun e => h (Fin.ext e.symm)
  simp [Decoder.profile, Decoder.setProfile, hv]

theorem Decoder.profile_setProfile (p : Decoder) (i j : ProfileNo) (x : Profile) :
    (p.setProfile i x).profile j = if j = i then x else p.profile j := by
  split
  · next h => subst h; simp
  · next h => exact Decoder.profile_setProfile_ne p x h

@[simp] theorem Decoder.state_setProfile (p : Decoder) (i : ProfileNo) (x : Profile) : (p.setProfile i x).state = p.state := rfl
@[simp] theorem Decoder.request_setProfile (p : Decoder) (i : ProfileNo) (x : Profile) :
    (p.setProfile i x).request = p.request := rfl
@[simp] theorem Decoder.answer_setProfile (p : Decoder) (i : ProfileNo) (x : Profile) :
    (p.setProfile i x).answer = p.answer := rfl
@[simp] theorem Decoder.hostDrops_setProfile (p : Decoder) (i : ProfileNo) (x : Profile) :
    (p.setProfile i x).hostDrops = p.hostDrops := rfl
@[simp] theorem Decoder.toMatch_setProfile (p : Decoder) (i : ProfileNo) (x : Profile) :
    (p.setProfile i x).toMatch = p.toMatch := rfl
@[simp] theorem Decoder.toQueue_setProfile (p : Decoder) (i : ProfileNo) (x : Profile) :
    (p.setProfile i x).toQueue = p.toQueue := rfl
@[simp] theorem Decoder.counters_setProfile (p : Decoder) (i : ProfileNo) (x : Profile) :
    (p.setProfile i x).counters = p.counters := rfl

@[simp] theorem Decoder.counter_setCounter_self (p : Decoder) (i : Channel) (x : DecoderCounters) :
    (p.setCounter i x).counter i = x := by
  simp [Decoder.counter, Decoder.setCounter]

theorem Decoder.counter_setCounter_ne (p : Decoder) {i j : Channel} (x : DecoderCounters) (h : j ≠ i) :
    (p.setCounter i x).counter j = p.counter j := by
  have hv : i.val ≠ j.val := fun e => h (Fin.ext e.symm)
  simp [Decoder.counter, Decoder.setCounter, hv]

theorem Decoder.counter_setCounter (p : Decoder) (i j : Channel) (x : DecoderCounters) :
    (p.setCounter i x).counter j = if j = i then x else p.counter j := by
  split
  · next h => subst h; simp
  · next h => exact Decoder.counter_setCounter_ne p x h

@[simp] theorem Decoder.profiles_setCounter (p : Decoder) (i : Channel) (x : DecoderCounters) :
    (p.setCounter i x).profiles = p.profiles := rfl
@[simp] theorem Decoder.state_setCounter (p : Decoder) (i : Channel) (x : DecoderCounters) :
    (p.setCounter i x).state = p.state := rfl
@[simp] theorem Decoder.request_setCounter (p : Decoder) (i : Channel) (x : DecoderCounters) :
    (p.setCounter i x).request = p.request := rfl
@[simp] theorem Decoder.answer_setCounter (p : Decoder) (i : Channel) (x : DecoderCounters) :
    (p.setCounter i x).answer = p.answer := rfl
@[simp] theorem Decoder.hostDrops_setCounter (p : Decoder) (i : Channel) (x : DecoderCounters) :
    (p.setCounter i x).hostDrops = p.hostDrops := rfl
@[simp] theorem Decoder.toMatch_setCounter (p : Decoder) (i : Channel) (x : DecoderCounters) :
    (p.setCounter i x).toMatch = p.toMatch := rfl
@[simp] theorem Decoder.toQueue_setCounter (p : Decoder) (i : Channel) (x : DecoderCounters) :
    (p.setCounter i x).toQueue = p.toQueue := rfl

@[simp] theorem MatchUnit.entry_setEntry_self (p : MatchUnit) (i : EntryNo) (x : Entry) :
    (p.setEntry i x).entry i = x := by
  simp [MatchUnit.entry, MatchUnit.setEntry]

theorem MatchUnit.entry_setEntry_ne (p : MatchUnit) {i j : EntryNo} (x : Entry) (h : j ≠ i) :
    (p.setEntry i x).entry j = p.entry j := by
  have hv : i.val ≠ j.val := fun e => h (Fin.ext e.symm)
  simp [MatchUnit.entry, MatchUnit.setEntry, hv]

theorem MatchUnit.entry_setEntry (p : MatchUnit) (i j : EntryNo) (x : Entry) :
    (p.setEntry i x).entry j = if j = i then x else p.entry j := by
  split
  · next h => subst h; simp
  · next h => exact MatchUnit.entry_setEntry_ne p x h

@[simp] theorem MatchUnit.keys_setEntry (p : MatchUnit) (i : EntryNo) (x : Entry) : (p.setEntry i x).keys = p.keys := rfl
@[simp] theorem MatchUnit.divert_setEntry (p : MatchUnit) (i : EntryNo) (x : Entry) : (p.setEntry i x).divert = p.divert := rfl
@[simp] theorem MatchUnit.learn_setEntry (p : MatchUnit) (i : EntryNo) (x : Entry) : (p.setEntry i x).learn = p.learn := rfl
@[simp] theorem MatchUnit.awaiting_setEntry (p : MatchUnit) (i : EntryNo) (x : Entry) :
    (p.setEntry i x).awaiting = p.awaiting := rfl
@[simp] theorem MatchUnit.answer_setEntry (p : MatchUnit) (i : EntryNo) (x : Entry) : (p.setEntry i x).answer = p.answer := rfl
@[simp] theorem MatchUnit.toQueue_setEntry (p : MatchUnit) (i : EntryNo) (x : Entry) : (p.setEntry i x).toQueue = p.toQueue := rfl
@[simp] theorem MatchUnit.counters_setEntry (p : MatchUnit) (i : EntryNo) (x : Entry) :
    (p.setEntry i x).counters = p.counters := rfl

@[simp] theorem MatchUnit.key_setKey_self (p : MatchUnit) (i : Channel) (x : Option KeyRecord) :
    (p.setKey i x).key i = x := by
  simp [MatchUnit.key, MatchUnit.setKey]

theorem MatchUnit.key_setKey_ne (p : MatchUnit) {i j : Channel} (x : Option KeyRecord) (h : j ≠ i) :
    (p.setKey i x).key j = p.key j := by
  have hv : i.val ≠ j.val := fun e => h (Fin.ext e.symm)
  simp [MatchUnit.key, MatchUnit.setKey, hv]

theorem MatchUnit.key_setKey (p : MatchUnit) (i j : Channel) (x : Option KeyRecord) :
    (p.setKey i x).key j = if j = i then x else p.key j := by
  split
  · next h => subst h; simp
  · next h => exact MatchUnit.key_setKey_ne p x h

@[simp] theorem MatchUnit.table_setKey (p : MatchUnit) (i : Channel) (x : Option KeyRecord) :
    (p.setKey i x).table = p.table := rfl
@[simp] theorem MatchUnit.divert_setKey (p : MatchUnit) (i : Channel) (x : Option KeyRecord) :
    (p.setKey i x).divert = p.divert := rfl
@[simp] theorem MatchUnit.learn_setKey (p : MatchUnit) (i : Channel) (x : Option KeyRecord) :
    (p.setKey i x).learn = p.learn := rfl
@[simp] theorem MatchUnit.awaiting_setKey (p : MatchUnit) (i : Channel) (x : Option KeyRecord) :
    (p.setKey i x).awaiting = p.awaiting := rfl
@[simp] theorem MatchUnit.answer_setKey (p : MatchUnit) (i : Channel) (x : Option KeyRecord) :
    (p.setKey i x).answer = p.answer := rfl
@[simp] theorem MatchUnit.toQueue_setKey (p : MatchUnit) (i : Channel) (x : Option KeyRecord) :
    (p.setKey i x).toQueue = p.toQueue := rfl
@[simp] theorem MatchUnit.counters_setKey (p : MatchUnit) (i : Channel) (x : Option KeyRecord) :
    (p.setKey i x).counters = p.counters := rfl

@[simp] theorem MatchUnit.counter_setCounter_self (p : MatchUnit) (i : Channel) (x : MatchCounters) :
    (p.setCounter i x).counter i = x := by
  simp [MatchUnit.counter, MatchUnit.setCounter]

theorem MatchUnit.counter_setCounter_ne (p : MatchUnit) {i j : Channel} (x : MatchCounters) (h : j ≠ i) :
    (p.setCounter i x).counter j = p.counter j := by
  have hv : i.val ≠ j.val := fun e => h (Fin.ext e.symm)
  simp [MatchUnit.counter, MatchUnit.setCounter, hv]

theorem MatchUnit.counter_setCounter (p : MatchUnit) (i j : Channel) (x : MatchCounters) :
    (p.setCounter i x).counter j = if j = i then x else p.counter j := by
  split
  · next h => subst h; simp
  · next h => exact MatchUnit.counter_setCounter_ne p x h

@[simp] theorem MatchUnit.table_setCounter (p : MatchUnit) (i : Channel) (x : MatchCounters) :
    (p.setCounter i x).table = p.table := rfl
@[simp] theorem MatchUnit.keys_setCounter (p : MatchUnit) (i : Channel) (x : MatchCounters) :
    (p.setCounter i x).keys = p.keys := rfl
@[simp] theorem MatchUnit.divert_setCounter (p : MatchUnit) (i : Channel) (x : MatchCounters) :
    (p.setCounter i x).divert = p.divert := rfl
@[simp] theorem MatchUnit.learn_setCounter (p : MatchUnit) (i : Channel) (x : MatchCounters) :
    (p.setCounter i x).learn = p.learn := rfl
@[simp] theorem MatchUnit.awaiting_setCounter (p : MatchUnit) (i : Channel) (x : MatchCounters) :
    (p.setCounter i x).awaiting = p.awaiting := rfl
@[simp] theorem MatchUnit.answer_setCounter (p : MatchUnit) (i : Channel) (x : MatchCounters) :
    (p.setCounter i x).answer = p.answer := rfl
@[simp] theorem MatchUnit.toQueue_setCounter (p : MatchUnit) (i : Channel) (x : MatchCounters) :
    (p.setCounter i x).toQueue = p.toQueue := rfl

@[simp] theorem Transmit.engine_setEngine_self (p : Transmit) (i : Output) (x : Engine) :
    (p.setEngine i x).engine i = x := by
  simp [Transmit.engine, Transmit.setEngine]

theorem Transmit.engine_setEngine_ne (p : Transmit) {i j : Output} (x : Engine) (h : j ≠ i) :
    (p.setEngine i x).engine j = p.engine j := by
  have hv : i.val ≠ j.val := fun e => h (Fin.ext e.symm)
  simp [Transmit.engine, Transmit.setEngine, hv]

theorem Transmit.engine_setEngine (p : Transmit) (i j : Output) (x : Engine) :
    (p.setEngine i x).engine j = if j = i then x else p.engine j := by
  split
  · next h => subst h; simp
  · next h => exact Transmit.engine_setEngine_ne p x h

@[simp] theorem Transmit.queue_setEngine (p : Transmit) (i : Output) (x : Engine) : (p.setEngine i x).queue = p.queue := rfl
@[simp] theorem Transmit.holdDrops_setEngine (p : Transmit) (i : Output) (x : Engine) :
    (p.setEngine i x).holdDrops = p.holdDrops := rfl

@[simp] theorem Lcu.claimsOf_setClaims_self (p : Lcu) (i : Output) (x : List ClaimMsg) :
    (p.setClaims i x).claimsOf i = x := by
  simp [Lcu.claimsOf, Lcu.setClaims]

theorem Lcu.claimsOf_setClaims_ne (p : Lcu) {i j : Output} (x : List ClaimMsg) (h : j ≠ i) :
    (p.setClaims i x).claimsOf j = p.claimsOf j := by
  have hv : i.val ≠ j.val := fun e => h (Fin.ext e.symm)
  simp [Lcu.claimsOf, Lcu.setClaims, hv]

theorem Lcu.claimsOf_setClaims (p : Lcu) (i j : Output) (x : List ClaimMsg) :
    (p.setClaims i x).claimsOf j = if j = i then x else p.claimsOf j := by
  split
  · next h => subst h; simp
  · next h => exact Lcu.claimsOf_setClaims_ne p x h

@[simp] theorem Lcu.settings_setClaims (p : Lcu) (i : Output) (x : List ClaimMsg) : (p.setClaims i x).settings = p.settings := rfl
@[simp] theorem Lcu.capture_setClaims (p : Lcu) (i : Output) (x : List ClaimMsg) : (p.setClaims i x).capture = p.capture := rfl
@[simp] theorem Lcu.sampled_setClaims (p : Lcu) (i : Output) (x : List ClaimMsg) : (p.setClaims i x).sampled = p.sampled := rfl
@[simp] theorem Lcu.level_setClaims (p : Lcu) (i : Output) (x : List ClaimMsg) : (p.setClaims i x).level = p.level := rfl
@[simp] theorem Lcu.change_setClaims (p : Lcu) (i : Output) (x : List ClaimMsg) : (p.setClaims i x).change = p.change := rfl
@[simp] theorem Lcu.samples_setClaims (p : Lcu) (i : Output) (x : List ClaimMsg) : (p.setClaims i x).samples = p.samples := rfl
@[simp] theorem Lcu.handle_setClaims (p : Lcu) (i : Output) (x : List ClaimMsg) : (p.setClaims i x).handle = p.handle := rfl
@[simp] theorem Lcu.count_setClaims (p : Lcu) (i : Output) (x : List ClaimMsg) : (p.setClaims i x).count = p.count := rfl
@[simp] theorem Lcu.elementStart_setClaims (p : Lcu) (i : Output) (x : List ClaimMsg) :
    (p.setClaims i x).elementStart = p.elementStart := rfl
@[simp] theorem Lcu.measuringStart_setClaims (p : Lcu) (i : Output) (x : List ClaimMsg) :
    (p.setClaims i x).measuringStart = p.measuringStart := rfl
@[simp] theorem Lcu.blankCount_setClaims (p : Lcu) (i : Output) (x : List ClaimMsg) :
    (p.setClaims i x).blankCount = p.blankCount := rfl
@[simp] theorem Lcu.counters_setClaims (p : Lcu) (i : Output) (x : List ClaimMsg) : (p.setClaims i x).counters = p.counters := rfl
@[simp] theorem Lcu.waiting_setClaims (p : Lcu) (i : Output) (x : List ClaimMsg) : (p.setClaims i x).waiting = p.waiting := rfl
@[simp] theorem Lcu.answer_setClaims (p : Lcu) (i : Output) (x : List ClaimMsg) : (p.setClaims i x).answer = p.answer := rfl
@[simp] theorem Lcu.toStore_setClaims (p : Lcu) (i : Output) (x : List ClaimMsg) : (p.setClaims i x).toStore = p.toStore := rfl
@[simp] theorem Lcu.toQueue_setClaims (p : Lcu) (i : Output) (x : List ClaimMsg) : (p.setClaims i x).toQueue = p.toQueue := rfl

@[simp] theorem Decoder.counter_setProfile (d : Decoder) (p : ProfileNo) (x : Profile) (c : Channel) :
    (d.setProfile p x).counter c = d.counter c := rfl
@[simp] theorem Decoder.profile_setCounter (d : Decoder) (c : Channel) (x : DecoderCounters) (p : ProfileNo) :
    (d.setCounter c x).profile p = d.profile p := rfl
@[simp] theorem MatchUnit.key_setEntry (m : MatchUnit) (i : EntryNo) (e : Entry) (c : Channel) :
    (m.setEntry i e).key c = m.key c := rfl
@[simp] theorem MatchUnit.counter_setEntry (m : MatchUnit) (i : EntryNo) (e : Entry) (c : Channel) :
    (m.setEntry i e).counter c = m.counter c := rfl
@[simp] theorem MatchUnit.entry_setKey (m : MatchUnit) (c : Channel) (k : Option KeyRecord) (i : EntryNo) :
    (m.setKey c k).entry i = m.entry i := rfl
@[simp] theorem MatchUnit.counter_setKey (m : MatchUnit) (c d : Channel) (k : Option KeyRecord) :
    (m.setKey c k).counter d = m.counter d := rfl
@[simp] theorem MatchUnit.entry_setCounter (m : MatchUnit) (c : Channel) (x : MatchCounters) (i : EntryNo) :
    (m.setCounter c x).entry i = m.entry i := rfl
@[simp] theorem MatchUnit.key_setCounter (m : MatchUnit) (c d : Channel) (x : MatchCounters) :
    (m.setCounter c x).key d = m.key d := rfl
@[simp] theorem MatchUnit.key_count (m : MatchUnit) (c d : Channel) (f : MatchCounters → MatchCounters) :
    (m.count c f).key d = m.key d := rfl
@[simp] theorem MatchUnit.entry_count (m : MatchUnit) (c : Channel) (f : MatchCounters → MatchCounters) (i : EntryNo) :
    (m.count c f).entry i = m.entry i := rfl
@[simp] theorem MatchUnit.key_send (m : MatchUnit) (a : Append) (d : Channel) : (m.send a).key d = m.key d := rfl
@[simp] theorem MatchUnit.entry_send (m : MatchUnit) (a : Append) (i : EntryNo) : (m.send a).entry i = m.entry i := rfl
@[simp] theorem MatchUnit.counter_send (m : MatchUnit) (a : Append) (d : Channel) : (m.send a).counter d = m.counter d := rfl
@[simp] theorem MatchUnit.toQueue_send (m : MatchUnit) (a : Append) : (m.send a).toQueue = m.toQueue.push a := rfl
@[simp] theorem MatchUnit.table_send (m : MatchUnit) (a : Append) : (m.send a).table = m.table := rfl
@[simp] theorem MatchUnit.keys_send (m : MatchUnit) (a : Append) : (m.send a).keys = m.keys := rfl
@[simp] theorem MatchUnit.divert_send (m : MatchUnit) (a : Append) : (m.send a).divert = m.divert := rfl
@[simp] theorem MatchUnit.learn_send (m : MatchUnit) (a : Append) : (m.send a).learn = m.learn := rfl
@[simp] theorem MatchUnit.awaiting_send (m : MatchUnit) (a : Append) : (m.send a).awaiting = m.awaiting := rfl
@[simp] theorem MatchUnit.answer_send (m : MatchUnit) (a : Append) : (m.send a).answer = m.answer := rfl
@[simp] theorem MatchUnit.counters_send (m : MatchUnit) (a : Append) : (m.send a).counters = m.counters := rfl
@[simp] theorem MatchUnit.table_count (m : MatchUnit) (c : Channel) (f : MatchCounters → MatchCounters) :
    (m.count c f).table = m.table := rfl
@[simp] theorem MatchUnit.keys_count (m : MatchUnit) (c : Channel) (f : MatchCounters → MatchCounters) :
    (m.count c f).keys = m.keys := rfl
@[simp] theorem MatchUnit.divert_count (m : MatchUnit) (c : Channel) (f : MatchCounters → MatchCounters) :
    (m.count c f).divert = m.divert := rfl
@[simp] theorem MatchUnit.learn_count (m : MatchUnit) (c : Channel) (f : MatchCounters → MatchCounters) :
    (m.count c f).learn = m.learn := rfl
@[simp] theorem MatchUnit.awaiting_count (m : MatchUnit) (c : Channel) (f : MatchCounters → MatchCounters) :
    (m.count c f).awaiting = m.awaiting := rfl
@[simp] theorem MatchUnit.answer_count (m : MatchUnit) (c : Channel) (f : MatchCounters → MatchCounters) :
    (m.count c f).answer = m.answer := rfl
@[simp] theorem MatchUnit.toQueue_count (m : MatchUnit) (c : Channel) (f : MatchCounters → MatchCounters) :
    (m.count c f).toQueue = m.toQueue := rfl
@[simp] theorem Decoder.profiles_count (d : Decoder) (c : Channel) (f : DecoderCounters → DecoderCounters) :
    (d.count c f).profiles = d.profiles := rfl
@[simp] theorem Decoder.state_count (d : Decoder) (c : Channel) (f : DecoderCounters → DecoderCounters) :
    (d.count c f).state = d.state := rfl
@[simp] theorem Decoder.request_count (d : Decoder) (c : Channel) (f : DecoderCounters → DecoderCounters) :
    (d.count c f).request = d.request := rfl
@[simp] theorem Decoder.answer_count (d : Decoder) (c : Channel) (f : DecoderCounters → DecoderCounters) :
    (d.count c f).answer = d.answer := rfl
@[simp] theorem Decoder.hostDrops_count (d : Decoder) (c : Channel) (f : DecoderCounters → DecoderCounters) :
    (d.count c f).hostDrops = d.hostDrops := rfl
@[simp] theorem Decoder.toMatch_count (d : Decoder) (c : Channel) (f : DecoderCounters → DecoderCounters) :
    (d.count c f).toMatch = d.toMatch := rfl
@[simp] theorem Decoder.toQueue_count (d : Decoder) (c : Channel) (f : DecoderCounters → DecoderCounters) :
    (d.count c f).toQueue = d.toQueue := rfl
@[simp] theorem Mailbox.msgs_push {α : Type} (m : Mailbox α) (x : α) : (m.push x).msgs = m.msgs ++ [x] := rfl
@[simp] theorem Mailbox.early_push {α : Type} (m : Mailbox α) (x : α) : (m.push x).early = m.early := rfl
@[simp] theorem Mailbox.msgs_pop {α : Type} (m : Mailbox α) : m.pop.msgs = m.msgs.tail := rfl
@[simp] theorem Mailbox.early_pop {α : Type} (m : Mailbox α) : m.pop.early = m.early - 1 := rfl
@[simp] theorem Mailbox.msgs_markEarly {α : Type} (m : Mailbox α) : m.markEarly.msgs = m.msgs := rfl
@[simp] theorem Mailbox.early_markEarly {α : Type} (m : Mailbox α) : m.markEarly.early = m.msgs.length := rfl

end Sys2Proof.Machine
end

