-- ==== Sys2Proof/Laws/Bus.lean ====
section
/-! SUPPORT. The bus cycles (R190): which levels make a read or a write, and that the end of a cycle changes the queue of
commands alone. -/

namespace Sys2Proof.Machine

/-- The levels of a read cycle. -/
theorem BusPins.cycle_eq_read {p : BusPins} {a : BitVec 6} :
    p.cycle = some (.read a) ↔
      p.reset = true ∧ p.chipSelect = false ∧ p.readStrobe = false ∧ p.writeStrobe = true ∧ p.address = a := by
  obtain ⟨r, c, rd, wr, _, _⟩ := p
  cases r <;> cases c <;> cases rd <;> cases wr <;> simp [BusPins.cycle]

/-- The levels of a write cycle. -/
theorem BusPins.cycle_eq_write {p : BusPins} {a : BitVec 6} {v : Byte} :
    p.cycle = some (.write a v) ↔
      p.reset = true ∧ p.chipSelect = false ∧ p.readStrobe = true ∧ p.writeStrobe = false ∧ p.address = a ∧ p.data = v := by
  obtain ⟨r, c, rd, wr, _, _⟩ := p
  cases r <;> cases c <;> cases rd <;> cases wr <;> simp [BusPins.cycle]

/-- The end of a cycle adds the commands of the cycle, one at most, to the queue. -/
theorem State.endCycle_eq (s : State) (p : BusPins) :
    s.endCycle p = s.setPending (s.pending ++ (p.cycle.bind BusCycle.command).toList) := by
  unfold State.endCycle
  split <;> simp [*]

/-- The end of a cycle leaves every block as it was. -/
theorem State.endCycle_blocks (s : State) (p : BusPins) : (s.endCycle p).setPending s.pending = s := by
  rw [State.endCycle_eq]; simp

end Sys2Proof.Machine
end

