-- ==== Sys2Proof/Laws/Ops.lean ====
section
/-! SUPPORT. One lemma per shared operation of a command that says everything it can do: taking a command, an owner's part, an
answer, the opcode write, the completion, an append. -/

namespace Sys2Proof.Machine

/-! ## Commands in flight -/

/-- Taking a command: it is not due, or the BCU's check completes it, or the owner acts on the command in flight. -/
theorem State.takeCommand_cases (s : State) (cmd : Cmd) (owner : InFlight → State) :
    s.takeCommand cmd owner = s
      ∨ (∃ e, s.takeCommand cmd owner = s.setBcu (s.bcu.complete (some e) 0 .absent))
      ∨ ∃ f, s.bcu.inFlight = some f ∧ f.cmd = some cmd ∧ argumentsNameParts cmd f.args = true
          ∧ s.takeCommand cmd owner = owner f := by
  unfold State.takeCommand
  split
  · exact .inl rfl
  · next f hf =>
    split
    · next e _ => exact .inr (.inl ⟨e, rfl⟩)
    · next hr =>
      simp only [State.inFlightAs, Option.filter_eq_some_iff, beq_iff_eq] at hf
      refine .inr (.inr ⟨f, hf.1, hf.2, ?_, rfl⟩)
      simp only [InFlight.refusal, hf.2] at hr
      split at hr <;> simp_all

/-- A command in flight that passes the BCU's check is handed to its owner. -/
theorem State.takeCommand_owner {s : State} {cmd : Cmd} {f : InFlight} (owner : InFlight → State)
    (h : s.bcu.inFlight = some f) (hc : f.cmd = some cmd) (ha : argumentsNameParts cmd f.args = true) :
    s.takeCommand cmd owner = owner f := by
  simp [State.takeCommand, State.inFlightAs, h, Option.filter, hc, InFlight.refusal, ha]

/-- What holds of the machine, of a completion and of the owner's state holds after a command is taken. -/
theorem State.takeCommand_induct {P : State → Prop} {s : State} {cmd : Cmd} {owner : InFlight → State} (h0 : P s)
    (hb : ∀ b, P (s.setBcu b)) (ho : ∀ f, P (owner f)) : P (s.takeCommand cmd owner) := by
  rcases s.takeCommand_cases cmd owner with h | ⟨e, h⟩ | ⟨f, _, _, _, h⟩ <;> rw [h]
  · exact h0
  · exact hb _
  · exact ho f

/-- A Line Capture Unit's part: not due, or the unit acts. -/
theorem State.lcuPart_induct {P : State → Prop} {s : State} {f : InFlight} {act : Channel → Lcu → State} (h0 : P s)
    (ha : ∀ c, (s.lcu c).waiting = none → P (act c (s.lcu c))) : P (s.lcuPart f act) := by
  unfold State.lcuPart
  split
  · exact h0
  · next c _ =>
    split
    · next h => exact ha c h.2
    · exact h0

/-- An owner's part: not due, or the owner acts. -/
theorem State.ownerPart_induct {P : State → Prop} {s : State} {f : InFlight} {p : Part} {act : State} (h0 : P s) (ha : P act) :
    P (s.ownerPart f p act) := by
  unfold State.ownerPart
  split
  · exact ha
  · exact h0

/-- The Match Unit takes events only while it waits for no answer (R113). -/
theorem State.ready_of_matchReady {s : State} (h : s.matchReady = true) : s.mu.ready = true := by
  unfold State.matchReady at h
  exact (Bool.and_eq_true_iff.mp h).1

/-- The Match Unit's part: not due, or the Match Unit acts while it waits for no answer. -/
theorem State.matchPart_induct {P : State → Prop} {s : State} {f : InFlight} {act : State} (h0 : P s)
    (ha : s.mu.ready = true → P act) : P (s.matchPart f act) := by
  unfold State.matchPart
  split
  · next h => exact ha (State.ready_of_matchReady h.2)
  · exact h0

/-- A block after a read of the code table: it waits, or acts. -/
theorem State.afterMatchRead_induct {P : State → Prop} {s : State} {reads : Bool} {act : State} (h0 : P s) (ha : P act) :
    P (s.afterMatchRead reads act) := by
  unfold State.afterMatchRead
  split
  · exact h0
  · exact ha

/-- Where there is no read, or the Match Unit waits for no answer, the block acts. -/
theorem State.afterMatchRead_due {s : State} {reads : Bool} (act : State) (h : reads = true → s.mu.awaiting = none) :
    s.afterMatchRead reads act = act := by
  cases reads
  · simp [State.afterMatchRead]
  · simp [State.afterMatchRead, MatchUnit.ready, h rfl]

/-- A due part of a Line Capture Unit. -/
theorem State.lcuPart_due {s : State} {f : InFlight} {c : Channel} (act : Channel → Lcu → State)
    (hc : channelOf f.args.arg0 = some c) (hp : Part.lcu c ∈ f.parts) (hw : (s.lcu c).waiting = none) :
    s.lcuPart f act = act c (s.lcu c) := by
  simp [State.lcuPart, hc, hp, hw]

/-- The answer of a part changes the command in flight alone. -/
theorem Bcu.answerPart_some {b : Bcu} {f : InFlight} (p : Part) (a : PartAnswer) (h : b.inFlight = some f) :
    b.answerPart p a = { b with inFlight := some { f with parts := f.parts.erase p, error := f.error.or a.error
                                                          result := a.result, copy := a.copy } } := by
  simp [Bcu.answerPart, h]

/-- The opcode write while a command is BUSY sets COLLISION and nothing else (R202). -/
theorem Bcu.writeOpcode_busy {b : Bcu} (opcode : Byte) (h : b.cmdState = .busy) :
    b.writeOpcode opcode = { b with collision := true } := by
  simp [Bcu.writeOpcode, h]

/-- A copy that lands changes a staging record alone (R201). -/
theorem Bcu.landCopy_frame (b : Bcu) (r : StagingRecord) :
    (b.landCopy r).cmdState = b.cmdState ∧ (b.landCopy r).winSpace = b.winSpace ∧ (b.landCopy r).winOffset = b.winOffset
      ∧ (b.landCopy r).args = b.args ∧ (b.landCopy r).timeLatch = b.timeLatch
      ∧ (b.landCopy r).counterCapture = b.counterCapture := by
  cases r <;> simp [Bcu.landCopy]

/-! ## When the Match Unit takes events (R113, log 25) -/

/-- The Match Unit takes events: it waits for no answer, and no 1 ms tick of an earlier moment waits. -/
theorem State.matchReady_iff (s : State) : s.matchReady = true ↔ s.mu.awaiting = none ∧ ∀ m ∈ s.tb.msTicks, m = s.now := by
  simp [State.matchReady, MatchUnit.ready, List.all_eq_true]

/-! ## Appends -/

/-- What the Event Queue does with an append's sender: its appends on the way and, for a PRESS or an UNDECODED, an answer. -/
theorem State.deliverAnswer_cases (s : State) (x : Sender) (early : Nat) (b : EventBody) (ok : Bool) :
    s.deliverAnswer x early b ok = s
      ∨ (x = .mu ∧ s.deliverAnswer x early b ok = s.setMu { s.mu with answer := some ok })
      ∨ (x = .sdc ∧ early = 0
          ∧ s.deliverAnswer x early b ok = s.setSdc { s.sdc with answer := some (if ok then .admitted else .refused) }) := by
  unfold State.deliverAnswer
  split
  · exact .inr (.inl ⟨rfl, rfl⟩)
  · split
    · next h => exact .inr (.inr ⟨rfl, h, rfl⟩)
    · exact .inl rfl
  · exact .inl rfl

/-- The OVERRUN inserted before an append is judged, or none (R153). -/
theorem EventQueue.insertOverrun_cases (q : EventQueue) (now : Time) :
    q.insertOverrun now = q
      ∨ (q.overrunPending = true ∧ q.occupancy < Config.generalLimit
          ∧ q.insertOverrun now
              = { q.place { source := 0, stamp := now, body := .overrun q.lost } now with lost := 0, overrunPending := false }) := by
  unfold EventQueue.insertOverrun
  split
  · next h =>
    simp only [Bool.and_eq_true, decide_eq_true_eq] at h
    exact .inr ⟨h.1, h.2, rfl⟩
  · exact .inl rfl

/-- An append is placed below its limit, or counted as lost (R150, R152). -/
theorem EventQueue.judge_cases (q : EventQueue) (a : Append) (now : Time) :
    (q.occupancy < admissionLimit a.body ∧ q.judge a now = (q.place a now, true))
      ∨ (admissionLimit a.body ≤ q.occupancy
          ∧ q.judge a now = ({ q with lost := bump q.lost, overrunPending := true }, false)) := by
  unfold EventQueue.judge
  split
  · next h => exact .inl ⟨h, rfl⟩
  · next h => exact .inr ⟨Nat.le_of_not_lt h, rfl⟩

/-- A placed record raises the occupancy by one. -/
@[simp] theorem EventQueue.occupancy_place (q : EventQueue) (a : Append) (now : Time) :
    (q.place a now).occupancy = q.occupancy + 1 := by
  simp [EventQueue.place, EventQueue.occupancy]

/-- An admission limit is 60, or 64 for a RELEASE. -/
theorem admissionLimit_le (b : EventBody) : admissionLimit b ≤ Config.queueCapacity := by
  unfold admissionLimit
  split <;> decide

/-- A saturating counter that has been increased is not 0. -/
theorem bump_ne_zero (c : Half) : bump c ≠ 0 := by
  unfold bump
  split
  · next h => rw [h]; decide
  · next h =>
    intro h0
    apply h
    have : c = (c + 1) - 1 := by simp
    rw [this, h0]
    decide

/-- A saturating counter's value (00_scope.md, Counters). -/
theorem bump_toNat (c : Half) : (bump c).toNat = min (c.toNat + 1) 65535 := by
  unfold bump
  split
  · next h => subst h; decide
  · next h =>
    have hc : c.toNat < 65536 := c.isLt
    have h' : c.toNat ≠ 65535 := fun e => h (BitVec.eq_of_toNat_eq (by simpa using e))
    rw [BitVec.toNat_add]
    simp only [BitVec.ofNat_eq_ofNat, BitVec.toNat_ofNat]
    omega

/-! ## What waits for RUN_RESET (log 14) -/

/-- Where no RUN_RESET is in flight, or none of its parts waits, no part stands before a message. -/
theorem State.resetParts_eq_nil {s : State} (h : ∀ f, s.bcu.inFlight = some f → f.cmd = some .runReset → f.parts = []) :
    s.resetParts = [] := by
  unfold State.resetParts State.inFlightAs
  cases hf : s.bcu.inFlight with
  | none => rfl
  | some f => by_cases hc : f.cmd = some .runReset <;> simp [Option.filter, hc, h f hf]

/-- A message is held back exactly by a part that its sender has taken and the block it is sent to has not. -/
theorem State.resetBetween_iff {s : State} {sent next : Part} {early : Nat} :
    s.resetBetween sent next early = true ↔ next ∈ s.resetParts ∧ sent ∉ s.resetParts ∧ early = 0 := by
  simp [State.resetBetween, and_assoc]

end Sys2Proof.Machine
end

