-- ==== Sys2Proof/Laws/Footprint.lean ====
section
/-! SUPPORT. What a command can write: every command answers a next state, and that state is the same outside the command's
blocks (`writes`). The proofs of frames and of invariants cite `exec_sameOutside` and look at the arms that write their block. -/

namespace Sys2Proof.Machine

namespace SameOutside

theorem refl (bs : List Block) (s : State) : SameOutside bs s s := by
  constructor <;> intros <;> rfl

theorem trans {bs : List Block} {s t u : State} (h : SameOutside bs s t) (k : SameOutside bs t u) : SameOutside bs s u where
  pending := k.pending.trans h.pending
  tb hb := (k.tb hb).trans (h.tb hb)
  lcu c hb := (k.lcu c hb).trans (h.lcu c hb)
  pst hb := (k.pst hb).trans (h.pst hb)
  sdc hb := (k.sdc hb).trans (h.sdc hb)
  mu hb := (k.mu hb).trans (h.mu hb)
  evq hb := (k.evq hb).trans (h.evq hb)
  txe hb := (k.txe hb).trans (h.txe hb)
  bcu hb := (k.bcu hb).trans (h.bcu hb)

theorem setLcu {bs : List Block} {s t : State} (c : Channel) (l : Lcu) (hb : .lcu c ∈ bs) (h : SameOutside bs s t) :
    SameOutside bs s (t.setLcu c l) := by
  refine h.trans ?_
  constructor <;> intros <;> first | rfl | skip
  next d hd =>
    exact State.lcu_setLcu_ne t l (fun e => hd (e ▸ hb))

theorem setPst {bs : List Block} {s t : State} (x : PulseStore) (hb : .pst ∈ bs) (h : SameOutside bs s t) :
    SameOutside bs s (t.setPst x) := by
  refine h.trans ?_
  constructor <;> intros <;> first | rfl | contradiction

theorem setSdc {bs : List Block} {s t : State} (x : Decoder) (hb : .sdc ∈ bs) (h : SameOutside bs s t) :
    SameOutside bs s (t.setSdc x) := by
  refine h.trans ?_
  constructor <;> intros <;> first | rfl | contradiction

theorem setMu {bs : List Block} {s t : State} (x : MatchUnit) (hb : .mu ∈ bs) (h : SameOutside bs s t) :
    SameOutside bs s (t.setMu x) := by
  refine h.trans ?_
  constructor <;> intros <;> first | rfl | contradiction

theorem setEvq {bs : List Block} {s t : State} (x : EventQueue) (hb : .evq ∈ bs) (h : SameOutside bs s t) :
    SameOutside bs s (t.setEvq x) := by
  refine h.trans ?_
  constructor <;> intros <;> first | rfl | contradiction

theorem setTxe {bs : List Block} {s t : State} (x : Transmit) (hb : .txe ∈ bs) (h : SameOutside bs s t) :
    SameOutside bs s (t.setTxe x) := by
  refine h.trans ?_
  constructor <;> intros <;> first | rfl | contradiction

theorem setEngine {bs : List Block} {s t : State} (o : Output) (e : Engine) (hb : .txe ∈ bs) (h : SameOutside bs s t) :
    SameOutside bs s (t.setEngine o e) := h.setTxe _ hb

theorem setBcu {bs : List Block} {s t : State} (x : Bcu) (hb : .bcu ∈ bs) (h : SameOutside bs s t) :
    SameOutside bs s (t.setBcu x) := by
  refine h.trans ?_
  constructor <;> intros <;> first | rfl | contradiction

theorem answerPart {bs : List Block} {s t : State} (p : Part) (a : PartAnswer) (hb : .bcu ∈ bs) (h : SameOutside bs s t) :
    SameOutside bs s (t.answerPart p a) := h.setBcu _ hb

theorem storeTook {bs : List Block} {s t : State} (c : Channel) (p : PulseStore) (a : Option LcuAnswer) (hp : .pst ∈ bs)
    (hc : .lcu c ∈ bs) (h : SameOutside bs s t) : SameOutside bs s (t.storeTook c p a) :=
  (h.setPst p hp).setLcu c _ hc

theorem foldl {bs : List Block} {s : State} {α : Type} (f : State → α → State)
    (hf : ∀ t a, SameOutside bs s t → SameOutside bs s (f t a)) (l : List α) :
    ∀ t, SameOutside bs s t → SameOutside bs s (l.foldl f t) := by
  induction l with
  | nil => exact fun t h => h
  | cons a l ih => exact fun t h => ih _ (hf t a h)

theorem lineBlock (c : Channel) : Block.lcu c ∈ lineBlocks := by revert c; decide

theorem sendClaims {bs : List Block} {s t : State} (o : Output) (set : BitVec 4) (msg : ClaimMsg)
    (hb : ∀ c, .lcu c ∈ bs) (h : SameOutside bs s t) : SameOutside bs s (t.sendClaims o set msg) := by
  refine foldl _ (fun u c hu => ?_) _ _ h
  split
  · exact hu.setLcu c _ (hb c)
  · exact hu

theorem endTail {bs : List Block} {s t : State} (o : Output) (hb : ∀ c, .lcu c ∈ bs) (hx : .txe ∈ bs)
    (h : SameOutside bs s t) : SameOutside bs s (t.endTail o) := by
  unfold State.endTail
  dsimp only
  split
  · exact h.setEngine _ _ hx
  · exact (h.sendClaims _ _ _ hb).setTxe _ hx

theorem enterTail {bs : List Block} {s t : State} (o : Output) (e : Engine) (m : Time) (hb : ∀ c, .lcu c ∈ bs)
    (hx : .txe ∈ bs) (h : SameOutside bs s t) : SameOutside bs s (t.enterTail o e m) := by
  unfold State.enterTail
  split
  · split
    · exact (h.setEngine _ _ hx).endTail o hb hx
    · exact h.setEngine _ _ hx
  · exact h.setEngine _ _ hx

theorem endFrame {bs : List Block} {s t : State} (o : Output) (m : Time) (hb : ∀ c, .lcu c ∈ bs) (hx : .txe ∈ bs)
    (h : SameOutside bs s t) : SameOutside bs s (t.endFrame o m) := by
  unfold State.endFrame
  dsimp only
  split
  · exact h.enterTail _ _ _ hb hx
  · exact h.setEngine _ _ hx

theorem stopOutput {bs : List Block} {s t : State} (o : Output) (hb : ∀ c, .lcu c ∈ bs) (hx : .txe ∈ bs)
    (h : SameOutside bs s t) : SameOutside bs s (t.stopOutput o) := by
  unfold State.stopOutput
  dsimp only
  split
  · exact h.setEngine _ _ hx
  · exact h.enterTail _ _ _ hb hx
  · exact h
  · exact h

theorem abortTransmit {bs : List Block} {s t : State} (o : Output) (purge : Bool) (hb : ∀ c, .lcu c ∈ bs) (hx : .txe ∈ bs)
    (h : SameOutside bs s t) : SameOutside bs s (t.abortTransmit o purge) := by
  have hp : SameOutside bs s (if purge then t.purgeOutput o else t) := by
    split
    · exact h.setTxe _ hx
    · exact h
  unfold State.abortTransmit State.abortOutput
  dsimp only
  split
  · exact hp.enterTail _ _ _ hb hx
  · exact hp.enterTail _ _ _ hb hx
  · exact hp
  · exact hp

theorem deliverAnswer {bs : List Block} {s t : State} (x : Sender) (early : Nat) (b : EventBody) (ok : Bool)
    (hb : senderBlock x ∈ bs) (h : SameOutside bs s t) : SameOutside bs s (t.deliverAnswer x early b ok) := by
  rcases t.deliverAnswer_cases x early b ok with e | ⟨hx, e⟩ | ⟨hx, _, e⟩ <;> rw [e]
  · exact h
  · subst hx; exact h.setMu _ hb
  · subst hx; exact h.setSdc _ hb

theorem setOutbox {bs : List Block} {s t : State} (m : Mailbox Append) (x : Sender) (hb : senderBlock x ∈ bs)
    (h : SameOutside bs s t) : SameOutside bs s (t.setOutbox m x) := by
  cases x
  · exact h.setLcu _ _ hb
  · exact h.setSdc _ hb
  · exact h.setMu _ hb
  · exact h.setTxe _ hb

/-- The answer of a submission is the machine with the store's and the engine's changes. -/
theorem submit {bs : List Block} {s t u : State} {r : Vector Byte 21} {tag : Byte} (hp : .pst ∈ bs) (hx : .txe ∈ bs)
    (h : SameOutside bs s t) (hs : t.submit r = .ok (u, tag)) : SameOutside bs s u := by
  unfold State.submit at hs
  split at hs
  · cases hs
  · split at hs
    · cases hs
    · split at hs
      · cases hs
      · cases hs
        exact (h.setPst _ hp).setTxe _ hx

end SameOutside

/-- Every channel's block is among the four. -/
theorem lcu_mem_append (bs : List Block) (c : Channel) : Block.lcu c ∈ bs ++ lineBlocks :=
  List.mem_append_right _ (SameOutside.lineBlock c)

set_option linter.unusedSimpArgs false in
/-- Every command answers a next state, the same outside the blocks the command may write. -/
theorem exec_sameOutside (i : Instr) (s : State) : ∃ t, exec i s = .next t ∧ SameOutside (writes i) s t := by
  have hr : ∀ bs, SameOutside bs s s := fun bs => .refl bs s
  have hl := SameOutside.lineBlock
  cases i with
  | pinReset =>
    refine ⟨_, rfl, ?_⟩
    constructor <;> intros
    case lcu c hb => exact absurd (lcu_mem_append _ c) hb
    all_goals first | rfl | simp_all [writes]
  | microsecondTick lines =>
    refine ⟨_, rfl, ?_⟩
    constructor <;> intros
    case lcu c hb => exact absurd (List.mem_cons_of_mem _ (hl c)) hb
    all_goals first | rfl | simp_all [writes]
  | millisecondTick =>
    simp only [exec, execMillisecondTick]
    split
    · exact ⟨_, rfl, hr _⟩
    · refine ⟨_, rfl, ?_⟩
      constructor <;> intros <;> first | rfl | simp_all [writes]
  | registerWrite a v =>
    simp only [exec, execRegisterWrite]
    split
    all_goals
      refine ⟨_, rfl, ?_⟩
      first
        | exact (hr _).setBcu _ (by simp [writes])
        | exact (hr _).setEvq _ (by simp [writes])
  | append x =>
    have hx : senderBlock x ∈ writes (.append x) := by simp [writes]
    simp only [exec, execAppend]
    split
    · exact ⟨_, rfl, hr _⟩
    · split
      · exact ⟨_, rfl, (((hr _).setEvq _ (by simp [writes])).setOutbox _ _ hx).deliverAnswer _ _ _ _ hx⟩
      · exact ⟨_, rfl, hr _⟩
  | txSubmit p =>
    cases p with
    | write => exact ⟨_, rfl, (hr _).setBcu _ (by simp [writes, commandBlocks])⟩
    | take =>
      refine ⟨_, rfl, ?_⟩
      have hm : ∀ b, b ∈ [Block.bcu, .txe, .pst] → b ∈ writes (.txSubmit .take) := fun _ h => h
      refine State.takeCommand_induct (hr _) (fun b => (hr _).setBcu _ (hm _ (by simp))) (fun f => ?_)
      split
      · refine State.ownerPart_induct (hr _) (State.afterMatchRead_induct (hr _) ?_)
        split
        · exact (hr _).answerPart _ _ (hm _ (by simp))
        · next h => exact ((hr _).submit (hm _ (by simp)) (hm _ (by simp)) h).answerPart _ _ (hm _ (by simp))
      all_goals exact hr _
  | activation o =>
    have hb : ∀ c, Block.lcu c ∈ writes (.activation o) := fun c => List.mem_cons_of_mem _ (hl c)
    have hx : Block.txe ∈ writes (.activation o) := by simp [writes]
    simp only [exec, execActivation]
    split
    · split
      · exact ⟨_, rfl, hr _⟩
      · refine ⟨_, rfl, State.afterMatchRead_induct (hr _) ?_⟩
        split
        · exact ((hr _).setTxe _ hx).setEngine _ _ hx
        · exact (((hr _).setTxe _ hx).setEngine _ _ hx).sendClaims _ _ _ hb
    · exact ⟨_, rfl, hr _⟩
  | frameEnd o =>
    have hb : ∀ c, Block.lcu c ∈ writes (.frameEnd o) := fun c => List.mem_cons_of_mem _ (hl c)
    simp only [exec, execFrameEnd]
    repeat' split
    all_goals first | exact ⟨_, rfl, hr _⟩ | exact ⟨_, rfl, (hr _).endFrame _ _ hb (by simp [writes])⟩
  | tailEnd o =>
    have hb : ∀ c, Block.lcu c ∈ writes (.tailEnd o) := fun c => List.mem_cons_of_mem _ (hl c)
    simp only [exec, execTailEnd]
    repeat' split
    all_goals first | exact ⟨_, rfl, hr _⟩ | exact ⟨_, rfl, (hr _).endTail _ hb (by simp [writes])⟩
  | channelSet p | channelGet p | channelEnable p | channelDisable p | channelFlush p | countersClear p | profileCommit p
  | profileRead p | profileClear p | entryCommit p | entryRead p | entryClear p | tableClear p | burstRelease p | learnStart p
  | learnAbort p | learnCommit p | learnDiscard p | txStop p | txAbort p =>
    cases p
    all_goals
      refine ⟨_, rfl, ?_⟩
      try exact (hr _).setBcu _ (by simp [writes, commandBlocks])
      try refine State.takeCommand_induct (hr _) (fun b => (hr _).setBcu _ (by simp [writes, commandBlocks])) (fun f => ?_)
      try have hb : ∀ c, Block.lcu c ∈ Block.bcu :: lineBlocks := fun c => List.mem_cons_of_mem _ (hl c)
      try have hb' : ∀ c, Block.lcu c ∈ Block.bcu :: Block.txe :: lineBlocks :=
        fun c => List.mem_cons_of_mem _ (List.mem_cons_of_mem _ (hl c))
      repeat' first
        | with_reducible exact hr _
        | with_reducible refine State.lcuPart_induct (hr _) (fun c _ => ?_)
        | with_reducible refine State.ownerPart_induct (hr _) ?_
        | with_reducible refine State.matchPart_induct (hr _) (fun _ => ?_)
        | with_reducible refine State.afterMatchRead_induct (hr _) ?_
        | with_reducible refine SameOutside.answerPart _ _ (by simp [writes, commandBlocks]) ?_
        | with_reducible refine SameOutside.setLcu _ _ (hb _) ?_
        | with_reducible refine SameOutside.setSdc _ (by simp [writes, commandBlocks]) ?_
        | with_reducible refine SameOutside.setMu _ (by simp [writes, commandBlocks]) ?_
        | with_reducible refine SameOutside.setPst _ (by simp [writes, commandBlocks]) ?_
        | with_reducible refine SameOutside.stopOutput _ ?_ (by simp [writes, commandBlocks]) ?_
        | with_reducible refine SameOutside.abortTransmit _ _ ?_ (by simp [writes, commandBlocks]) ?_
        | (simp only [State.commitAnswer])
        | split
        | exact hb'
  | _ =>
    simp only [exec, execPendingChangeStart, execPendingChangeCancel, execAcceptedEdge, execDescriptorRequest,
      execDescriptorAnswer, execElementWrite, execWriteAnswer, execCloseRequest, execAbandonRequest, execEndGapExpiry,
      execDiscardEndGapExpiry, execStuckLimitExpiry, execBlankClaim, execClaimDrop, execChannelPurge, execMuChannelPart,
      execRunReset, execRunResetTxe, execRunResetLcu, execRunResetPst, execRunResetSdc, execRunResetMu, execRunResetEvq,
      execUndefinedOpcode, execCommandCompletion, execCmdDoneClear, execIrqEnableWrite, execEventThresholdWrite,
      execEventAgeWrite, execEventNext, execTimeLatchRead, execWinSpaceWrite, execWinIndexWrite, execWinOffsetWrite,
      execWinDataRead, execWinDataWrite, execDecoderTakeStart, execTakeRequest, execTakeAnswer, execDecodeEnd,
      execDecodeFinish, execFinishAnswer, execUndecodedAnswer, execHostHoldDrop, execTransmitHoldDrop, execCodeWord,
      execRepeatNotice, execPressAnswer, execExpiry, execLearnTimeout, execAgeEvent, execElementEnd, execGapEnd]
    repeat' split
    all_goals
      refine ⟨_, rfl, ?_⟩
      repeat' first
        | with_reducible exact hr _
        | with_reducible refine SameOutside.storeTook _ _ _ (by simp [writes]) (by simp [writes]) ?_
        | with_reducible refine SameOutside.setLcu _ _ (by simp [writes]) ?_
        | with_reducible refine SameOutside.answerPart _ _ (by simp [writes]) ?_
        | with_reducible refine SameOutside.setPst _ (by simp [writes]) ?_
        | with_reducible refine SameOutside.setSdc _ (by simp [writes]) ?_
        | with_reducible refine SameOutside.setMu _ (by simp [writes]) ?_
        | with_reducible refine SameOutside.setEvq _ (by simp [writes]) ?_
        | with_reducible refine SameOutside.setTxe _ (by simp [writes]) ?_
        | with_reducible refine SameOutside.setEngine _ _ (by simp [writes]) ?_
        | with_reducible refine SameOutside.setBcu _ (by simp [writes]) ?_

/-- A command's next state is the same outside the command's blocks. -/
theorem exec_frame {i : Instr} {s t : State} (h : exec i s = .next t) : SameOutside (writes i) s t := by
  obtain ⟨u, hu, hf⟩ := exec_sameOutside i s
  rw [hu] at h
  cases h
  exact hf

end Sys2Proof.Machine
end

