-- ==== Sys2Proof/Laws/Step.lean ====
section
/-! SUPPORT. What one step can do: idle on an empty queue, or run the front command; so what every command keeps, every step
keeps. -/

namespace Sys2Proof.Machine

/-- A step with a command at the front runs it on the rest of the queue. -/
theorem step_cons {s : State} {c : Instr} {rest : List Instr} (h : s.pending = c :: rest) :
    step s = exec c (s.setPending rest) := by
  unfold step
  rw [h]

/-- A step on an empty queue idles (log 3). -/
theorem step_nil {s : State} (h : s.pending = []) : step s = .next s := by
  unfold step
  rw [h]

/-- Every step answers a next state. -/
theorem step_next (s : State) : ∃ t, step s = .next t := by
  cases h : s.pending with
  | nil => exact ⟨s, step_nil h⟩
  | cons c rest =>
    obtain ⟨t, ht, _⟩ := exec_sameOutside c (s.setPending rest)
    exact ⟨t, (step_cons h).trans ht⟩

/-- What does not depend on the waiting commands and is kept by every command is kept by every step. -/
theorem step_keeps {P : State → Prop} (hp : ∀ s l, P s → P (s.setPending l))
    (he : ∀ i s t, P s → exec i s = .next t → P t) {s t : State} (hs : P s) (h : step s = .next t) : P t := by
  cases hq : s.pending with
  | nil =>
    rw [step_nil hq] at h
    cases h
    exact hs
  | cons c rest =>
    rw [step_cons hq] at h
    exact he c _ t (hp s rest hs) h

end Sys2Proof.Machine
end

