-- ==== Sys2Proof/Laws/Window.lean ====
section
/-! SUPPORT. The command unit: what each of its operations keeps (R193, R198, R202, R203). -/

namespace Sys2Proof.Machine

/-- No error code is 00h (R203). -/
theorem CmdError.code_ne_zero (e : CmdError) : e.code ≠ 0 := by cases e <;> decide

/-- A part's answer keeps the command unit sound. -/
theorem Bcu.sound_answerPart {b : Bcu} (h : b.sound) (p : Part) (a : PartAnswer) : (b.answerPart p a).sound := by
  unfold Bcu.answerPart
  split
  · exact h
  · next f hf =>
    obtain ⟨h1, h2⟩ := h
    rw [hf] at h1
    exact ⟨by simpa using h1, h2⟩

/-- The opcode write keeps the command unit sound (R198, R202). -/
theorem Bcu.sound_writeOpcode {b : Bcu} (h : b.sound) (v : Byte) : (b.writeOpcode v).sound := by
  unfold Bcu.writeOpcode
  split
  · exact h
  · exact ⟨by simp, by simp, by simp, by simp, h.2.2.2.2⟩

/-- A completion keeps the command unit sound (R200, R203). -/
theorem Bcu.sound_complete {b : Bcu} (h : b.sound) (e : Option CmdError) (r : Byte) (c : StagingRecord) :
    (b.complete e r c).sound := by
  obtain ⟨_, h2, h3, _, _, _⟩ := b.landCopy_frame c
  have hw : (b.landCopy c).winOffset ≤ spaceLength (b.landCopy c).winSpace := by
    rw [h2, h3]
    exact h.2.2.2.2
  cases e with
  | none => exact ⟨by simp [Bcu.complete], by simp [Bcu.complete], by simp [Bcu.complete], by simp [Bcu.complete], hw⟩
  | some e =>
    exact ⟨by simp [Bcu.complete], by simp [Bcu.complete], by simp [Bcu.complete],
      fun _ => ⟨e.code_ne_zero, rfl⟩, hw⟩

/-- The offset stays within the space at an access (R193). -/
theorem Bcu.sound_advance {b : Bcu} (h : b.sound) : b.advance.sound := by
  obtain ⟨h1, h2, h3, h4, h5⟩ := h
  refine ⟨h1, h2, h3, h4, ?_⟩
  simp only [Bcu.advance]
  split <;> omega

/-- A write of the status byte keeps the command unit sound. -/
theorem Bcu.sound_writeStatus {b : Bcu} (h : b.sound) (v : Byte) : (b.writeStatus v).sound := by
  obtain ⟨h1, h2, h3, h4, h5⟩ := h
  unfold Bcu.writeStatus
  split
  · exact ⟨h1, fun hc => ⟨rfl, (h2 hc).2⟩, h3, h4, h5⟩
  · exact ⟨h1, h2, h3, h4, h5⟩

/-- A staged byte keeps the command unit sound. -/
theorem Bcu.sound_stageByte {b : Bcu} (h : b.sound) (v : Byte) : (b.stageByte v).sound := by
  unfold Bcu.stageByte
  dsimp only
  split <;> exact h

/-- An argument byte keeps the command unit sound. -/
theorem Bcu.sound_writeArg {b : Bcu} (h : b.sound) (a : BitVec 6) (v : Byte) : (b.writeArg a v).sound := by
  unfold Bcu.writeArg
  split <;> exact h

/-- A selection of a space or an index rewinds the offset (R192). -/
theorem Bcu.sound_writeSpace {b : Bcu} (h : b.sound) (v : Byte) : (b.writeSpace v).sound :=
  ⟨h.1, h.2.1, h.2.2.1, h.2.2.2.1, Nat.zero_le _⟩

theorem Bcu.sound_writeIndex {b : Bcu} (h : b.sound) (v : Byte) : (b.writeIndex v).sound :=
  ⟨h.1, h.2.1, h.2.2.1, h.2.2.2.1, Nat.zero_le _⟩

/-- A written offset is limited to the space (R193). -/
theorem Bcu.sound_writeOffset {b : Bcu} (h : b.sound) (high : Bool) (v : Byte) : (b.writeOffset high v).sound :=
  ⟨h.1, h.2.1, h.2.2.1, h.2.2.2.1, Nat.min_le_right _ _⟩

/-- The command unit after pin reset is sound. -/
theorem Bcu.sound_reset : Bcu.reset.sound := by
  refine ⟨by decide, by decide, by decide, by decide, by decide⟩

/-- A submission does not touch the command unit. -/
theorem State.submit_bcu {s t : State} {r : Vector Byte 21} {tag : Byte} (h : s.submit r = .ok (t, tag)) : t.bcu = s.bcu := by
  have := SameOutside.submit (bs := [.pst, .txe]) (by simp) (by simp) (.refl _ s) h
  exact this.bcu (by simp)

/-- Stopping and aborting do not touch the command unit. -/
@[simp] theorem State.bcu_stopOutput (s : State) (o : Output) : (s.stopOutput o).bcu = s.bcu :=
  (SameOutside.stopOutput (bs := .txe :: lineBlocks) o (fun c => List.mem_cons_of_mem _ (SameOutside.lineBlock c)) (by simp)
    (.refl _ s)).bcu (by decide)

@[simp] theorem State.bcu_abortTransmit (s : State) (o : Output) (purge : Bool) : (s.abortTransmit o purge).bcu = s.bcu :=
  (SameOutside.abortTransmit (bs := .txe :: lineBlocks) o purge (fun c => List.mem_cons_of_mem _ (SameOutside.lineBlock c))
    (by simp) (.refl _ s)).bcu (by decide)

end Sys2Proof.Machine
end

