-- ==== Sys2Proof/Laws/Decoding.lean ====
section
/-! SUPPORT. What no command but one brings about: RUN_RESET's way from the store to the decoder begins with the store's part
(R47, R200), and a descriptor becomes DECODING with a take request (R35). -/

namespace Sys2Proof.Machine

/-! ## RUN_RESET between the store and the decoder -/

/-- RUN_RESET's part is on its way from the store to the decoder. -/
def Bcu.pastStore (b : Bcu) : Prop :=
  ∃ f, b.inFlight = some f ∧ f.cmd = some .runReset ∧ .sdc ∈ f.parts ∧ .pst ∉ f.parts

/-- It is on its way exactly while the decoder's part waits and the store's does not. -/
theorem State.pastStore_iff (s : State) : s.bcu.pastStore ↔ .sdc ∈ s.resetParts ∧ .pst ∉ s.resetParts := by
  unfold Bcu.pastStore State.resetParts State.inFlightAs
  cases h : s.bcu.inFlight with
  | none => simp
  | some f =>
    by_cases hc : f.cmd = some .runReset
    · simp [Option.filter, hc]
    · simp [Option.filter, hc]

/-- The commands in flight of two command units are the same. -/
theorem Bcu.pastStore_of {b c : Bcu} (h : c.inFlight = b.inFlight) (hc : c.pastStore) : b.pastStore := by
  unfold Bcu.pastStore at hc ⊢
  rwa [h] at hc

theorem Bcu.pastStore_answerPart {b : Bcu} {p : Part} {a : PartAnswer} (hp : p ≠ .pst) (h : (b.answerPart p a).pastStore) :
    b.pastStore := by
  unfold Bcu.answerPart at h
  split at h
  · exact h
  · next f hf =>
    obtain ⟨g, hg, hc, h1, h2⟩ := h
    cases hg
    exact ⟨f, hf, hc, List.mem_of_mem_erase h1, fun hm => h2 ((List.mem_erase_of_ne (Ne.symm hp)).2 hm)⟩

/-- A command that is accepted has its store part still to come, if it is a RUN_RESET. -/
theorem Bcu.pastStore_writeOpcode {b : Bcu} {v : Byte} (h : (b.writeOpcode v).pastStore) : b.pastStore := by
  unfold Bcu.writeOpcode at h
  split at h
  · exact h
  · obtain ⟨g, hg, hc, h1, h2⟩ := h
    simp only [Option.some.injEq] at hg
    subst hg
    simp only at hc h2
    rw [hc] at h2
    simp [commandParts] at h2

theorem Bcu.pastStore_complete {b : Bcu} {e : Option CmdError} {r : Byte} {c : StagingRecord} :
    ¬(b.complete e r c).pastStore := by
  rintro ⟨g, hg, _⟩
  cases hg

/-- While another command than RUN_RESET is in flight, no part of RUN_RESET is on its way. -/
def Bcu.flies (b : Bcu) (cmd : Cmd) : Prop := ∃ f, b.inFlight = some f ∧ f.cmd = some cmd

theorem Bcu.flies_answerPart {b : Bcu} {cmd : Cmd} (h : b.flies cmd) (p : Part) (a : PartAnswer) : (b.answerPart p a).flies cmd := by
  obtain ⟨f, hf, hc⟩ := h
  exact ⟨_, congrArg Bcu.inFlight (Bcu.answerPart_some p a hf), hc⟩

theorem Bcu.flies_not {b : Bcu} {cmd : Cmd} (h : b.flies cmd) (hc : cmd ≠ .runReset) : ¬b.pastStore := by
  rintro ⟨g, hg, hr, _⟩
  obtain ⟨f, hf, hf'⟩ := h
  rw [hg] at hf
  cases hf
  rw [hr] at hf'
  exact hc (Option.some.inj hf').symm

/-- A command but RUN_RESET that is taken leaves nothing on RUN_RESET's way that was not there. -/
theorem State.pastStore_takeCommand {s : State} {cmd : Cmd} {owner : InFlight → State} (hc : cmd ≠ .runReset)
    (ho : ∀ f, s.bcu.flies cmd → (owner f).bcu.flies cmd) (h : (s.takeCommand cmd owner).bcu.pastStore) : s.bcu.pastStore := by
  rcases s.takeCommand_cases cmd owner with e | ⟨_, e⟩ | ⟨f, hf, hk, _, e⟩ <;> rw [e] at h
  · exact h
  · exact absurd h Bcu.pastStore_complete
  · exact absurd h (Bcu.flies_not (ho f ⟨f, hf, hk⟩) hc)

/-- No command but the store's part of RUN_RESET puts it on its way from the store to the decoder. -/
theorem exec_pastStore {i : Instr} {s t : State} (hi : i ≠ .runResetPst) (he : exec i s = .next t) (h : t.bcu.pastStore) :
    s.bcu.pastStore := by
  by_cases hb : Block.bcu ∈ writes i
  swap
  · rw [(exec_frame he).bcu hb] at h; exact h
  cases i with
  | runResetPst => exact absurd rfl hi
  | pinReset => cases he; obtain ⟨f, hf, _⟩ := h; cases hf
  | channelPurge c =>
    simp only [exec, execChannelPurge] at he
    split at he <;> cases he
    · rw [State.bcu_answerPart, State.bcu_storeTook] at h
      exact Bcu.pastStore_answerPart (by simp) h
    · exact h
  | muChannelPart =>
    simp only [exec, execMuChannelPart] at he
    repeat' split at he
    all_goals cases he
    all_goals first | exact h | (rw [State.bcu_answerPart, State.bcu_setMu] at h; exact Bcu.pastStore_answerPart (by simp) h)
  | runReset => cases he; exact Bcu.pastStore_writeOpcode h
  | runResetTxe | runResetLcu | runResetSdc | runResetMu | runResetEvq =>
    simp only [exec, execRunResetTxe, execRunResetLcu, execRunResetSdc, execRunResetMu, execRunResetEvq] at he
    split at he <;> cases he
    · rw [State.bcu_answerPart] at h
      exact Bcu.pastStore_answerPart (by simp) h
    · exact h
  | undefinedOpcode p =>
    cases p
    · cases he; exact Bcu.pastStore_writeOpcode h
    · simp only [exec, execUndefinedOpcode] at he
      repeat' split at he
      all_goals cases he
      all_goals first | exact h | exact absurd h Bcu.pastStore_complete
  | commandCompletion =>
    simp only [exec, execCommandCompletion] at he
    repeat' split at he
    all_goals cases he
    all_goals first | exact h | exact absurd h Bcu.pastStore_complete
  | cmdDoneClear v =>
    cases he
    refine Bcu.pastStore_of ?_ h
    show (s.bcu.writeStatus v).inFlight = _
    unfold Bcu.writeStatus; split <;> rfl
  | irqEnableWrite v => cases he; exact h
  | timeLatchRead => cases he; exact h
  | winSpaceWrite v => cases he; exact h
  | winIndexWrite v => cases he; exact h
  | winOffsetWrite hh v => cases he; exact h
  | winDataRead => cases he; exact h
  | winDataWrite v =>
    cases he
    refine Bcu.pastStore_of ?_ h
    show (s.bcu.stageByte v).inFlight = _
    unfold Bcu.stageByte; dsimp only; split <;> rfl
  | registerWrite a v =>
    simp only [exec, execRegisterWrite] at he
    split at he <;> cases he
    all_goals first
      | exact h
      | exact Bcu.pastStore_writeOpcode h
      | (refine Bcu.pastStore_of ?_ h
         show (s.bcu.writeStatus v).inFlight = _
         unfold Bcu.writeStatus; split <;> rfl)
      | (refine Bcu.pastStore_of ?_ h
         show (s.bcu.stageByte v).inFlight = _
         unfold Bcu.stageByte; dsimp only; split <;> rfl)
      | (refine Bcu.pastStore_of ?_ h
         show (s.bcu.writeArg a v).inFlight = _
         unfold Bcu.writeArg; split <;> rfl)
  | countersClear p | channelSet p | channelGet p | channelEnable p | channelDisable p | channelFlush p | profileCommit p
  | profileRead p | profileClear p | entryCommit p | entryRead p | entryClear p | tableClear p | burstRelease p | learnStart p
  | learnAbort p | learnCommit p | learnDiscard p | txStop p | txAbort p =>
    cases p
    · cases he; exact Bcu.pastStore_writeOpcode h
    all_goals
      cases he
      revert h
      refine State.pastStore_takeCommand (by simp) (fun f hf => ?_)
      repeat' first
        | with_reducible exact hf
        | with_reducible refine State.lcuPart_induct (P := fun t => t.bcu.flies _) hf (fun c _ => ?_)
        | with_reducible refine State.ownerPart_induct (P := fun t => t.bcu.flies _) hf ?_
        | with_reducible refine State.matchPart_induct (P := fun t => t.bcu.flies _) hf (fun _ => ?_)
        | with_reducible refine State.afterMatchRead_induct (P := fun t => t.bcu.flies _) hf ?_
        | (simp only [State.commitAnswer])
        | split
        | (simp only [State.bcu_answerPart, State.bcu_setLcu, State.bcu_setMu, State.bcu_setSdc, State.bcu_setPst,
            State.bcu_stopOutput, State.bcu_abortTransmit]
           exact Bcu.flies_answerPart hf _ _)
  | txSubmit p =>
    cases p
    · cases he; exact Bcu.pastStore_writeOpcode h
    · cases he
      revert h
      refine State.pastStore_takeCommand (by simp) (fun f hf => ?_)
      split
      · refine State.ownerPart_induct (P := fun t => t.bcu.flies _) hf
          (State.afterMatchRead_induct (P := fun t => t.bcu.flies _) hf ?_)
        split
        · exact Bcu.flies_answerPart hf _ _
        · next e =>
          have := ((SameOutside.refl [.pst, .txe] s).submit (by simp) (by simp) e).bcu (by simp)
          refine Bcu.flies_answerPart ?_ _ _
          rw [this]; exact hf
      all_goals exact hf
  | append x => cases x <;> simp [writes, senderBlock] at hb
  | _ => simp [writes, lineBlocks] at hb

/-! ## DECODING -/

/-- Every descriptor that is DECODING in the second store was so in the first. -/
def PulseStore.NoneTaken (p q : PulseStore) : Prop :=
  ∀ h, (q.descriptor h).state = .decoding → (p.descriptor h).state = .decoding

namespace PulseStore.NoneTaken

theorem refl (p : PulseStore) : p.NoneTaken p := fun _ h => h

theorem trans {p q r : PulseStore} (h : p.NoneTaken q) (k : q.NoneTaken r) : p.NoneTaken r := fun x hx => h x (k x hx)

theorem set (p : PulseStore) (h : Handle) {d : Descriptor} (hd : d.state = .decoding → (p.descriptor h).state = .decoding) :
    p.NoneTaken (p.setDescriptor h d) := by
  intro k hk
  rw [PulseStore.descriptor_setDescriptor] at hk
  split at hk
  · next e => rw [e]; exact hd hk
  · exact hk

theorem free (p : PulseStore) (h : Handle) : p.NoneTaken (p.free h) := by
  have : p.NoneTaken (p.setDescriptor h .freed) := set p h (fun e => by cases e)
  exact this

theorem write (p : PulseStore) (c : Channel) (h : Handle) (k : Nat) (d : Half) (pick : BlockNo) :
    p.NoneTaken (p.write c h k d pick).1 := by
  have place : ∀ (q : PulseStore) (b : BlockNo), p.NoneTaken q → p.NoneTaken (q.place h b k d) := fun q b hq =>
    hq.trans (fun x hx => set q h (d := { q.descriptor h with count := (q.descriptor h).count + 1 }) (fun e => e) x hx)
  have grant : ∀ b, p.NoneTaken (p.grantBlock h b) := fun b x hx =>
    set p h (d := { p.descriptor h with blocks := (p.descriptor h).blocks ++ [b] }) (fun e => e) x hx
  unfold PulseStore.write
  repeat' split
  all_goals first | exact refl p | exact place _ _ (grant _) | exact place _ _ (refl p)

theorem close (p : PulseStore) (c : Channel) (h : Handle) (t : Time) : p.NoneTaken (p.close c h t) := by
  unfold PulseStore.close
  split
  · exact fun x hx => set p h (d := { p.descriptor h with state := .queued, closeTime := t }) (fun e => by cases e) x hx
  · exact refl p

theorem abandon (p : PulseStore) (c : Channel) (h : Handle) : p.NoneTaken (p.abandon c h) := by
  unfold PulseStore.abandon
  split
  · exact free p h
  · exact refl p

theorem purge (p : PulseStore) (c : Channel) : p.NoneTaken (p.purge c) := by
  have one : ∀ (q : PulseStore) h, q.NoneTaken (q.purgeOne c h) := fun q h => by
    unfold PulseStore.purgeOne
    simp only
    repeat' split
    all_goals first
      | exact refl q
      | exact fun x hx => free q h x hx
      | exact set q h (fun _ => by assumption)
  unfold PulseStore.purge
  generalize List.finRange 16 = hs
  induction hs generalizing p with
  | nil => exact refl p
  | cons h hs ih => exact (one p h).trans (ih _)

theorem finish (p : PulseStore) (h : Handle) (d : Disposition) : p.NoneTaken (p.finish h d).1 := by
  unfold PulseStore.finish
  repeat' split
  all_goals first | exact refl p | exact free p h | exact set p h (fun e => by cases e)

theorem dropHostHold (p : PulseStore) (h : Handle) : p.NoneTaken (p.dropHostHold h) := by
  unfold PulseStore.dropHostHold
  repeat' split
  all_goals first | exact refl p | exact free p h | exact set p h (fun e => e)

theorem dropTransmitHold (p : PulseStore) (h : Handle) : p.NoneTaken (p.dropTransmitHold h) := by
  unfold PulseStore.dropTransmitHold
  simp only
  repeat' split
  all_goals first | exact refl p | exact free p h | exact set p h (fun e => e)

theorem addTransmitHold (p : PulseStore) (h : Handle) : p.NoneTaken (p.addTransmitHold h).1 := by
  unfold PulseStore.addTransmitHold
  repeat' split
  all_goals first | exact refl p | exact set p h (fun e => e)

theorem reset (p : PulseStore) (m : Memory) : p.NoneTaken { PulseStore.reset with slots := m } := by
  intro h hh
  have : ({ PulseStore.reset with slots := m } : PulseStore).descriptor h = .freed := by
    simp [PulseStore.descriptor, PulseStore.reset]
  rw [this] at hh
  cases hh

end PulseStore.NoneTaken

theorem State.noneTaken_submit {s u : State} {r : Vector Byte 21} {tag : Byte} (h : s.submit r = .ok (u, tag)) :
    s.pst.NoneTaken u.pst := by
  unfold State.submit at h
  split at h
  · cases h
  · split at h
    · cases h
    · split at h
      · cases h
      · next p hp =>
        cases h
        unfold State.checkSource at hp
        split at hp
        · split at hp <;> cases hp
          exact .refl _
        · dsimp only at hp
          split at hp
          · split at hp <;> cases hp
            exact .refl _
          · cases hp
        · split at hp <;> cases hp
          next h _ _ hq =>
            have := PulseStore.NoneTaken.addTransmitHold s.pst h
            rw [hq] at this
            exact this

/-- No command but a take request makes a descriptor DECODING. -/
theorem exec_noneTaken {i : Instr} {s t : State} (hi : i ≠ .takeRequest) (he : exec i s = .next t) : s.pst.NoneTaken t.pst := by
  by_cases hb : Block.pst ∈ writes i
  swap
  · rw [(exec_frame he).pst hb]; exact .refl _
  have take : ∀ cmd owner, (∀ f, s.pst.NoneTaken (owner f : State).pst) → s.pst.NoneTaken (s.takeCommand cmd owner).pst :=
    fun cmd owner ho => State.takeCommand_induct (P := fun t => s.pst.NoneTaken t.pst) (.refl _) (fun _ => .refl _) ho
  cases i with
  | takeRequest => exact absurd rfl hi
  | pinReset => cases he; exact .reset _ []
  | descriptorRequest c =>
    simp only [exec, execDescriptorRequest] at he
    repeat' split at he
    all_goals cases he
    · rw [State.pst_storeTook]; exact PulseStore.NoneTaken.set _ _ (fun e => by cases e)
    all_goals exact .refl _
  | elementWrite c pick =>
    simp only [exec, execElementWrite] at he
    split at he <;> cases he
    · rw [State.pst_storeTook]; exact .write _ _ _ _ _ _
    · exact .refl _
  | closeRequest c =>
    simp only [exec, execCloseRequest] at he
    split at he <;> cases he
    · rw [State.pst_storeTook]; exact .close _ _ _ _
    · exact .refl _
  | abandonRequest c =>
    simp only [exec, execAbandonRequest] at he
    split at he <;> cases he
    · rw [State.pst_storeTook]; exact .abandon _ _ _
    · exact .refl _
  | channelPurge c =>
    simp only [exec, execChannelPurge] at he
    split at he <;> cases he
    · rw [State.pst_answerPart, State.pst_storeTook]; exact .purge _ _
    · exact .refl _
  | decodeFinish =>
    simp only [exec, execDecodeFinish] at he
    repeat' split at he
    all_goals cases he
    · rw [State.pst_setSdc, State.pst_setPst]; exact .finish _ _ _
    · exact .refl _
  | hostHoldDrop h =>
    simp only [exec, execHostHoldDrop] at he
    split at he <;> cases he
    · rw [State.pst_setSdc, State.pst_setPst]; exact .dropHostHold _ _
    · exact .refl _
  | transmitHoldDrop h =>
    simp only [exec, execTransmitHoldDrop] at he
    split at he <;> cases he
    · rw [State.pst_setTxe, State.pst_setPst]; exact .dropTransmitHold _ _
    · exact .refl _
  | runResetPst =>
    simp only [exec, execRunResetPst] at he
    split at he <;> cases he
    · rw [State.pst_answerPart, State.pst_setTxe, State.pst_setSdc, State.pst_setPst]; exact .reset _ _
    · exact .refl _
  | burstRelease p =>
    cases p <;> cases he
    · exact .refl _
    · refine take _ _ fun f => ?_
      split
      · refine State.ownerPart_induct (P := fun t => s.pst.NoneTaken t.pst) (.refl _) ?_
        split
        · rw [State.pst_answerPart, State.pst_setPst]; exact .dropHostHold _ _
        · exact .refl _
      · exact .refl _
  | txSubmit p =>
    cases p <;> cases he
    · exact .refl _
    · refine take _ _ fun f => ?_
      split
      · refine State.ownerPart_induct (P := fun t => s.pst.NoneTaken t.pst) (.refl _)
          (State.afterMatchRead_induct (P := fun t => s.pst.NoneTaken t.pst) (.refl _) ?_)
        split
        · exact .refl _
        · next e => rw [State.pst_answerPart]; exact State.noneTaken_submit e
      all_goals exact .refl _
  | append x => cases x <;> simp [writes, senderBlock] at hb
  | countersClear p => cases p <;> simp [writes, lineBlocks] at hb
  | channelSet p | channelGet p | channelEnable p | channelDisable p | channelFlush p | profileCommit p
  | profileRead p | profileClear p | entryCommit p | entryRead p | entryClear p | tableClear p | learnStart p
  | learnAbort p | learnCommit p | learnDiscard p | txStop p | txAbort p =>
    cases p <;> simp [writes, commandBlocks, lineBlocks] at hb
  | _ => simp [writes, lineBlocks] at hb

end Sys2Proof.Machine
end

