-- ==== Sys2Proof/Laws/Keys.lean ====
section
/-! SUPPORT. What the operations on key records leave alone (Chapter 5): the code table, the learning session, the divert, and
every channel that has no record, but for the channel of the frame. -/

namespace Sys2Proof.Machine

/-- The code table, the divert and the session are the same, and no channel but the given one gets a record it did not have. -/
structure KeysOnly (c : Option Channel) (m n : MatchUnit) : Prop where
  table : n.table = m.table
  divert : n.divert = m.divert
  learn : n.learn = m.learn
  absent : ∀ d, c ≠ some d → m.key d = none → n.key d = none

namespace KeysOnly

theorem refl (c : Option Channel) (m : MatchUnit) : KeysOnly c m m := ⟨rfl, rfl, rfl, fun _ _ h => h⟩

theorem trans {c : Option Channel} {m n k : MatchUnit} (h : KeysOnly c m n) (g : KeysOnly c n k) : KeysOnly c m k :=
  ⟨g.table.trans h.table, g.divert.trans h.divert, g.learn.trans h.learn, fun d hd hk => g.absent d hd (h.absent d hd hk)⟩

theorem of_keys {m n : MatchUnit} (c : Option Channel) (ht : n.table = m.table) (hd : n.divert = m.divert)
    (hl : n.learn = m.learn) (hk : n.keys = m.keys) : KeysOnly c m n :=
  ⟨ht, hd, hl, fun d _ h => by
    unfold MatchUnit.key at h ⊢
    rw [hk]
    exact h⟩

theorem setKey_none (c : Option Channel) (m : MatchUnit) (d : Channel) : KeysOnly c m (m.setKey d none) :=
  ⟨rfl, rfl, rfl, fun e _ h => by
    rw [MatchUnit.key_setKey]
    split
    · rfl
    · exact h⟩

theorem setKey (m : MatchUnit) (c : Channel) (k : Option KeyRecord) : KeysOnly (some c) m (m.setKey c k) :=
  ⟨rfl, rfl, rfl, fun e he h => by
    rw [MatchUnit.key_setKey]
    split
    · next hec => exact absurd (congrArg some hec.symm) he
    · exact h⟩

theorem send (c : Option Channel) (m : MatchUnit) (a : Append) : KeysOnly c m (m.send a) := of_keys c rfl rfl rfl rfl

theorem count (c : Option Channel) (m : MatchUnit) (d : Channel) (f : MatchCounters → MatchCounters) :
    KeysOnly c m (m.count d f) := of_keys c rfl rfl rfl rfl

theorem removeKey (c : Option Channel) (m : MatchUnit) (d : Channel) (reason : ReleaseReason) (stamp : Time) :
    KeysOnly c m (m.removeKey d reason stamp) := by
  unfold MatchUnit.removeKey
  split
  · exact refl c m
  · split
    · exact (send c m _).trans (setKey_none c _ d)
    · exact setKey_none c m d

theorem countUnconfirmed (c : Option Channel) (m : MatchUnit) (d : Channel) : KeysOnly c m (m.countUnconfirmed d) := by
  unfold MatchUnit.countUnconfirmed
  split
  · split
    · exact count c m d _
    · exact refl c m
  · exact refl c m

theorem foldl {α : Type} (c : Option Channel) (f : MatchUnit → α → MatchUnit) (hf : ∀ m x, KeysOnly c m (f m x)) (xs : List α)
    (m : MatchUnit) : KeysOnly c m (xs.foldl f m) := by
  induction xs generalizing m with
  | nil => exact refl c m
  | cons x xs ih => exact (hf m x).trans (ih (f m x))

theorem removeIfEntry (c : Option Channel) (m : MatchUnit) (i : EntryNo) (stamp : Time) (d : Channel) :
    KeysOnly c m (m.removeIfEntry i stamp d) := by
  unfold MatchUnit.removeIfEntry
  split
  · split
    · exact removeKey c m d _ _
    · exact refl c m
  · exact refl c m

theorem entryChanged (c : Option Channel) (m : MatchUnit) (i : EntryNo) (stamp : Time) : KeysOnly c m (m.entryChanged i stamp) :=
  foldl c _ (fun m d => removeIfEntry c m i stamp d) allChannels m

theorem tableCleared (c : Option Channel) (m : MatchUnit) (stamp : Time) : KeysOnly c m (m.tableCleared stamp) :=
  foldl c _ (fun m d => removeKey c m d _ _) allChannels m

theorem excludeGroup (c : Option Channel) (m : MatchUnit) (d : Channel) (g : Nat) (now : Time) :
    KeysOnly c m (m.excludeGroup d g now) := by
  unfold MatchUnit.excludeGroup
  split
  · exact refl c m
  · refine foldl c _ (fun m e => ?_) allChannels m
    unfold MatchUnit.excludeOne
    split
    · exact refl c m
    · split
      · split
        · exact removeKey c m e _ _
        · exact refl c m
      · exact refl c m

theorem reachPressed (m : MatchUnit) (c : Channel) (r : KeyRecord) (f : FrameArrival) :
    KeysOnly (some c) m (m.reachPressed c r f) := by
  unfold MatchUnit.reachPressed
  exact ((setKey m c _).trans (excludeGroup _ _ c r.group f.now)).trans (of_keys _ rfl rfl rfl rfl)

theorem confirm (m : MatchUnit) (c : Channel) (r : KeyRecord) (f : FrameArrival) : KeysOnly (some c) m (m.confirm c r f) := by
  unfold MatchUnit.confirm
  split
  · exact reachPressed m c r f
  · exact setKey m c _

theorem createKey (m : MatchUnit) (c : Channel) (i : EntryNo) (e : Entry) (f : FrameArrival) :
    KeysOnly (some c) m (m.createKey c i e f) := by
  unfold MatchUnit.createKey
  simp only
  split
  · exact confirm m c _ f
  · exact ((setKey m c _).trans (excludeGroup _ _ c _ f.now)).trans (send _ _ _)

theorem refreshKey (m : MatchUnit) (c : Channel) (r : KeyRecord) (f : FrameArrival) :
    KeysOnly (some c) m (m.refreshKey c r f) := by
  unfold MatchUnit.refreshKey
  simp only
  split
  · exact confirm m c _ f
  · split
    · exact (setKey m c _).trans (send _ _ _)
    · exact setKey m c _
  · exact (setKey m c _).trans (send _ _ _)

theorem winningFrame (m : MatchUnit) (c : Channel) (i : EntryNo) (f : FrameArrival) :
    KeysOnly (some c) m (m.winningFrame c i f) := by
  unfold MatchUnit.winningFrame
  split
  · exact createKey m c i _ f
  · split
    · split
      · exact refreshKey m c _ f
      · exact ((countUnconfirmed _ m c).trans (removeKey _ _ c _ _)).trans (createKey _ c i _ f)
    · exact ((countUnconfirmed _ m c).trans (removeKey _ _ c _ _)).trans (createKey _ c i _ f)

theorem takeNotice (m : MatchUnit) (n : Notice) (f : FrameArrival) : KeysOnly (some n.channel) m (m.takeNotice n f) := by
  unfold MatchUnit.takeNotice
  simp only
  split
  · split
    · exact refreshKey m n.channel _ f
    · exact count _ m n.channel _
  · exact count _ m n.channel _

theorem lookup (m : MatchUnit) (w : CodeWord) (report : Bool) (now deadline : Time) :
    KeysOnly (some w.channel) m (m.lookup w report now deadline) := by
  unfold MatchUnit.lookup
  split
  · simp only
    split
    · exact (count _ m w.channel _).trans (send _ _ _)
    · exact count _ m w.channel _
  · exact (count _ m w.channel _).trans (winningFrame _ w.channel _ _)

theorem expire (c : Option Channel) (m : MatchUnit) (d : Channel) (deadline : Time) : KeysOnly c m (m.expire d deadline) :=
  (countUnconfirmed c m d).trans (removeKey c _ d _ _)

theorem pressAnswered (c : Option Channel) (m : MatchUnit) (d : Channel) (admitted : Bool) :
    KeysOnly c m (m.pressAnswered d admitted) := by
  unfold MatchUnit.pressAnswered
  simp only
  split
  · split
    · next r hr =>
      refine ⟨rfl, rfl, rfl, fun e _ h => ?_⟩
      rw [MatchUnit.key_setKey]
      split
      · next hed =>
        have hn : m.key d = none := hed ▸ h
        have hs : m.key d = some r := hr
        rw [hn] at hs
        cases hs
      · exact h
    · exact of_keys c rfl rfl rfl rfl
  · exact of_keys c rfl rfl rfl rfl

theorem tickHeld (c : Option Channel) (m : MatchUnit) : KeysOnly c m m.tickHeld :=
  ⟨rfl, rfl, rfl, fun d _ h => by
    unfold MatchUnit.key at h
    simp [MatchUnit.key, MatchUnit.tickHeld, h]⟩

end KeysOnly

/-- A refresh of a channel that has a record brings no record to another, nor does a notice to its own channel without one. -/
theorem MatchUnit.key_takeNotice_none {m : MatchUnit} {n : Notice} {f : FrameArrival} {d : Channel} (h : m.key d = none) :
    (m.takeNotice n f).key d = none := by
  by_cases hd : n.channel = d
  · unfold MatchUnit.takeNotice
    rw [hd, h]
    exact (KeysOnly.count none m d _).absent d (by simp) h
  · exact (KeysOnly.takeNotice m n f).absent d (by simpa using hd) h

end Sys2Proof.Machine
end

