-- ==== Sys2Proof/Laws/Lines.lean ====
section
/-! SUPPORT. What the operations of a Line Capture Unit leave alone: its settings (R3), and the agreement of its blank count with
its capture state (R16). -/

namespace Sys2Proof.Machine

namespace Lcu

/-! ## Settings -/

theorem settings_settle (l : Lcu) : l.settle.settings = l.settings := rfl

theorem settings_takeSample (l : Lcu) (x : Sample) : (l.takeSample x).settings = l.settings := by
  unfold Lcu.takeSample
  split <;> rfl

theorem settings_abandonBurst (l : Lcu) : l.abandonBurst.settings = l.settings := by
  unfold Lcu.abandonBurst
  split <;> rfl

theorem settings_closeBurst (l : Lcu) : l.closeBurst.settings = l.settings := by
  unfold Lcu.closeBurst
  split <;> rfl

theorem settings_goStuck (l : Lcu) (c : Channel) : (l.goStuck c).settings = l.settings := by
  unfold Lcu.goStuck
  split
  · rfl
  · simp only
    split <;> exact settings_abandonBurst l

theorem settings_takeExpiry (l : Lcu) (c : Channel) : (l.takeExpiry c).settings = l.settings := by
  unfold Lcu.takeExpiry
  split
  · exact settings_goStuck l c
  · split <;> first | exact settings_closeBurst l | rfl

theorem settings_countGlitch (l : Lcu) : l.countGlitch.settings = l.settings := by
  unfold Lcu.countGlitch
  split <;> rfl

theorem settings_endElement (l : Lcu) (edge accepted : Time) : (l.endElement edge accepted).settings = l.settings := by
  unfold Lcu.endElement
  split
  · exact settings_abandonBurst l
  · split <;> rfl

theorem settings_handleEdge (l : Lcu) (edge accepted now : Time) : (l.handleEdge edge accepted now).settings = l.settings := by
  unfold Lcu.handleEdge
  split
  · split <;> rfl
  · exact settings_endElement l edge accepted
  · rfl
  · split <;> rfl
  · rfl
  · rfl

theorem settings_takeClaim (l : Lcu) : l.takeClaim.settings = l.settings := by
  unfold Lcu.takeClaim
  simp only
  split
  · split <;> first | exact settings_abandonBurst _ | rfl
  · rfl

theorem settings_takeDrop (l : Lcu) (now : Time) : (l.takeDrop now).settings = l.settings := by
  unfold Lcu.takeDrop
  simp only
  split <;> rfl

theorem settings_applySettings (l : Lcu) (x : Settings) (now : Time) : (l.applySettings x now).settings = x := by
  unfold Lcu.applySettings
  simp only
  split
  · split <;> rfl
  · rfl

theorem settings_enable (l : Lcu) (now : Time) : (l.enable now).settings = l.settings := by
  unfold Lcu.enable
  split
  · split <;> rfl
  · rfl

theorem settings_disable (l : Lcu) : l.disable.settings = l.settings := by
  unfold Lcu.disable
  simp only
  split
  · rfl
  · exact settings_abandonBurst l

theorem settings_flush (l : Lcu) (now : Time) : (l.flush now).settings = l.settings := by
  unfold Lcu.flush
  simp only
  split
  · rfl
  · split <;> exact settings_abandonBurst l

theorem settings_runReset (l : Lcu) (now : Time) : (l.runReset now).settings = l.settings := by
  unfold Lcu.runReset
  simp only
  split <;> rfl

/-! ## The blank count -/

/-- The agreement depends on the blank count, the capture state and the request waited for alone. -/
theorem blankSound_of {l m : Lcu} (h : l.blankSound) (hb : m.blankCount = l.blankCount) (hc : m.capture = l.capture)
    (hw : m.waiting = l.waiting) : m.blankSound := by
  unfold Lcu.blankSound
  rw [hb, hc, hw]
  exact h

theorem blankSound_reset : Lcu.reset.blankSound := by
  refine ⟨by decide, by decide, by decide, by decide⟩

theorem blankSound_settle {l : Lcu} (h : l.blankSound) : l.settle.blankSound := blankSound_of h rfl rfl rfl

theorem blankSound_takeSample {l : Lcu} (h : l.blankSound) (x : Sample) : (l.takeSample x).blankSound := by
  unfold Lcu.takeSample
  split <;> exact blankSound_of h rfl rfl rfl

theorem blankCount_abandonBurst (l : Lcu) : l.abandonBurst.blankCount = l.blankCount := by
  unfold Lcu.abandonBurst
  split <;> rfl

theorem capture_abandonBurst (l : Lcu) : l.abandonBurst.capture = l.capture := by
  unfold Lcu.abandonBurst
  split <;> rfl

theorem waiting_abandonBurst (l : Lcu) : l.abandonBurst.waiting = l.waiting := by
  unfold Lcu.abandonBurst
  split <;> rfl

/-- A channel that captures holds no claim. -/
theorem blankCount_capturing {l : Lcu} (h : l.blankSound) (hl : l.capture ≠ .blanked) (hd : l.capture ≠ .disabled) :
    l.blankCount = 0 := by
  refine Nat.eq_zero_of_not_pos fun hp => ?_
  rcases h.2.1 hp with h1 | h1
  · exact hl h1
  · exact hd h1

/-- A channel that captures may go to any state but BLANKED without a claim. -/
theorem blankSound_move {l m : Lcu} (h : l.blankSound) (hl : l.capture ≠ .blanked) (hd : l.capture ≠ .disabled)
    (hb : m.blankCount = l.blankCount) (hc : m.capture ≠ .blanked) (hw : m.waiting = none) : m.blankSound := by
  have hz : m.blankCount = 0 := hb.trans (blankCount_capturing h hl hd)
  exact ⟨by omega, fun hp => by omega, fun hx => absurd hx hc, fun hx => absurd hw hx⟩

theorem blankSound_countGlitch {l : Lcu} (h : l.blankSound) : l.countGlitch.blankSound := by
  unfold Lcu.countGlitch
  split <;> exact blankSound_of h rfl rfl rfl

theorem blankSound_closeBurst {l : Lcu} (h : l.blankSound) (ho : l.capture = .opened) (hw : l.waiting = none) :
    l.closeBurst.blankSound := by
  unfold Lcu.closeBurst
  split <;> exact blankSound_move h (by simp [ho]) (by simp [ho]) rfl (by simp) hw

theorem blankSound_goStuck {l : Lcu} (h : l.blankSound) (hw : l.waiting = none) (c : Channel) : (l.goStuck c).blankSound := by
  unfold Lcu.goStuck
  split
  · exact h
  · next start hs =>
    have hc : l.capture ≠ .blanked ∧ l.capture ≠ .disabled := by
      cases hc : l.capture <;> simp [Lcu.timedFrom, hc] at hs ⊢
    simp only
    split <;>
      exact blankSound_move h hc.1 hc.2 (blankCount_abandonBurst l) (by simp) ((waiting_abandonBurst l).trans hw)

theorem blankSound_takeExpiry {l : Lcu} (h : l.blankSound) (hw : l.waiting = none) (c : Channel) :
    (l.takeExpiry c).blankSound := by
  unfold Lcu.takeExpiry
  split
  · exact blankSound_goStuck h hw c
  · split
    · next ho => exact blankSound_closeBurst h ho hw
    · next ho => exact blankSound_move h (by simp [ho]) (by simp [ho]) rfl (by simp [Lcu.toIdle]) hw
    all_goals exact h

theorem blankSound_handleEdge {l : Lcu} (h : l.blankSound) (hw : l.waiting = none) (edge accepted now : Time) :
    (l.handleEdge edge accepted now).blankSound := by
  unfold Lcu.handleEdge
  split
  · next hc =>
    split
    · have hz := blankCount_capturing h (by simp [hc]) (by simp [hc])
      exact ⟨h.1, fun hp => by simp only [Lcu.requestDescriptor] at hp; omega, fun hx => by simp [Lcu.requestDescriptor] at hx,
        fun _ => rfl⟩
    · exact h
  · next hc =>
    unfold Lcu.endElement
    split
    · exact blankSound_move h (by simp [hc]) (by simp [hc]) (blankCount_abandonBurst l) (by simp [Lcu.toDiscard])
        ((waiting_abandonBurst l).trans hw)
    · split
      · exact h
      · exact ⟨h.1, h.2.1, h.2.2.1, fun _ => hc⟩
  · next hc => exact blankSound_of h rfl rfl rfl
  · next hc =>
    split
    · exact h
    · exact blankSound_move h (by simp [hc]) (by simp [hc]) rfl (by simp [Lcu.toDiscard]) hw
  · exact h
  · exact h

theorem blankSound_takeClaim {l : Lcu} (h : l.blankSound) (hw : l.waiting = none) : l.takeClaim.blankSound := by
  unfold Lcu.takeClaim
  simp only
  split
  · next hz =>
    split
    · next hc =>
      refine ⟨by simp only; omega, fun _ => .inr hc, fun hx => ?_, ?_⟩
      · rw [hc] at hx
        cases hx
      · exact fun hx => absurd hw hx
    · refine ⟨?_, fun _ => .inl rfl, fun _ => ?_, ?_⟩
      · simp only [blankCount_abandonBurst]
        omega
      · simp only [blankCount_abandonBurst]
        omega
      · exact fun hx => (hx ((waiting_abandonBurst _).trans hw)).elim
    all_goals
      exact ⟨by simp only; omega, fun _ => .inl rfl, fun _ => by simp only; omega, fun hx => absurd hw hx⟩
  · next hz =>
    exact ⟨by simp only; omega, fun _ => h.2.1 (by omega), fun _ => by simp only; omega, fun hx => absurd hw hx⟩

theorem blankSound_takeDrop {l : Lcu} (h : l.blankSound) (hw : l.waiting = none) (now : Time) : (l.takeDrop now).blankSound := by
  have h2 := h.1
  unfold Lcu.takeDrop
  simp only
  split
  · next hc =>
    refine ⟨by simp only [Lcu.toDiscard]; omega, fun hp => ?_, fun hx => ?_, ?_⟩
    · simp only [Lcu.toDiscard] at hp
      omega
    · simp [Lcu.toDiscard] at hx
    · exact fun hx => absurd hw hx
  · next hc =>
    refine ⟨by simp only; omega, fun hp => h.2.1 (by simp only at hp; omega), fun hx => ?_, ?_⟩
    · have := h.2.2.1 hx
      simp only at hx ⊢
      rcases Nat.lt_or_ge 1 l.blankCount with h1 | h1
      · omega
      · exact absurd ⟨by omega, hx⟩ hc
    · exact fun hx => absurd hw hx

theorem blankSound_applySettings {l : Lcu} (h : l.blankSound) (x : Settings) (now : Time) : (l.applySettings x now).blankSound := by
  unfold Lcu.applySettings
  simp only
  split
  · split <;> exact blankSound_of h rfl rfl rfl
  · exact blankSound_of h rfl rfl rfl

theorem blankSound_enable {l : Lcu} (h : l.blankSound) (hw : l.waiting = none) (now : Time) : (l.enable now).blankSound := by
  unfold Lcu.enable
  split
  · split
    · next hp => exact ⟨h.1, fun _ => .inl rfl, fun _ => hp, fun hx => absurd hw hx⟩
    · next hp => exact ⟨h.1, fun hx => absurd hx hp, fun hx => by simp [Lcu.toDiscard] at hx, fun hx => absurd hw hx⟩
  · exact h

theorem blankSound_disable {l : Lcu} (h : l.blankSound) (hw : l.waiting = none) : l.disable.blankSound := by
  unfold Lcu.disable
  simp only
  split
  · exact blankSound_of h rfl rfl rfl
  · refine ⟨?_, fun _ => .inr rfl, fun hx => by simp at hx, ?_⟩
    · simp only [blankCount_abandonBurst]
      exact h.1
    · exact fun hx => (hx ((waiting_abandonBurst _).trans hw)).elim

theorem blankSound_flush {l : Lcu} (h : l.blankSound) (hw : l.waiting = none) (now : Time) : (l.flush now).blankSound := by
  unfold Lcu.flush
  simp only
  split
  · exact blankSound_of h rfl rfl rfl
  · split
    · next hp =>
      refine ⟨?_, fun _ => .inl rfl, fun _ => ?_, ?_⟩
      · simp only [blankCount_abandonBurst]
        exact h.1
      · simp only [blankCount_abandonBurst]
        exact hp
      · exact fun hx => (hx ((waiting_abandonBurst _).trans hw)).elim
    · next hp =>
      refine ⟨?_, fun hx => ?_, fun hx => by simp [Lcu.toDiscard] at hx, ?_⟩
      · simp only [Lcu.toDiscard, blankCount_abandonBurst]
        exact h.1
      · simp only [Lcu.toDiscard, blankCount_abandonBurst] at hx
        exact absurd hx hp
      · exact fun hx => (hx ((waiting_abandonBurst _).trans hw)).elim

theorem blankSound_runReset (l : Lcu) (hw : l.waiting = none) (now : Time) : (l.runReset now).blankSound := by
  unfold Lcu.runReset
  simp only
  split
  · next hc => exact ⟨by simp, fun hp => by simp at hp, fun hx => by simp [hc] at hx, fun hx => absurd hw hx⟩
  · exact ⟨by simp [Lcu.toDiscard], fun hp => by simp [Lcu.toDiscard] at hp, fun hx => by simp [Lcu.toDiscard] at hx,
      fun hx => absurd hw hx⟩

end Lcu

/-- A sample asks for nothing where it shows the accepted level with no change pending, or the other level before a pending
change has lasted for the glitch minimum (R5, R6). -/
theorem Lcu.lineAction_eq_none_iff (l : Lcu) (x : Sample) : l.lineAction x = none ↔
    l.change = none ∧ x.level = l.level
      ∨ ∃ edge, l.change = some edge ∧ x.level ≠ l.level ∧ elapsed edge x.time < l.settings.glitchMin.toNat := by
  unfold Lcu.lineAction
  cases l.change with
  | none => simp
  | some edge => by_cases hl : x.level = l.level <;> simp [hl]

end Sys2Proof.Machine
end

