-- ==== Sys2Proof/Laws/Memory.lean ====
section
/-! SUPPORT. The slot memory: a write keeps the canonical form, is read back, and leaves every other slot as it was; two
canonical memories that read alike are equal. -/

namespace Sys2Proof.Machine

/-- No listed address of a canonical memory's tail is its head's. -/
theorem Memory.wf_tail {p : Nat × Half} {m : Memory} (h : Memory.wf (p :: m)) : Memory.wf m :=
  ⟨(List.pairwise_cons.1 h.1).2, fun q hq => h.2 q (List.mem_cons_of_mem _ hq)⟩

/-- A slot below every listed address reads 0. -/
theorem Memory.read_below {m : Memory} {a : Nat} (h : ∀ p ∈ m, a < p.1) : Memory.read m a = 0 := by
  induction m with
  | nil => rfl
  | cons p m ih =>
    have hp := h p (by simp)
    simp only [Memory.read, Nat.ne_of_lt hp, if_false]
    exact ih fun q hq => h q (by simp [hq])

/-- The addresses of a written memory are the old ones and the written one. -/
theorem Memory.mem_write {m : Memory} {a : Nat} {v : Half} {p : Nat × Half} (h : p ∈ Memory.write m a v) :
    p ∈ m ∨ (p = (a, v) ∧ v ≠ 0) := by
  induction m with
  | nil =>
    simp only [Memory.write] at h
    split at h
    · simp at h
    · next hv => exact .inr ⟨by simpa using h, hv⟩
  | cons q m ih =>
    obtain ⟨b, w⟩ := q
    simp only [Memory.write] at h
    split at h
    · split at h
      · exact .inl h
      · next hv =>
        rcases List.mem_cons.1 h with h | h
        · exact .inr ⟨h, hv⟩
        · exact .inl h
    · split at h
      · split at h
        · exact .inl (by simp [h])
        · next hv =>
          rcases List.mem_cons.1 h with h | h
          · exact .inr ⟨h, hv⟩
          · exact .inl (by simp [h])
      · rcases List.mem_cons.1 h with h | h
        · exact .inl (by simp [h])
        · rcases ih h with h | h
          · exact .inl (by simp [h])
          · exact .inr h

/-- A write keeps the canonical form. -/
theorem Memory.wf_write {m : Memory} (h : Memory.wf m) (a : Nat) (v : Half) : Memory.wf (Memory.write m a v) := by
  induction m with
  | nil =>
    simp only [Memory.write]
    split
    · exact ⟨by simp, by simp⟩
    · next hv => exact ⟨by simp, by simpa using hv⟩
  | cons q m ih =>
    obtain ⟨b, w⟩ := q
    have hb := List.pairwise_cons.1 h.1
    have hw : w ≠ 0 := h.2 (b, w) (by simp)
    have hlt : ∀ p ∈ m, b < p.1 := fun p hp => hb.1 p.1 (List.mem_map_of_mem hp)
    simp only [Memory.write]
    split
    · next hab =>
      split
      · exact h
      · next hv =>
        refine ⟨List.pairwise_cons.2 ⟨fun x hx => ?_, h.1⟩, fun p hp => ?_⟩
        · rcases List.mem_cons.1 hx with hx | hx
          · subst hx; exact hab
          · exact hab.trans (hb.1 x hx)
        · rcases List.mem_cons.1 hp with hp | hp
          · subst hp; exact hv
          · exact h.2 p hp
    · split
      · next hab =>
        subst hab
        split
        · exact Memory.wf_tail h
        · next hv =>
          refine ⟨h.1, fun p hp => ?_⟩
          rcases List.mem_cons.1 hp with hp | hp
          · subst hp; exact hv
          · exact h.2 p (by simp [hp])
      · next h1 h2 =>
        have hba : b < a := by omega
        have ih' := ih (Memory.wf_tail h)
        refine ⟨List.pairwise_cons.2 ⟨fun x hx => ?_, ih'.1⟩, fun p hp => ?_⟩
        · obtain ⟨p, hp, rfl⟩ := List.mem_map.1 hx
          rcases Memory.mem_write hp with hp | ⟨hp, _⟩
          · exact hlt p hp
          · subst hp; exact hba
        · rcases List.mem_cons.1 hp with hp | hp
          · subst hp; exact hw
          · exact ih'.2 p hp

/-- What a slot reads after a write. -/
theorem Memory.read_write {m : Memory} (h : Memory.wf m) (a b : Nat) (v : Half) :
    Memory.read (Memory.write m a v) b = if b = a then v else Memory.read m b := by
  induction m with
  | nil =>
    simp only [Memory.write]
    by_cases hv : v = 0
    · simp only [hv, if_true, Memory.read, ite_self]
    · simp only [hv, if_false, Memory.read]
  | cons q m ih =>
    obtain ⟨c, w⟩ := q
    have hc := List.pairwise_cons.1 h.1
    have hlt : ∀ p ∈ m, c < p.1 := fun p hp => hc.1 p.1 (List.mem_map_of_mem hp)
    have ih' := ih (Memory.wf_tail h)
    simp only [Memory.write]
    split
    · next hac =>
      by_cases hv : v = 0
      · simp only [hv, if_true]
        by_cases hb : b = a
        · subst hb
          rw [if_pos rfl]
          refine Memory.read_below fun p hp => ?_
          rcases List.mem_cons.1 hp with hp | hp
          · subst hp; exact hac
          · exact hac.trans (hlt p hp)
        · simp [hb]
      · simp only [hv, if_false, Memory.read]
    · split
      · next hac =>
        subst hac
        by_cases hv : v = 0
        · simp only [hv, if_true, Memory.read]
          by_cases hb : b = a
          · subst hb
            simp only [if_true]
            exact Memory.read_below hlt
          · simp [hb]
        · simp only [hv, if_false, Memory.read]
          by_cases hb : b = a <;> simp [hb]
      · next h1 h2 =>
        simp only [Memory.read]
        by_cases hb : b = c
        · have : c ≠ a := fun e => h2 e.symm
          simp [hb, this]
        · simp [hb, ih']

/-- The written slot reads the written duration. -/
theorem Memory.read_write_self {m : Memory} (h : Memory.wf m) (a : Nat) (v : Half) : Memory.read (Memory.write m a v) a = v := by
  simp [Memory.read_write h]

/-- Every other slot reads as before. -/
theorem Memory.read_write_ne {m : Memory} (h : Memory.wf m) {a b : Nat} (v : Half) (hb : b ≠ a) :
    Memory.read (Memory.write m a v) b = Memory.read m b := by
  simp [Memory.read_write h, hb]

/-- Canonical memories that read alike in every slot are the same data. -/
theorem Memory.eq_of_read {m n : Memory} (hm : Memory.wf m) (hn : Memory.wf n) (h : ∀ a, Memory.read m a = Memory.read n a) :
    m = n := by
  induction m generalizing n with
  | nil =>
    cases n with
    | nil => rfl
    | cons q n =>
      have := h q.1
      simp only [Memory.read, if_true] at this
      exact absurd this.symm (hn.2 q (by simp))
  | cons p m ih =>
    cases n with
    | nil =>
      have := h p.1
      simp only [Memory.read, if_true] at this
      exact absurd this (hm.2 p (by simp))
    | cons q n =>
      have hpl : ∀ x ∈ m, p.1 < x.1 := fun x hx => (List.pairwise_cons.1 hm.1).1 x.1 (List.mem_map_of_mem hx)
      have hql : ∀ x ∈ n, q.1 < x.1 := fun x hx => (List.pairwise_cons.1 hn.1).1 x.1 (List.mem_map_of_mem hx)
      have hpq : p.1 = q.1 := by
        rcases Nat.lt_trichotomy p.1 q.1 with hl | he | hl
        · exfalso
          have := h p.1
          rw [Memory.read_below (m := q :: n)] at this
          · simp only [Memory.read, if_true] at this
            exact hm.2 p (by simp) this
          · intro x hx
            rcases List.mem_cons.1 hx with hx | hx
            · subst hx; exact hl
            · exact hl.trans (hql x hx)
        · exact he
        · exfalso
          have := h q.1
          rw [Memory.read_below (m := p :: m)] at this
          · simp only [Memory.read, if_true] at this
            exact hn.2 q (by simp) this.symm
          · intro x hx
            rcases List.mem_cons.1 hx with hx | hx
            · subst hx; exact hl
            · exact hl.trans (hpl x hx)
      have hv : p.2 = q.2 := by
        have := h p.1
        simpa [Memory.read, hpq] using this
      have hp : p = q := Prod.ext hpq hv
      subst hp
      congr 1
      refine ih (Memory.wf_tail hm) (Memory.wf_tail hn) fun a => ?_
      by_cases ha : a = p.1
      · rw [ha, Memory.read_below hpl, Memory.read_below hql]
      · have := h a
        simpa [Memory.read, ha] using this

/-- Reset memory lists nothing and is canonical. -/
theorem Memory.wf_nil : Memory.wf [] := ⟨by simp, by simp⟩

end Sys2Proof.Machine
end

