-- ==== Sys2Proof/Laws/Store.lean ====
section
/-! SUPPORT. The Pulse Store: what each of its operations keeps of the counts of R27 and R29, and of the slots' canonical
form. -/

namespace Sys2Proof.Machine

/-- A sum over the handles after one summand is replaced. -/
theorem sum_replace {f g : Handle → Nat} (h : Handle) (hg : ∀ k, k ≠ h → g k = f k) :
    (∑ k, g k) + f h = (∑ k, f k) + g h := by
  have hf : ∑ k, f k = f h + ∑ k ∈ Finset.univ.erase h, f k := (Finset.add_sum_erase _ f (Finset.mem_univ h)).symm
  have hg' : ∑ k, g k = g h + ∑ k ∈ Finset.univ.erase h, g k := (Finset.add_sum_erase _ g (Finset.mem_univ h)).symm
  have he : ∑ k ∈ Finset.univ.erase h, g k = ∑ k ∈ Finset.univ.erase h, f k :=
    Finset.sum_congr rfl fun k hk => hg k (Finset.ne_of_mem_erase hk)
  omega

/-- The places of a block after a descriptor is replaced. -/
theorem PulseStore.placesOf_setDescriptor (p : PulseStore) (h : Handle) (d : Descriptor) (b : BlockNo) :
    (p.setDescriptor h d).placesOf b + (p.descriptor h).blocks.count b = p.placesOf b + d.blocks.count b := by
  have := sum_replace (f := fun k => (p.descriptor k).blocks.count b)
    (g := fun k => ((p.setDescriptor h d).descriptor k).blocks.count b) h
    (fun k hk => by rw [PulseStore.descriptor_setDescriptor_ne p d hk])
  simp only [PulseStore.descriptor_setDescriptor_self] at this
  simp only [PulseStore.placesOf, PulseStore.freeBlocks_setDescriptor]
  omega

/-- The length of a filtered list as a sum. -/
theorem length_filter_eq_sum {α : Type} (f : α → Bool) (l : List α) :
    (l.filter f).length = (l.map fun a => (f a).toNat).sum := by
  induction l with
  | nil => rfl
  | cons a l ih => cases h : f a <;> simp [h, ih]; omega

/-- The number of RETAINED descriptors as a sum. -/
theorem PulseStore.retained_eq_sum (p : PulseStore) :
    p.retainedDescriptors = ∑ h : Handle, ((p.descriptor h).state == .retained).toNat := by
  rw [Fin.sum_univ_def, PulseStore.retainedDescriptors, length_filter_eq_sum]

/-- The number of RETAINED descriptors after a descriptor is replaced. -/
theorem PulseStore.retained_setDescriptor (p : PulseStore) (h : Handle) (d : Descriptor) :
    (p.setDescriptor h d).retainedDescriptors + ((p.descriptor h).state == .retained).toNat
      = p.retainedDescriptors + (d.state == .retained).toNat := by
  have := sum_replace (f := fun k => ((p.descriptor k).state == .retained).toNat)
    (g := fun k => (((p.setDescriptor h d).descriptor k).state == .retained).toNat) h
    (fun k hk => by rw [PulseStore.descriptor_setDescriptor_ne p d hk])
  simp only [PulseStore.descriptor_setDescriptor_self] at this
  rw [PulseStore.retained_eq_sum, PulseStore.retained_eq_sum]
  omega

/-- Only the descriptors and the free-block list decide a block's places. -/
theorem PulseStore.placesOf_congr {p q : PulseStore} (hd : p.descriptors = q.descriptors) (hf : p.freeBlocks = q.freeBlocks)
    (b : BlockNo) : p.placesOf b = q.placesOf b := by
  simp only [PulseStore.placesOf, PulseStore.descriptor, hd, hf]

/-- A descriptor replaced by one with the same blocks, neither FREE, neither QUEUED, and RETAINED only if it was or a place is
left, keeps the store sound. -/
theorem PulseStore.sound_replace {p : PulseStore} (hs : p.sound) (h : Handle) (d : Descriptor)
    (hb : d.blocks = (p.descriptor h).blocks) (h0 : (p.descriptor h).state ≠ .queued) (h1 : d.state ≠ .queued)
    (hf : d.state = .free → (p.descriptor h).state = .free)
    (hr : d.state = .retained → (p.descriptor h).state = .retained ∨ p.retainedDescriptors < Config.retainedLimit) :
    (p.setDescriptor h d).sound := by
  obtain ⟨s1, s2, s3, s4, s5⟩ := hs
  refine ⟨fun b => ?_, fun k hk => ?_, s3, fun k => ?_, ?_⟩
  · have := p.placesOf_setDescriptor h d b
    rw [hb] at this
    have := s1 b
    omega
  · rw [PulseStore.descriptor_setDescriptor] at hk ⊢
    split at hk
    · next e => subst e; simp only [if_true]; rw [hb]; exact s2 _ (hf hk)
    · next e => simp only [e, if_false]; exact s2 k hk
  · rw [PulseStore.queue_setDescriptor, s4 k, PulseStore.descriptor_setDescriptor]
    split
    · next e => subst e; simp [h0, h1]
    · rfl
  · have := p.retained_setDescriptor h d
    by_cases hd : d.state = .retained
    · rcases hr hd with he | he
      · simp only [hd, he, beq_self_eq_true, Bool.toNat_true] at this
        omega
      · simp only [hd, beq_self_eq_true, Bool.toNat_true] at this
        omega
    · have hz : (d.state == .retained) = false := by simpa using hd
      simp only [hz, Bool.toNat_false] at this
      omega

/-- Freeing a descriptor that is not QUEUED keeps the store sound. -/
theorem PulseStore.sound_free {p : PulseStore} (hs : p.sound) (h : Handle) (h0 : (p.descriptor h).state ≠ .queued) :
    (p.free h).sound := by
  obtain ⟨s1, s2, s3, s4, s5⟩ := hs
  refine ⟨fun b => ?_, fun k hk => ?_, s3, fun k => ?_, ?_⟩
  · have := p.placesOf_setDescriptor h .freed b
    have h1 := s1 b
    simp only [PulseStore.placesOf, PulseStore.free, PulseStore.freeBlocks_setDescriptor, Descriptor.freed, List.count_nil,
      List.count_append] at this h1 ⊢
    have e : ∀ k, ({ (p.setDescriptor h Descriptor.freed) with freeBlocks := p.freeBlocks ++ (p.descriptor h).blocks } : PulseStore).descriptor k
        = (p.setDescriptor h Descriptor.freed).descriptor k := fun _ => rfl
    simp only [Descriptor.freed] at e
    simp only [e]
    omega
  · change ((p.setDescriptor h .freed).descriptor k).state = .free at hk
    change ((p.setDescriptor h .freed).descriptor k).blocks = []
    rw [PulseStore.descriptor_setDescriptor] at hk ⊢
    split
    · rfl
    · next e => simp only [e, if_false] at hk; exact s2 k hk
  · change k ∈ p.queue ↔ ((p.setDescriptor h .freed).descriptor k).state = .queued
    rw [s4 k, PulseStore.descriptor_setDescriptor]
    split
    · next e => subst e; simp [h0, Descriptor.freed]
    · rfl
  · change (p.setDescriptor h .freed).retainedDescriptors ≤ _
    have := p.retained_setDescriptor h .freed
    simp only [Descriptor.freed] at this
    have hz : (DescriptorState.free == DescriptorState.retained).toNat = 0 := rfl
    simp only [Descriptor.freed]
    omega

/-- Freeing a QUEUED descriptor with its place in the queue keeps the store sound. -/
theorem PulseStore.sound_freeQueued {p : PulseStore} (hs : p.sound) (h : Handle) (h0 : (p.descriptor h).state = .queued) :
    ({ p.free h with queue := p.queue.erase h } : PulseStore).sound := by
  obtain ⟨s1, s2, s3, s4, s5⟩ := hs
  refine ⟨fun b => ?_, fun k hk => ?_, s3.erase h, fun k => ?_, ?_⟩
  · have := p.placesOf_setDescriptor h .freed b
    have h1 := s1 b
    simp only [PulseStore.placesOf, PulseStore.free, PulseStore.freeBlocks_setDescriptor, Descriptor.freed, List.count_nil,
      List.count_append] at this h1 ⊢
    have e : ∀ k, ({ (p.setDescriptor h Descriptor.freed) with freeBlocks := p.freeBlocks ++ (p.descriptor h).blocks, queue := p.queue.erase h } : PulseStore).descriptor k
        = (p.setDescriptor h Descriptor.freed).descriptor k := fun _ => rfl
    simp only [Descriptor.freed] at e
    simp only [e]
    omega
  · change ((p.setDescriptor h .freed).descriptor k).state = .free at hk
    change ((p.setDescriptor h .freed).descriptor k).blocks = []
    rw [PulseStore.descriptor_setDescriptor] at hk ⊢
    split
    · rfl
    · next e => simp only [e, if_false] at hk; exact s2 k hk
  · change k ∈ p.queue.erase h ↔ ((p.setDescriptor h .freed).descriptor k).state = .queued
    rw [s3.mem_erase_iff, s4 k, PulseStore.descriptor_setDescriptor]
    split
    · next e => subst e; simp [Descriptor.freed]
    · next e => simp [e]
  · change (p.setDescriptor h .freed).retainedDescriptors ≤ _
    have := p.retained_setDescriptor h .freed
    have hz : (Descriptor.freed.state == DescriptorState.retained).toNat = 0 := rfl
    omega

/-- A grant of a FREE descriptor keeps the store sound (R30). -/
theorem PulseStore.sound_grant {p : PulseStore} (hs : p.sound) (h : Handle) (c : Channel) (t : Time)
    (h0 : (p.descriptor h).state = .free) : (p.grant h c t).sound :=
  PulseStore.sound_replace hs h _ (hs.2.1 h h0).symm (by simp [h0]) (by simp) (by simp) (by simp)

/-- The descriptor that is found FREE is FREE. -/
theorem PulseStore.lowestFree_state {p : PulseStore} {h : Handle} (hf : p.lowestFree = some h) :
    (p.descriptor h).state = .free := by
  simpa using List.find?_some hf

/-- Placing an element changes no count but the burst's own. -/
theorem PulseStore.sound_place {p : PulseStore} (hs : p.sound) (h : Handle) (b : BlockNo) (k : Nat) (v : Half)
    (h0 : (p.descriptor h).state = .opened) : (p.place h b k v).sound := by
  have := PulseStore.sound_replace hs h { p.descriptor h with count := (p.descriptor h).count + 1 } rfl (by simp [h0])
    (by simp [h0]) (by simp [h0]) (by simp [h0])
  exact this

/-- Granting a block of the free-block list keeps the store sound. -/
theorem PulseStore.sound_grantBlock {p : PulseStore} (hs : p.sound) (h : Handle) (b : BlockNo)
    (h0 : (p.descriptor h).state = .opened) (hb : b ∈ p.freeBlocks) : (p.grantBlock h b).sound := by
  obtain ⟨s1, s2, s3, s4, s5⟩ := hs
  let d : Descriptor := { p.descriptor h with blocks := (p.descriptor h).blocks ++ [b] }
  refine ⟨fun x => ?_, fun k hk => ?_, s3, fun k => ?_, ?_⟩
  · have := p.placesOf_setDescriptor h d x
    have h1 := s1 x
    change (p.freeBlocks.erase b).count x + (∑ k : Handle, ((p.setDescriptor h d).descriptor k).blocks.count x) = 1
    simp only [PulseStore.placesOf, PulseStore.freeBlocks_setDescriptor, d, List.count_append] at this h1
    rw [List.count_erase]
    by_cases e : b = x
    · subst e
      have hpos : 0 < p.freeBlocks.count b := List.count_pos_iff.2 hb
      have hone : List.count b [b] = 1 := by simp
      simp only [beq_self_eq_true, if_true, d]
      omega
    · have e' : (b == x) = false := by simpa using e
      have hz : List.count x [b] = 0 := by simp [List.count_singleton, e']
      simp only [e', Bool.false_eq_true, if_false]
      simp only [d]
      omega
  · change ((p.setDescriptor h d).descriptor k).state = .free at hk
    change ((p.setDescriptor h d).descriptor k).blocks = []
    rw [PulseStore.descriptor_setDescriptor] at hk ⊢
    split at hk
    · simp [d, h0] at hk
    · next e => simp only [e, if_false]; exact s2 k hk
  · change k ∈ p.queue ↔ ((p.setDescriptor h d).descriptor k).state = .queued
    rw [s4 k, PulseStore.descriptor_setDescriptor]
    split
    · next e => subst e; simp [d, h0]
    · rfl
  · change (p.setDescriptor h d).retainedDescriptors ≤ _
    have := p.retained_setDescriptor h d
    have hz : (d.state == .retained).toNat = ((p.descriptor h).state == .retained).toNat := rfl
    omega

/-- An element write keeps the store sound (R31). -/
theorem PulseStore.sound_write {p : PulseStore} (hs : p.sound) (c : Channel) (h : Handle) (k : Nat) (v : Half) (pick : BlockNo) :
    (p.write c h k v pick).1.sound := by
  unfold PulseStore.write
  split
  · next ho =>
    have h0 : (p.descriptor h).state = .opened := by
      simp only [PulseStore.openFor, Bool.and_eq_true, beq_iff_eq] at ho
      exact ho.1
    split
    · split
      · exact hs
      · next b hb =>
        have hm : b ∈ p.freeBlocks := List.mem_of_getElem? hb
        refine PulseStore.sound_place (PulseStore.sound_grantBlock hs h b h0 hm) h b k v ?_
        change ((p.setDescriptor h _).descriptor h).state = _
        simp [h0]
    · split
      · exact hs
      · exact PulseStore.sound_place hs h _ k v h0
  · exact hs

/-- A close keeps the store sound (R32). -/
theorem PulseStore.sound_close {p : PulseStore} (hs : p.sound) (c : Channel) (h : Handle) (t : Time) : (p.close c h t).sound := by
  unfold PulseStore.close
  split
  swap
  · exact hs
  next ho =>
    have h0 : (p.descriptor h).state = .opened := by
      simp only [PulseStore.openFor, Bool.and_eq_true, beq_iff_eq] at ho
      exact ho.1
    obtain ⟨s1, s2, s3, s4, s5⟩ := hs
    let d : Descriptor := { p.descriptor h with state := .queued, closeTime := t }
    have hn : h ∉ p.queue := fun hm => by rw [s4 h, h0] at hm; cases hm
    refine ⟨fun b => ?_, fun k hk => ?_, ?_, fun k => ?_, ?_⟩
    · have := p.placesOf_setDescriptor h d b
      have h1 := s1 b
      change (p.setDescriptor h d).placesOf b = 1
      simp only [d] at this ⊢
      omega
    · change ((p.setDescriptor h d).descriptor k).state = .free at hk
      change ((p.setDescriptor h d).descriptor k).blocks = []
      rw [PulseStore.descriptor_setDescriptor] at hk ⊢
      split at hk
      · simp [d] at hk
      · next e => simp only [e, if_false]; exact s2 k hk
    · exact List.nodup_append.2 ⟨s3, by simp, fun a ha b hb => by
        simp only [List.mem_singleton] at hb
        subst hb
        exact fun e => hn (e ▸ ha)⟩
    · change k ∈ p.queue ++ [h] ↔ ((p.setDescriptor h d).descriptor k).state = .queued
      rw [PulseStore.descriptor_setDescriptor]
      split
      · next e => subst e; simp [d]
      · next e => simp [s4 k, e]
    · change (p.setDescriptor h d).retainedDescriptors ≤ _
      have := p.retained_setDescriptor h d
      have hz : (d.state == DescriptorState.retained).toNat = 0 := rfl
      omega

/-- An abandon keeps the store sound (R33). -/
theorem PulseStore.sound_abandon {p : PulseStore} (hs : p.sound) (c : Channel) (h : Handle) : (p.abandon c h).sound := by
  unfold PulseStore.abandon
  split
  · next ho =>
    simp only [PulseStore.openFor, Bool.and_eq_true, beq_iff_eq] at ho
    exact PulseStore.sound_free hs h (by simp [ho.1])
  · exact hs

/-- A purge keeps the store sound (R36). -/
theorem PulseStore.sound_purge {p : PulseStore} (hs : p.sound) (c : Channel) : (p.purge c).sound := by
  have step : ∀ (q : PulseStore) (h : Handle), q.sound → (q.purgeOne c h).sound := by
    intro q h hq
    unfold PulseStore.purgeOne
    dsimp only
    split
    · split
      · next e => exact PulseStore.sound_freeQueued hq h e
      · next e => exact PulseStore.sound_replace hq h _ rfl (by simp [e]) (by simp [e]) (by simp [e]) (by simp [e])
      all_goals exact hq
    · exact hq
  have all : ∀ (l : List Handle) (q : PulseStore), q.sound → (l.foldl (·.purgeOne c) q).sound := by
    intro l
    induction l with
    | nil => exact fun q hq => hq
    | cons h l ih => exact fun q hq => ih _ (step q h hq)
  exact all _ p hs

/-- A take keeps the store sound (R35). -/
theorem PulseStore.sound_take {p : PulseStore} (hs : p.sound) : p.take.1.sound := by
  unfold PulseStore.take
  split
  · exact hs
  · next h rest hq =>
    obtain ⟨s1, s2, s3, s4, s5⟩ := hs
    let d : Descriptor := { p.descriptor h with state := .decoding, stale := false }
    have h0 : (p.descriptor h).state = .queued := (s4 h).1 (by simp [hq])
    rw [hq] at s3
    have hn : h ∉ rest := (List.nodup_cons.1 s3).1
    refine ⟨fun b => ?_, fun k hk => ?_, (List.nodup_cons.1 s3).2, fun k => ?_, ?_⟩
    · have := p.placesOf_setDescriptor h d b
      have h1 := s1 b
      change (p.setDescriptor h d).placesOf b = 1
      simp only [d] at this ⊢
      omega
    · change ((p.setDescriptor h d).descriptor k).state = .free at hk
      change ((p.setDescriptor h d).descriptor k).blocks = []
      rw [PulseStore.descriptor_setDescriptor] at hk ⊢
      split at hk
      · simp [d] at hk
      · next e => simp only [e, if_false]; exact s2 k hk
    · change k ∈ rest ↔ ((p.setDescriptor h d).descriptor k).state = .queued
      rw [PulseStore.descriptor_setDescriptor]
      split
      · next e => subst e; simp [d, hn]
      · next e =>
        rw [← s4 k, hq]
        simp [e]
    · change (p.setDescriptor h d).retainedDescriptors ≤ _
      have := p.retained_setDescriptor h d
      have hz : (d.state == DescriptorState.retained).toNat = 0 := rfl
      omega

/-- A finish keeps the store sound (R37, R39). -/
theorem PulseStore.sound_finish {p : PulseStore} (hs : p.sound) (h : Handle) (d : Disposition) : (p.finish h d).1.sound := by
  unfold PulseStore.finish
  split
  · next h0 =>
    have hf := PulseStore.sound_free hs h (by simp [h0])
    split
    · exact hf
    · split
      · exact hf
      · split
        · next hl => exact PulseStore.sound_replace hs h _ rfl (by simp [h0]) (by simp) (by simp) (fun _ => .inr hl)
        · exact hf
  · exact hs

/-- A host-hold drop keeps the store sound (R41). -/
theorem PulseStore.sound_dropHostHold {p : PulseStore} (hs : p.sound) (h : Handle) : (p.dropHostHold h).sound := by
  unfold PulseStore.dropHostHold
  split
  · next ho =>
    simp only [PulseStore.hostHeld, Bool.and_eq_true, beq_iff_eq] at ho
    split
    · exact PulseStore.sound_free hs h (by simp [ho.1])
    · exact PulseStore.sound_replace hs h _ rfl (by simp [ho.1]) (by simp [ho.1]) (by simp [ho.1]) (fun _ => .inl ho.1)
  · exact hs

/-- A transmit-hold drop keeps the store sound (R43). -/
theorem PulseStore.sound_dropTransmitHold {p : PulseStore} (hs : p.sound) (h : Handle) : (p.dropTransmitHold h).sound := by
  unfold PulseStore.dropTransmitHold
  dsimp only
  split
  · next ho =>
    split
    · exact PulseStore.sound_free hs h (by simp [ho.1])
    · exact PulseStore.sound_replace hs h _ rfl (by simp [ho.1]) (by simp [ho.1]) (by simp [ho.1]) (fun _ => .inl ho.1)
  · exact hs

/-- A transmit-hold request keeps the store sound (R42). -/
theorem PulseStore.sound_addTransmitHold {p : PulseStore} (hs : p.sound) (h : Handle) : (p.addTransmitHold h).1.sound := by
  unfold PulseStore.addTransmitHold
  split
  · next ho =>
    simp only [PulseStore.hostHeld, Bool.and_eq_true, beq_iff_eq] at ho
    split
    · exact PulseStore.sound_replace hs h _ rfl (by simp [ho.1]) (by simp [ho.1]) (by simp [ho.1]) (fun _ => .inl ho.1)
    · exact hs
  · exact hs

/-- The store after a reset is sound, whatever its slots hold (R46, R47). -/
theorem PulseStore.sound_reset (m : Memory) : ({ PulseStore.reset with slots := m } : PulseStore).sound := by
  have hd : ∀ h, ({ PulseStore.reset with slots := m } : PulseStore).descriptor h = .freed := by
    intro h
    simp [PulseStore.descriptor, PulseStore.reset]
  refine ⟨fun b => ?_, fun h _ => by rw [hd]; rfl, by simp [PulseStore.reset], fun h => ?_, ?_⟩
  · simp only [PulseStore.placesOf, hd]
    simp [PulseStore.reset, Descriptor.freed, List.count_eq_one_of_mem (List.nodup_finRange 32) (List.mem_finRange b)]
  · rw [hd]
    simp [PulseStore.reset, Descriptor.freed]
  · rw [PulseStore.retained_eq_sum]
    simp only [hd]
    decide

/-! ## The slots -/

/-- An element write keeps the slots canonical. -/
theorem PulseStore.slots_write {p : PulseStore} (hm : Memory.wf p.slots) (c : Channel) (h : Handle) (k : Nat) (v : Half)
    (pick : BlockNo) : Memory.wf (p.write c h k v pick).1.slots := by
  unfold PulseStore.write
  repeat' split
  all_goals first | exact hm | exact Memory.wf_write hm _ _

/-! No other request changes a slot. -/

@[simp] theorem PulseStore.slots_grant (p : PulseStore) (h : Handle) (c : Channel) (t : Time) : (p.grant h c t).slots = p.slots := rfl

@[simp] theorem PulseStore.slots_close (p : PulseStore) (c : Channel) (h : Handle) (t : Time) : (p.close c h t).slots = p.slots := by
  unfold PulseStore.close
  split <;> rfl

@[simp] theorem PulseStore.slots_abandon (p : PulseStore) (c : Channel) (h : Handle) : (p.abandon c h).slots = p.slots := by
  unfold PulseStore.abandon
  split <;> rfl

@[simp] theorem PulseStore.slots_purge (p : PulseStore) (c : Channel) : (p.purge c).slots = p.slots := by
  have step : ∀ (q : PulseStore) (h : Handle), (q.purgeOne c h).slots = q.slots := by
    intro q h
    unfold PulseStore.purgeOne
    dsimp only
    repeat' split
    all_goals rfl
  have all : ∀ (l : List Handle) (q : PulseStore), (l.foldl (·.purgeOne c) q).slots = q.slots := by
    intro l
    induction l with
    | nil => exact fun q => rfl
    | cons h l ih => exact fun q => (ih _).trans (step q h)
  exact all _ p

@[simp] theorem PulseStore.slots_take (p : PulseStore) : p.take.1.slots = p.slots := by
  unfold PulseStore.take
  split <;> rfl

@[simp] theorem PulseStore.slots_finish (p : PulseStore) (h : Handle) (d : Disposition) : (p.finish h d).1.slots = p.slots := by
  unfold PulseStore.finish
  repeat' split
  all_goals rfl

@[simp] theorem PulseStore.slots_dropHostHold (p : PulseStore) (h : Handle) : (p.dropHostHold h).slots = p.slots := by
  unfold PulseStore.dropHostHold
  repeat' split
  all_goals rfl

@[simp] theorem PulseStore.slots_dropTransmitHold (p : PulseStore) (h : Handle) : (p.dropTransmitHold h).slots = p.slots := by
  unfold PulseStore.dropTransmitHold
  dsimp only
  repeat' split
  all_goals rfl

@[simp] theorem PulseStore.slots_addTransmitHold (p : PulseStore) (h : Handle) : (p.addTransmitHold h).1.slots = p.slots := by
  unfold PulseStore.addTransmitHold
  repeat' split
  all_goals rfl

/-! ## Submissions -/

/-- The source checks change the store by a transmit hold or not at all (R168). -/
theorem State.checkSource_pst {s : State} {x : TxSource} {p : PulseStore} (h : s.checkSource x = .ok p) :
    p = s.pst ∨ ∃ k, p = (s.pst.addTransmitHold k).1 := by
  unfold State.checkSource at h
  split at h
  · split at h <;> cases h
    exact .inl rfl
  · dsimp only at h
    repeat' split at h
    all_goals first | (cases h; done) | (cases h; exact .inl rfl)
  · next k =>
    split at h <;> cases h
    next e => exact .inr ⟨k, by rw [e]⟩

/-- An accepted submission: the request joins the queue's tail, which had a place, and the store changes by a transmit hold or
not at all (R168, R169). -/
theorem State.submit_ok {s t : State} {r : Vector Byte 21} {tag : Byte} (h : s.submit r = .ok (t, tag)) :
    ∃ x p, txRequestOfBytes r = some x ∧ tag = x.tag ∧ s.txe.queue.length < Config.transmitQueueCapacity
      ∧ s.checkSource x.source = .ok p ∧ t = (s.setPst p).setTxe { s.txe with queue := s.txe.queue ++ [x] } := by
  unfold State.submit at h
  split at h
  · cases h
  · next x hx =>
    split at h
    · cases h
    · next hl =>
      split at h
      · cases h
      · next p hp =>
        cases h
        exact ⟨x, p, hx, rfl, Nat.lt_of_not_le hl, hp, rfl⟩

end Sys2Proof.Machine
end

