-- ==== Sys2Proof/Laws/Open.lean ====
section
/-! SUPPORT. At most one open descriptor per channel (R9, R29): what the operations of a Line Capture Unit, of the Pulse Store
and of the command unit keep of `State.openSound`. -/

namespace Sys2Proof.Machine

/-- A change of a Line Capture Unit keeps at most one open descriptor on its channel, whatever the store. -/
def Lcu.KeepsOpen (l l' : Lcu) : Prop := ∀ g p c, l.openSound g p c → l'.openSound g p c

theorem Lcu.KeepsOpen.refl (l : Lcu) : l.KeepsOpen l := fun _ _ _ h => h

theorem Lcu.KeepsOpen.trans {a b c : Lcu} (h1 : a.KeepsOpen b) (h2 : b.KeepsOpen c) : a.KeepsOpen c :=
  fun g p d h => h2 g p d (h1 g p d h)

/-- Its handle, wait, answer and requests stay, and it does not leave OPEN with a handle. -/
theorem keepsOpen_of_fields {l m : Lcu} (hh : m.handle = l.handle) (ha : m.answer = l.answer)
    (hw : m.waiting = l.waiting) (ht : m.toStore = l.toStore)
    (hc : m.handle ≠ none → l.capture = .opened → m.capture = .opened) : l.KeepsOpen m := by
  intro g p c h
  unfold Lcu.openSound Lcu.askSound Lcu.handles at *
  rw [hh, ha, hw, ht]
  refine ⟨⟨fun hx => hc (by rw [hh]; exact hx) (h.1.1 hx), h.1.2.1, h.1.2.2⟩, h.2⟩

/-- Its handle, wait, answer, requests and capture state stay. -/
theorem keepsOpen_of_capture {l m : Lcu} (hh : m.handle = l.handle) (ha : m.answer = l.answer)
    (hw : m.waiting = l.waiting) (ht : m.toStore = l.toStore)
    (hc : m.capture = l.capture) : l.KeepsOpen m := keepsOpen_of_fields hh ha hw ht (fun _ h => hc.trans h)

/-! ## One LCU -/

/-- An LCU that waits for no answer has none, and has asked nothing. -/
theorem asksNothing_of_askSound {l : Lcu} (h : l.askSound) (hw : l.waiting = none) :
    l.answer = none ∧ ∀ m ∈ l.toStore.msgs, m.answered = false := by
  have := h.2.2; rw [hw] at this
  cases ha : l.answer with
  | none => rw [ha] at this; exact ⟨rfl, this⟩
  | some a => rw [ha] at this; exact this.elim

/-- It gives its handle to a close or an abandon. -/
theorem keepsOpen_endBurst {l : Lcu} (hw : l.waiting = none) {h : Handle} (hh : l.handle = some h) (m : StoreRequest)
    (hm : m.ends = some h) (ha : m.answered = false)
    {l' : Lcu} (h1 : l'.handle = none) (h2 : l'.answer = l.answer) (h3 : l'.waiting = none)
    (h4 : l'.toStore = l.toStore.push m) : l.KeepsOpen l' := by
  intro g p c hc
  obtain ⟨hans, hmsgs⟩ := asksNothing_of_askSound hc.1 hw
  refine ⟨⟨fun hx => absurd h1 hx, fun e he => (by rw [h3] at he; cases he), ?_⟩, fun hg => ?_, fun hg => ?_⟩
  · rw [h3, h2, hans, h4]
    intro x hx
    simp only [Mailbox.push, List.mem_append, List.mem_singleton] at hx
    rcases hx with hx | rfl
    · exact hmsgs x hx
    · exact ha
  · obtain ⟨h5, h6⟩ := hc.2.1 hg
    simp only [Lcu.handles, hh, hans, h1, h2, h4, Mailbox.push] at *
    simp [hm] at *
    refine ⟨h5, fun k hk => ?_⟩
    rcases h6 k hk with h | h
    · exact .inr h
    · exact .inl h
  · have := (hc.2.2 hg).2.1; rw [hh] at this; cases this

theorem keepsOpen_abandonBurst {l : Lcu} (hw : l.waiting = none) : l.KeepsOpen l.abandonBurst := by
  unfold Lcu.abandonBurst
  split
  · exact keepsOpen_of_capture rfl rfl rfl rfl rfl
  · next h hh => exact keepsOpen_endBurst hw hh (.abandon h) rfl rfl rfl rfl hw rfl

theorem handle_abandonBurst (l : Lcu) : l.abandonBurst.handle = none := by
  unfold Lcu.abandonBurst; split
  · next h => exact h
  · rfl

/-- Without a handle the capture state is free. -/
theorem keepsOpen_of_no_handle {l m : Lcu} (hn : m.handle = none) (hl : l.handle = none) (ha : m.answer = l.answer)
    (hw : m.waiting = l.waiting) (ht : m.toStore = l.toStore) : l.KeepsOpen m :=
  keepsOpen_of_fields (hn.trans hl.symm) ha hw ht (fun h => absurd hn h)

/-- A change of other fields after an open burst was abandoned. -/
theorem keepsOpen_after_abandon {l m : Lcu} (hw : l.waiting = none) (h1 : m.handle = l.abandonBurst.handle)
    (ha : m.answer = l.abandonBurst.answer) (hwm : m.waiting = l.abandonBurst.waiting)
    (ht : m.toStore = l.abandonBurst.toStore) : l.KeepsOpen m :=
  (keepsOpen_abandonBurst hw).trans
    (keepsOpen_of_no_handle (h1.trans (handle_abandonBurst l)) (handle_abandonBurst l) ha hwm ht)

/-- A purge asks for nothing and ends nothing. -/
theorem keepsOpen_purge {l m : Lcu} (hw : l.waiting = none) (hh : m.handle = l.handle) (ha : m.answer = l.answer)
    (hwm : m.waiting = l.waiting) (ht : m.toStore = l.toStore.push .purge) (hc : m.capture = l.capture) : l.KeepsOpen m := by
  intro g p c h
  obtain ⟨hans, hmsgs⟩ := asksNothing_of_askSound h.1 hw
  unfold Lcu.openSound Lcu.askSound Lcu.handles at *
  rw [hh, ha, hwm, ht, hc]
  refine ⟨⟨h.1.1, h.1.2.1, ?_⟩, fun hg => ?_, fun hg => ?_⟩
  · rw [hw, hans]; intro x hx
    simp only [Mailbox.push, List.mem_append, List.mem_singleton] at hx
    rcases hx with hx | rfl
    · exact hmsgs x hx
    · rfl
  · have e : (l.toStore.push .purge).msgs.filterMap StoreRequest.ends = l.toStore.msgs.filterMap StoreRequest.ends := by
      simp [Mailbox.push, StoreRequest.ends]
    rw [e]; exact h.2.1 hg
  · obtain ⟨a1, a2, a3, a4, a5, a6⟩ := h.2.2 hg
    refine ⟨a1, a2, a3, by simp only [Mailbox.push]; simp; omega, ?_, ?_⟩
    · simp only [Mailbox.push]; rw [List.take_append_of_le_length a4]; exact a5
    · simp only [Mailbox.push]; rw [List.drop_append_of_le_length a4]
      intro x hx; simp at hx; rcases hx with hx | rfl
      · exact a6 x hx
      · rfl

/-- It asks once, in OPEN, and for a descriptor without holding one. -/
theorem keepsOpen_ask {l m : Lcu} (hw : l.waiting = none) (w : LcuWait) (r : StoreRequest) (hr : w.asks r = true)
    (hh : m.handle = l.handle) (ha : m.answer = l.answer) (hwm : m.waiting = some w) (ht : m.toStore = l.toStore.push r)
    (hc : m.capture = .opened)
    (hd : ∀ e, w = .descriptor e → l.handle = none) : l.KeepsOpen m := by
  intro g p c h
  have he : r.ends = none := by cases w <;> cases r <;> simp [LcuWait.asks] at hr <;> rfl
  obtain ⟨hans, hmsgs⟩ := asksNothing_of_askSound h.1 hw
  unfold Lcu.openSound Lcu.askSound Lcu.handles at *
  rw [hh, ha, hwm, ht, hc]
  refine ⟨⟨fun _ => rfl, fun e he => hd e (by simpa using he), ?_⟩, fun hg => ?_, fun hg => ?_⟩
  · rw [hans]; exact ⟨l.toStore.msgs, r, rfl, hr, hmsgs⟩
  · have := h.2.1 hg
    simpa [Mailbox.push, he] using this
  · obtain ⟨a1, a2, a3, a4, a5, a6⟩ := h.2.2 hg
    refine ⟨a1, a2, a3, by simp only [Mailbox.push]; simp; omega, ?_, ?_⟩
    · simp only [Mailbox.push]; rw [List.take_append_of_le_length a4]; exact a5
    · simp only [Mailbox.push]; rw [List.drop_append_of_le_length a4]
      intro x hx; simp at hx; rcases hx with hx | rfl
      · exact a6 x hx
      · exact he

/-- It takes the answer it waits for, and with it the granted handle. -/
theorem keepsOpen_answered {l m : Lcu} {w : LcuWait} {a : LcuAnswer} (hw : l.waiting = some w) (hla : l.answer = some a)
    (hwm : m.waiting = none) (ha : m.answer = none) (ht : m.toStore = l.toStore)
    (hh : m.handle.toList = l.handle.toList ++ a.handle.toList ∨ (a.handle = none ∧ m.handle = l.handle))
    (hc : m.handle ≠ none → m.capture = .opened) : l.KeepsOpen m := by
  intro g p c h
  have h2 := h.1.2.2
  rw [hw, hla] at h2
  refine ⟨⟨hc, fun e he => (by rw [hwm] at he; cases he), ?_⟩, fun hg => ?_, fun hg => ?_⟩
  · rw [hwm, ha, ht]; exact h2.1
  · have := h.2.1 hg
    have e : m.handles = l.handles := by
      unfold Lcu.handles; rw [ha, hla, ht]
      rcases hh with hh | ⟨h3, h4⟩
      · rw [hh]; simp
      · rw [h4]; simp [h3]
    rw [e]; exact this
  · have := (h.2.2 hg).2.2.1; rw [hla] at this; cases this

/-! ## The operations of an LCU -/

theorem keepsOpen_settle (l : Lcu) : l.KeepsOpen l.settle := keepsOpen_of_capture rfl rfl rfl rfl rfl

theorem keepsOpen_countGlitch (l : Lcu) : l.KeepsOpen l.countGlitch := by
  unfold Lcu.countGlitch; split <;> exact keepsOpen_of_capture rfl rfl rfl rfl rfl

theorem keepsOpen_closeBurst {l : Lcu} (hw : l.waiting = none) : l.KeepsOpen l.closeBurst := by
  unfold Lcu.closeBurst; split
  · next hn => exact keepsOpen_of_no_handle hn hn rfl rfl rfl
  · next h hh => exact keepsOpen_endBurst hw hh (.close h l.elementStart) rfl rfl rfl rfl hw rfl

theorem keepsOpen_goStuck {l : Lcu} (hw : l.waiting = none) (c) : l.KeepsOpen (l.goStuck c) := by
  unfold Lcu.goStuck; split
  · exact .refl l
  · simp only; split <;> exact keepsOpen_after_abandon hw rfl rfl rfl rfl

/-- The invariant itself rules the handle out. -/
theorem keepsOpen_of_handle_none {l m : Lcu} (hl : ∀ g p c, l.openSound g p c → l.handle = none)
    (hn : m.handle = l.handle) (ha : m.answer = l.answer) (hw : m.waiting = l.waiting) (ht : m.toStore = l.toStore) :
    l.KeepsOpen m := by
  intro g p c h
  exact keepsOpen_of_no_handle (hn.trans (hl g p c h)) (hl g p c h) ha hw ht g p c h

/-- Outside OPEN it has no handle. -/
theorem keepsOpen_of_not_opened {l m : Lcu} (hl : l.capture ≠ .opened) (hn : m.handle = l.handle)
    (ha : m.answer = l.answer) (hw : m.waiting = l.waiting) (ht : m.toStore = l.toStore) : l.KeepsOpen m :=
  keepsOpen_of_handle_none (fun g p c h => by by_contra hx; exact hl (h.1.1 hx)) hn ha hw ht

theorem keepsOpen_takeExpiry {l : Lcu} (hw : l.waiting = none) (c) : l.KeepsOpen (l.takeExpiry c) := by
  unfold Lcu.takeExpiry; split
  · exact keepsOpen_goStuck hw c
  · split
    · exact keepsOpen_closeBurst hw
    · next h => exact keepsOpen_of_not_opened (by simp [h]) rfl rfl rfl rfl
    all_goals exact .refl l

theorem keepsOpen_handleEdge {l : Lcu} (hw : l.waiting = none) (edge accepted now) :
    l.KeepsOpen (l.handleEdge edge accepted now) := by
  unfold Lcu.handleEdge; split
  · next hc =>
    split
    · intro g p c h
      have hn : l.handle = none := by by_contra hx; have := h.1.1 hx; rw [hc] at this; cases this
      exact keepsOpen_ask (m := l.requestDescriptor edge) hw (.descriptor edge) (.descriptor edge)
        (by simp [LcuWait.asks]) rfl rfl rfl rfl rfl (fun _ _ => hn) g p c h
    · exact .refl l
  · next hc =>
    unfold Lcu.endElement; split
    · exact keepsOpen_after_abandon hw rfl rfl rfl rfl
    · split
      · exact .refl l
      · exact keepsOpen_ask hw (.write edge) (.write _ _ _) rfl rfl rfl rfl rfl hc (fun _ h => by cases h)
  · exact keepsOpen_of_capture rfl rfl rfl rfl rfl
  · next hc =>
    split
    · exact .refl l
    · exact keepsOpen_of_not_opened (by simp [hc]) rfl rfl rfl rfl
  all_goals exact .refl l

theorem keepsOpen_takeClaim {l : Lcu} (hw : l.waiting = none) : l.KeepsOpen l.takeClaim := by
  unfold Lcu.takeClaim; simp only
  split
  · split
    · exact keepsOpen_of_capture rfl rfl rfl rfl rfl
    · exact (keepsOpen_of_capture (l := l) (m := { l with blankCount := min (l.blankCount + 1) 2 }) rfl rfl rfl rfl
        rfl).trans (keepsOpen_after_abandon (l := { l with blankCount := min (l.blankCount + 1) 2 }) hw rfl rfl rfl rfl)
    all_goals next hc => exact keepsOpen_of_not_opened (by simp [hc]) rfl rfl rfl rfl
  · exact keepsOpen_of_capture rfl rfl rfl rfl rfl

theorem keepsOpen_takeDrop {l : Lcu} (now) : l.KeepsOpen (l.takeDrop now) := by
  unfold Lcu.takeDrop; simp only
  split
  · next hc => exact keepsOpen_of_not_opened (by simp [hc.2]) rfl rfl rfl rfl
  · exact keepsOpen_of_capture rfl rfl rfl rfl rfl

theorem keepsOpen_takeSample (l : Lcu) (x) : l.KeepsOpen (l.takeSample x) := by
  unfold Lcu.takeSample; split <;> exact keepsOpen_of_capture rfl rfl rfl rfl rfl

theorem keepsOpen_enable (l : Lcu) (now) : l.KeepsOpen (l.enable now) := by
  unfold Lcu.enable; split
  · next hc => split <;> exact keepsOpen_of_not_opened (by simp [hc]) rfl rfl rfl rfl
  · exact .refl l

theorem keepsOpen_disable {l : Lcu} (hw : l.waiting = none) : l.KeepsOpen l.disable := by
  unfold Lcu.disable; simp only
  split
  · exact keepsOpen_purge hw rfl rfl rfl rfl rfl
  · exact (keepsOpen_after_abandon (m := { l.abandonBurst with capture := .disabled, measuringStart := none }) hw rfl
      rfl rfl rfl).trans (keepsOpen_purge ((Lcu.waiting_abandonBurst l).trans hw) rfl rfl rfl rfl rfl)

theorem keepsOpen_flush {l : Lcu} (hw : l.waiting = none) (now) : l.KeepsOpen (l.flush now) := by
  unfold Lcu.flush; simp only
  split
  · exact keepsOpen_purge hw rfl rfl rfl rfl rfl
  · split
    · exact (keepsOpen_after_abandon (m := { l.abandonBurst with capture := .blanked, measuringStart := none }) hw rfl
        rfl rfl rfl).trans (keepsOpen_purge ((Lcu.waiting_abandonBurst l).trans hw) rfl rfl rfl rfl rfl)
    · exact (keepsOpen_after_abandon (m := l.abandonBurst.toDiscard now) hw rfl rfl rfl rfl).trans
        (keepsOpen_purge ((Lcu.waiting_abandonBurst l).trans hw) rfl rfl rfl rfl rfl)

theorem keepsOpen_applySettings (l : Lcu) (x now) : l.KeepsOpen (l.applySettings x now) := by
  unfold Lcu.applySettings; simp only
  split
  · split <;> exact keepsOpen_of_capture rfl rfl rfl rfl rfl
  · exact keepsOpen_of_capture rfl rfl rfl rfl rfl

/-! ## The store takes a request -/

/-- The store takes a request that asks for nothing, and leaves no open descriptor that the request ends. -/
theorem openSound_pop {g : Prop} {p p' : PulseStore} {l : Lcu} {c : Channel} {m : StoreRequest}
    {rest : List StoreRequest} (h : l.openSound g p c) (hm : l.toStore.msgs = m :: rest) (ha : m.answered = false)
    (hg : g → l.toStore.early ≠ 0) (ho : ∀ k, p'.openFor k c = true → p.openFor k c = true ∧ m.ends ≠ some k) :
    Lcu.openSound { l with toStore := l.toStore.pop, answer := l.answer } g p' c := by
  refine ⟨⟨h.1.1, h.1.2.1, ?_⟩, fun hng => ?_, fun hgg => ?_⟩
  · have h2 := h.1.2.2
    simp only [Mailbox.pop, hm, List.tail_cons] at *
    split at h2
    · next e1 e2 => exact fun x hx => h2 x (by simp [hx])
    · exact h2
    · next w e1 e2 =>
      obtain ⟨before, m', e, hw, hb⟩ := h2
      cases before with
      | nil =>
        simp at e; obtain ⟨rfl, rfl⟩ := e
        cases w <;> cases m <;> simp [LcuWait.asks, StoreRequest.answered] at hw ha
      | cons b bs =>
        simp at e; obtain ⟨rfl, rfl⟩ := e
        exact ⟨bs, m', rfl, hw, fun x hx => hb x (by simp [hx])⟩
    · exact ⟨fun x hx => h2.1 x (by simp [hx]), h2.2⟩
  · obtain ⟨h1, h2⟩ := h.2.1 hng
    simp only [Lcu.handles, Mailbox.pop, hm, List.tail_cons, List.filterMap_cons] at *
    cases he : m.ends with
    | none => rw [he] at h1 h2; exact ⟨h1, fun k hk => h2 k (ho k hk).1⟩
    | some e =>
      rw [he] at h1 h2
      simp at h1 h2 ⊢
      refine ⟨by omega, fun k hk => ?_⟩
      obtain ⟨hk1, hk2⟩ := ho k hk
      rw [he] at hk2
      have := h2 k hk1
      rcases this with h | h | h | h
      · exact .inl h
      · exact .inr (.inl h)
      · subst h; exact absurd rfl hk2
      · exact .inr (.inr h)
  · obtain ⟨a1, a2, a3, a4, a5, a6⟩ := h.2.2 hgg
    have hne := hg hgg
    obtain ⟨n, hn⟩ : ∃ n, l.toStore.early = n + 1 := ⟨l.toStore.early - 1, by omega⟩
    rw [hm, hn] at a4 a5 a6
    simp at a4
    refine ⟨fun a b ha hb => a1 a b (ho a ha).1 (ho b hb).1, a2, a3, ?_, ?_, ?_⟩
    · simp [Mailbox.pop, hm, hn]; omega
    · simp only [Mailbox.pop, hm, hn, List.tail_cons, Nat.add_sub_cancel]; exact fun x hx => a5 x (by simp [hx])
    · simp only [Mailbox.pop, hm, hn, List.tail_cons, Nat.add_sub_cancel]; exact fun x hx => a6 x (by simpa using hx)

/-- The store takes a request and answers it, and only a grant opens a descriptor. -/
theorem openSound_answer {g : Prop} {p p' : PulseStore} {l : Lcu} {c : Channel} {m : StoreRequest}
    {rest : List StoreRequest} (h : l.openSound g p c) (hm : l.toStore.msgs = m :: rest) (ha : m.answered = true)
    (hg : g → l.toStore.early ≠ 0) (a : LcuAnswer) (hd : ∀ h, a = .granted h → ∃ t, m = .descriptor t)
    (ho : ∀ k, p'.openFor k c = true → p.openFor k c = true ∨ a.handle = some k) :
    ¬ g ∧ Lcu.openSound { l with toStore := l.toStore.pop, answer := some a } g p' c := by
  have hng : ¬ g := by
    intro hgg
    obtain ⟨a1, a2, a3, a4, a5, a6⟩ := h.2.2 hgg
    have hne := hg hgg
    obtain ⟨n, hn⟩ : ∃ n, l.toStore.early = n + 1 := ⟨l.toStore.early - 1, by omega⟩
    have := a5 m (by rw [hm, hn]; simp)
    rw [ha] at this; cases this
  refine ⟨hng, ?_⟩
  have h2 := h.1.2.2
  have hnot : ¬ ∀ x ∈ l.toStore.msgs, x.answered = false := by
    intro hx; have := hx m (by simp [hm]); rw [ha] at this; cases this
  split at h2
  · exact absurd h2 hnot
  · exact h2.elim
  · next w e1 e2 =>
    obtain ⟨before, m', e, hw, hb⟩ := h2
    cases before with
    | cons b bs => rw [hm] at e; simp at e; have := hb b (by simp); rw [← e.1, ha] at this; cases this
    | nil =>
      rw [hm] at e; simp at e; obtain ⟨rfl, rfl⟩ := e
      have hdw : ∀ k, a = .granted k → (∃ t, w = .descriptor t) ∧ l.handle = none := by
        intro k hk; obtain ⟨t, rfl⟩ := hd k hk
        cases w with
        | descriptor t => exact ⟨⟨t, rfl⟩, h.1.2.1 t e1⟩
        | write t => simp [LcuWait.asks] at hw
      refine ⟨⟨h.1.1, h.1.2.1, ?_⟩, fun _ => ?_, fun hgg => absurd hgg hng⟩
      · simp only [e1]; exact ⟨by simp [Mailbox.pop, hm], fun k hk => (hdw k hk).1⟩
      · obtain ⟨h3, h4⟩ := h.2.1 hng
        simp only [Lcu.handles, Mailbox.pop, hm, List.tail_cons, e2, List.filterMap_cons] at *
        cases hah : a.handle with
        | none =>
          have hme : m.ends = none := by cases m <;> simp [StoreRequest.answered] at ha <;> rfl
          refine ⟨by cases l.handle <;> simp [hah], fun k hk => ?_⟩
          have h5 := h4 k ((ho k hk).resolve_right (by simp [hah]))
          simpa [hme, hah] using h5
        | some k0 =>
          obtain ⟨_, hn⟩ := hdw k0 (by cases a <;> simp [LcuAnswer.handle] at hah; rw [hah])
          have hme : m.ends = none := by cases m <;> simp [StoreRequest.answered] at ha <;> rfl
          rw [hme] at h3 h4
          refine ⟨by simp [hn, hah], fun k hk => ?_⟩
          rcases ho k hk with h | h
          · have := h4 k h; simp [hn] at this
          · rw [hah] at h; cases h; simp [hn, hah]
  · exact absurd h2.1 hnot

/-! ## The whole state -/

/-- A change of one LCU that keeps its open descriptor. -/
theorem openSound_setLcu {s : State} (h : s.openSound) (d : Channel) {l : Lcu} (hl : (s.lcu d).KeepsOpen l) :
    (s.setLcu d l).openSound := by
  refine ⟨h.1, h.2.1, fun c => ?_⟩
  show ((s.setLcu d l).lcu c).openSound (s.awaitsStoreReset c) s.pst c
  rw [State.lcu_setLcu]; split
  · next e => subst e; exact hl _ _ _ (h.2.2 c)
  · exact h.2.2 c

/-- Changes of the LCUs and of the store that each keep the open descriptors. -/
theorem openSound_of {s t : State} (h : s.openSound) (hb : t.resetParts = s.resetParts)
    (hl : ∀ c, (s.lcu c).KeepsOpen (t.lcu c)) (hp : ∀ k c, t.pst.openFor k c = true → s.pst.openFor k c = true) :
    t.openSound := by
  refine ⟨hb ▸ h.1, hb ▸ h.2.1, fun c => ?_⟩
  have hg : t.awaitsStoreReset c = s.awaitsStoreReset c := by unfold State.awaitsStoreReset; rw [hb]
  show (t.lcu c).openSound (t.awaitsStoreReset c) t.pst c
  rw [hg]
  have := hl c _ _ _ (h.2.2 c)
  exact ⟨this.1, fun hn => ⟨(this.2.1 hn).1, fun k hk => (this.2.1 hn).2 k (hp k c hk)⟩, fun hg =>
    ⟨fun a b ha hb => (this.2.2 hg).1 a b (hp a c ha) (hp b c hb), (this.2.2 hg).2⟩⟩

/-- A part that is answered no longer waits. -/
theorem resetParts_answerPart (s : State) (p : Part) (a : PartAnswer) :
    (s.answerPart p a).resetParts = s.resetParts.erase p := by
  unfold State.resetParts State.inFlightAs State.answerPart Bcu.answerPart
  cases hf : s.bcu.inFlight with
  | none => simp [hf]
  | some f =>
    by_cases hc : f.cmd = some .runReset
    · simp [Option.filter, hc]
    · have : (f.cmd == some Cmd.runReset) = false := by simp [hc]
      simp [Option.filter, this]

/-- No part of a RUN_RESET waits while another command is in flight. -/
theorem resetParts_of_other (s : State) (f : InFlight) (hf : s.bcu.inFlight = some f) (hc : f.cmd ≠ some .runReset) :
    s.resetParts = [] := by
  unfold State.resetParts State.inFlightAs
  have : (f.cmd == some Cmd.runReset) = false := by simp [hc]
  simp [hf, Option.filter, this]

/-- The answer of a part that is neither the store's nor an LCU's. -/
theorem openSound_answerPart {s : State} (h : s.openSound) (p : Part) (a : PartAnswer) (h1 : p ≠ .pst)
    (h2 : ∀ c, p ≠ .lcu c) : (s.answerPart p a).openSound := by
  have hb := resetParts_answerPart s p a
  have m1 : ∀ q, q ≠ p → (q ∈ s.resetParts.erase p ↔ q ∈ s.resetParts) := fun q hq => List.mem_erase_of_ne hq
  refine ⟨by rw [hb]; exact h.1.erase _, fun c hc => ?_, fun c => ?_⟩
  · rw [hb] at hc ⊢; rw [m1 _ h1.symm]; rw [m1 _ (h2 c).symm] at hc; exact h.2.1 c hc
  · have hg : (s.answerPart p a).awaitsStoreReset c = s.awaitsStoreReset c := by
      unfold State.awaitsStoreReset; rw [hb, m1 _ h1.symm, m1 _ (h2 c).symm]
    show (s.lcu c).openSound ((s.answerPart p a).awaitsStoreReset c) s.pst c
    rw [hg]; exact h.2.2 c

/-- The command unit accepts a command, or completes one, while no RUN_RESET is in flight. -/
theorem openSound_setBcu_of_none {s : State} (h : s.openSound) (hr : s.resetParts = []) (b : Bcu)
    (hb : ∀ f, b.inFlight = some f → f.cmd = some .runReset →
      f.parts.Nodup ∧ (∀ c, Part.lcu c ∈ f.parts) ∧ Part.pst ∈ f.parts) :
    (s.setBcu b).openSound := by
  have hparts : (s.setBcu b).resetParts = [] ∨ ((s.setBcu b).resetParts.Nodup
      ∧ (∀ c, Part.lcu c ∈ (s.setBcu b).resetParts) ∧ Part.pst ∈ (s.setBcu b).resetParts) := by
    unfold State.resetParts State.inFlightAs
    cases hf : b.inFlight with
    | none => simp [hf]
    | some f =>
      by_cases hc : f.cmd = some .runReset
      · right; simp [hf, Option.filter, hc]; exact hb f hf hc
      · left; have : (f.cmd == some Cmd.runReset) = false := by simp [hc]
        simp [hf, Option.filter, this]
  refine ⟨?_, ?_, fun c => ?_⟩
  · rcases hparts with h | h
    · rw [h]; simp
    · exact h.1
  · intro c hc
    rcases hparts with h | h
    · rw [h] at hc; cases hc
    · exact h.2.2
  · have hg : ¬ (s.setBcu b).awaitsStoreReset c := by
      rintro ⟨g1, g2⟩
      rcases hparts with h | h
      · rw [h] at g1; cases g1
      · exact g2 (h.2.1 c)
    have hg0 : ¬ s.awaitsStoreReset c := by rintro ⟨g1, g2⟩; rw [hr] at g1; cases g1
    have := h.2.2 c
    exact ⟨this.1, fun _ => this.2.1 hg0, fun hh => absurd hh hg⟩

/-- A change of the command unit beside the command in flight. -/
theorem openSound_setBcu {s : State} (h : s.openSound) {b : Bcu} (hb : b.inFlight = s.bcu.inFlight) :
    (s.setBcu b).openSound := by
  refine openSound_of h ?_ (fun c => Lcu.KeepsOpen.refl _) (fun _ _ h => h)
  unfold State.resetParts State.inFlightAs; simp [hb]

/-- The write of an opcode. -/
theorem openSound_writeOpcode {s : State} (h : s.openSound) (hs : s.bcu.sound) (op : Byte) :
    (s.setBcu (s.bcu.writeOpcode op)).openSound := by
  by_cases hbusy : s.bcu.cmdState = .busy
  · rw [Bcu.writeOpcode_busy op hbusy]; exact openSound_setBcu h rfl
  · have hin : s.bcu.inFlight = none := by
      have := hs.1.not.mp hbusy; simpa using this
    refine openSound_setBcu_of_none h (by unfold State.resetParts State.inFlightAs; simp [hin]) _ ?_
    intro f hf hc
    unfold Bcu.writeOpcode at hf
    rw [if_neg hbusy] at hf
    simp only [Option.some.injEq] at hf
    subst hf
    simp only at hc ⊢
    rw [hc]
    simp only [commandParts]
    refine ⟨by decide, fun c => ?_, by decide⟩
    fin_cases c <;> decide

/-- The taking of a command other than RUN_RESET. -/
theorem openSound_takeCommand {s : State} (h : s.openSound) {cmd : Cmd} (hne : cmd ≠ .runReset)
    {owner : InFlight → State} (ho : ∀ f, s.bcu.inFlight = some f → f.cmd = some cmd → (owner f).openSound) :
    (s.takeCommand cmd owner).openSound := by
  rcases s.takeCommand_cases cmd owner with e | ⟨e', e⟩ | ⟨f, hf, hc, _, e⟩
  · rw [e]; exact h
  · rw [e]
    -- completion
    by_cases hin : s.inFlightAs cmd = none
    · have : s.takeCommand cmd owner = s := by unfold State.takeCommand; rw [hin]
      rw [← e, this]; exact h
    · obtain ⟨f, hf⟩ := Option.ne_none_iff_exists'.mp hin
      simp only [State.inFlightAs, Option.filter_eq_some_iff, beq_iff_eq] at hf
      refine openSound_setBcu_of_none h (resetParts_of_other s f hf.1 (by rw [hf.2]; simpa using hne)) _ ?_
      intro f' hf'; simp [Bcu.complete] at hf'
  · rw [e]; exact ho f hf hc

/-- The answer of a part while no RUN_RESET is in flight. -/
theorem openSound_answerPart_of_none {s : State} (h : s.openSound) (hr : s.resetParts = []) (p a) :
    (s.answerPart p a).openSound := by
  have hb := resetParts_answerPart s p a; rw [hr] at hb
  exact openSound_of h (by rw [hb, hr]; rfl) (fun c => Lcu.KeepsOpen.refl _) (fun _ _ h => h)

/-! ## The store's operations open nothing but a grant -/

/-- No descriptor is open in the second store that is not open in the first. -/
def PulseStore.OpensNoMore (p q : PulseStore) : Prop := ∀ k c, q.openFor k c = true → p.openFor k c = true

theorem PulseStore.OpensNoMore.refl (p : PulseStore) : p.OpensNoMore p := fun _ _ h => h

theorem PulseStore.OpensNoMore.trans {a b c : PulseStore} (h1 : a.OpensNoMore b) (h2 : b.OpensNoMore c) : a.OpensNoMore c :=
  fun k d h => h1 k d (h2 k d h)

/-- An open descriptor of a channel. -/
theorem PulseStore.openFor_iff (p : PulseStore) (k c) :
    p.openFor k c = true ↔ (p.descriptor k).state = .opened ∧ (p.descriptor k).channel = c := by
  simp [PulseStore.openFor]

/-- One descriptor changes, and is OPEN afterwards only for the channel for which it was. -/
theorem opensNoMore_setDescriptor (p : PulseStore) (h : Handle) (d : Descriptor)
    (hd : d.state = .opened → (p.descriptor h).state = .opened ∧ d.channel = (p.descriptor h).channel) (q : PulseStore)
    (hq : q.descriptors = (p.setDescriptor h d).descriptors) : p.OpensNoMore q := by
  intro k c hk
  have e : ∀ k, q.descriptor k = (p.setDescriptor h d).descriptor k := by intro k; unfold PulseStore.descriptor; rw [hq]
  rw [PulseStore.openFor_iff, e, PulseStore.descriptor_setDescriptor] at hk
  rw [PulseStore.openFor_iff]
  split at hk
  · next e => subst e; obtain ⟨h1, h2⟩ := hk; have := hd h1; exact ⟨this.1, this.2 ▸ h2⟩
  · exact hk

theorem opensNoMore_free (p : PulseStore) (h) : p.OpensNoMore (p.free h) :=
  opensNoMore_setDescriptor p h .freed (by simp [Descriptor.freed]) _ rfl

theorem opensNoMore_purge (p : PulseStore) (c) : p.OpensNoMore (p.purge c) := by
  unfold PulseStore.purge
  generalize List.finRange 16 = hs
  induction hs generalizing p with
  | nil => exact .refl p
  | cons h hs ih =>
    refine PulseStore.OpensNoMore.trans ?_ (ih _)
    unfold PulseStore.purgeOne; simp only
    split
    · split
      · exact opensNoMore_setDescriptor p h .freed (by simp [Descriptor.freed]) _ rfl
      · next hst => exact opensNoMore_setDescriptor p h _ (by simp [hst]) _ rfl
      all_goals exact .refl p
    · exact .refl p

theorem opensNoMore_take (p : PulseStore) : p.OpensNoMore p.take.1 := by
  unfold PulseStore.take; split
  · exact .refl p
  · next h rest _ => exact opensNoMore_setDescriptor p h _ (by simp) _ rfl

theorem opensNoMore_finish (p : PulseStore) (h d) : p.OpensNoMore (p.finish h d).1 := by
  unfold PulseStore.finish; split
  · split
    · exact opensNoMore_free p h
    · split
      · exact opensNoMore_free p h
      · split
        · exact opensNoMore_setDescriptor p h _ (by simp) _ rfl
        · exact opensNoMore_free p h
  · exact .refl p

theorem opensNoMore_dropHostHold (p : PulseStore) (h) : p.OpensNoMore (p.dropHostHold h) := by
  unfold PulseStore.dropHostHold; split
  · split
    · exact opensNoMore_free p h
    · next hh _ => exact opensNoMore_setDescriptor p h _ (by simp [PulseStore.hostHeld] at hh; simp [hh.1]) _ rfl
  · exact .refl p

theorem opensNoMore_dropTransmitHold (p : PulseStore) (h) : p.OpensNoMore (p.dropTransmitHold h) := by
  unfold PulseStore.dropTransmitHold; simp only; split
  · next hh =>
    split
    · exact opensNoMore_free p h
    · exact opensNoMore_setDescriptor p h _ (by simp [hh.1]) _ rfl
  · exact .refl p

theorem opensNoMore_addTransmitHold (p : PulseStore) (h) : p.OpensNoMore (p.addTransmitHold h).1 := by
  unfold PulseStore.addTransmitHold; split
  · next hh =>
    split
    · exact opensNoMore_setDescriptor p h _ (by simp [PulseStore.hostHeld] at hh; simp [hh.1]) _ rfl
    · exact .refl p
  · exact .refl p

theorem opensNoMore_place (p : PulseStore) (h b n d) : p.OpensNoMore (p.place h b n d) := by
  unfold PulseStore.place
  exact opensNoMore_setDescriptor p h { p.descriptor h with count := (p.descriptor h).count + 1 } (fun h => ⟨h, rfl⟩) _ rfl

theorem opensNoMore_grantBlock (p : PulseStore) (h b) : p.OpensNoMore (p.grantBlock h b) := by
  unfold PulseStore.grantBlock
  exact opensNoMore_setDescriptor p h { p.descriptor h with blocks := (p.descriptor h).blocks ++ [b] }
    (fun h => ⟨h, rfl⟩) _ rfl

theorem opensNoMore_write (p : PulseStore) (c h n d pick) : p.OpensNoMore (p.write c h n d pick).1 := by
  unfold PulseStore.write; split
  · split
    · split
      · exact .refl p
      · exact (opensNoMore_grantBlock p h _).trans (opensNoMore_place _ h _ n d)
    · split
      · exact .refl p
      · exact opensNoMore_place p h _ n d
  · exact .refl p

/-- A change of the store that opens nothing. -/
theorem openSound_setPst {s : State} (h : s.openSound) {p : PulseStore} (hp : s.pst.OpensNoMore p) :
    (s.setPst p).openSound :=
  openSound_of h rfl (fun _ => Lcu.KeepsOpen.refl _) hp

/-- The request that the store may take is the head of the LCU's, and one from before the LCU's part of a RUN_RESET
while the store's waits. -/
theorem storeRequest_head {s : State} {d : Channel} {m : StoreRequest} (h : s.storeRequest d = some m) :
    (∃ rest, (s.lcu d).toStore.msgs = m :: rest) ∧ (s.awaitsStoreReset d → (s.lcu d).toStore.early ≠ 0) := by
  unfold State.storeRequest at h
  split at h
  · next hp =>
    refine ⟨?_, ?_⟩
    · cases hm : (s.lcu d).toStore.msgs with
      | nil => rw [hm] at h; cases h
      | cons x xs => rw [hm] at h; simp at h; exact ⟨xs, by rw [h]⟩
    · rintro ⟨g1, g2⟩ he
      simp [State.storePathOpen, State.resetBetween, g1, g2, he] at hp
  · cases h

/-- The store takes a close, an abandon or a purge. -/
theorem openSound_storeTook {s : State} (h : s.openSound) {d : Channel} {m : StoreRequest}
    (hm : s.storeRequest d = some m) (ha : m.answered = false) {p : PulseStore} (hp : s.pst.OpensNoMore p)
    (he : ∀ k, m.ends = some k → p.openFor k d = false) :
    (s.storeTook d p (s.lcu d).answer).openSound := by
  obtain ⟨⟨rest, hr⟩, hg⟩ := storeRequest_head hm
  refine ⟨h.1, h.2.1, fun c => ?_⟩
  show ((s.storeTook d p (s.lcu d).answer).lcu c).openSound (s.awaitsStoreReset c) p c
  unfold State.storeTook
  rw [State.lcu_setLcu]; split
  · next e =>
    subst e
    refine openSound_pop (h.2.2 c) hr ha hg (fun k hk => ⟨hp k c hk, fun e => ?_⟩)
    rw [he k e] at hk; cases hk
  · have := h.2.2 c
    exact ⟨this.1, fun hn => ⟨(this.2.1 hn).1, fun k hk => (this.2.1 hn).2 k (hp k c hk)⟩, fun hg =>
      ⟨fun a b ha hb => (this.2.2 hg).1 a b (hp a c ha) (hp b c hb), (this.2.2 hg).2⟩⟩

/-- The store takes and answers a descriptor request or a write. -/
theorem openSound_storeAnswered {s : State} (h : s.openSound) {d : Channel} {m : StoreRequest}
    (hm : s.storeRequest d = some m) (ha : m.answered = true) {p : PulseStore} (a : LcuAnswer)
    (hd : ∀ h, a = .granted h → ∃ t, m = .descriptor t)
    (hp : ∀ k c, p.openFor k c = true → s.pst.openFor k c = true ∨ (c = d ∧ a.handle = some k)) :
    (s.storeTook d p (some a)).openSound := by
  obtain ⟨⟨rest, hr⟩, hg⟩ := storeRequest_head hm
  refine ⟨h.1, h.2.1, fun c => ?_⟩
  show ((s.storeTook d p (some a)).lcu c).openSound (s.awaitsStoreReset c) p c
  unfold State.storeTook
  rw [State.lcu_setLcu]; split
  · next e =>
    subst e
    exact (openSound_answer (h.2.2 c) hr ha hg a hd (fun k hk => (hp k c hk).imp_right And.right)).2
  · next hne =>
    have hp : ∀ k, p.openFor k c = true → s.pst.openFor k c = true := fun k hk =>
      (hp k c hk).resolve_right (fun h => hne h.1)
    have := h.2.2 c
    exact ⟨this.1, fun hn => ⟨(this.2.1 hn).1, fun k hk => (this.2.1 hn).2 k (hp k hk)⟩, fun hg =>
      ⟨fun a b ha hb => (this.2.2 hg).1 a b (hp a ha) (hp b hb), (this.2.2 hg).2⟩⟩

/-- Claims and drops on their way. -/
theorem openSound_sendClaims {s : State} (h : s.openSound) (o) (set) (msg) : (s.sendClaims o set msg).openSound := by
  unfold State.sendClaims
  have : ∀ (l : List Channel) (s : State), s.openSound → (l.foldl (fun s c =>
      if set.getLsbD c.val then s.setLcu c ((s.lcu c).setClaims o ((s.lcu c).claimsOf o ++ [msg])) else s) s).openSound := by
    intro l; induction l with
    | nil => intro s h; exact h
    | cons d ds ih =>
      intro s h
      simp only [List.foldl_cons]
      apply ih
      split
      · exact openSound_setLcu h d (keepsOpen_of_capture rfl rfl rfl rfl rfl)
      · exact h
  exact this _ s h

theorem openSound_endTail {s : State} (h : s.openSound) (o) : (s.endTail o).openSound := by
  unfold State.endTail
  simp only
  split
  · exact h
  · exact openSound_sendClaims (s := s) h _ _ _

theorem openSound_enterTail {s : State} (h : s.openSound) (o e m) : (s.enterTail o e m).openSound := by
  unfold State.enterTail
  simp only
  split
  · split
    · exact openSound_endTail (s := s.setEngine o _) h o
    · exact h
  · exact h

/-- A part that is due waits, and those before it do not. -/
theorem resetDue_mem {s : State} {p : Part} {l : List Part} (h : s.resetDue p l = true) :
    p ∈ s.resetParts ∧ ∀ q ∈ l, q ∉ s.resetParts := by
  simpa [State.resetDue] using h

end Sys2Proof.Machine
end

