-- ==== Sys2Proof/Laws/Queue.lean ====
section
/-! SUPPORT. The event queue: what each of its operations keeps (R148 to R161). -/

namespace Sys2Proof.Machine

/-- A record placed at the tail with the next number keeps the numbers consecutive (R155). -/
theorem consecutive_append {l : List EventRecord} {next : Half} (h : consecutive l next) (x : EventRecord) (hx : x.seq = next) :
    consecutive (l ++ [x]) (next + 1) := by
  induction l with
  | nil => simp [consecutive, hx]
  | cons a l ih =>
    cases l with
    | nil =>
      have h' : a.seq + 1 = next := h
      exact ⟨h'.trans hx.symm, congrArg (· + 1) hx⟩
    | cons b l =>
      simp only [consecutive] at h
      exact ⟨h.1, ih h.2⟩

/-- The rest of a queue is numbered like the queue. -/
theorem consecutive_tail {x : EventRecord} {l : List EventRecord} {next : Half} (h : consecutive (x :: l) next) :
    consecutive l next := by
  cases l with
  | nil => trivial
  | cons y l => exact h.2

/-- A placed record keeps the queue sound while a place is free. -/
theorem EventQueue.sound_place {q : EventQueue} (h : q.sound) (a : Append) (now : Time) (hn : q.occupancy < 64) :
    (q.place a now).sound := by
  obtain ⟨_, h2, h3, h4, h5, _⟩ := h
  refine ⟨?_, consecutive_append h2 _ rfl, h3, h4, h5, ?_⟩
  · rw [EventQueue.occupancy_place]
    exact hn
  · intro he
    simp [EventQueue.place] at he

/-- The OVERRUN keeps the queue sound. -/
theorem EventQueue.sound_insertOverrun {q : EventQueue} (h : q.sound) (now : Time) : (q.insertOverrun now).sound := by
  rcases q.insertOverrun_cases now with e | ⟨_, hn, e⟩ <;> rw [e]
  · exact h
  · have := EventQueue.sound_place h { source := 0, stamp := now, body := .overrun q.lost } now (Nat.lt_trans hn (by decide))
    obtain ⟨h1, h2, h3, h4, _, h6⟩ := this
    exact ⟨h1, h2, h3, h4, by simp, h6⟩

/-- Taking an append keeps the queue sound. -/
theorem EventQueue.sound_take {q : EventQueue} (h : q.sound) (a : Append) (now : Time) : (q.take a now).1.sound := by
  have h' := EventQueue.sound_insertOverrun h now
  unfold EventQueue.take
  rcases (q.insertOverrun now).judge_cases a now with ⟨hn, e⟩ | ⟨_, e⟩ <;> rw [e]
  · exact EventQueue.sound_place h' a now (Nat.lt_of_lt_of_le hn (admissionLimit_le _))
  · obtain ⟨h1, h2, h3, h4, _, h6⟩ := h'
    exact ⟨h1, h2, h3, h4, ⟨fun _ => bump_ne_zero _, fun _ => rfl⟩, h6⟩

/-- A judgement of EV_AGE keeps the queue sound. -/
theorem EventQueue.sound_rejudgeAge {q : EventQueue} (h : q.sound) (now : Time) : (q.rejudgeAge now).sound := by
  obtain ⟨h1, h2, h3, h4, h5, _⟩ := h
  refine ⟨h1, h2, h3, h4, h5, fun he => ?_⟩
  have : q.records = [] := he
  simp [EventQueue.rejudgeAge, EventQueue.headAged, this]

/-- A removal keeps the queue sound. -/
theorem EventQueue.sound_removeHead {q : EventQueue} (h : q.sound) (now : Time) : (q.removeHead now).sound := by
  obtain ⟨h1, h2, h3, h4, h5, h6⟩ := h
  unfold EventQueue.removeHead
  split
  · exact ⟨h1, h2, h3, h4, h5, h6⟩
  · next x rest he =>
    rw [he] at h2
    simp only [EventQueue.occupancy, he, List.length_cons, Config.queueCapacity] at h1
    refine ⟨?_, consecutive_tail h2, h3, h4, h5, fun hr => ?_⟩
    · simp only [EventQueue.rejudgeAge, EventQueue.occupancy, Config.queueCapacity]
      omega
    · simp only [EventQueue.rejudgeAge] at hr ⊢
      simp [EventQueue.headAged, hr]

/-- A write of the threshold keeps the queue sound. -/
theorem EventQueue.sound_writeThreshold {q : EventQueue} (h : q.sound) (v : Byte) : (q.writeThreshold v).sound := by
  obtain ⟨h1, h2, h3, h4, h5, h6⟩ := h
  unfold EventQueue.writeThreshold
  split
  · next hv => exact ⟨h1, h2, hv.1, hv.2, h5, h6⟩
  · exact ⟨h1, h2, h3, h4, h5, h6⟩

/-- A write of the age limit keeps the queue sound. -/
theorem EventQueue.sound_writeAge {q : EventQueue} (h : q.sound) (v : Byte) (now : Time) : (q.writeAge v now).sound := by
  obtain ⟨h1, h2, h3, h4, h5, h6⟩ := h
  exact EventQueue.sound_rejudgeAge (q := { q with ageLimit := v }) ⟨h1, h2, h3, h4, h5, h6⟩ now

/-- The age event keeps the queue sound: the queue is not empty. -/
theorem EventQueue.sound_ageEvent {q : EventQueue} (h : q.sound) {now : Time} (ha : q.headAged now = true) :
    ({ q with evAge := true } : EventQueue).sound := by
  obtain ⟨h1, h2, h3, h4, h5, _⟩ := h
  refine ⟨h1, h2, h3, h4, h5, fun he => ?_⟩
  have : q.records = [] := he
  simp [EventQueue.headAged, this] at ha

/-- The queue's part of a RUN_RESET keeps the queue sound. -/
theorem EventQueue.sound_runReset {q : EventQueue} (h : q.sound) : q.runReset.sound := by
  obtain ⟨_, _, h3, h4, _, _⟩ := h
  exact ⟨by simp [EventQueue.runReset, EventQueue.occupancy], trivial, h3, h4, by simp [EventQueue.runReset], fun _ => rfl⟩

/-- The queue after pin reset is sound. -/
theorem EventQueue.sound_reset : EventQueue.reset.sound := by
  refine ⟨by decide, trivial, by decide, by decide, by decide, fun _ => rfl⟩

/-- Delivering an answer does not touch the queue. -/
@[simp] theorem State.evq_deliverAnswer (s : State) (x : Sender) (early : Nat) (b : EventBody) (ok : Bool) :
    (s.deliverAnswer x early b ok).evq = s.evq := by
  rcases s.deliverAnswer_cases x early b ok with e | ⟨_, e⟩ | ⟨_, _, e⟩ <;> rw [e] <;> rfl

/-- Taking an append off its sender's list does not touch the queue. -/
@[simp] theorem State.evq_setOutbox (s : State) (m : Mailbox Append) (x : Sender) : (s.setOutbox m x).evq = s.evq := by
  cases x <;> rfl

end Sys2Proof.Machine
end

