-- ==== Sys2Proof/Laws/Quiet.lean ====
section
/-! SUPPORT. What every command but CHANNEL_SET and PIN_RESET leaves of a Line Capture Unit: its settings (R3), and its appends
on the way but for those taken and for LINE_STUCK (R13). -/

namespace Sys2Proof.Machine

/-- The settings are the same, and every append on the way was on the way before or is a LINE_STUCK. -/
structure LineQuiet (l m : Lcu) : Prop where
  settings : m.settings = l.settings
  appends : ∀ a ∈ m.toQueue.msgs, a ∈ l.toQueue.msgs ∨ a.body = .lineStuck

namespace LineQuiet

theorem of {l m : Lcu} (hs : m.settings = l.settings) (hq : m.toQueue.msgs = l.toQueue.msgs) : LineQuiet l m :=
  ⟨hs, fun _ ha => .inl (hq ▸ ha)⟩

theorem refl (l : Lcu) : LineQuiet l l := of rfl rfl

theorem trans {l m n : Lcu} (h : LineQuiet l m) (k : LineQuiet m n) : LineQuiet l n :=
  ⟨k.settings.trans h.settings, fun a ha => (k.appends a ha).elim (h.appends a) .inr⟩

theorem settle (l : Lcu) : LineQuiet l l.settle := of rfl rfl

theorem takeSample (l : Lcu) (x : Sample) : LineQuiet l (l.takeSample x) :=
  of (Lcu.settings_takeSample l x) (by unfold Lcu.takeSample; split <;> rfl)

theorem abandonBurst (l : Lcu) : LineQuiet l l.abandonBurst :=
  of (Lcu.settings_abandonBurst l) (by unfold Lcu.abandonBurst; split <;> rfl)

theorem closeBurst (l : Lcu) : LineQuiet l l.closeBurst :=
  of (Lcu.settings_closeBurst l) (by unfold Lcu.closeBurst; split <;> rfl)

theorem goStuck (l : Lcu) (c : Channel) : LineQuiet l (l.goStuck c) := by
  refine ⟨Lcu.settings_goStuck l c, fun a ha => ?_⟩
  unfold Lcu.goStuck at ha
  split at ha
  · exact .inl ha
  · simp only at ha
    split at ha
    · simp only [Mailbox.push, List.mem_append, List.mem_singleton] at ha
      rcases ha with ha | ha
      · exact (abandonBurst l).appends a ha
      · exact .inr (by rw [ha])
    · exact (abandonBurst l).appends a ha

theorem takeExpiry (l : Lcu) (c : Channel) : LineQuiet l (l.takeExpiry c) := by
  unfold Lcu.takeExpiry
  split
  · exact goStuck l c
  · split <;> first | exact closeBurst l | exact of rfl rfl

theorem countGlitch (l : Lcu) : LineQuiet l l.countGlitch :=
  of (Lcu.settings_countGlitch l) (by unfold Lcu.countGlitch; split <;> rfl)

theorem endElement (l : Lcu) (edge accepted : Time) : LineQuiet l (l.endElement edge accepted) := by
  unfold Lcu.endElement
  split
  · exact (abandonBurst l).trans (of rfl rfl)
  · split <;> exact of rfl rfl

theorem handleEdge (l : Lcu) (edge accepted now : Time) : LineQuiet l (l.handleEdge edge accepted now) := by
  unfold Lcu.handleEdge
  split
  · split <;> exact of rfl rfl
  · exact endElement l edge accepted
  · exact of rfl rfl
  · split <;> exact of rfl rfl
  · exact of rfl rfl
  · exact of rfl rfl

theorem takeClaim (l : Lcu) : LineQuiet l l.takeClaim := by
  unfold Lcu.takeClaim
  simp only
  split
  · split
    · exact of rfl rfl
    · exact (of rfl rfl : LineQuiet l { l with blankCount := min (l.blankCount + 1) 2 }).trans
        ((abandonBurst _).trans (of rfl rfl))
    all_goals exact of rfl rfl
  · exact of rfl rfl

theorem takeDrop (l : Lcu) (now : Time) : LineQuiet l (l.takeDrop now) := by
  unfold Lcu.takeDrop
  simp only
  split <;> exact of rfl rfl

theorem enable (l : Lcu) (now : Time) : LineQuiet l (l.enable now) := by
  unfold Lcu.enable
  split
  · split <;> exact of rfl rfl
  · exact of rfl rfl

theorem disable (l : Lcu) : LineQuiet l l.disable := by
  unfold Lcu.disable
  simp only
  split
  · exact of rfl rfl
  · exact (abandonBurst l).trans (of rfl rfl)

theorem flush (l : Lcu) (now : Time) : LineQuiet l (l.flush now) := by
  unfold Lcu.flush
  simp only
  split
  · exact of rfl rfl
  · split <;> exact (abandonBurst l).trans (of rfl rfl)

theorem runReset (l : Lcu) (now : Time) : LineQuiet l (l.runReset now) := by
  unfold Lcu.runReset
  simp only
  split <;> exact of rfl rfl

end LineQuiet

/-- Every line of the second state is quiet after the first. -/
def LinesQuiet (s t : State) : Prop := ∀ c, LineQuiet (s.lcu c) (t.lcu c)

namespace LinesQuiet

theorem refl (s : State) : LinesQuiet s s := fun c => .refl (s.lcu c)

theorem of_lcus {s t : State} (h : ∀ c, t.lcu c = s.lcu c) : LinesQuiet s t := fun c => by rw [h c]; exact .refl _

theorem setLcu {s t : State} (h : LinesQuiet s t) (c : Channel) {l : Lcu} (hl : LineQuiet (t.lcu c) l) :
    LinesQuiet s (t.setLcu c l) := by
  intro d
  rw [State.lcu_setLcu]
  split
  · next hd => subst hd; exact (h d).trans hl
  · exact h d

theorem answerPart {s t : State} (h : LinesQuiet s t) (p : Part) (a : PartAnswer) : LinesQuiet s (t.answerPart p a) :=
  fun c => h c

theorem setEngine {s t : State} (h : LinesQuiet s t) (o : Output) (e : Engine) : LinesQuiet s (t.setEngine o e) := fun c => h c

theorem setTxe {s t : State} (h : LinesQuiet s t) (x : Transmit) : LinesQuiet s (t.setTxe x) := fun c => h c

theorem sendClaims {s t : State} (h : LinesQuiet s t) (o : Output) (set : BitVec 4) (msg : ClaimMsg) :
    LinesQuiet s (t.sendClaims o set msg) := by
  unfold State.sendClaims
  generalize allChannels = cs
  induction cs generalizing t with
  | nil => exact h
  | cons c cs ih =>
    simp only [List.foldl_cons]
    split
    · exact ih (h.setLcu c (.of rfl rfl))
    · exact ih h

theorem endTail {s t : State} (h : LinesQuiet s t) (o : Output) : LinesQuiet s (t.endTail o) := by
  unfold State.endTail
  simp only
  split
  · exact h
  · exact h.sendClaims _ _ _

theorem enterTail {s t : State} (h : LinesQuiet s t) (o : Output) (e : Engine) (m : Time) :
    LinesQuiet s (t.enterTail o e m) := by
  unfold State.enterTail
  split
  · split
    · exact (h.setEngine o _).endTail o
    · exact h.setEngine _ _
  · exact h.setEngine _ _

theorem endFrame {s t : State} (h : LinesQuiet s t) (o : Output) (m : Time) : LinesQuiet s (t.endFrame o m) := by
  unfold State.endFrame
  simp only
  split
  · exact h.enterTail _ _ _
  · exact h

theorem stopOutput {s t : State} (h : LinesQuiet s t) (o : Output) : LinesQuiet s (t.stopOutput o) := by
  unfold State.stopOutput
  simp only
  split
  · exact h
  · exact h.enterTail _ _ _
  · exact h
  · exact h

theorem abortTransmit {s t : State} (h : LinesQuiet s t) (o : Output) (purge : Bool) :
    LinesQuiet s (t.abortTransmit o purge) := by
  have hp : LinesQuiet s (if purge then t.purgeOutput o else t) := by
    split <;> exact h
  unfold State.abortTransmit State.abortOutput
  simp only
  split
  · exact hp.enterTail _ _ _
  · exact hp.enterTail _ _ _
  · exact hp
  · exact hp

theorem storeTook {s : State} (c : Channel) (p : PulseStore) (a : Option LcuAnswer) : LinesQuiet s (s.storeTook c p a) :=
  setLcu (t := s.setPst p) (refl s) c (.of rfl rfl)

theorem append {s : State} (x : Sender) (q : EventQueue) (early : Nat) (b : EventBody) (ok : Bool) :
    LinesQuiet s (((s.setEvq q).setOutbox (s.outbox x).pop x).deliverAnswer x early b ok) := by
  have key : LinesQuiet s ((s.setEvq q).setOutbox (s.outbox x).pop x) := by
    cases x with
    | lcu c => exact setLcu (t := s.setEvq q) (refl s) c ⟨rfl, fun _ ha => .inl (List.mem_of_mem_tail ha)⟩
    | sdc => exact refl s
    | mu => exact refl s
    | txo o => exact refl s
  rcases ((s.setEvq q).setOutbox (s.outbox x).pop x).deliverAnswer_cases x early b ok with e | ⟨_, e⟩ | ⟨_, _, e⟩ <;> rw [e]
  · exact key
  · exact fun c => key c
  · exact fun c => key c

end LinesQuiet

/-- Every command but PIN_RESET and CHANNEL_SET leaves every line's settings as they are, and sends no append but LINE_STUCK
from a line. -/
theorem exec_linesQuiet {i : Instr} {s t : State} (hp : i ≠ .pinReset) (hs : i ≠ .channelSet .take)
    (he : exec i s = .next t) : LinesQuiet s t := by
  have h0 := LinesQuiet.refl s
  have take : ∀ cmd owner, (∀ f, LinesQuiet s (owner f)) → LinesQuiet s (s.takeCommand cmd owner) := fun cmd owner ho =>
    State.takeCommand_induct (P := LinesQuiet s) h0 (fun _ => h0) ho
  have part : ∀ f (act : Channel → Lcu → Lcu) (p : Channel → Part) (a : PartAnswer), (∀ c l, LineQuiet l (act c l)) →
      LinesQuiet s (s.lcuPart f fun c l => (s.setLcu c (act c l)).answerPart (p c) a) := fun f act p a ha =>
    State.lcuPart_induct (P := LinesQuiet s) h0 (fun c _ => (h0.setLcu c (ha c _)).answerPart _ _)
  cases i with
  | pinReset => exact absurd rfl hp
  | pendingChangeStart d =>
    simp only [exec, execPendingChangeStart] at he
    split at he <;> cases he
    · exact h0.setLcu d (.of rfl rfl)
    · exact h0
  | pendingChangeCancel d =>
    simp only [exec, execPendingChangeCancel] at he
    split at he <;> cases he
    · refine h0.setLcu d (LineQuiet.trans ?_ (.settle _))
      have hc : LineQuiet (s.lcu d) (Lcu.countGlitch { s.lcu d with change := none }) :=
        (LineQuiet.of rfl rfl : LineQuiet (s.lcu d) { s.lcu d with change := none }).trans (.countGlitch _)
      split
      · exact hc.trans (.takeExpiry _ d)
      · exact hc
    · exact h0
  | acceptedEdge d =>
    simp only [exec, execAcceptedEdge] at he
    split at he
    · split at he <;> cases he
      · exact h0
      · exact h0.setLcu d ((LineQuiet.of rfl rfl : LineQuiet (s.lcu d)
          { s.lcu d with level := !(s.lcu d).level, change := none }).trans ((LineQuiet.handleEdge _ _ _ _).trans (.settle _)))
    · cases he; exact h0
  | descriptorAnswer d =>
    simp only [exec, execDescriptorAnswer] at he
    split at he <;> cases he
    all_goals first | exact h0 | exact h0.setLcu d (.of rfl rfl)
  | writeAnswer d =>
    simp only [exec, execWriteAnswer] at he
    split at he <;> cases he
    · exact h0.setLcu d (.of rfl rfl)
    · exact h0.setLcu d ((LineQuiet.of rfl rfl : LineQuiet (s.lcu d) { s.lcu d with waiting := none, answer := none }).trans
        ((LineQuiet.abandonBurst _).trans (.of rfl rfl)))
    · exact h0
  | endGapExpiry d =>
    simp only [exec, execEndGapExpiry] at he
    split at he <;> cases he
    · exact h0.setLcu d (.closeBurst _)
    · exact h0
  | discardEndGapExpiry d =>
    simp only [exec, execDiscardEndGapExpiry] at he
    split at he <;> cases he
    · exact h0.setLcu d (.of rfl rfl)
    · exact h0
  | stuckLimitExpiry d =>
    simp only [exec, execStuckLimitExpiry] at he
    split at he <;> cases he
    · exact h0.setLcu d (.goStuck _ d)
    · exact h0
  | blankClaim o d =>
    simp only [exec, execBlankClaim] at he
    split at he <;> cases he
    · exact h0.setLcu d ((LineQuiet.of rfl rfl : LineQuiet (s.lcu d) ((s.lcu d).setClaims o _)).trans (.takeClaim _))
    · exact h0
  | claimDrop o d =>
    simp only [exec, execClaimDrop] at he
    split at he <;> cases he
    · exact h0.setLcu d ((LineQuiet.of rfl rfl : LineQuiet (s.lcu d) ((s.lcu d).setClaims o _)).trans (.takeDrop _ _))
    · exact h0
  | descriptorRequest d =>
    simp only [exec, execDescriptorRequest] at he
    split at he
    · split at he <;> cases he <;> exact LinesQuiet.storeTook d _ _
    · cases he; exact h0
  | elementWrite d p =>
    simp only [exec, execElementWrite] at he
    split at he <;> cases he
    · exact LinesQuiet.storeTook d _ _
    · exact h0
  | closeRequest d =>
    simp only [exec, execCloseRequest] at he
    split at he <;> cases he
    · exact LinesQuiet.storeTook d _ _
    · exact h0
  | abandonRequest d =>
    simp only [exec, execAbandonRequest] at he
    split at he <;> cases he
    · exact LinesQuiet.storeTook d _ _
    · exact h0
  | channelPurge d =>
    simp only [exec, execChannelPurge] at he
    split at he <;> cases he
    · exact (LinesQuiet.storeTook d _ _).answerPart _ _
    · exact h0
  | channelSet p =>
    cases p
    · cases he; exact h0
    · exact absurd rfl hs
  | channelEnable p =>
    cases p <;> cases he
    · exact h0
    · exact take _ _ fun f => part f _ _ _ fun c l => .enable l _
  | channelDisable p =>
    cases p <;> cases he
    · exact h0
    · exact take _ _ fun f => part f _ _ _ fun c l => .disable l
  | channelFlush p =>
    cases p <;> cases he
    · exact h0
    · exact take _ _ fun f => part f _ _ _ fun c l => .flush l _
  | countersClear p =>
    cases p
    · cases he; exact h0
    · cases he
      exact take _ _ fun f => part f (fun c l => { l with counters := .zero }) _ _ fun c l => .of rfl rfl
    · exact .of_lcus fun c => (exec_frame he).lcu c (by simp [writes])
    · exact .of_lcus fun c => (exec_frame he).lcu c (by simp [writes])
  | runResetLcu d =>
    simp only [exec, execRunResetLcu] at he
    split at he <;> cases he
    · exact (h0.setLcu d (.runReset _ _)).answerPart _ _
    · exact h0
  | txStop p =>
    cases p <;> cases he
    · exact h0
    · refine take _ _ fun f => ?_
      split
      · exact State.ownerPart_induct (P := LinesQuiet s) h0 ((h0.stopOutput _).answerPart _ _)
      · exact h0
  | txAbort p =>
    cases p <;> cases he
    · exact h0
    · refine take _ _ fun f => ?_
      split
      · exact State.ownerPart_induct (P := LinesQuiet s) h0 ((h0.abortTransmit _ _).answerPart _ _)
      · exact h0
  | append x =>
    simp only [exec, execAppend] at he
    split at he
    · cases he; exact h0
    · split at he <;> cases he
      · exact LinesQuiet.append x _ _ _ _
      · exact h0
  | activation o =>
    simp only [exec, execActivation] at he
    repeat' split at he
    all_goals cases he
    · exact h0
    · exact State.afterMatchRead_induct (P := LinesQuiet s) h0 ((h0.setTxe _).setEngine _ _)
    · exact State.afterMatchRead_induct (P := LinesQuiet s) h0 (((h0.setTxe _).setEngine _ _).sendClaims _ _ _)
    · exact h0
  | frameEnd o =>
    simp only [exec, execFrameEnd] at he
    repeat' split at he
    all_goals cases he
    · exact h0.endFrame _ _
    all_goals exact h0
  | tailEnd o =>
    simp only [exec, execTailEnd] at he
    repeat' split at he
    all_goals cases he
    · exact h0.endTail _
    all_goals exact h0
  | microsecondTick lines =>
    cases he
    intro c
    have : (State.lcu { s with tb := s.tb.tick, lcus := sampleLines s.lcus s.tb.tick.counter lines } c) =
      (s.lcu c).takeSample { time := s.tb.tick.counter, level := lines.getLsbD c.val } := by
        simp [State.lcu, sampleLines]
    rw [this]
    exact .takeSample _ _
  | channelGet p | profileCommit p
  | profileRead p | profileClear p | entryCommit p | entryRead p | entryClear p | tableClear p | burstRelease p | learnStart p
  | learnAbort p | learnCommit p | learnDiscard p | txSubmit p =>
    exact .of_lcus fun c => (exec_frame he).lcu c (by cases p <;> simp [writes, commandBlocks])
  | _ => exact .of_lcus fun c => (exec_frame he).lcu c (by simp [writes])

end Sys2Proof.Machine
end

