-- ==== Sys2Proof/Laws/Reserve.lean ====
section
/-! SUPPORT. The release reserve (R113, R151): what the operations of the Match Unit do to the RELEASE records on their way and
to the records whose PRESS was admitted, against a bound per channel; and what the Event Queue's occupancy becomes. -/

namespace Sys2Proof.Machine

/-! ## A Match Unit that waits for no answer -/

/-- The RELEASE records of a channel on their way. -/
abbrev releasesIn (l : List Append) (c : Channel) : Nat := l.countP fun a => a.body.isRelease && a.source == channelByte c

/-- 1 where the channel's record is reported. -/
def MatchUnit.reportedOn (m : MatchUnit) (c : Channel) : Nat := if (m.key c).any KeyRecord.reported then 1 else 0

/-- A Match Unit that waits for no answer, with at most `b c` RELEASE records on the way and reported records on channel `c`. -/
structure ReserveIdle (b : Channel → Nat) (m : MatchUnit) : Prop where
  awaiting : m.awaiting = none
  answer : m.answer = none
  noPress : ∀ a ∈ m.toQueue.msgs, a.isPress = false
  pressed : ∀ c r, m.key c = some r → r.reported = true → r.state = .pressed
  bound : ∀ c, releasesIn m.toQueue.msgs c + m.reportedOn c ≤ b c
  source : ∀ a ∈ m.toQueue.msgs, a.body.isRelease = true → ∃ c, a.source = channelByte c

/-- A Match Unit whose waiting is sound, within the same bounds. -/
structure ReserveKept (b : Channel → Nat) (m : MatchUnit) : Prop where
  press : m.pressSound
  bound : ∀ c, m.releasesOnTheWay c + m.pressAdmitted c ≤ b c
  source : ∀ a ∈ m.toQueue.msgs, a.body.isRelease = true → ∃ c, a.source = channelByte c

/-- Every Match Unit that waits for no answer is within the bounds it has. -/
theorem ReserveIdle.kept {b : Channel → Nat} {m : MatchUnit} (h : ReserveIdle b m) : ReserveKept b m := by
  refine ⟨⟨h.pressed, ?_⟩, fun c => ?_, h.source⟩
  · rw [h.awaiting]
    exact ⟨h.answer, h.noPress⟩
  · have := h.bound c
    unfold MatchUnit.reportedOn at this
    unfold MatchUnit.pressAdmitted MatchUnit.releasesOnTheWay
    rw [h.awaiting]
    simpa using this

/-- A sound Match Unit that waits for no answer has its own counts as bounds. -/
theorem MatchUnit.reserveIdle {m : MatchUnit} (h : m.pressSound) (hr : m.ready = true)
    (hs : ∀ a ∈ m.toQueue.msgs, a.body.isRelease = true → ∃ c, a.source = channelByte c) :
    ReserveIdle (fun c => m.releasesOnTheWay c + m.pressAdmitted c) m := by
  have ha : m.awaiting = none := by simpa [MatchUnit.ready] using hr
  obtain ⟨h1, h2⟩ := h
  rw [ha] at h2
  refine ⟨ha, h2.1, h2.2, h1, fun c => ?_, hs⟩
  unfold MatchUnit.reportedOn MatchUnit.pressAdmitted MatchUnit.releasesOnTheWay
  rw [ha]
  simp

namespace ReserveIdle

variable {b : Channel → Nat} {m : MatchUnit}

theorem of_same {n : MatchUnit} (h : ReserveIdle b m) (hk : n.keys = m.keys) (hm : n.toQueue.msgs = m.toQueue.msgs)
    (hw : n.awaiting = m.awaiting) (ha : n.answer = m.answer) : ReserveIdle b n := by
  have key : ∀ c, n.key c = m.key c := fun c => by unfold MatchUnit.key; rw [hk]
  refine ⟨hw.trans h.awaiting, ha.trans h.answer, hm ▸ h.noPress, fun c r hr => h.pressed c r (key c ▸ hr), fun c => ?_,
    hm ▸ h.source⟩
  have := h.bound c
  unfold MatchUnit.reportedOn at this ⊢
  rw [hm, key]
  exact this

theorem count (h : ReserveIdle b m) (c : Channel) (f : MatchCounters → MatchCounters) : ReserveIdle b (m.count c f) :=
  h.of_same rfl rfl rfl rfl

/-- An append that is neither a PRESS nor a RELEASE. -/
theorem send (h : ReserveIdle b m) {a : Append} (hp : a.isPress = false) (hr : a.body.isRelease = false) :
    ReserveIdle b (m.send a) := by
  refine ⟨h.awaiting, h.answer, fun x hx => ?_, h.pressed, fun c => ?_, fun x hx => ?_⟩
  · simp only [MatchUnit.send, Mailbox.push, List.mem_append, List.mem_singleton] at hx
    rcases hx with hx | hx
    · exact h.noPress x hx
    · rw [hx]; exact hp
  · have : releasesIn (m.send a).toQueue.msgs c = releasesIn m.toQueue.msgs c := by
      simp [releasesIn, MatchUnit.send, Mailbox.push, List.countP_append, hr]
    rw [this]
    exact h.bound c
  · simp only [MatchUnit.send, Mailbox.push, List.mem_append, List.mem_singleton] at hx
    rcases hx with hx | hx
    · exact h.source x hx
    · rw [hx, hr]
      nofun

/-- A record replaced by none, or by one that is reported only where the old one was. -/
theorem setKey (h : ReserveIdle b m) (c : Channel) (k : Option KeyRecord)
    (hp : ∀ r, k = some r → r.reported = true → r.state = .pressed)
    (hr : k.any KeyRecord.reported = true → (m.key c).any KeyRecord.reported = true) : ReserveIdle b (m.setKey c k) := by
  refine ⟨h.awaiting, h.answer, h.noPress, fun d r hk => ?_, fun d => ?_, h.source⟩
  · rw [MatchUnit.key_setKey] at hk
    split at hk
    · exact hp r hk
    · exact h.pressed d r hk
  · refine Nat.le_trans (Nat.add_le_add_left ?_ _) (h.bound d)
    unfold MatchUnit.reportedOn
    rw [MatchUnit.key_setKey]
    split
    · next hd =>
      subst hd
      split
      · next hx => rw [if_pos (hr hx)]
      · exact Nat.zero_le _
    · exact Nat.le_refl _

theorem setKey_none (h : ReserveIdle b m) (c : Channel) : ReserveIdle b (m.setKey c none) :=
  h.setKey c none nofun nofun

theorem setKey_unreported (h : ReserveIdle b m) (c : Channel) {r : KeyRecord} (hr : r.reported = false) :
    ReserveIdle b (m.setKey c (some r)) :=
  h.setKey c _ (fun x hx hy => by cases hx; rw [hr] at hy; cases hy) (fun hx => by simp [hr] at hx)

/-- A RELEASE sent for a reported record that is removed. -/
theorem removeKey (h : ReserveIdle b m) (c : Channel) (reason : ReleaseReason) (stamp : Time) :
    ReserveIdle b (m.removeKey c reason stamp) := by
  unfold MatchUnit.removeKey
  split
  · exact h
  · next r hk =>
    split
    · next hrep =>
      refine ⟨h.awaiting, h.answer, fun x hx => ?_, fun d x hd => ?_, fun d => ?_, fun x hx => ?_⟩
      · simp only [MatchUnit.setKey, MatchUnit.send, Mailbox.push, List.mem_append, List.mem_singleton] at hx
        rcases hx with hx | hx
        · exact h.noPress x hx
        · rw [hx]; rfl
      · rw [MatchUnit.key_setKey] at hd
        split at hd
        · cases hd
        · exact h.pressed d x hd
      · have hb := h.bound d
        have hm : releasesIn ((m.send (r.release c reason stamp)).setKey c none).toQueue.msgs d
            = releasesIn m.toQueue.msgs d + if c = d then 1 else 0 := by
          simp only [releasesIn, MatchUnit.setKey, MatchUnit.send, Mailbox.push, List.countP_append, List.countP_singleton,
            KeyRecord.release, EventBody.isRelease, Bool.true_and, beq_iff_eq]
          congr 1
          have : ∀ c d : Channel, (channelByte c = channelByte d) = (c = d) := by decide
          simp only [this]
        unfold MatchUnit.reportedOn at hb ⊢
        rw [MatchUnit.key_setKey, hm]
        by_cases hcd : c = d
        · subst hcd
          rw [hk] at hb
          simp [hrep] at hb
          simpa using hb
        · have hdc : ¬d = c := fun e => hcd e.symm
          rw [if_neg hcd, if_neg hdc]
          exact hb
      · simp only [MatchUnit.setKey, MatchUnit.send, Mailbox.push, List.mem_append, List.mem_singleton] at hx
        rcases hx with hx | hx
        · exact h.source x hx
        · rw [hx]; exact fun _ => ⟨c, rfl⟩
    · exact h.setKey_none c

theorem key_removeKey (m : MatchUnit) (c : Channel) (reason : ReleaseReason) (stamp : Time) :
    (m.removeKey c reason stamp).key c = none := by
  unfold MatchUnit.removeKey
  split
  · assumption
  · split <;> simp

theorem countUnconfirmed (h : ReserveIdle b m) (c : Channel) : ReserveIdle b (m.countUnconfirmed c) := by
  unfold MatchUnit.countUnconfirmed
  split
  · split
    · exact h.count c _
    · exact h
  · exact h

theorem foldl {α : Type} (f : MatchUnit → α → MatchUnit) (hf : ∀ m x, ReserveIdle b m → ReserveIdle b (f m x)) (xs : List α) :
    ∀ m, ReserveIdle b m → ReserveIdle b (xs.foldl f m) := by
  induction xs with
  | nil => exact fun _ h => h
  | cons x xs ih => exact fun m h => ih _ (hf m x h)

theorem removeIfEntry (h : ReserveIdle b m) (i : EntryNo) (stamp : Time) (c : Channel) :
    ReserveIdle b (m.removeIfEntry i stamp c) := by
  unfold MatchUnit.removeIfEntry
  split
  · split
    · exact h.removeKey c _ _
    · exact h
  · exact h

theorem entryChanged (h : ReserveIdle b m) (i : EntryNo) (stamp : Time) : ReserveIdle b (m.entryChanged i stamp) :=
  foldl _ (fun _ _ h => h.removeIfEntry i stamp _) allChannels m h

theorem tableCleared (h : ReserveIdle b m) (stamp : Time) : ReserveIdle b (m.tableCleared stamp) :=
  foldl _ (fun _ _ h => h.removeKey _ _ _) allChannels m h

theorem excludeOne (h : ReserveIdle b m) (c : Channel) (g : Nat) (now : Time) (d : Channel) :
    ReserveIdle b (m.excludeOne c g now d) := by
  unfold MatchUnit.excludeOne
  split
  · exact h
  · split
    · split
      · exact h.removeKey d _ _
      · exact h
    · exact h

theorem excludeGroup (h : ReserveIdle b m) (c : Channel) (g : Nat) (now : Time) : ReserveIdle b (m.excludeGroup c g now) := by
  unfold MatchUnit.excludeGroup
  split
  · exact h
  · exact foldl _ (fun _ _ h => h.excludeOne c g now _) allChannels m h

/-- Group exclusivity leaves the channel's own record. -/
theorem key_excludeGroup (m : MatchUnit) (c : Channel) (g : Nat) (now : Time) : (m.excludeGroup c g now).key c = m.key c := by
  unfold MatchUnit.excludeGroup
  split
  · rfl
  · generalize allChannels = xs
    induction xs generalizing m with
    | nil => rfl
    | cons d xs ih =>
      rw [List.foldl_cons, ih]
      unfold MatchUnit.excludeOne
      split
      · rfl
      · next hd =>
        split
        · split
          · unfold MatchUnit.removeKey
            split
            · rfl
            · split
              · rw [MatchUnit.key_setKey_ne _ _ (Ne.symm hd)]; rfl
              · rw [MatchUnit.key_setKey_ne _ _ (Ne.symm hd)]
          · rfl
        · rfl

theorem endLearn (h : ReserveIdle b m) : ReserveIdle b m.endLearn := h.of_same rfl rfl rfl rfl

theorem failLearn (h : ReserveIdle b m) (reason : LearnFailReason) (stamp : Time) : ReserveIdle b (m.failLearn reason stamp) :=
  h.endLearn.send rfl rfl

theorem learnWord (h : ReserveIdle b m) (w : CodeWord) (toggle : Option Nat) : ReserveIdle b (m.learnWord w toggle) := by
  unfold MatchUnit.learnWord
  simp only
  split
  · exact h.of_same rfl rfl rfl rfl
  · split
    · split
      · unfold MatchUnit.learnDone
        exact send (m := { m with learn := _, divert := none }) (h.of_same rfl rfl rfl rfl) rfl rfl
      · exact h.of_same rfl rfl rfl rfl
    · split
      · exact h.failLearn _ _
      · exact h.of_same rfl rfl rfl rfl

theorem startLearn (h : ReserveIdle b m) (c : Channel) (k t : Nat) (now : Time) : ReserveIdle b (m.startLearn c k t now) :=
  (h.removeKey c .learn now).of_same rfl rfl rfl rfl

theorem disableChannel (h : ReserveIdle b m) (c : Channel) (now : Time) : ReserveIdle b (m.disableChannel c now) := by
  unfold MatchUnit.disableChannel
  simp only
  split
  · exact (h.removeKey c _ _).failLearn _ _
  · exact h.removeKey c _ _

theorem expire (h : ReserveIdle b m) (c : Channel) (deadline : Time) : ReserveIdle b (m.expire c deadline) :=
  (h.countUnconfirmed c).removeKey c _ _

theorem clearEntry (h : ReserveIdle b m) (i : EntryNo) (now : Time) : ReserveIdle b (m.clearEntry i now) := by
  unfold MatchUnit.clearEntry
  split
  · exact entryChanged (m := m.setEntry i .cleared) (h.of_same rfl rfl rfl rfl) i now
  · exact h

theorem clearTable (h : ReserveIdle b m) (now : Time) : ReserveIdle b (m.clearTable now) :=
  tableCleared (m := { m with table := Vector.replicate 128 .cleared }) (h.of_same rfl rfl rfl rfl) now

theorem commitEntry (h : ReserveIdle b m) {i : EntryNo} {x : EntryFields} {ps : Vector Profile 8} {now : Time} {n : MatchUnit}
    (hc : m.commitEntry i x ps now = .ok n) : ReserveIdle b n := by
  unfold MatchUnit.commitEntry at hc
  split at hc
  · cases hc
  · simp only at hc
    split at hc
    · split at hc
      · cases hc
        exact entryChanged (m := m.setEntry i _) (h.of_same rfl rfl rfl rfl) i now
      · cases hc
    · cases hc

theorem commitResult (h : ReserveIdle b m) {i : EntryNo} {x : EntryFields} {ps : Vector Profile 8} {now : Time} {n : MatchUnit}
    (hc : m.commitResult i x ps now = .ok n) : ReserveIdle b n := by
  unfold MatchUnit.commitResult at hc
  split at hc
  · split at hc
    · cases hc
    · next hd =>
      cases hc
      exact (h.commitEntry hd).endLearn
  · cases hc

theorem runReset (h : ReserveIdle b m) : ReserveIdle b m.runReset := by
  refine ⟨h.awaiting, h.answer, h.noPress, fun c r hr => ?_, fun c => ?_, h.source⟩
  · simp [MatchUnit.runReset, MatchUnit.endLearn, MatchUnit.key] at hr
  · refine Nat.le_trans (Nat.add_le_add_left ?_ _) (h.bound c)
    simp [MatchUnit.reportedOn, MatchUnit.runReset, MatchUnit.endLearn, MatchUnit.key]

/-! ## What a frame brings -/

/-- An unreported record that reaches PRESSED: its PRESS is the last append, and the Match Unit waits (R109, R113). -/
theorem reachPressed (h : ReserveIdle b m) (c : Channel) {r : KeyRecord} (f : FrameArrival) (hr : r.reported = false) :
    ReserveKept b (m.reachPressed c r f) := by
  have h' : ReserveIdle b ((m.setKey c (some { r with state := .pressed, repeats := 0 })).excludeGroup c r.group f.now) :=
    (h.setKey_unreported c (by exact hr)).excludeGroup _ _ _
  have hk : ((m.setKey c (some { r with state := .pressed, repeats := 0 })).excludeGroup c r.group f.now).key c
      = some { r with state := .pressed, repeats := 0 } := by
    rw [key_excludeGroup, MatchUnit.key_setKey_self]
  unfold MatchUnit.reachPressed
  simp only
  generalize ((m.setKey c (some { r with state := .pressed, repeats := 0 })).excludeGroup c r.group f.now) = n at h' hk
  refine ⟨⟨h'.pressed, ⟨_, hk, rfl, hr⟩, ?_⟩, fun d => ?_, fun x hx => ?_⟩
  · show match n.answer with
      | some _ => _
      | none => _
    rw [h'.answer]
    exact ⟨n.toQueue.msgs, _, rfl, rfl, h'.noPress⟩
  · refine Nat.le_trans (Nat.add_le_add ?_ ?_) (h'.bound d)
    · simp [MatchUnit.releasesOnTheWay, releasesIn, MatchUnit.send, Mailbox.push, List.countP_append, EventBody.isRelease]
    · show (if (n.key d).any KeyRecord.reported || (some c == some d && n.answer == some true) then 1 else 0) ≤ _
      rw [h'.answer]
      simp [MatchUnit.reportedOn]
  · simp only [MatchUnit.send, Mailbox.push, List.mem_append, List.mem_singleton] at hx
    rcases hx with hx | hx
    · exact h'.source x hx
    · rw [hx]; nofun

theorem confirm (h : ReserveIdle b m) (c : Channel) {r : KeyRecord} (f : FrameArrival) (hr : r.reported = false) :
    ReserveKept b (m.confirm c r f) := by
  unfold MatchUnit.confirm
  split
  · exact h.reachPressed c f hr
  · exact (h.setKey_unreported c hr).kept

theorem keyAppend_not (r : KeyRecord) (c : Channel) (f : FrameArrival) :
    (r.keyAppend c f).isPress = false ∧ (r.keyAppend c f).body.isRelease = false := by
  unfold KeyRecord.keyAppend
  cases f.kind <;> exact ⟨rfl, rfl⟩

theorem createKey (h : ReserveIdle b m) (c : Channel) (i : EntryNo) (e : Entry) (f : FrameArrival) :
    ReserveKept b (m.createKey c i e f) := by
  unfold MatchUnit.createKey
  simp only
  split
  · exact h.confirm c f rfl
  · exact (((h.setKey_unreported c rfl).excludeGroup _ _ _).send (keyAppend_not _ c f).1 (keyAppend_not _ c f).2).kept

theorem refreshKey (h : ReserveIdle b m) (c : Channel) {r : KeyRecord} (f : FrameArrival) (hk : m.key c = some r) :
    ReserveKept b (m.refreshKey c r f) := by
  unfold MatchUnit.refreshKey
  simp only
  split
  · next hs =>
    refine h.confirm c f ?_
    cases hr : r.reported with
    | false => rfl
    | true => have := h.pressed c r hk hr; rw [hs] at this; cases this
  · next hs =>
    have h' : ReserveIdle b (m.setKey c (some { r with deadline := f.deadline, repeats := bump r.repeats })) :=
      h.setKey c _ (fun x hx _ => by cases hx; exact hs) (fun hx => by rw [hk]; simpa using hx)
    split
    · exact (h'.send rfl rfl).kept
    · exact h'.kept
  · next hs =>
    have h' : ReserveIdle b (m.setKey c (some { r with deadline := f.deadline, repeats := bump r.repeats })) :=
      h.setKey c _ (fun x hx hr => by cases hx; have := h.pressed c r hk hr; rw [hs] at this; cases this)
        (fun hx => by rw [hk]; simpa using hx)
    exact (h'.send (keyAppend_not _ c f).1 (keyAppend_not _ c f).2).kept

theorem winningFrame (h : ReserveIdle b m) (c : Channel) (i : EntryNo) (f : FrameArrival) :
    ReserveKept b (m.winningFrame c i f) := by
  unfold MatchUnit.winningFrame
  split
  · exact h.createKey c i _ f
  · next r hk =>
    split
    · split
      · exact h.refreshKey c f hk
      · exact ((h.countUnconfirmed c).removeKey c _ _).createKey c i _ f
    · exact ((h.countUnconfirmed c).removeKey c _ _).createKey c i _ f

theorem takeNotice (h : ReserveIdle b m) (n : Notice) (f : FrameArrival) : ReserveKept b (m.takeNotice n f) := by
  unfold MatchUnit.takeNotice
  simp only
  split
  · next r hk =>
    split
    · exact h.refreshKey _ f hk
    · exact (h.count _ _).kept
  · exact (h.count _ _).kept

theorem lookup (h : ReserveIdle b m) (w : CodeWord) (report : Bool) (now deadline : Time) :
    ReserveKept b (m.lookup w report now deadline) := by
  unfold MatchUnit.lookup
  split
  · simp only
    split
    · exact ((h.count _ _).send rfl rfl).kept
    · exact (h.count _ _).kept
  · exact (h.count _ _).winningFrame _ _ _

end ReserveIdle

/-! ## The answer to a PRESS and the ticks -/

namespace ReserveKept

variable {b : Channel → Nat} {m : MatchUnit}

/-- What the keys read as besides their held times decides. -/
theorem of_keys {n : MatchUnit} (h : ReserveKept b m) (hk : ∀ c, (n.key c).map (fun r => (r.reported, r.state))
    = (m.key c).map fun r => (r.reported, r.state)) (hm : n.toQueue.msgs = m.toQueue.msgs) (hw : n.awaiting = m.awaiting)
    (ha : n.answer = m.answer) : ReserveKept b n := by
  have get : ∀ c r, n.key c = some r → ∃ x, m.key c = some x ∧ x.reported = r.reported ∧ x.state = r.state := fun c r hr => by
    have := hk c
    rw [hr] at this
    cases hx : m.key c with
    | none => rw [hx] at this; cases this
    | some x => rw [hx] at this; simp at this; exact ⟨x, rfl, this.1.symm, this.2.symm⟩
  have get' : ∀ c x, m.key c = some x → ∃ r, n.key c = some r ∧ r.reported = x.reported ∧ r.state = x.state := fun c x hx => by
    have := hk c
    rw [hx] at this
    cases hr : n.key c with
    | none => rw [hr] at this; cases this
    | some r => rw [hr] at this; simp at this; exact ⟨r, rfl, this.1, this.2⟩
  have any : ∀ c, (n.key c).any KeyRecord.reported = (m.key c).any KeyRecord.reported := fun c => by
    cases hr : n.key c with
    | none =>
      cases hx : m.key c with
      | none => rfl
      | some x => obtain ⟨r, h1, _⟩ := get' c x hx; rw [hr] at h1; cases h1
    | some r =>
      obtain ⟨x, h1, h2, _⟩ := get c r hr
      rw [h1]
      simp [h2]
  refine ⟨⟨fun c r hr hp => ?_, ?_⟩, fun c => ?_, hm ▸ h.source⟩
  · obtain ⟨x, h1, h2, h3⟩ := get c r hr
    exact h3 ▸ h.press.1 c x h1 (h2 ▸ hp)
  · have h2 := h.press.2
    rw [hw, hm, ha]
    cases he : m.awaiting with
    | none => rw [he] at h2; exact h2
    | some c =>
      rw [he] at h2
      obtain ⟨⟨x, h3, h4, h5⟩, h6⟩ := h2
      obtain ⟨r, k1, k2, k3⟩ := get' c x h3
      exact ⟨⟨r, k1, k3.trans h4, k2.trans h5⟩, h6⟩
  · have := h.bound c
    unfold MatchUnit.releasesOnTheWay MatchUnit.pressAdmitted at this ⊢
    rw [hm, hw, ha, any]
    exact this

theorem tickLearn (h : ReserveKept b m) (moment : Time) : ReserveKept b (m.tickLearn moment) := by
  unfold MatchUnit.tickLearn
  split
  · exact h.of_keys (fun _ => rfl) rfl rfl rfl
  · exact h

theorem tickHeld (h : ReserveKept b m) : ReserveKept b m.tickHeld := by
  refine h.of_keys (fun c => ?_) rfl rfl rfl
  simp only [MatchUnit.tickHeld, MatchUnit.key, Vector.getElem_map, Option.map_map]
  rfl

theorem setCounter (h : ReserveKept b m) (c : Channel) (x : MatchCounters) : ReserveKept b (m.setCounter c x) :=
  h.of_keys (fun _ => rfl) rfl rfl rfl

/-- The answer to a PRESS ends the waiting; an admitted PRESS's record is reported from then on (R113). -/
theorem pressAnswered (h : ReserveKept b m) {c : Channel} {ok : Bool} (hw : m.awaiting = some c) (ha : m.answer = some ok) :
    ReserveKept b (m.pressAnswered c ok) := by
  have h2 := h.press.2
  rw [hw] at h2
  obtain ⟨⟨r, hk, hs, hr⟩, hmsg⟩ := h2
  rw [ha] at hmsg
  simp only at hmsg
  have h0 : ∀ d, m.releasesOnTheWay d = 0 := fun d => by simp [MatchUnit.releasesOnTheWay, hmsg]
  unfold MatchUnit.pressAnswered
  simp only
  split
  · next hok =>
    have hk' : MatchUnit.key { m with awaiting := none, answer := none } c = some r := hk
    rw [hk']
    simp only
    refine ⟨⟨fun d x hd hx => ?_, rfl, fun a ha' => ?_⟩, fun d => ?_, fun a ha' => ?_⟩
    · rw [MatchUnit.key_setKey] at hd
      split at hd
      · cases hd; exact hs
      · exact h.press.1 d x hd hx
    · have : a ∈ m.toQueue.msgs := ha'
      rw [hmsg] at this
      cases this
    · have hb := h.bound d
      rw [h0] at hb
      have hz : MatchUnit.releasesOnTheWay (MatchUnit.setKey { m with awaiting := none, answer := none } c
          (some { r with reported := true })) d = 0 := h0 d
      rw [hz]
      unfold MatchUnit.pressAdmitted at hb ⊢
      rw [MatchUnit.key_setKey]
      by_cases hd : d = c
      · subst hd
        rw [hw, ha, hok] at hb
        simpa using hb
      · rw [if_neg hd]
        refine Nat.le_trans ?_ hb
        rw [hw, ha]
        have hcd : (some c == some d) = false := by simpa using fun e => hd e.symm
        simp [hcd, MatchUnit.key, MatchUnit.setKey]
    · have : a ∈ m.toQueue.msgs := ha'
      rw [hmsg] at this
      cases this
  · refine ⟨⟨h.press.1, rfl, fun a ha' => ?_⟩, fun d => ?_, fun a ha' => ?_⟩
    · have : a ∈ m.toQueue.msgs := ha'
      rw [hmsg] at this
      cases this
    · refine Nat.le_trans (Nat.add_le_add (Nat.le_refl _) ?_) (h.bound d)
      show (if (m.key d).any KeyRecord.reported || _ then 1 else 0) ≤ m.pressAdmitted d
      unfold MatchUnit.pressAdmitted
      cases (m.key d).any KeyRecord.reported <;> simp
    · have : a ∈ m.toQueue.msgs := ha'
      rw [hmsg] at this
      cases this

end ReserveKept

/-! ## The Event Queue's occupancy -/

/-- An append that is no RELEASE leaves the queue within the general places, or no fuller than it was (R150, R153). -/
theorem EventQueue.occupancy_take_general (q : EventQueue) (a : Append) (now : Time) (ha : a.body.isRelease = false) :
    (q.take a now).1.occupancy ≤ Config.generalLimit ∨ (q.take a now).1.occupancy ≤ q.occupancy ∧ (q.take a now).2 = false := by
  unfold EventQueue.take
  have hl : admissionLimit a.body = Config.generalLimit := by simp [admissionLimit, ha]
  rcases (q.insertOverrun now).judge_cases a now with ⟨h, e⟩ | ⟨h, e⟩ <;> rw [e]
  · left
    rw [EventQueue.occupancy_place]
    rw [hl] at h
    exact h
  · rcases q.insertOverrun_cases now with e' | ⟨_, h', e'⟩
    · right
      rw [e']
      exact ⟨Nat.le_refl _, rfl⟩
    · left
      rw [e']
      show (q.place _ now).occupancy ≤ _
      rw [EventQueue.occupancy_place]
      exact h'

/-- A RELEASE takes one place, besides an OVERRUN that finds a general place (R150, R153). -/
theorem EventQueue.occupancy_take_release (q : EventQueue) (a : Append) (now : Time) :
    (q.take a now).1.occupancy ≤ q.occupancy + 1 ∨ (q.take a now).1.occupancy ≤ Config.generalLimit + 1 := by
  have h1 : (q.take a now).1.occupancy ≤ (q.insertOverrun now).occupancy + 1 := by
    unfold EventQueue.take
    rcases (q.insertOverrun now).judge_cases a now with ⟨_, e⟩ | ⟨_, e⟩ <;> rw [e]
    · rw [EventQueue.occupancy_place]
    · exact Nat.le_succ _
  rcases q.insertOverrun_cases now with e' | ⟨_, h', e'⟩
  · left
    rw [e'] at h1
    exact h1
  · right
    refine Nat.le_trans h1 (Nat.succ_le_succ ?_)
    rw [e']
    show (q.place _ now).occupancy ≤ _
    rw [EventQueue.occupancy_place]
    exact h'

end Sys2Proof.Machine
end

