-- ==== Sys2Proof/Laws/Transmit.lean ====
section
/-! SUPPORT. The transmit queue and the engines (R167, R170): what the operations of the Transmit Engine do to them, and that each
keeps `Transmit.sound`. -/

namespace Sys2Proof.Machine

/-! ## The oldest request of an output -/

/-- The request taken names the output, and the queue without it is one shorter. -/
theorem takeRequestFor_some {o : Output} {q rest : List TxRequest} {r : TxRequest} (h : takeRequestFor o q = some (r, rest)) :
    r.output = o ∧ rest.length + 1 = q.length := by
  induction q generalizing rest with
  | nil => cases h
  | cons x xs ih =>
    simp only [takeRequestFor] at h
    split at h
    · next hx =>
      cases h
      exact ⟨hx, rfl⟩
    · cases hq : takeRequestFor o xs with
      | none => simp [hq] at h
      | some y =>
        obtain ⟨r', rest'⟩ := y
        simp only [hq, Option.map_some, Option.some.injEq, Prod.mk.injEq] at h
        obtain ⟨rfl, rfl⟩ := h
        have hy := ih hq
        exact ⟨hy.1, by simp only [List.length_cons]; omega⟩

/-- The oldest request that names the output is taken, and the others keep their order (R171). -/
theorem takeRequestFor_append {o : Output} {r : TxRequest} (before after : List TxRequest) (ho : r.output = o)
    (hb : ∀ x ∈ before, x.output ≠ o) : takeRequestFor o (before ++ r :: after) = some (r, before ++ after) := by
  induction before with
  | nil => simp [takeRequestFor, ho]
  | cons y ys ih =>
    have hy := hb y (by simp)
    simp [takeRequestFor, hy, ih fun x hx => hb x (by simp [hx])]

/-! ## Claims sent to the channels (R181, R182) -/

/-- Sending a claim or a drop to a set of channels appends it to each of them and changes no other block. -/
theorem State.sendClaims_frame (s : State) (o : Output) (set : BitVec 4) (msg : ClaimMsg) :
    ∃ ls, s.sendClaims o set msg = { s with lcus := ls } := by
  unfold State.sendClaims
  suffices h : ∀ (cs : List Channel) (s : State), ∃ ls,
      cs.foldl (fun s c => if set.getLsbD c.val then
        s.setLcu c ((s.lcu c).setClaims o ((s.lcu c).claimsOf o ++ [msg])) else s) s = ({ s with lcus := ls } : State) from
    h allChannels s
  intro cs
  induction cs with
  | nil => exact fun s => ⟨s.lcus, rfl⟩
  | cons c cs ih =>
    intro s
    simp only [List.foldl_cons]
    split
    · obtain ⟨ls, h⟩ := ih (s.setLcu c ((s.lcu c).setClaims o ((s.lcu c).claimsOf o ++ [msg])))
      exact ⟨ls, h⟩
    · exact ih s

theorem State.txe_sendClaims (s : State) (o : Output) (set : BitVec 4) (msg : ClaimMsg) :
    (s.sendClaims o set msg).txe = s.txe := by
  obtain ⟨ls, h⟩ := s.sendClaims_frame o set msg
  rw [h]

/-- Each channel of the set has the message appended to what the output has sent it; the others are as before. -/
theorem State.lcu_sendClaims (s : State) (o : Output) (set : BitVec 4) (msg : ClaimMsg) (c : Channel) :
    (s.sendClaims o set msg).lcu c =
      if set.getLsbD c.val then (s.lcu c).setClaims o ((s.lcu c).claimsOf o ++ [msg]) else s.lcu c := by
  have hstep : ∀ (s : State) (d : Channel), (if set.getLsbD d.val then
      s.setLcu d ((s.lcu d).setClaims o ((s.lcu d).claimsOf o ++ [msg])) else s).lcu c =
        if c = d ∧ set.getLsbD d.val then (s.lcu c).setClaims o ((s.lcu c).claimsOf o ++ [msg]) else s.lcu c := by
    intro s d
    by_cases hb : set.getLsbD d.val
    · by_cases hd : c = d
      · subst hd
        rw [if_pos hb, if_pos ⟨rfl, hb⟩, State.lcu_setLcu_self]
      · rw [if_pos hb, if_neg fun h => hd h.1, State.lcu_setLcu_ne s _ hd]
    · rw [if_neg hb, if_neg fun h => hb h.2]
  unfold State.sendClaims allChannels
  simp only [List.foldl_cons, List.foldl_nil, hstep]
  fin_cases c <;> simp

/-! ## Soundness -/

namespace Transmit

theorem sound_reset : Transmit.reset.sound := by
  refine ⟨by decide, fun o => ?_⟩
  simp [Transmit.reset, Transmit.engine, Engine.reset]

/-- An engine that is IDLE exactly without a request, and whose request is its own, may replace another. -/
theorem sound_setEngine {t : Transmit} (h : t.sound) (o : Output) {e : Engine} (hi : e.state = .idle ↔ e.request = none)
    (ho : ∀ r, e.request = some r → r.output = o) : (t.setEngine o e).sound := by
  refine ⟨h.1, fun p => ?_⟩
  rw [Transmit.engine_setEngine]
  split
  · next hp => exact hp ▸ ⟨hi, ho⟩
  · exact h.2 p

/-- An engine that keeps its state's being IDLE and its request keeps the soundness. -/
theorem sound_sameRequest {t : Transmit} (h : t.sound) (o : Output) {e : Engine} (hr : e.request = (t.engine o).request)
    (hi : e.state = .idle ↔ (t.engine o).state = .idle) : (t.setEngine o e).sound := by
  refine sound_setEngine h o ?_ ?_
  · rw [hr, hi]
    exact (h.2 o).1
  · rw [hr]
    exact (h.2 o).2

theorem sound_queue {t : Transmit} (h : t.sound) {q : List TxRequest} (hq : q.length ≤ t.queue.length) :
    ({ t with queue := q } : Transmit).sound := ⟨Nat.le_trans hq h.1, h.2⟩

theorem sound_holdDrops {t : Transmit} (h : t.sound) (l : List Handle) : ({ t with holdDrops := l } : Transmit).sound := h

end Transmit

/-- The end of the tail keeps the engines sound (R182). -/
theorem State.sound_endTail {s : State} (h : s.txe.sound) (o : Output) (ht : (s.txe.engine o).request.isSome = true) :
    (s.endTail o).txe.sound := by
  unfold State.endTail
  simp only
  split
  · next hr =>
    rw [hr] at ht
    cases ht
  · exact Transmit.sound_holdDrops (Transmit.sound_setEngine h o (by simp) (by simp)) _

/-- Entering the tail keeps the engines sound, for an engine with a request (R182). -/
theorem State.sound_enterTail {s : State} (h : s.txe.sound) (o : Output) {e : Engine} (m : Time) {r : TxRequest}
    (hr : e.request = some r) (ho : r.output = o) : (s.enterTail o e m).txe.sound := by
  have ha : (s.setEngine o { e with state := .tail, tailStart := m, elements := [] }).txe.sound := by
    refine Transmit.sound_setEngine h o ?_ ?_
    · simp [hr]
    · intro x hx
      rw [hr] at hx
      cases hx
      exact ho
  unfold State.enterTail
  simp only
  split
  · split
    · refine State.sound_endTail ha o ?_
      simp [hr]
    · exact ha
  · exact ha

/-- The end of a frame keeps the engines sound (R179). -/
theorem State.sound_endFrame {s : State} (h : s.txe.sound) (o : Output) (m : Time) (hf : (s.txe.engine o).state = .frame) :
    (s.endFrame o m).txe.sound := by
  have hn : (s.txe.engine o).request ≠ none := fun hn => by
    rw [(h.2 o).1.mpr hn] at hf
    cases hf
  obtain ⟨r, hr⟩ := Option.ne_none_iff_exists'.mp hn
  unfold State.endFrame
  simp only
  split
  · refine State.sound_enterTail (r := r) h o m ?_ ((h.2 o).2 r hr)
    exact hr
  · refine Transmit.sound_setEngine h o ?_ ?_
    · simp [hr]
    · intro x hx
      exact (h.2 o).2 x hx

/-- TX_STOP keeps the engines sound (R183). -/
theorem State.sound_stopOutput {s : State} (h : s.txe.sound) (o : Output) : (s.stopOutput o).txe.sound := by
  unfold State.stopOutput
  simp only
  split
  · exact Transmit.sound_sameRequest h o rfl Iff.rfl
  · next hg =>
    have hn : (s.txe.engine o).request ≠ none := fun hn => by
      rw [(h.2 o).1.mpr hn] at hg
      cases hg
    obtain ⟨r, hr⟩ := Option.ne_none_iff_exists'.mp hn
    exact State.sound_enterTail h o _ hr ((h.2 o).2 r hr)
  · exact h
  · exact h

/-- The purge of TX_ABORT keeps the engines sound (R185). -/
theorem State.sound_purgeOutput {s : State} (h : s.txe.sound) (o : Output) : (s.purgeOutput o).txe.sound := by
  unfold State.purgeOutput
  refine Transmit.sound_holdDrops (Transmit.sound_queue (Transmit.sound_sameRequest h o ?_ ?_) ?_) _
  · rfl
  · rfl
  · exact List.length_filter_le _ _

/-- TX_ABORT keeps the engines sound (R184, R185). -/
theorem State.sound_abortTransmit {s : State} (h : s.txe.sound) (o : Output) (purge : Bool) :
    (s.abortTransmit o purge).txe.sound := by
  have hp : (if purge then s.purgeOutput o else s).txe.sound := by
    split
    · exact State.sound_purgeOutput h o
    · exact h
  unfold State.abortTransmit State.abortOutput
  generalize (if purge then s.purgeOutput o else s) = u at hp ⊢
  have hr : (u.txe.engine o).state ≠ .idle → ∃ r, (u.txe.engine o).request = some r ∧ r.output = o := fun hn => by
    have : (u.txe.engine o).request ≠ none := fun hx => hn ((hp.2 o).1.mpr hx)
    obtain ⟨r, hr⟩ := Option.ne_none_iff_exists'.mp this
    exact ⟨r, hr, (hp.2 o).2 r hr⟩
  simp only
  split
  · next hs =>
    obtain ⟨r, hr, ho⟩ := hr (by simp [hs])
    exact State.sound_enterTail hp o _ hr ho
  · next hs =>
    obtain ⟨r, hr, ho⟩ := hr (by simp [hs])
    exact State.sound_enterTail hp o _ hr ho
  · exact hp
  · exact hp

end Sys2Proof.Machine
end

