-- ==== Sys2Proof/Laws/Senders.lean ====
section
/-! SUPPORT. No block but the Match Unit sends a RELEASE (R149): the appends of the Symbol Decoder and of the outputs. -/

namespace Sys2Proof.Machine

/-- No RELEASE is among these appends. -/
def NoRelease (m : Mailbox Append) : Prop := ∀ a ∈ m.msgs, a.body.isRelease = false

theorem NoRelease.push {m : Mailbox Append} (h : NoRelease m) {a : Append} (ha : a.body.isRelease = false) :
    NoRelease (m.push a) := by
  intro x hx
  simp only [Mailbox.push, List.mem_append, List.mem_singleton] at hx
  rcases hx with hx | hx
  · exact h x hx
  · rw [hx]; exact ha

theorem NoRelease.pop {m : Mailbox Append} (h : NoRelease m) : NoRelease m.pop := fun x hx => h x (List.mem_of_mem_tail hx)

theorem endRecord_not_release (o : Output) (now : Time) (tag : Byte) (frames : Half) (k : EndKind) :
    (endRecord o now tag frames k).body.isRelease = false := by
  cases k <;> rfl

/-- No RELEASE is among the appends of the outputs. -/
def Transmit.NoRelease (t : Transmit) : Prop := ∀ o, Sys2Proof.Machine.NoRelease (t.engine o).toQueue

theorem Transmit.NoRelease.setEngine {t : Transmit} (h : t.NoRelease) (o : Output) {e : Engine}
    (he : Sys2Proof.Machine.NoRelease e.toQueue) : (t.setEngine o e).NoRelease := by
  intro d
  rw [Transmit.engine_setEngine]
  split
  · exact he
  · exact h d

theorem State.noRelease_endTail {s : State} (h : s.txe.NoRelease) (o : Output) : (s.endTail o).txe.NoRelease := by
  unfold State.endTail
  simp only
  split
  · exact Transmit.NoRelease.setEngine h o (h o)
  · exact Transmit.NoRelease.setEngine h o ((h o).push (endRecord_not_release _ _ _ _ _))

theorem State.noRelease_enterTail {s : State} (h : s.txe.NoRelease) (o : Output) {e : Engine} (m : Time)
    (he : NoRelease e.toQueue) : (s.enterTail o e m).txe.NoRelease := by
  have h' : (s.setEngine o { e with state := .tail, tailStart := m, elements := [] }).txe.NoRelease :=
    Transmit.NoRelease.setEngine h o he
  unfold State.enterTail
  split
  · split
    · exact State.noRelease_endTail h' o
    · exact h'
  · exact h'

theorem State.noRelease_stopOutput {s : State} (h : s.txe.NoRelease) (o : Output) : (s.stopOutput o).txe.NoRelease := by
  unfold State.stopOutput
  simp only
  split
  · exact Transmit.NoRelease.setEngine h o (h o)
  · exact State.noRelease_enterTail h o _ (h o)
  · exact h
  · exact h

theorem State.noRelease_purgeOutput {s : State} (h : s.txe.NoRelease) (o : Output) : (s.purgeOutput o).txe.NoRelease := by
  unfold State.purgeOutput
  refine Transmit.NoRelease.setEngine h o fun a ha => ?_
  simp only [List.mem_append, List.mem_map] at ha
  rcases ha with ha | ⟨r, _, rfl⟩
  · exact h o a ha
  · exact endRecord_not_release _ _ _ _ _

theorem State.noRelease_abortTransmit {s : State} (h : s.txe.NoRelease) (o : Output) (purge : Bool) :
    (s.abortTransmit o purge).txe.NoRelease := by
  have hp : (if purge then s.purgeOutput o else s).txe.NoRelease := by
    split
    · exact State.noRelease_purgeOutput h o
    · exact h
  unfold State.abortTransmit State.abortOutput
  simp only
  split
  · exact State.noRelease_enterTail hp o _ (hp o)
  · exact State.noRelease_enterTail hp o _ (hp o)
  · exact hp
  · exact hp

theorem State.noRelease_deliver {s : State} (h : s.txe.NoRelease) (x : Sender) (q : EventQueue) (early : Nat) (b : EventBody)
    (ok : Bool) : (((s.setEvq q).setOutbox (s.outbox x).pop x).deliverAnswer x early b ok).txe.NoRelease := by
  have key : ((s.setEvq q).setOutbox (s.outbox x).pop x).txe.NoRelease := by
    cases x with
    | txo o => exact Transmit.NoRelease.setEngine h o (h o).pop
    | _ => exact h
  rcases ((s.setEvq q).setOutbox (s.outbox x).pop x).deliverAnswer_cases x early b ok with e | ⟨_, e⟩ | ⟨_, _, e⟩ <;> rw [e]
  · exact key
  · exact key
  · exact key

/-- No command makes an output send a RELEASE. -/
theorem exec_outputsNoRelease {i : Instr} {s t : State} (h : s.txe.NoRelease) (he : exec i s = .next t) : t.txe.NoRelease := by
  by_cases hb : Block.txe ∈ writes i
  swap
  · rw [(exec_frame he).txe hb]; exact h
  have take : ∀ cmd owner, (∀ f, (owner f : State).txe.NoRelease) → (s.takeCommand cmd owner).txe.NoRelease := fun cmd owner ho =>
    State.takeCommand_induct (P := fun s => s.txe.NoRelease) h (fun _ => h) ho
  cases i with
  | pinReset =>
    cases he
    intro o a ha
    simp [State.reset, State.setPending, Transmit.engine, Transmit.reset, Engine.reset, Mailbox.empty] at ha
  | transmitHoldDrop d =>
    simp only [exec, execTransmitHoldDrop] at he
    split at he <;> cases he <;> exact h
  | txSubmit p =>
    cases p <;> cases he
    · exact h
    · refine take _ _ fun f => ?_
      split
      · refine State.ownerPart_induct (P := fun s => s.txe.NoRelease) h
          (State.afterMatchRead_induct (P := fun s => s.txe.NoRelease) h ?_)
        split
        · exact h
        · next r _ a tag hsub =>
          unfold State.submit at hsub
          split at hsub
          · cases hsub
          · split at hsub
            · cases hsub
            · split at hsub
              · cases hsub
              · cases hsub; exact h
      all_goals exact h
  | txStop p =>
    cases p <;> cases he
    · exact h
    · refine take _ _ fun f => ?_
      split
      · exact State.ownerPart_induct (P := fun s => s.txe.NoRelease) h (State.noRelease_stopOutput h _)
      · exact h
  | txAbort p =>
    cases p <;> cases he
    · exact h
    · refine take _ _ fun f => ?_
      split
      · exact State.ownerPart_induct (P := fun s => s.txe.NoRelease) h (State.noRelease_abortTransmit h _ _)
      · exact h
  | runResetTxe =>
    simp only [exec, execRunResetTxe] at he
    split at he <;> cases he
    · intro o
      have : ({ s.txe with engines := s.txe.engines.map Engine.runReset, queue := [] } : Transmit).engine o
          = (s.txe.engine o).runReset := by simp [Transmit.engine]
      show NoRelease (({ s.txe with engines := s.txe.engines.map Engine.runReset, queue := [] } : Transmit).engine o).toQueue
      rw [this]
      exact h o
    · exact h
  | runResetPst =>
    simp only [exec, execRunResetPst] at he
    split at he <;> cases he <;> exact h
  | append x =>
    simp only [exec, execAppend] at he
    split at he
    · cases he; exact h
    · split at he <;> cases he
      · exact State.noRelease_deliver h x _ _ _ _
      · exact h
  | activation o =>
    simp only [exec, execActivation] at he
    repeat' split at he
    all_goals cases he
    · exact h
    · exact State.afterMatchRead_induct (P := fun s => s.txe.NoRelease) h
        (Transmit.NoRelease.setEngine (t := { s.txe with queue := _ }) h o ((h o).push (endRecord_not_release _ _ _ _ _)))
    · refine State.afterMatchRead_induct (P := fun s => s.txe.NoRelease) h ?_
      rw [State.activateWith, State.txe_sendClaims]
      exact Transmit.NoRelease.setEngine (t := { s.txe with queue := _ }) h o (h o)
    · exact h
  | frameEnd o =>
    simp only [exec, execFrameEnd] at he
    repeat' split at he
    all_goals cases he
    · unfold State.endFrame
      simp only
      split
      · exact State.noRelease_enterTail h o _ (h o)
      · exact Transmit.NoRelease.setEngine h o (h o)
    all_goals exact h
  | tailEnd o =>
    simp only [exec, execTailEnd] at he
    repeat' split at he
    all_goals cases he
    · exact State.noRelease_endTail h o
    all_goals exact h
  | elementEnd o =>
    simp only [exec, execElementEnd] at he
    repeat' split at he
    all_goals cases he
    · exact Transmit.NoRelease.setEngine h o (h o)
    all_goals exact h
  | gapEnd o =>
    simp only [exec, execGapEnd] at he
    repeat' split at he
    all_goals cases he
    · exact Transmit.NoRelease.setEngine h o (h o)
    all_goals exact h
  | countersClear p => cases p <;> simp [writes, lineBlocks] at hb
  | channelSet p | channelGet p | channelEnable p | channelDisable p | channelFlush p | profileCommit p
  | profileRead p | profileClear p | entryCommit p | entryRead p | entryClear p | tableClear p | burstRelease p | learnStart p
  | learnAbort p | learnCommit p | learnDiscard p =>
    cases p <;> simp [writes, commandBlocks, lineBlocks] at hb
  | _ => simp [writes, lineBlocks] at hb

theorem Decoder.noRelease_finished {d : Decoder} (h : NoRelease d.toQueue) (job : DecodeJob) (result : DecodeResult)
    (report : Bool) (answer : DecoderAnswer) : NoRelease (d.finished job result report answer).toQueue := by
  cases answer <;> cases result <;> cases report <;> simp only [Decoder.finished, Decoder.undecodable, if_true] <;>
    first | exact h | exact h.push rfl

/-- No command makes the decoder send a RELEASE. -/
theorem exec_decoderNoRelease {i : Instr} {s t : State} (h : NoRelease s.sdc.toQueue) (he : exec i s = .next t) :
    NoRelease t.sdc.toQueue := by
  have take : ∀ cmd owner, (∀ f, NoRelease (owner f : State).sdc.toQueue) →
      NoRelease (s.takeCommand cmd owner).sdc.toQueue := fun cmd owner ho =>
    State.takeCommand_induct (P := fun t => NoRelease t.sdc.toQueue) h (fun _ => h) ho
  by_cases hb : Block.sdc ∈ writes i
  swap
  · rw [(exec_frame he).sdc hb]; exact h
  cases i with
  | pinReset => cases he; exact nofun
  | profileCommit p =>
    cases p <;> cases he
    · exact h
    · refine take _ _ fun f => ?_
      split
      · refine State.ownerPart_induct (P := fun t => NoRelease t.sdc.toQueue) h
          (State.afterMatchRead_induct (P := fun t => NoRelease t.sdc.toQueue) h ?_)
        split <;> exact h
      · exact h
  | profileClear p =>
    cases p <;> cases he
    · exact h
    · refine take _ _ fun f => ?_
      split
      · refine State.ownerPart_induct (P := fun t => NoRelease t.sdc.toQueue) h
          (State.afterMatchRead_induct (P := fun t => NoRelease t.sdc.toQueue) h ?_)
        split <;> exact h
      · exact h
  | countersClear p =>
    cases p with
    | sdc =>
      cases he
      refine take _ _ fun f => ?_
      split
      · exact h
      · split <;> exact h
    | _ => simp [writes, lineBlocks] at hb
  | append x =>
    simp only [exec, execAppend] at he
    split at he
    · cases he; exact h
    · split at he <;> cases he
      · next a _ _ _ =>
        have key : NoRelease ((s.setEvq (s.evq.take a s.now).1).setOutbox (s.outbox x).pop x).sdc.toQueue := by
          cases x with
          | sdc => exact h.pop
          | _ => exact h
        rcases ((s.setEvq (s.evq.take a s.now).1).setOutbox (s.outbox x).pop x).deliverAnswer_cases x (s.outbox x).early a.body
          (s.evq.take a s.now).2 with e | ⟨_, e⟩ | ⟨_, _, e⟩ <;> rw [e] <;> exact key
      · exact h
  | finishAnswer =>
    simp only [exec, execFinishAnswer] at he
    split at he <;> cases he
    · exact Decoder.noRelease_finished h _ _ _ _
    · exact h
  | takeRequest | decodeFinish | hostHoldDrop d | runResetPst | runResetSdc | decoderTakeStart | takeAnswer | decodeEnd
  | undecodedAnswer | codeWord | repeatNotice =>
    simp only [exec, execTakeRequest, execDecodeFinish, execHostHoldDrop, execRunResetPst, execRunResetSdc,
      execDecoderTakeStart, execTakeAnswer, execDecodeEnd, execUndecodedAnswer, execCodeWord, execRepeatNotice] at he
    repeat' split at he
    all_goals cases he; exact h
  | channelSet p | channelGet p | channelEnable p | channelDisable p | channelFlush p | profileRead p
  | entryCommit p | entryRead p | entryClear p | tableClear p | burstRelease p | learnStart p
  | learnAbort p | learnCommit p | learnDiscard p | txSubmit p | txStop p | txAbort p =>
    cases p <;> simp [writes, commandBlocks, lineBlocks] at hb
  | _ => simp [writes, lineBlocks] at hb

end Sys2Proof.Machine
end

