-- ==== Sys2Proof/Laws/Tables.lean ====
section
/-! SUPPORT. Which commands write the profile table and the code table, and what an entry or a profile that passed its checks
is like (R51, R83, R85). -/

namespace Sys2Proof.Machine

/-! ## What passed its checks -/

/-- A payload that is zero above a bit count has no bit there. -/
theorem getLsbD_of_zeroAbove {bits n : Nat} {x : Payload} (h : zeroAbove bits x = true) (hn : bits ≤ n) :
    x.getLsbD n = false := by
  simp only [zeroAbove, decide_eq_true_eq] at h
  exact Nat.testBit_lt_two_pow (Nat.lt_of_lt_of_le h (Nat.pow_le_pow_right (by decide) hn))

/-- An entry that passed the field checks is VALID, and its pattern and mask have no bit at or above its bit count (R83). -/
theorem entryOfFields_some {x : EntryFields} {e : Entry} (h : entryOfFields x = some e) :
    e.valid = true ∧ (∀ n, e.bits ≤ n → e.pattern.getLsbD n = false) ∧ ∀ n, e.bits ≤ n → e.careMask.getLsbD n = false := by
  unfold entryOfFields at h
  split at h
  · split at h
    · cases h
    · split at h
      · next hc =>
        cases h
        simp only [Bool.and_eq_true] at hc
        exact ⟨rfl, fun n hn => getLsbD_of_zeroAbove hc.1.1.1.1.1.1.2 hn, fun n hn => getLsbD_of_zeroAbove hc.1.1.1.1.1.2 hn⟩
      · cases h
  · cases h

/-- A profile that passed the field checks is VALID (R51). -/
theorem profileOfBytes_valid {r : Vector Byte 23} {x : Profile} (h : profileOfBytes r = some x) : x.valid = true := by
  unfold profileOfBytes at h
  split at h
  · simp only [Option.ite_none_right_eq_some, Option.some.injEq] at h
    obtain ⟨_, rfl⟩ := h
    rfl
  · cases h

/-! ## Who writes the profile table -/

theorem Decoder.profiles_finished (d : Decoder) (job : DecodeJob) (result : DecodeResult) (report : Bool)
    (answer : DecoderAnswer) : (d.finished job result report answer).profiles = d.profiles := by
  cases answer <;> cases result <;> simp only [Decoder.finished, Decoder.undecodable] <;> first | rfl | (split <;> rfl)

/-- Every command but PIN_RESET, PROFILE_COMMIT and PROFILE_CLEAR leaves the profile table as it is. -/
theorem exec_profiles {i : Instr} {s t : State} (hp : i ≠ .pinReset) (hc : i ≠ .profileCommit .take)
    (hd : i ≠ .profileClear .take) (he : exec i s = .next t) : t.sdc.profiles = s.sdc.profiles := by
  have take : ∀ cmd owner, (∀ f, (owner f : State).sdc.profiles = s.sdc.profiles) →
      (s.takeCommand cmd owner).sdc.profiles = s.sdc.profiles := fun cmd owner ho =>
    State.takeCommand_induct (P := fun t => t.sdc.profiles = s.sdc.profiles) rfl (fun _ => rfl) ho
  by_cases hb : Block.sdc ∈ writes i
  swap
  · rw [(exec_frame he).sdc hb]
  cases i with
  | pinReset => exact absurd rfl hp
  | profileCommit p => cases p <;> [(cases he; rfl); exact absurd rfl hc]
  | profileClear p => cases p <;> [(cases he; rfl); exact absurd rfl hd]
  | countersClear p =>
    cases p with
    | sdc =>
      cases he
      refine take _ _ fun f => ?_
      split
      · rfl
      · split <;> rfl
    | _ => simp [writes, lineBlocks] at hb
  | append x =>
    simp only [exec, execAppend] at he
    split at he
    · cases he; rfl
    · split at he <;> cases he
      · next a _ _ _ =>
        have key : ((s.setEvq (s.evq.take a s.now).1).setOutbox (s.outbox x).pop x).sdc.profiles = s.sdc.profiles := by
          cases x <;> rfl
        rcases ((s.setEvq (s.evq.take a s.now).1).setOutbox (s.outbox x).pop x).deliverAnswer_cases x (s.outbox x).early a.body
          (s.evq.take a s.now).2 with e | ⟨_, e⟩ | ⟨_, _, e⟩ <;> rw [e] <;> exact key
      · rfl
  | finishAnswer =>
    simp only [exec, execFinishAnswer] at he
    split at he <;> cases he
    · exact Decoder.profiles_finished _ _ _ _ _
    · rfl
  | takeRequest | decodeFinish | hostHoldDrop h | runResetPst | runResetSdc | decoderTakeStart | takeAnswer | decodeEnd
  | undecodedAnswer | codeWord | repeatNotice =>
    simp only [exec, execTakeRequest, execDecodeFinish, execHostHoldDrop, execRunResetPst, execRunResetSdc,
      execDecoderTakeStart, execTakeAnswer, execDecodeEnd, execUndecodedAnswer, execCodeWord, execRepeatNotice] at he
    repeat' split at he
    all_goals cases he; rfl
  | channelSet p | channelGet p | channelEnable p | channelDisable p | channelFlush p | profileRead p
  | entryCommit p | entryRead p | entryClear p | tableClear p | burstRelease p | learnStart p
  | learnAbort p | learnCommit p | learnDiscard p | txSubmit p | txStop p | txAbort p =>
    cases p <;> simp [writes, commandBlocks, lineBlocks] at hb
  | _ => simp [writes, lineBlocks] at hb

/-! ## Who writes the code table -/

theorem MatchUnit.table_learnWord (m : MatchUnit) (w : CodeWord) (toggle : Option Nat) :
    (m.learnWord w toggle).table = m.table := by
  unfold MatchUnit.learnWord
  simp only
  split
  · rfl
  · split
    · split <;> rfl
    · split <;> rfl

/-- Every command but PIN_RESET, the commits and the clears of entries leaves the code table as it is. -/
theorem exec_table {i : Instr} {s t : State} (hp : i ≠ .pinReset) (hc : i ≠ .entryCommit .take)
    (hl : i ≠ .learnCommit .take) (hd : i ≠ .entryClear .take) (ht : i ≠ .tableClear .take) (he : exec i s = .next t) :
    t.mu.table = s.mu.table := by
  have take : ∀ cmd owner, (∀ f, (owner f : State).mu.table = s.mu.table) →
      (s.takeCommand cmd owner).mu.table = s.mu.table := fun cmd owner ho =>
    State.takeCommand_induct (P := fun t => t.mu.table = s.mu.table) rfl (fun _ => rfl) ho
  have part : ∀ f (act : State), act.mu.table = s.mu.table → (s.matchPart f act).mu.table = s.mu.table := fun f act ha =>
    State.matchPart_induct (P := fun t => t.mu.table = s.mu.table) rfl (fun _ => ha)
  by_cases hb : Block.mu ∈ writes i
  swap
  · rw [(exec_frame he).mu hb]
  cases i with
  | pinReset => exact absurd rfl hp
  | entryCommit p => cases p <;> [(cases he; rfl); exact absurd rfl hc]
  | learnCommit p => cases p <;> [(cases he; rfl); exact absurd rfl hl]
  | entryClear p => cases p <;> [(cases he; rfl); exact absurd rfl hd]
  | tableClear p => cases p <;> [(cases he; rfl); exact absurd rfl ht]
  | muChannelPart =>
    simp only [exec, execMuChannelPart] at he
    repeat' split at he
    all_goals cases he
    · rfl
    · rfl
    · exact (KeysOnly.removeKey none _ _ _ _).table
    · show (s.mu.disableChannel _ _).table = s.mu.table
      unfold MatchUnit.disableChannel
      simp only
      split <;> exact (KeysOnly.removeKey none _ _ _ _).table
    · rfl
    · rfl
  | countersClear p =>
    cases p with
    | mu =>
      cases he
      refine take _ _ fun f => ?_
      split
      · rfl
      · split <;> rfl
    | _ => simp [writes, lineBlocks] at hb
  | learnStart p =>
    cases p <;> cases he
    · rfl
    · refine take _ _ fun f => ?_
      split
      · refine part _ _ ?_
        split
        · rfl
        · exact (KeysOnly.removeKey none s.mu _ .learn s.now).table
      · rfl
  | learnAbort p =>
    cases p <;> cases he
    · rfl
    · refine take _ _ fun f => part _ _ ?_
      split <;> rfl
  | learnDiscard p =>
    cases p <;> cases he
    · rfl
    · refine take _ _ fun f => part _ _ ?_
      split <;> rfl
  | append x =>
    simp only [exec, execAppend] at he
    split at he
    · cases he; rfl
    · split at he <;> cases he
      · next a _ _ _ =>
        have key : ((s.setEvq (s.evq.take a s.now).1).setOutbox (s.outbox x).pop x).mu.table = s.mu.table := by
          cases x <;> rfl
        rcases ((s.setEvq (s.evq.take a s.now).1).setOutbox (s.outbox x).pop x).deliverAnswer_cases x (s.outbox x).early a.body
          (s.evq.take a s.now).2 with e | ⟨_, e⟩ | ⟨_, _, e⟩ <;> rw [e] <;> exact key
      · rfl
  | codeWord =>
    simp only [exec, execCodeWord] at he
    split at he <;> cases he
    · show MatchUnit.table (if _ then _ else _) = _
      split
      · exact MatchUnit.table_learnWord _ _ _
      · exact (KeysOnly.lookup _ _ _ _ _).table
    · rfl
  | repeatNotice =>
    simp only [exec, execRepeatNotice] at he
    split at he <;> cases he
    · show MatchUnit.table (if _ then _ else _) = _
      split
      · rfl
      · exact (KeysOnly.takeNotice _ _ _).table
    · rfl
  | pressAnswer =>
    simp only [exec, execPressAnswer] at he
    split at he <;> cases he
    · exact (KeysOnly.pressAnswered none _ _ _).table
    · rfl
  | expiry c =>
    simp only [exec, execExpiry] at he
    repeat' split at he
    all_goals cases he
    · exact (KeysOnly.expire none _ _ _).table
    all_goals rfl
  | millisecondTick =>
    simp only [exec, execMillisecondTick] at he
    split at he <;> cases he
    · rfl
    · show (MatchUnit.tickLearn _ _).table = _
      unfold MatchUnit.tickLearn
      split <;> rfl
  | learnTimeout | runResetMu =>
    simp only [exec, execLearnTimeout, execRunResetMu] at he
    repeat' split at he
    all_goals cases he; rfl
  | channelSet p | channelGet p | channelEnable p | channelDisable p | channelFlush p | profileCommit p
  | profileRead p | profileClear p | entryRead p | burstRelease p | txSubmit p | txStop p | txAbort p =>
    cases p <;> simp [writes, commandBlocks, lineBlocks] at hb
  | _ => simp [writes, lineBlocks] at hb

end Sys2Proof.Machine
end

