-- ==== Sys2Proof/Tests/Slice0.lean ====
section
/-! SUPPORT. The model's own tests: the ill-formed terms that the check refuses, the worked examples of the spec, and for
every statement that has hypotheses states and operands that meet them (`witness_…`, one part per clause). -/

namespace Sys2Proof.Tests

open Sys2Proof.Machine

-- One test after the other: in one text, tests that wait side by side for the kernel would each hold a thread's stack.
set_option Elab.async false

/-! ## Small states -/

/-- The reset state at a time of the Time Base. -/
def at_ (us : Nat) : State := { State.reset with tb := { State.reset.tb with counter := BitVec.ofNat 32 us } }

/-- A Line Capture Unit on channel 0 at a time. -/
def onLine (us : Nat) (l : Lcu) : State := (at_ us).setLcu 0 l

/-- An IDLE line at rest, with the defaults of R3. -/
def rest : Lcu := { Lcu.reset with capture := .idle, sampled := true }

/-- A line at rest in OPEN with two elements written; the element in progress began at 0. -/
def openRest : Lcu := { rest with capture := .opened, handle := some 3, count := 2 }

/-- A line in a mark in OPEN. -/
def openMark : Lcu := { openRest with level := false, count := 1 }

/-- A command in flight that passed or failed the BCU's check. -/
def flight (cmd : Option Cmd) (args : Args) (staging : StagingRecord) (parts : List Part) : InFlight :=
  { cmd := cmd, args := args, staging := staging, parts := parts, error := none, result := 0, copy := .absent }

/-- A state with a command in flight. -/
def commanded (s : State) (f : InFlight) : State := s.setBcu { s.bcu with cmdState := .busy, inFlight := some f }

/-- Arguments with a given ARG0, and the reset values of R205 otherwise. -/
def arg (n : Nat) : Args := { arg0 := BitVec.ofNat 8 n, arg1 := 0#8, arg2 := 2#8, arg3 := 10#8 }

/-- The command's write to CMD_OPCODE and its owner's part, one after the other. -/
def afterWriteAndTake (write take : Instr) (s : State) : Host.Outcome State Fault Refusal :=
  match exec write s with
  | .next t => exec take t
  | other => other

/-- What a state answers, if the outcome is a next state. -/
def ask {α : Type} (f : State → α) : Host.Outcome State Fault Refusal → Option α
  | .next t => some (f t)
  | _ => none

/-- Profile 0 of Chapter 10. -/
def profile0 : Profile :=
  { valid := true, encoding := .distance, tolerance := 8, leader := some ⟨8000, 4000⟩, repeatLeader := some ⟨8000, 2000⟩
    unit1 := 500, unit2 := 500, unit3 := 1500, minBits := 24, maxBits := 24, order := .lsbFirst, toggle := none
    period := 100 }

/-- Profile 1 of Chapter 10. -/
def profile1 : Profile :=
  { valid := true, encoding := .biphase, tolerance := 6, leader := none, repeatLeader := none, unit1 := 600, unit2 := 0
    unit3 := 0, minBits := 12, maxBits := 12, order := .msbFirst, toggle := some 9, period := 90 }

/-- Entry 20 of Chapter 4. -/
def entry20 : Entry :=
  { valid := true, profile := 1, bits := 12, pattern := 0xD35, careMask := 0xDFF, keyId := 40, channels := 4#4, group := 3
    mode := .edge, confirm := 1, holdInterval := 0 }

/-- The reset state with profiles 0 and 1 and entry 20. -/
def tabled : State :=
  let s := State.reset.setSdc ((State.reset.sdc.setProfile 0 profile0).setProfile 1 profile1)
  s.setMu (s.mu.setEntry 20 entry20)

/-! ## WellFormed refuses what is not the row's own event -/

theorem test_wellFormed_refuses_ownRowAddress : (Instr.registerWrite 0x08#6 1#8).wellFormed = false := by decide
theorem test_wellFormed_refuses_clearingStatus : (Instr.registerWrite 0x01#6 8#8).wellFormed = false := by decide
theorem test_wellFormed_takes_argument : (Instr.registerWrite 0x04#6 8#8).wellFormed = true := by decide
theorem test_wellFormed_refuses_definedOpcode : (Instr.undefinedOpcode (.write 0x01#8)).wellFormed = false := by decide
theorem test_wellFormed_takes_undefinedOpcode : (Instr.undefinedOpcode (.write 0x17#8)).wellFormed = true := by decide
theorem test_wellFormed_refuses_statusWithoutBit3 : (Instr.cmdDoneClear 0xF7#8).wellFormed = false := by decide

/-! ## The queue of commands -/

theorem test_step_idles_on_an_empty_queue : step State.reset = .next State.reset := rfl
theorem test_withFetchWord_keeps_the_state : State.reset.withFetchWord 8 1 = State.reset := rfl

/-! ## Chapter 1: the worked example of 1.10, and others -/

/-- At 1,000,000 the line goes low: a pending change with that edge time. -/
theorem test_change_starts_at_the_edge :
    ask (fun t => (t.lcu 0).change) (exec (.pendingChangeStart 0)
      (onLine 1000000 { rest with samples := [⟨1000000, false⟩] })) = some (some 1000000) := by decide +kernel

/-- At 1,000,040 the mark is accepted and a descriptor is asked for with the edge time. -/
theorem test_accepted_mark_asks_for_a_descriptor :
    ask (fun t => ((t.lcu 0).level, (t.lcu 0).toStore.msgs)) (exec (.acceptedEdge 0)
      (onLine 1000040 { rest with change := some 1000000, samples := [⟨1000040, false⟩] }))
      = some (false, [.descriptor 1000000]) := by decide +kernel

/-- IDLE is left at that moment: CHAN_STATUS0 reads OPEN in a mark while the request is unanswered. -/
theorem test_idle_is_left_at_the_request :
    ask (fun t => (t.readRegister 0x28#6, (t.lcu 0).handle)) (exec (.acceptedEdge 0)
      (onLine 1000040 { rest with change := some 1000000, samples := [⟨1000040, false⟩] }))
      = some (0x22#8, none) := by decide +kernel

/-- At 1,000,600 the rest is accepted: element 0 measures 560. -/
theorem test_element_measures_from_edge_to_edge :
    ask (fun t => (t.lcu 0).toStore.msgs) (exec (.acceptedEdge 0)
      (onLine 1000600 { openMark with count := 0, elementStart := 1000000, change := some 1000560
                                      samples := [⟨1000600, true⟩] })) = some [.write 3 0 560] := by decide +kernel

/-- At 1,001,070 the 20 µs glitch is cancelled and counted. -/
theorem test_short_glitch_is_counted :
    ask (fun t => ((t.lcu 0).change, (t.lcu 0).counters.glitches)) (exec (.pendingChangeCancel 0)
      (onLine 1001070 { openRest with elementStart := 1000560, change := some 1001050, samples := [⟨1001070, true⟩] }))
      = some (none, 1) := by decide +kernel

/-- At 1,012,580 the end gap is reached: closed with the end of the last mark. -/
theorem test_end_gap_closes_with_the_last_mark :
    ask (fun t => ((t.lcu 0).capture, (t.lcu 0).toStore.msgs, (t.lcu 0).counters.burstsClosed)) (exec (.endGapExpiry 0)
      (onLine 1012580 { openRest with elementStart := 1002580, count := 3 }))
      = some (.idle, [.close 3 1002580], 1) := by decide +kernel

/-- One microsecond earlier it is not. -/
theorem test_end_gap_not_reached_before :
    (({ openRest with elementStart := 1002580, count := 3 } : Lcu).expiryDue 1012579) = false := by decide +kernel

/-! ## Chapter 3: the worked examples of 3.2, 3.4 and 3.5 -/

theorem test_width_560_700_inseparable_under_8 : separable 8 560 700 = false := by decide
theorem test_width_560_700_separable_under_2 : separable 2 560 700 = true := by decide
theorem test_profiles_of_chapter_10_pass : profile0.timingValid = true ∧ profile1.timingValid = true := by decide +kernel

theorem test_repeat_frame_of_3_4 : profile0.attempt [8950, 2240, 560] = .repeated := by decide +kernel

theorem test_biphase_burst_of_3_5 :
    decodeBurst #v[profile0, profile1, .cleared, .cleared, .cleared, .cleared, .cleared, .cleared] 2#8
      [630, 570, 610, 590, 640, 560, 600, 1220, 580, 620, 1180, 610, 650, 1150, 1240, 1210, 1190]
      = .full 1 12 0xD35 (some true) := by decide +kernel

/-! ## Chapter 4: the commit checks of 4.2 -/

/-- The entry fields of entry 20. -/
def fields20 : EntryFields := entryFields (entryBytes entry20)

theorem test_entry20_commits : (MatchUnit.commitEntry tabled.mu 20 fields20 tabled.sdc.profiles 0).toOption.isSome = true := by
  decide +kernel

/-- The error of a commit. -/
def commitError (x : EntryFields) : Option CmdError :=
  match MatchUnit.commitEntry tabled.mu 20 x tabled.sdc.profiles 0 with
  | .error e => some e
  | .ok _ => none

theorem test_mask_over_the_toggle_is_refused : commitError { fields20 with careMask := 0xFFF } = some .badArg := by
  decide +kernel
theorem test_pattern_beyond_the_bits_is_refused : commitError { fields20 with pattern := 0x1D35 } = some .badArg := by
  decide +kernel
theorem test_empty_profile_is_refused : commitError { fields20 with profile := 5 } = some .profileEmpty := by decide +kernel
theorem test_field_stage_comes_before_the_profile :
    commitError { fields20 with profile := 5, channels := 0 } = some .badArg := by decide +kernel

/-! ## Chapter 7: step 7 of the worked example of 7.3 -/

/-- A record of the queue. -/
def aRecord (n : Nat) : EventRecord := { seq := BitVec.ofNat 16 n, source := 0, stamp := 0, body := .lineStuck, admitted := 0 }

/-- A queue of `n` records. -/
def queued (n : Nat) (lost : Half) (pending : Bool) : State :=
  State.reset.setEvq { State.reset.evq with
    records := (List.range n).map aRecord, nextSeq := BitVec.ofNat 16 n, lost := lost, overrunPending := pending }

/-- At 59 with the flag set, the OVERRUN with count 2 takes the 60th place and the LINE_STUCK is refused and counted. -/
theorem test_overrun_takes_the_last_place :
    (let q := ((queued 59 2 true).evq.take { source := 3, stamp := 0, body := .lineStuck } 0)
     (q.1.records.length, q.1.records.getLast?.map EventRecord.body, q.1.lost, q.1.overrunPending, q.2))
      = (60, some (.overrun 2), 1, true, false) := by decide +kernel

/-- At 60 a RELEASE is admitted from the reserve, without an OVERRUN. -/
theorem test_release_uses_the_reserve :
    (let q := ((queued 60 2 true).evq.take { source := 1, stamp := 0, body := .release 0 0 0 .timeout 0 } 0)
     (q.1.records.length, q.1.lost, q.2)) = (61, 2, true) := by decide +kernel

/-! ## Chapter 8: the worked example of 8.12 and the frame of profile 0 -/

theorem test_biphase_frame_of_8_12 :
    ((profile1.fullFrame 12 0xD35 true).map Element.duration)
      = [600, 600, 600, 600, 600, 600, 600, 1200, 600, 600, 1200, 600, 600, 1200, 1200, 1200, 1200] := by decide +kernel

theorem test_profile0_frame_has_51_elements : (profile0.fullFrame 24 0x3A0C51 false).length = 51 := by decide +kernel

/-- The carrier example of R178: 211 units with THIRD are 70 active units. -/
theorem test_carrier_third_of_211 : Duty.activeUnits .third 211 = 70 := by decide

/-! ## Chapter 9: the worked example of 9.4 -/

/-- Step 2: entry 20's commit is accepted with ARG0 = 14h. -/
def accepted : State :=
  let s := tabled.setBcu { tabled.bcu with args := arg 20, entryStaging := entryBytes entry20, cmdState := .done, cmdDone := true }
  s.setBcu (s.bcu.writeOpcode 0x0A#8)

theorem test_acceptance_clears_done : (accepted.bcu.cmdState, accepted.bcu.cmdDone, accepted.bcu.opcode) = (.busy, false, 0x0A#8) := by
  decide +kernel
theorem test_opcode_while_busy_collides :
    ask (fun t => (t.bcu.collision, t.bcu.opcode)) (exec (.tableClear .write) accepted) = some (true, 0x0A#8) := by decide +kernel
theorem test_commit_writes_the_snapshot :
    ask (fun t => (t.mu.entry 20).keyId) (exec (.entryCommit .take)
      (accepted.setBcu { accepted.bcu with entryStaging := Vector.replicate 25 0 })) = some 40#8 := by decide +kernel
theorem test_undefined_opcode_is_an_error :
    ask (fun t => (t.bcu.cmdState, t.bcu.error)) (afterWriteAndTake (.undefinedOpcode (.write 0#8)) (.undefinedOpcode .check)
      State.reset) = some (.error, 0x01#8) := by decide +kernel
theorem test_channel_4_is_a_bad_argument :
    ask (fun t => (t.bcu.cmdState, t.bcu.error)) (afterWriteAndTake (.channelEnable .write) (.channelEnable .take)
      (State.reset.setBcu { State.reset.bcu with args := arg 4 })) = some (.error, 0x02#8) := by decide +kernel
theorem test_zero_transmit_record_names_an_empty_entry :
    ask (fun t => t.bcu.inFlight.map InFlight.error) (afterWriteAndTake (.txSubmit .write) (.txSubmit .take) State.reset)
      = some (some (some .entryEmpty)) := by decide +kernel

/-! ## Witnesses: Chapter 1 -/

theorem witness_TimeBaseTicksAndTheLatchIsConsistent :
    State.reset.tb.divider < 1000 ∧ ({ counter := 0, divider := 999, msTicks := [] } : TimeBase).divider < 1000
      ∧ (State.reset.lcu 0).sampled = false ∧ ((onLine 0 rest).lcu 0).sampled = true := by decide +kernel

/-- Samples that leave without an event, up to the first that asks for one: with no change pending, and with one. -/
theorem witness_samples_that_leave :
    ({ rest with samples := [⟨1, true⟩, ⟨2, true⟩, ⟨3, false⟩, ⟨4, true⟩] } : Lcu).settle.samples = [⟨3, false⟩, ⟨4, true⟩]
    ∧ ({ rest with change := some 1000, samples := [⟨1039, false⟩, ⟨1040, false⟩] } : Lcu).settle.samples = [⟨1040, false⟩]
    ∧ ({ rest with change := some 1000, samples := [⟨1039, true⟩] } : Lcu).settle.samples = [⟨1039, true⟩] := by decide +kernel

/-- A change that starts. -/
def starting : Lcu := { rest with samples := [⟨1000, false⟩] }
/-- A change that is cancelled before any interval is reached. -/
def cancelling : Lcu := { openRest with elementStart := 900, change := some 1000, samples := [⟨1039, true⟩] }
/-- Cancellations at which the end gap has been reached, in OPEN and in DISCARD. -/
def gapReached : Lcu := { openRest with change := some 9990, samples := [⟨10000, true⟩] }
def gapReachedInDiscard : Lcu :=
  { rest with capture := .discard, measuringStart := some 0, change := some 9990, samples := [⟨10000, true⟩] }
/-- A cancellation at which the stuck limit has been reached. -/
def limitReached : Lcu := { openMark with change := some 49990, samples := [⟨50000, false⟩] }

theorem witness_SampleStartsOrCancelsAChange :
    (starting.waiting = none ∧ starting.samples = [⟨1000, false⟩] ∧ starting.change = none ∧ false ≠ starting.level)
    ∧ (cancelling.waiting = none ∧ cancelling.samples = [⟨1039, true⟩] ∧ cancelling.change = some 1000
        ∧ true = cancelling.level ∧ cancelling.intervalReached 1039 1039 = false)
    ∧ (∀ l ∈ [gapReached, gapReachedInDiscard], l.waiting = none ∧ l.samples = [⟨10000, true⟩] ∧ l.change = some 9990
        ∧ true = l.level ∧ l.isActive = false ∧ l.intervalReached 10000 10000 = true)
    ∧ limitReached.waiting = none ∧ limitReached.samples = [⟨50000, false⟩] ∧ limitReached.change = some 49990
    ∧ false = limitReached.level ∧ limitReached.isActive = true ∧ limitReached.intervalReached 50000 50000 = true := by
  decide +kernel

/-- Lines whose pending change since 1,000 is accepted at 1,040: to a mark, and to rest. -/
def toMark (l : Lcu) : Lcu := { l with change := some 1000, samples := [⟨1040, false⟩] }
def toRest (l : Lcu) : Lcu := { l with level := false, change := some 1000, samples := [⟨1040, true⟩] }

/-- The premises that every clause shares. -/
abbrev edgeArrives (l : Lcu) : Prop :=
  l.waiting = none ∧ l.samples.head?.any (fun x => x.time = 1040 ∧ x.level ≠ l.level) ∧ l.change = some 1000
    ∧ l.settings.glitchMin.toNat ≤ elapsed 1000 1040 ∧ l.expiryDue 1040 = false

theorem witness_AcceptedEdgeMovesTheCapture :
    (∀ l ∈ [toMark rest, toMark { openRest with count := 254 }, toMark { openRest with count := 255 },
            toRest { rest with capture := .stuck }, toMark { rest with capture := .discard, measuringStart := some 999 },
            toMark { rest with capture := .discard, measuringStart := some 1001 }, toMark { rest with capture := .disabled },
            toMark { rest with capture := .blanked }, toRest rest], edgeArrives l)
    ∧ (toMark rest).isActive = false ∧ (toRest rest).isActive = true
    ∧ (toMark { openRest with count := 254 }).handle = some 3
    ∧ 254 + 1 ≤ openRest.settings.elementLimit.toNat ∧ openRest.settings.elementLimit.toNat < 255 + 1 := by decide +kernel

theorem witness_StoreAnswersMoveTheCapture :
    (∀ a ∈ [LcuAnswer.granted 15, .noDescriptor], ({ rest with waiting := some (.descriptor 5), answer := some a } : Lcu).waiting
      = some (.descriptor 5))
    ∧ (∀ a ∈ [LcuAnswer.taken, .noBlock], ({ openRest with waiting := some (.write 5), answer := some a } : Lcu).waiting
      = some (.write 5) ∧ openRest.handle = some 3) := by decide +kernel

theorem witness_ExpiriesEndTheBurstOrTheRest :
    openRest.samples = [] ∧ openRest.waiting = none ∧ openRest.isActive = false ∧ openRest.expiryDue 10000 = true
    ∧ openRest.handle = some 3
    ∧ (let l : Lcu := { rest with capture := .discard, measuringStart := some 0 }
       l.waiting = none ∧ l.isActive = false ∧ l.expiryDue 10000 = true)
    ∧ openMark.isActive = true ∧ openMark.expiryDue 50000 = true ∧ openMark.expiryDue 49999 = false
    ∧ openMark.handle.isSome = true
    ∧ (let l : Lcu := { rest with level := false, capture := .discard, measuringStart := some 0 }
       l.isActive = true ∧ l.expiryDue 50000 = true ∧ l.handle = none)
    ∧ ({ openRest with samples := [⟨9999, false⟩] } : Lcu).expiryDue 10000 = false
    ∧ ({ openRest with samples := [⟨10000, false⟩] } : Lcu).expiryDue 10001 = true := by decide +kernel

/-- A claim of TX0 waits. -/
def claimed (l : Lcu) : Lcu := { l with claims := #v[[.claim], []] }
/-- A drop of TX0 waits. -/
def dropped (l : Lcu) : Lcu := { l with claims := #v[[.drop], []] }

theorem witness_BlankClaimsAndDropsMoveTheChannel :
    (∀ l ∈ [rest, openRest, Lcu.reset, { rest with capture := .blanked, blankCount := 1 }],
      (claimed l).waiting = none ∧ (claimed l).claimsOf 0 = .claim :: [])
    ∧ (claimed openRest).blankCount = 0 ∧ (claimed openRest).handle = some 3 ∧ (claimed rest).capture ≠ .disabled
    ∧ (∀ l ∈ [{ rest with capture := .blanked, blankCount := 1 }, { rest with capture := .blanked, blankCount := 2 },
              { Lcu.reset with blankCount := 1 }], (dropped l).waiting = none ∧ (dropped l).claimsOf 0 = .drop :: []) := by
  decide +kernel

/-! ## Witnesses: Chapter 2 -/

/-- A request of channel 0 at the store. -/
def asking (p : PulseStore) (r : StoreRequest) : State :=
  (onLine 0 { rest with toStore := { msgs := [r], early := 0 } }).setPst p

/-- A store whose descriptor 3 is `d`, and whose free-block list is `free`. -/
def store3 (d : Descriptor) (free : List BlockNo) : PulseStore :=
  { PulseStore.reset.setDescriptor 3 d with freeBlocks := free }

/-- Channel 0's OPEN descriptor with `n` elements. -/
def open3 (n : Nat) (blocks : List BlockNo) : Descriptor :=
  { Descriptor.freed with state := .opened, channel := 0, count := n, blocks := blocks }

/-- A store without a FREE descriptor but, where `last` is true, the one of handle 15. -/
def full (last : Bool) : PulseStore :=
  { PulseStore.reset with descriptors := Vector.ofFn fun h : Fin 16 =>
      if h.val = 15 && last then .freed else { Descriptor.freed with state := .retained } }

/-- No part of a RUN_RESET waits: no command is in flight, or another one. -/
theorem witness_no_part_of_RUN_RESET_waits :
    (asking .reset (.descriptor 7)).bcu.inFlight = none
    ∧ (let f := flight (some .tableClear) (arg 0) .absent [.mu]
       (commanded (asking .reset (.descriptor 7)) f).bcu.inFlight = some f ∧ f.cmd ≠ some .runReset
        ∧ (commanded (asking .reset (.descriptor 7)) f).storeRequest 0 = some (.descriptor 7)) := by decide +kernel

theorem witness_DescriptorRequestGrantsTheLowestFree :
    (asking .reset (.descriptor 7)).storeRequest 0 = some (.descriptor 7) ∧ (PulseStore.reset.descriptor 0).state = .free
    ∧ (∀ k < (0 : Handle), (PulseStore.reset.descriptor k).state ≠ .free)
    ∧ ((full true).descriptor 15).state = .free ∧ (∀ k < (15 : Handle), ((full true).descriptor k).state ≠ .free)
    ∧ ∀ h, ((full false).descriptor h).state ≠ .free := by decide +kernel

theorem witness_ElementWritePlacesTheDuration :
    (∀ n ∈ [0, 1, 15, 16, 17], (asking (store3 (open3 n [5, 6]) [7]) (.write 3 n 560)).storeRequest 0 = some (.write 3 n 560))
    ∧ ((store3 (open3 1 [5]) [7]).descriptor 3).state = .opened ∧ ((store3 (open3 1 [5]) [7]).descriptor 3).channel = 0
    ∧ ([5, 6] : List BlockNo)[17 / 16]? = some 6 ∧ 17 % 16 ≠ 0 ∧ ([5] : List BlockNo)[15 / 16]? = some 5 ∧ 15 % 16 ≠ 0
    ∧ (store3 (open3 16 [5]) [7]).freeBlocks ≠ [] ∧ (store3 (open3 0 []) []).freeBlocks = []
    ∧ (PulseStore.reset.descriptor 3).state ≠ .opened := by decide +kernel

/-- A taken write, at a position in a block and at one that takes a block. -/
theorem witness_ElementWriteChangesOneSlot :
    (∀ n ∈ [(17, [5, 6]), (16, [5])], ((store3 (open3 n.1 n.2) [7]).descriptor 3).count = n.1
      ∧ ((store3 (open3 n.1 n.2) [7]).descriptor 3).blocks.length = (n.1 + 15) / 16
      ∧ Memory.wf (store3 (open3 n.1 n.2) [7]).slots
      ∧ ask (fun t => (t.lcu 0).answer) (exec (.elementWrite 0 0) (asking (store3 (open3 n.1 n.2) [7]) (.write 3 n.1 560)))
        = some (some .taken)) := by decide +kernel

theorem witness_CloseQueuesAndAbandonFrees :
    (asking (store3 (open3 1 [5]) []) (.close 3 9)).storeRequest 0 = some (.close 3 9)
    ∧ (asking (store3 (open3 1 [5]) []) (.abandon 3)).storeRequest 0 = some (.abandon 3)
    ∧ ((store3 (open3 1 [5]) []).descriptor 3).state = .opened
    ∧ ((store3 { open3 1 [5] with channel := 2 } []).descriptor 3).channel ≠ 0 := by decide +kernel

/-- A store with a QUEUED burst of channel 0 and, taken, a DECODING one. -/
def working : PulseStore :=
  { (PulseStore.reset.setDescriptor 3 { open3 1 [5] with state := .queued }).setDescriptor 4
      { open3 1 [6] with state := .decoding } with
    freeBlocks := (List.finRange 32).filter fun b => b ≠ 5 ∧ b ≠ 6, queue := [3] }

theorem witness_ChannelPurgeFreesQueuedAndMarksStale :
    (asking working .purge).storeRequest 0 = some .purge ∧ (asking working .purge).pst.sound := by
  refine ⟨by decide +kernel, ?_⟩
  unfold PulseStore.sound
  decide +kernel

/-- The decoder with a request, and with an answer, beside a store. -/
def decoder (p : PulseStore) (r : Option DecoderRequest) (a : Option DecoderAnswer) : State :=
  (State.reset.setPst p).setSdc { State.reset.sdc with request := r, answer := a }

theorem witness_DecoderTakesTheHeadBurst :
    (decoder working (some .take) none).sdc.request = some .take
    ∧ Part.sdc ∉ (decoder working (some .take) none).resetParts
    ∧ working.queue = 3 :: [] ∧ PulseStore.reset.queue = []
    ∧ (decoder working none none).sdc.state = .idle ∧ (decoder working none none).sdc.answer = none
    ∧ (decoder working none none).pst.queue ≠ []
    ∧ (decoder working none (some (.took 4))).sdc.answer = some (.took 4)
    ∧ (decoder working none (some .empty)).sdc.answer = some .empty := by decide +kernel

/-- A store with `n` RETAINED descriptors and descriptor 12 DECODING. -/
def retaining (n : Nat) (stale : Bool) : PulseStore :=
  { PulseStore.reset with descriptors := Vector.ofFn fun h : Fin 16 =>
      if h.val < n then { Descriptor.freed with state := .retained }
      else if h.val = 12 then { Descriptor.freed with state := .decoding, stale := stale }
      else .freed }

theorem witness_DecodeFinishFreesOrRetains :
    (decoder (retaining 3 false) (some (.finish 12 .retain)) none).sdc.request = some (.finish 12 .retain)
    ∧ ((retaining 3 false).descriptor 12).state = .decoding ∧ ((retaining 3 true).descriptor 12).stale = true
    ∧ (retaining 3 false).retainedDescriptors < 4 ∧ 4 ≤ (retaining 4 false).retainedDescriptors
    ∧ ((retaining 3 false).descriptor 15).state ≠ .decoding := by decide +kernel

/-- A RETAINED descriptor 3 with its holds. -/
def held (host : Bool) (holds : Nat) : Descriptor :=
  { Descriptor.freed with state := .retained, hostHold := host, transmitHolds := holds }

/-- BURST_RELEASE of a handle in flight. -/
def releasing (d : Descriptor) : State :=
  commanded (State.reset.setPst (store3 d [])) (flight (some .burstRelease) (arg 3) .absent [.pst])

theorem witness_LastHoldDropFreesTheBurst :
    (let s := (State.reset.setSdc { State.reset.sdc with hostDrops := [3] }).setTxe { State.reset.txe with holdDrops := [3] }
     3 ∈ s.sdc.hostDrops ∧ 3 ∈ s.txe.holdDrops)
    ∧ (∀ d ∈ [held true 0, held true 1, held false 1, held false 2], ((store3 d []).descriptor 3).state = .retained)
    ∧ (PulseStore.reset.descriptor 3).state ≠ .retained
    ∧ (∀ d ∈ [held true 0, held true 1, held false 1], (releasing d).bcu.inFlight
          = some (flight (some .burstRelease) (arg 3) .absent [.pst]) ∧ (arg 3).arg0.toNat = (3 : Handle).val) := by
  decide +kernel

/-! ## Witnesses: Chapter 3 -/

/-- The staging records of profiles 0 and 1. -/
def record0 : Vector Byte 23 := profileBytes profile0
def record1 : Vector Byte 23 := profileBytes profile1

/-- Profile records at the bounds of the field checks; then profiles at those of the timing checks, and entries. -/
theorem witness_FieldAndTimingChecks :
    [record0, record1, record0.set 2 1, record0.set 2 12, record0.set 19 64, (record0.set 3 7).set 21 23].all
        (fun r => (profileOfBytes r).isSome) = true
    ∧ [record0.set 1 3, record0.set 20 2, record0.set 2 0, record0.set 2 13, record0.set 18 0, record0.set 19 65,
       record0.set 19 23, (record0.set 3 7).set 21 24, record1.set 3 2].all (fun r => (profileOfBytes r).isNone) = true := by
  decide +kernel

theorem witness_the_timing_checks :
    (∀ x ∈ [profile0, profile1, { profile1 with tolerance := 10 }, { profile1 with unit1 := 50 },
              { profile1 with unit1 := 30000 }], x.timingValid = true)
    ∧ (∀ x ∈ [{ profile1 with tolerance := 11 }, { profile1 with unit1 := 49 }, { profile1 with unit1 := 30001 },
              { profile0 with unit3 := 600 }, { profile0 with encoding := .width, unit2 := 550 },
              { profile0 with repeatLeader := some ⟨8000, 3900⟩ }], x.timingValid = false)
    ∧ profile0.usedNominals = [8000, 4000, 8000, 2000, 500, 500, 1500] ∧ profile1.usedNominals = [600]
    ∧ (500#16).toNat ≤ (1500#16).toNat ∧ separable 8 500 1500 = true ∧ separable 8 600 1000 = false := by decide +kernel

theorem witness_the_field_checks_of_an_entry :
    (∀ x ∈ [fields20, { fields20 with group := 15, confirm := 4 }], (entryOfFields x).isSome = true)
    ∧ ∀ x ∈ [{ fields20 with bits := 0 }, { fields20 with bits := 65 }, { fields20 with profile := 8 },
             { fields20 with channels := 16 }, { fields20 with group := 16 }, { fields20 with confirm := 5 },
             { fields20 with mode := 2 }], entryOfFields x = none := by decide +kernel

/-- A profile command in flight on a table state. -/
def onProfile (cmd : Cmd) (n : Nat) (r : StagingRecord) (s : State) : State := commanded s (flight (some cmd) (arg n) r [.sdc])

theorem witness_ProfileCommandsCheckAndWrite :
    (∀ p ∈ [profile0, profile1], profileOfBytes (profileBytes p) = some p ∧ p.timingValid = true)
    ∧ profileOfBytes (Vector.replicate 23 0) = none
    ∧ profileOfBytes (profileBytes { profile1 with tolerance := 11 }) = some { profile1 with tolerance := 11 }
    ∧ ({ profile1 with tolerance := 11 } : Profile).timingValid = false
    ∧ (onProfile .profileCommit 7 (.profile (profileBytes profile0)) tabled).bcu.inFlight
        = some (flight (some .profileCommit) (arg 7) (.profile (profileBytes profile0)) [.sdc])
    ∧ (arg 7).arg0.toNat = (7 : ProfileNo).val ∧ tabled.mu.awaiting = none
    ∧ (tabled.mu.entry 20).valid = true ∧ (tabled.mu.entry 20).profile = 1
    ∧ (tabled.mu.entry 20).bits < ({ profile1 with minBits := 13, maxBits := 13 } : Profile).minBits
    ∧ (∀ c, (tabled.lcu c).settings.profileSet.getLsbD 7 = false)
    ∧ (∀ i, (tabled.mu.entry i).valid = true → (tabled.mu.entry i).profile ≠ 7) := by decide +kernel

/-- The Match Unit waits for the answer to the PRESS of channel 2. -/
def awaiting (s : State) : State := s.setMu { s.mu with awaiting := some 2 }

/-- The parts of the command in flight that have not been taken, after a step. -/
def left (i : Instr) (s : State) : Option (Option (List Part)) := ask (fun t => t.bcu.inFlight.map InFlight.parts) (exec i s)

/-- A use check of PROFILE_COMMIT and PROFILE_CLEAR waits with the Match Unit; a refusal before it does not. -/
theorem test_use_checks_wait_for_the_answer_to_a_press :
    (∀ cmd ∈ [(Cmd.profileCommit, Instr.profileCommit .take), (.profileClear, .profileClear .take)],
      (let s := onProfile cmd.1 7 (.profile (profileBytes profile0)) tabled
       left cmd.2 (awaiting s) = some (some [.sdc]) ∧ left cmd.2 s = some (some [])))
    ∧ left (.profileCommit .take) (awaiting (onProfile .profileCommit 7 (.profile (Vector.replicate 23 0)) tabled))
        = some (some []) := by decide +kernel

/-- Sets in which profile 1 reads the burst after profile 0 fails, both fail, or profile 0 reads a repeat frame. -/
theorem witness_LowestReadingProfileWins :
    (3#8).getLsbD 1 = true ∧ (3#8).getLsbD 0 = true
    ∧ profile0.attempt [600] = .fail .leader 0 ∧ { profile1 with minBits := 1 }.attempt [600] = .full [true]
    ∧ profile0.attempt [8950, 2240, 560] = .repeated
    ∧ profile0.attempt [8100, 3950, 560, 1000, 560] = .fail .symbol 3
    ∧ profile1.attempt [8100, 3950, 560, 1000, 560] = .fail .symbol 0 := by decide +kernel

/-- A DISTANCE profile of at most two bits. -/
def short : Profile := { profile0 with minBits := 1, maxBits := 2 }
/-- A WIDTH profile of one or two bits without a leader. -/
def shortWidth : Profile :=
  { short with encoding := .width, leader := none, repeatLeader := none, unit1 := 500, unit2 := 1500, unit3 := 500 }
/-- A BIPHASE profile of two bits. -/
def shortBiphase : Profile := { profile1 with minBits := 2, maxBits := 2, toggle := none }

theorem witness_an_attempt_at_the_leader :
    short.leaderMatches [8000, 4000, 500] = true ∧ short.repeatMatches [8000, 2000, 500] = true
      ∧ short.leaderMatches [8000, 2000, 500] = false ∧ short.attempt [8000, 2000, 500] = .repeated
      ∧ short.leaderMatches [5000, 4000] = false ∧ short.attempt [5000, 4000] = .fail .leader 0 := by decide +kernel

/-- What follows two pairs of a DISTANCE burst with its leader. -/
theorem witness_an_attempt_at_DISTANCE :
    (let pairs := [(500, 1500), (500, 500)]
       let ds := fun rest => [8000, 4000] ++ (pairs.flatMap fun x => [x.1, x.2]) ++ rest
       short.encoding = .distance ∧ (∀ x ∈ pairs, short.near x.1 short.unit1.toNat = true)
        ∧ short.near 1500 short.unit3.toNat = true ∧ short.near 1500 short.unit2.toNat = false
        ∧ short.near 500 short.unit2.toNat = true
        ∧ short.attempt (ds [500]) = .full [true, false] ∧ short.attempt (ds [700]) = .fail .symbol 6
        ∧ short.attempt (ds [500, 500]) = .fail .trailing 7
        ∧ { short with maxBits := 3 }.attempt (ds [500, 900]) = .fail .symbol 7
        ∧ { short with minBits := 3, maxBits := 3 }.attempt (ds [500]) = .fail .length 7) := by
  decide +kernel

/-- What follows a pair of a WIDTH burst. -/
theorem witness_an_attempt_at_WIDTH :
    (let ds : List Nat → List Nat := fun rest => [1500, 500] ++ rest
     shortWidth.encoding = .width ∧ shortWidth.leaderMatches (ds [500]) = false ∧ shortWidth.repeatMatches (ds [500]) = false
        ∧ shortWidth.leader = none ∧ shortWidth.near 1500 shortWidth.unit2.toNat = true
        ∧ shortWidth.near 1500 shortWidth.unit1.toNat = false ∧ shortWidth.near 500 shortWidth.unit3.toNat = true
        ∧ shortWidth.attempt (ds [500]) = .full [true, false] ∧ shortWidth.attempt (ds [1000]) = .fail .symbol 2
        ∧ shortWidth.attempt (ds [500, 1500]) = .fail .symbol 3) := by
  decide +kernel

/-- The halves of a BIPHASE burst. -/
theorem witness_an_attempt_at_BIPHASE :
    (shortBiphase.encoding = .biphase ∧ shortBiphase.leaderMatches [600, 1200] = false
        ∧ shortBiphase.near 600 shortBiphase.unit1.toNat = true ∧ shortBiphase.near 1200 shortBiphase.unit1.toNat = false
        ∧ shortBiphase.near 1200 (2 * shortBiphase.unit1.toNat) = true
        ∧ (([1, 2, 1].zipIdx 0).flatMap fun x => List.replicate x.1 (x.2 % 2 == 0, x.2))
            = [(true, 0), (false, 1), (false, 1), (true, 2)]
        ∧ shortBiphase.attempt [600, 600, 600] = .full [true, true] ∧ shortBiphase.attempt [600, 1200, 600] = .full [true, false]
        ∧ shortBiphase.attempt [1200, 600] = .fail .cell 0 ∧ shortBiphase.attempt [600, 900] = .fail .symbol 1
        ∧ shortBiphase.attempt [600] = .fail .length 1) := by decide +kernel

/-- A decode of descriptor 4 on channel 0. -/
def job : DecodeJob := { handle := 4, channel := 0, openTime := 7, count := 1, profileSet := 0#8 }

theorem witness_DecodeEnd :
    (State.reset.setSdc { State.reset.sdc with state := .decoding job }).sdc.state = .decoding job := by decide +kernel

theorem witness_FinishAnswerHandsOnOrDropsTheResult :
    (∀ r ∈ [DecodeResult.full 0 24 5 none, .repeated 0, .undecodable .leader],
     ∀ a ∈ [DecoderAnswer.stale, .freed, .retained, .noRoom],
      (State.reset.setSdc { State.reset.sdc with state := .finishing job r true, answer := some a }).sdc.state
        = .finishing job r true)
    ∧ (∀ h ∈ [none, some (15 : Handle)], ∀ a ∈ [DecoderAnswer.admitted, .refused],
      (State.reset.setSdc { State.reset.sdc with state := .reporting job h, answer := some a }).sdc.state = .reporting job h) := by
  decide +kernel

/-- A DISTANCE profile with a leader, and a WIDTH profile of 64 bits with a toggle and neither leader. -/
theorem witness_SentFrameDecodesToItsWord :
    (profile0.encoding ≠ .biphase ∧ profile0.timingValid = true ∧ profile0.minBits ≤ 24 ∧ 24 ≤ profile0.maxBits
      ∧ profile0.leader.isSome = true ∧ ∀ n < 64, 24 ≤ n → (0x3A0C51 : Payload).getLsbD n = false)
    ∧ (let p : Profile := { profile0 with encoding := .width, leader := none, repeatLeader := none, unit1 := 500
                                          unit2 := 1500, unit3 := 500, maxBits := 64, toggle := some 23 }
       p.encoding ≠ .biphase ∧ p.timingValid = true ∧ p.minBits ≤ 64 ∧ 64 ≤ p.maxBits ∧ p.repeatLeader = none
        ∧ p.toggle.all (· < 64)) := by decide +kernel

theorem witness_SentBiphaseFrameDecodesToItsWord :
    profile1.encoding = .biphase ∧ profile1.timingValid = true ∧ profile1.minBits ≤ 12 ∧ 12 ≤ profile1.maxBits
    ∧ (∀ n < 64, 12 ≤ n → (0xD35 : Payload).getLsbD n = false) ∧ profile1.toggle.all (· < 12) ∧ profile1.repeatLeader = none
    ∧ (sendingBits .msbFirst 12 (setToggleBit 0xD35 9 true)).head? = some true := by decide +kernel

/-! ## Witnesses: Chapters 4 and 5 -/

/-- A word of entry 20 on channel 2. -/
def word20 : CodeWord := { channel := 2, profile := 1, bits := 12, payload := 0xD35, toggle := some true, stamp := 9 }

/-- A message at the Match Unit. -/
def brought (m : MatchMsg) (s : State) : State := s.setSdc { s.sdc with toMatch := { msgs := [m], early := 0 } }

theorem witness_CodeWordReachesTheLowestFittingEntry :
    (brought (.word word20) tabled).matchMessage = some (.word word20) ∧ tabled.mu.divert ≠ some word20.channel
    ∧ (tabled.mu.entry 20).fits word20 = true ∧ (∀ j < (20 : EntryNo), (tabled.mu.entry j).fits word20 = false)
    ∧ (∀ j, j ≠ (20 : EntryNo) → (tabled.mu.entry j).fits word20 = false)
    ∧ (∀ i, (tabled.mu.entry i).fits { word20 with bits := 11 } = false)
    ∧ ((tabled.mu.setEntry 127 entry20).entry 127).fits word20 = true := by decide +kernel

/-- ENTRY_COMMIT, ENTRY_CLEAR or TABLE_CLEAR in flight. -/
def onEntry (cmd : Cmd) (n : Nat) (r : StagingRecord) : State := commanded tabled (flight (some cmd) (arg n) r [.mu])

theorem witness_EntryCommandsCheckAndWrite :
    (∀ cmd ∈ [Cmd.entryCommit, .entryClear, .tableClear], (onEntry cmd 127 (.entry (entryBytes entry20))).bcu.inFlight
      = some (flight (some cmd) (arg 127) (.entry (entryBytes entry20)) [.mu]))
    ∧ tabled.mu.awaiting = none ∧ tabled.tb.msTicks = [] ∧ (arg 127).arg0.toNat = (127 : EntryNo).val
    ∧ entryOfFields (entryFields (entryBytes entry20)) = some entry20
    ∧ entryOfFields (entryFields (Vector.replicate 25 0)) = none
    ∧ (tabled.sdc.profile entry20.profile).valid = true ∧ (tabled.sdc.profile 5).valid = false
    ∧ (tabled.sdc.profile 1).minBits ≤ entry20.bits ∧ entry20.bits ≤ (tabled.sdc.profile 1).maxBits
    ∧ (tabled.sdc.profile 1).toggle.all (fun t => !entry20.careMask.getLsbD t)
    ∧ (0xFFF : Payload).getLsbD 9 = true
    ∧ (tabled.mu.entry 20).valid = true ∧ (tabled.mu.entry 127).valid = false := by decide +kernel

/-- A frame of entry 20. -/
def frame20 : FrameArrival := { kind := .full, toggle := some true, ambiguous := false, stamp := 9, now := 20, deadline := 120020 }

/-- A key record of entry 20. -/
def record20 : KeyRecord :=
  { entry := 20, keyId := 40, group := 3, mode := .edge, confirm := 2, holdInterval := 5, state := .pending, confirmations := 1
    repeats := 4, toggle := some true, ambiguous := false, reported := true, created := 0, heldMs := 0, deadline := 100 }

theorem witness_FrameCreatesOrReplacesTheRecord :
    tabled.mu.key 2 = none ∧ frame20.kind = .full ∧ (tabled.mu.entry 20).mode = .edge ∧ (tabled.mu.entry 20).confirm ≤ 1
    ∧ (∀ e ∈ [{ entry20 with mode := .every }, { entry20 with confirm := 2 }],
        (tabled.mu.setEntry 20 e).entry 20 = e)
    ∧ (tabled.mu.setKey 2 (some record20)).key 2 = some record20 ∧ record20.entry ≠ 19
    ∧ record20.toggle ≠ { frame20 with toggle := none }.toggle := by decide +kernel

theorem witness_RefreshFollowsTheRecordState :
    (∀ r ∈ [record20, { record20 with confirm := 3 }, { record20 with state := .pressed },
            { record20 with state := .pressed, reported := false }, { record20 with state := .pressed, repeats := 65535 },
            { record20 with state := .tracking }],
      (tabled.mu.setKey 2 (some r)).key 2 = some r ∧ frame20.kind = .full ∧ r.toggle = frame20.toggle)
    ∧ record20.confirm ≤ record20.confirmations + 1 ∧ (record20.repeats.toNat + 1) % record20.holdInterval = 0 := by
  decide +kernel

theorem witness_GroupKeepsOneRecord :
    (3 : Nat) ≠ 0 ∧ ((tabled.mu.setKey 2 (some record20)).key 2).any (fun r => r.group == 3) := by decide +kernel

/-- A repeat notice of profile 1 on channel 2. -/
def notice1 : Notice := { channel := 2, profile := 1, stamp := 9 }

theorem witness_RepeatNoticeRefreshesOrIsAnOrphan :
    (∀ k ∈ [none, some record20, some { record20 with state := .tracking }, some { record20 with entry := 19 }],
      (brought (.notice notice1) (tabled.setMu (tabled.mu.setKey 2 k))).matchMessage = some (.notice notice1)
      ∧ (tabled.mu.setKey 2 k).key 2 = k)
    ∧ (tabled.mu.entry record20.entry).profile = notice1.profile ∧ (tabled.mu.entry 19).profile ≠ notice1.profile
    ∧ (brought (.notice notice1) (tabled.setMu { tabled.mu with divert := some 2 })).matchMessage = some (.notice notice1) := by
  decide +kernel

/-- A 1 ms tick of this moment waits at the Match Unit. -/
def ticking (us : Nat) : State := { at_ us with tb := { (at_ us).tb with msTicks := [BitVec.ofNat 32 us] } }

/-- An expiry is taken after the 1 ms ticks of earlier moments. -/
theorem test_an_earlier_tick_comes_before_an_expiry :
    (let s := fun ticks => { (at_ 100).setMu (tabled.mu.setKey 2 (some record20)) with
       tb := { (at_ 100).tb with msTicks := ticks } }
     ask (fun t => (t.mu.key 2).isSome) (exec (.expiry 2) (s [99])) = some true
      ∧ ask (fun t => (t.mu.key 2).isSome) (exec (.expiry 2) (s [100])) = some false) := by decide +kernel

theorem witness_PressAnswerAndExpiryEndTheWait :
    (∀ a ∈ [true, false], ({ tabled.mu.setKey 2 (some record20) with awaiting := some 2, answer := some a } : MatchUnit).key 2
      = some record20)
    ∧ (tabled.mu.setKey 2 (some record20)).awaiting = none ∧ (ticking 100).tb.msTicks.all (· == (ticking 100).now) = true
    ∧ ((at_ 100).now - record20.deadline).toNat < 2 ^ 31 ∧ record20.heldMs ≠ 65535#16
    ∧ ({ record20 with heldMs := 65535#16 } : KeyRecord).heldMs = 65535#16 := by decide +kernel

/-! ## Witnesses: Chapter 6 -/

/-- A learning command in flight. -/
def onLearn (cmd : Cmd) (args : Args) (s : State) : State :=
  commanded s (flight (some cmd) args (.entry (entryBytes entry20)) [.mu])

/-- A session on channel 2. -/
def session (st : LearnState) : LearnSession :=
  { LearnSession.idle with state := st, channel := 2, k := 2, remaining := 1 }

/-- A DONE session's result. -/
def learnt : LearnResult :=
  { channel := 2, profile := 1, bits := 12, payload := 0xD35, mask := 0xDFF, existing := none }

theorem witness_LearnCommandsRunTheSession :
    (∀ k ∈ [1, 2, 4, 5], ∀ t ∈ [0, 1, 60, 61],
      (let a : Args := { arg 2 with arg2 := BitVec.ofNat 8 k, arg3 := BitVec.ofNat 8 t }
       (onLearn .learnStart a State.reset).bcu.inFlight
          = some (flight (some .learnStart) a (.entry (entryBytes entry20)) [.mu])
        ∧ a.arg0.toNat = (2 : Channel).val ∧ a.arg2.toNat = k ∧ a.arg3.toNat = t))
    ∧ State.reset.mu.awaiting = none ∧ State.reset.tb.msTicks = [] ∧ (State.reset.lcu 2).capture = .disabled
    ∧ ((State.reset.setLcu 2 rest).lcu 2).capture ≠ .disabled ∧ (session .listening).active = true
    ∧ LearnSession.idle.active = false
    ∧ (∀ cmd ∈ [Cmd.learnAbort, .learnDiscard, .learnCommit],
        (onLearn cmd (arg 127) tabled).bcu.inFlight
          = some (flight (some cmd) (arg 127) (.entry (entryBytes entry20)) [.mu]))
    ∧ tabled.mu.awaiting = none ∧ tabled.tb.msTicks = []
    ∧ ({ session .done with result := some learnt } : LearnSession).result = some learnt
    ∧ (tabled.mu.commitEntry 127 { fields20 with channels := 0 } tabled.sdc.profiles 0).toOption.isNone
    ∧ (tabled.mu.commitEntry 127 fields20 tabled.sdc.profiles 0).toOption.isSome := by decide +kernel

/-- The word a session confirms. -/
def candidate20 : Candidate := { profile := 1, bits := 12, payload := 0xD35 }

theorem witness_LearningCountsMatchesAndTime :
    (∀ l ∈ [session .listening, { session .confirming with candidate := some candidate20, matchCount := 1 },
            { session .confirming with candidate := some candidate20, matchCount := 1, k := 3 },
            { session .confirming with candidate := some { candidate20 with bits := 11 }, mismatches := 1 },
            { session .confirming with candidate := some { candidate20 with bits := 11 }, mismatches := 2 }],
      (let s := brought (.word word20) (tabled.setMu { tabled.mu with learn := l, divert := some 2 })
       s.matchMessage = some (.word word20) ∧ s.mu.divert = some word20.channel ∧ l.channel = word20.channel))
    ∧ (let s := { State.reset with tb := { State.reset.tb with msTicks := [1000] } }
       s.tb.msTicks = 1000 :: [])
    ∧ (session .listening).active = true ∧ (session .listening).remaining = 1
    ∧ ({ session .confirming with expiredAt := some 1000 } : LearnSession).active = true
    ∧ (ticking 2000).tb.msTicks.all (· == (ticking 2000).now) = true ∧ (ticking 2000).mu.awaiting = none
    ∧ suggestedMask 12 (some 9) = 0xDFF ∧ suggestedMask 64 none = BitVec.allOnes 64 := by decide +kernel

/-! ## Witnesses: Chapter 7 -/

/-- An append of a sender on its way. -/
def sending (x : Sender) (a : Append) (s : State) : State := s.setOutbox { msgs := [a], early := 0 } x

/-- A PRESS, an UNDECODED, a RELEASE and a LINE_STUCK. -/
def someAppends : List (Sender × Append) :=
  [(.mu, { source := 0, stamp := 0, body := .press 4 17 false none }),
   (.sdc, { source := 0, stamp := 0, body := .undecoded 3 .leader none }),
   (.mu, { source := 0, stamp := 0, body := .release 4 17 0 .timeout 0 }), (.lcu 3, { source := 3, stamp := 0, body := .lineStuck })]

theorem witness_AppendIsAdmittedOrCounted :
    (∀ p ∈ someAppends, ((sending p.1 p.2 (queued 59 2 true)).outbox p.1).msgs = p.2 :: []
      ∧ (sending p.1 p.2 (queued 59 2 true)).queuePathOpen p.1 = true
      ∧ ((sending p.1 p.2 (queued 59 2 true)).outbox p.1).early = 0)
    ∧ (queued 59 2 true).evq.overrunPending = true ∧ (queued 59 2 true).evq.records.length < 60
    ∧ (queued 59 0 false).evq.overrunPending = false ∧ 60 ≤ (queued 60 2 true).evq.records.length
    ∧ (queued 63 2 true).evq.records.length < 64 ∧ 64 ≤ (queued 64 2 true).evq.records.length := by decide +kernel

theorem witness_QueueRegistersMoveHeadThresholdAndAge :
    State.reset.evq.records = [] ∧ (queued 1 0 false).evq.records = aRecord 0 :: []
    ∧ (let s := (at_ 255000).setEvq { (queued 1 0 false).evq with ageLimit := 255 }
       s.evq.ageLimit ≠ 0 ∧ s.evq.ageLimit.toNat * 1000 ≤ (s.now - (aRecord 0).admitted).toNat) := by decide +kernel

theorem witness_EventWindowShowsTheHead :
    State.reset.evq.records = []
    ∧ (∀ b ∈ [EventBody.press 127 255 true (some true), .release 127 255 65535 .disable 65535, .overrun 65535,
              .hold 127 255 65535, .key 127 255 65535 .repeated true (some true), .key 0 0 0 .full false none,
              .unknown 7 64 (BitVec.allOnes 64) (some true), .undecoded 255 .noProfile (some 15), .undecoded 0 .leader none,
              .lineStuck, .learnDone 7 64 (BitVec.allOnes 64) (some 127), .learnDone 0 1 0 none, .learnFail .channelOff,
              .txDone 255 65535, .txAbort 255 65535 .sourceGone],
        (State.reset.setEvq { State.reset.evq with records := [{ aRecord 0 with body := b }] }).evq.records
          = { aRecord 0 with body := b } :: []) := by decide +kernel

/-! ## Witnesses: Chapter 8 -/

/-- A request for output 1. -/
def request (source : TxSource) : TxRequest :=
  { tag := 7, output := 1, source := source, mode := .count 2, carrier := 0, duty := .third, blankSet := 5#4, blankTail := 1
    rawGap := 255 }

/-- The transmit staging record of ENTRY(n), WORD(1) or BURST(n) on output 1. -/
def txRecord (kind n bits payload rawGap : Nat) : Vector Byte 21 :=
  #v[7, 1, BitVec.ofNat 8 kind, BitVec.ofNat 8 n, BitVec.ofNat 8 bits, BitVec.ofNat 8 payload, 0, 0, 0, 0, 0, 0, 0, 1, 2, 0, 0, 1,
     5, 1, BitVec.ofNat 8 rawGap]

/-- TX_SUBMIT in flight. -/
def submitting (r : Vector Byte 21) (s : State) : State := commanded s (flight (some .txSubmit) (arg 0) (.transmit r) [.txe])

theorem witness_a_submission_is_in_flight (r : Vector Byte 21) :
    (submitting r tabled).bcu.inFlight = some (flight (some .txSubmit) (arg 0) (.transmit r) [.txe]) := rfl

theorem witness_SubmitChecksAndQueues :
    txRequestOfBytes (txRecord 3 0 0 0 0) = none ∧ txRequestOfBytes (txRecord 2 3 0 0 0) = none
    ∧ tabled.mu.awaiting = none
    ∧ (txRequestOfBytes (txRecord 0 127 0 0 0)).map TxRequest.source = some (.entry 127)
    ∧ (txRequestOfBytes (txRecord 1 1 12 0xFF 0)).map TxRequest.source = some (.word 1 12 0xFF)
    ∧ (txRequestOfBytes (txRecord 2 15 0 0 1)).map TxRequest.source = some (.burst 15)
    ∧ State.reset.txe.queue.length < 8 ∧ 8 ≤ (List.replicate 8 (request (.entry 20))).length
    ∧ (tabled.mu.entry 20).valid = true ∧ (tabled.mu.entry 127).valid = false
    ∧ (tabled.sdc.profile 1).valid = true ∧ (tabled.sdc.profile 5).valid = false
    ∧ (tabled.sdc.profile 1).minBits ≤ 12 ∧ 12 ≤ (tabled.sdc.profile 1).maxBits
    ∧ (∀ d ∈ [held true 0, held true 7, held true 8, held false 1], ((store3 d []).descriptor 3).state = .retained) := by
  decide +kernel

/-- Transmit records at the bounds of the field checks. -/
theorem witness_the_field_checks_of_a_request :
    (let r := txRecord 1 1 12 0xFF 0
     [r, r.set 15 64, (r.set 15 0x20).set 16 3, (r.set 13 0).set 14 0, (r.set 13 2).set 14 0, r.set 17 2, r.set 18 15, r.set 3 7,
      r.set 4 64, r.set 4 8, txRecord 0 127 0 0 0, txRecord 2 15 0 0 1].all (fun x => (txRequestOfBytes x).isSome) = true
      ∧ [r.set 1 2, r.set 15 1, r.set 15 63, (r.set 15 0x21).set 16 3, r.set 14 0, r.set 13 3, r.set 17 3, r.set 18 16, r.set 3 8,
         r.set 4 0, r.set 4 65, r.set 4 7, txRecord 0 128 0 0 0, txRecord 2 16 0 0 1].all
        (fun x => (txRequestOfBytes x).isNone) = true) := by decide +kernel

/-- The check of a code table entry waits with the Match Unit; that of a code word does not. -/
theorem test_submission_of_an_entry_waits_for_the_answer_to_a_press :
    left (.txSubmit .take) (awaiting (submitting (txRecord 0 20 0 0 0) tabled)) = some (some [.txe])
    ∧ left (.txSubmit .take) (submitting (txRecord 0 20 0 0 0) tabled) = some (some [])
    ∧ left (.txSubmit .take) (awaiting (submitting (txRecord 1 1 12 5 0) tabled)) = some (some []) := by decide +kernel

/-- A state in which TXO1 has requests in the queue. -/
def waiting (rs : List TxRequest) : State := tabled.setTxe { tabled.txe with queue := rs }

/-- An activation reads an entry only while the Match Unit takes events. -/
theorem test_activation_of_an_entry_waits_for_the_answer_to_a_press :
    ask (fun t => t.txe.queue.length) (exec (.activation 1) (awaiting (waiting [request (.entry 20)]))) = some 1
    ∧ ask (fun t => t.txe.queue.length) (exec (.activation 1) (awaiting (waiting [request (.word 1 12 5)]))) = some 0 := by
  decide +kernel

/-- A request whose source is gone leaves the engine IDLE with the values that activation sets. -/
theorem test_source_gone_leaves_the_values_of_the_activation :
    (let s := waiting [request (.entry 127)]
     let e := { Engine.reset with framesSent := 9, stopRequested := true, endKind := .aborted .host }
     ask (fun t => let x := t.txe.engine 1; (x.state, x.framesSent, x.stopRequested, x.endKind, x.toQueue.msgs.length))
      (exec (.activation 1) (s.setTxe (s.txe.setEngine 1 e)))) = some (.idle, 0, false, .done, 1) := by decide +kernel

theorem witness_ActivationBeginsTheFrameOrEndsGone :
    (∀ x ∈ [TxSource.entry 20, .entry 127, .word 1 12 5, .word 5 12 5, .word 1 13 5, .word 1 11 5, .burst 3],
      (let s := waiting [{ request (.entry 20) with output := 0 }, request x, request (.entry 20)]
       (s.txe.engine 1).state = .idle ∧ (request x).output = 1
        ∧ s.txe.queue = [{ request (.entry 20) with output := 0 }] ++ request x :: [request (.entry 20)]
        ∧ ∀ y ∈ [{ request (.entry 20) with output := 0 }], y.output ≠ 1))
    ∧ (waiting []).mu.awaiting = none ∧ (waiting []).sourceSnapshot (.entry 127) = none ∧ (waiting []).sourceSnapshot (.word 5 12 5) = none
    ∧ (waiting []).sourceSnapshot (.word 1 13 5) = none
    ∧ (waiting []).sourceSnapshot (.entry 20) = some (.frame profile1 12 0xD35)
    ∧ (waiting []).sourceSnapshot (.burst 3) = some (.burst []) := by decide +kernel

/-- TXO1 in a state, with its request and the elements of its frame. -/
def engaged (st : EngineState) (r : TxRequest) (xs : List Element) : State :=
  (at_ 600).setTxe (State.reset.txe.setEngine 1
    { Engine.reset with state := st, request := some r, snapshot := some (.frame profile1 12 0xD35), elements := xs })

/-- A mark of 600 µs. -/
def aMark : Element := { mark := true, duration := 600 }

theorem witness_FrameEndsAndGapsRunTheRequest :
    (∀ xs ∈ [[aMark], [aMark, { mark := false, duration := 1200 }]],
     ∀ r ∈ [request (.entry 20), { request (.entry 20) with mode := .once }, { request (.entry 20) with mode := .hold },
            { request (.entry 20) with mode := .count 1, blankTail := 0 }],
      (let e := (engaged .frame r xs).txe.engine 1
       e.state = .frame ∧ e.request = some r ∧ e.elements.head? = some aMark
        ∧ aMark.duration ≤ ((engaged .frame r xs).now - e.elementStart).toNat ∧ bump e.framesSent = 1))
    ∧ (let e := (engaged .gap (request (.entry 20)) []).txe.engine 1
       e.state = .gap ∧ e.snapshot = some (.frame profile1 12 0xD35) ∧ 0 < profile1.period
        ∧ (e.frameEnd - e.frameStart).toNat < profile1.period * 1000
        ∧ profile1.period * 1000 ≤ ((at_ 90000).now - e.frameStart).toNat)
    ∧ ({ profile1 with period := 0 } : Profile).period = 0 ∧ 10000 ≤ ((at_ 10000).now - Engine.reset.frameEnd).toNat
    ∧ (request (.burst 3)).rawGap.toNat * 1000 ≤ ((at_ 255000).now - Engine.reset.frameEnd).toNat := by decide +kernel

/-- BIPHASE frames of two bits: 10 and 01, without a leader and with one; the runs are those of the halves. -/
theorem witness_the_elements_of_a_BIPHASE_frame :
    (let p := { shortBiphase with leader := none, order := .lsbFirst }
     let q := { shortBiphase with leader := some ⟨2400, 600⟩, order := .lsbFirst }
     let durations := fun (x : Profile) (payload : Payload) => (x.fullFrame 2 payload false).map fun e => (e.mark, e.duration)
     let halves := fun (b : Bool) => if b then [true, false] else [false, true]
     p.encoding = .biphase ∧ p.toggle = none ∧ p.order = .lsbFirst
      ∧ [(true, 1), (false, 2), (true, 1)].flatMap (fun r => List.replicate r.2 r.1) = [true, false].flatMap halves
      ∧ [(false, 1), (true, 2), (false, 1)].flatMap (fun r => List.replicate r.2 r.1) = [false, true].flatMap halves
      ∧ durations p 1 = [(true, 600), (false, 1200), (true, 600)]
      ∧ durations p 2 = [(false, 600), (true, 1200)]
      ∧ durations q 1 = [(true, 2400), (false, 600), (true, 600), (false, 1200), (true, 600)]
      ∧ durations q 2 = [(true, 2400), (false, 1200), (true, 1200)]) := by decide +kernel

/-- The elements of a first and of a later frame, of a replay, and of DISTANCE and WIDTH frames of two bits, the first sent
bit a 1. -/
theorem witness_the_elements_of_a_frame :
    (let x := TxSnapshot.frame short 2 1
     (x.frameElements true false).map Element.duration = [8000, 4000, 500, 1500, 500, 500, 500]
      ∧ x.frameElements false false
        = [{ mark := true, duration := 8000 }, { mark := false, duration := 2000 }, { mark := true, duration := 500 }])
    ∧ ((TxSnapshot.frame profile1 12 0xD35).frameElements false true).length = 17
    ∧ (TxSnapshot.burst [600, 65535]).frameElements false false
        = [{ mark := true, duration := 600 }, { mark := false, duration := 65535 }]
    ∧ (shortWidth.fullFrame 2 1 false).map Element.duration = [1500, 500, 500]
    ∧ short.order = .lsbFirst ∧ short.toggle = none ∧ (1 : Payload).getLsbD 0 = true ∧ (1 : Payload).getLsbD 1 = false := by
  decide +kernel

theorem witness_TailEndDropsClaimsAndReports :
    (∀ k ∈ [EndKind.done, .aborted .host], ∀ x ∈ [TxSource.entry 20, .burst 3],
      (let s := (at_ 100).setTxe (State.reset.txe.setEngine 1
        { Engine.reset with state := .tail, request := some (request x), endKind := k })
       (s.txe.engine 1).state = .tail ∧ (s.txe.engine 1).request = some (request x)
        ∧ (request x).blankTail.toNat * 100 ≤ (s.now - (s.txe.engine 1).tailStart).toNat)) := by decide +kernel

theorem witness_PinCarriesTheMark :
    (State.reset.txe.engine 1).state ≠ .frame
    ∧ (∀ r ∈ [request (.entry 20), { request (.entry 20) with carrier := 211 }],
       ∀ x ∈ [aMark, { aMark with mark := false }, { aMark with duration := 601 }],
        (let e := (engaged .frame r [x]).txe.engine 1
         e.state = .frame ∧ e.request = some r ∧ e.elements = x :: []))
    ∧ aMark.duration ≤ ((at_ 600).now - 0).toNat ∧ ((at_ 600).now - 0).toNat < ({ aMark with duration := 601 } : Element).duration := by
  decide +kernel

theorem witness_StopAndAbortEndTheRequest :
    (∀ cmd ∈ [Cmd.txStop, .txAbort], ∀ st ∈ [EngineState.frame, .gap, .tail], ∀ purge ∈ [0#8, 1#8],
     ∀ r ∈ [request (.burst 3), { request (.entry 20) with blankTail := 0 }],
      (let a : Args := { arg 1 with arg1 := purge }
       let s := commanded (engaged st r []) (flight (some cmd) a .absent [.txe])
       s.bcu.inFlight = some (flight (some cmd) a .absent [.txe]) ∧ a.arg0.toNat = (1 : Output).val ∧ a.arg1.toNat ≤ 1
        ∧ (s.txe.engine 1).state = st ∧ (s.txe.engine 1).request = some r))
    ∧ (State.reset.txe.engine 1).state = .idle := by decide +kernel

/-! ## Witnesses: Chapter 9 -/

theorem witness_OpcodeWriteIsTakenOrCollides :
    (commanded State.reset (flight none (arg 0) .absent [])).bcu.cmdState = .busy ∧ State.reset.bcu.cmdState ≠ .busy
    ∧ State.reset.bcu.args.arg0.toNat = (0 : Channel).val := by decide +kernel

theorem witness_RefusedByTheCommandUnit :
    (commanded State.reset (flight none (arg 0) .absent [])).bcu.inFlight = some (flight none (arg 0) .absent [])
    ∧ (∀ p ∈ [(Cmd.channelSet, 4), (.learnStart, 255), (.profileClear, 8), (.entryRead, 128), (.burstRelease, 16), (.txStop, 2),
              (.txAbort, 2)],
        (commanded State.reset (flight (some p.1) (arg p.2) .absent [])).bcu.inFlight
          = some (flight (some p.1) (arg p.2) .absent []) ∧ (arg p.2).arg0.toNat = p.2)
    ∧ 2 ≤ ({ arg 0 with arg1 := 2#8 } : Args).arg1.toNat := by decide +kernel

theorem witness_CompletionStoresTheOutcome :
    (∀ e ∈ [none, some CmdError.badOpcode, some CmdError.learnState],
      ∀ k ∈ [StagingRecord.absent, .channel (Vector.replicate 10 1), .profile (Vector.replicate 23 1),
             .entry (Vector.replicate 25 1)],
      (let f := { flight (some .tableClear) (arg 0) .absent [] with error := e, copy := k }
       (commanded State.reset f).bcu.inFlight = some f ∧ f.refusal = none ∧ f.parts = []))
    ∧ (∀ p ∈ [(Cmd.channelGet, 3, [Part.lcu 3]), (.profileRead, 7, [.sdc]), (.entryRead, 127, [.mu])],
        (commanded tabled (flight (some p.1) (arg p.2.1) .absent p.2.2)).bcu.inFlight
          = some (flight (some p.1) (arg p.2.1) .absent p.2.2) ∧ (arg p.2.1).arg0.toNat = p.2.1)
    ∧ (tabled.lcu 3).waiting = none ∧ tabled.mu.awaiting = none ∧ tabled.tb.msTicks = [] := by decide +kernel

/-- CHANNEL_SET of channel 0 with settings in flight. -/
def setting (l : Lcu) (x : Settings) : State :=
  commanded (tabled.setLcu 0 l) (flight (some .channelSet) (arg 0) (.channel (settingsBytes x)) [.lcu 0])

theorem witness_ChannelSetChecksAndReplaces :
    (∀ l ∈ [Lcu.reset, rest, { Lcu.reset with change := some 0 }],
     ∀ x ∈ [Settings.default, { Settings.default with elementLimit := 4 }, { Settings.default with profileSet := 4#8 },
            { Settings.default with glitchMin := 0 }],
      (setting l x).bcu.inFlight = some (flight (some .channelSet) (arg 0) (.channel (settingsBytes x)) [.lcu 0])
        ∧ ((setting l x).lcu 0).waiting = none ∧ settingsOfBytes (settingsBytes x) = x)
    ∧ rest.capture ≠ .disabled ∧ Lcu.reset.capture = .disabled ∧ (tabled.sdc.profile 2).valid = false
    ∧ (4#8).getLsbD 2 = true ∧ (0#8).toNat ≤ ((0 : Time) - 0).toNat ∧ ((0 : Time) - 0).toNat < (40#8).toNat := by
  decide +kernel

/-- A change that has begun under a glitch minimum of 0, its sample still waiting for the acceptance, has persisted for 0 µs: a
new minimum above 0 does not accept it, and 0 does. One that waits at its 40th µs has persisted for 39. -/
theorem test_a_new_glitch_minimum_judges_what_has_persisted :
    (let started (old : Byte) (us : Nat) : Lcu := { Lcu.reset with
       sampled := true, settings := { Settings.default with glitchMin := old }, change := some 1000
       samples := [⟨BitVec.ofNat 32 (1000 + us), false⟩] }
     let after (l : Lcu) (new : Byte) := ask (fun t => ((t.lcu 0).change, (t.lcu 0).level, (t.lcu 0).samples.length))
       (exec (.channelSet .take) (setting l { Settings.default with glitchMin := new }))
     after (started 0 0) 1 = some (some 1000, true, 0) ∧ after (started 0 0) 255 = some (some 1000, true, 0)
      ∧ after (started 0 0) 0 = some (none, false, 0)
      ∧ after (started 40 40) 39 = some (none, false, 0) ∧ after (started 40 40) 40 = some (some 1000, true, 1)
      ∧ after (started 40 40) 41 = some (some 1000, true, 0)) := by decide +kernel

/-- An answer with an error, and one with a result: the part is gone, and the command in flight has what the owner answered. -/
theorem witness_an_owner_answers :
    (let f := flight (some .txSubmit) (arg 0) .absent [.txe]
     let s := commanded State.reset f
     s.bcu.inFlight = some f ∧ State.reset.bcu.inFlight = none
      ∧ (s.answerPart .txe { result := 7 }).bcu.inFlight = some { f with parts := [], result := 7 }
      ∧ (s.answerPart .txe { error := some .noSpace }).bcu.inFlight = some { f with parts := [], error := some .noSpace }) := by
  decide +kernel

theorem witness_StagingRecordsReadBack :
    (∀ p ∈ [profile0, profile1], p.valid = true ∧ 1 ≤ p.tolerance ∧ p.tolerance ≤ 12 ∧ 1 ≤ p.minBits ∧ p.minBits ≤ p.maxBits
      ∧ p.maxBits ≤ 64 ∧ p.period < 256 ∧ p.toggle.all (· < p.minBits)
      ∧ (p.encoding = .biphase → p.repeatLeader = none ∧ p.unit2 = 0 ∧ p.unit3 = 0))
    ∧ entry20.valid = true ∧ 1 ≤ entry20.bits ∧ entry20.bits ≤ 64 ∧ zeroAbove entry20.bits entry20.pattern = true
    ∧ zeroAbove entry20.bits entry20.careMask = true ∧ entry20.channels ≠ 0 ∧ entry20.group ≤ 15 ∧ 1 ≤ entry20.confirm
    ∧ entry20.confirm ≤ 4 ∧ entry20.holdInterval < 256
    ∧ profileOfBytes (profileBytes profile1) = some profile1
    ∧ entryOfFields (entryFields (entryBytes entry20)) = some entry20 := by decide +kernel

theorem witness_ChannelSwitchesMoveTheCapture :
    (∀ cmd ∈ [Cmd.channelEnable, .channelDisable, .channelFlush],
     ∀ l ∈ [Lcu.reset, { Lcu.reset with blankCount := 1 }, openRest, { rest with capture := .blanked, blankCount := 2 }],
      (let s := commanded (onLine 5 l) (flight (some cmd) (arg 0) .absent [.lcu 0, .purge, .mu])
       s.bcu.inFlight = some (flight (some cmd) (arg 0) .absent [.lcu 0, .purge, .mu]) ∧ (s.lcu 0).waiting = none
        ∧ s.lcu 0 = l)) := by decide +kernel

theorem witness_ChannelPartsAtTheOwners :
    (∀ cmd ∈ [Cmd.channelFlush, .channelDisable, .countersClear], ∀ k ∈ [none, some record20],
      (let s := commanded (tabled.setMu { tabled.mu.setKey 2 k with learn := session .listening })
        (flight (some cmd) (arg 2) .absent [.lcu 2, .sdc, .mu])
       s.bcu.inFlight = some (flight (some cmd) (arg 2) .absent [.lcu 2, .sdc, .mu]) ∧ s.mu.awaiting = none ∧ s.mu.key 2 = k
        ∧ s.tb.msTicks = []
        ∧ s.mu.learn.active = true ∧ s.mu.learn.channel = 2 ∧ (s.lcu 2).waiting = none)) := by decide +kernel

/-- A RUN_RESET in flight with parts still to be taken. -/
def resetting (parts : List Part) : State := commanded State.reset (flight (some .runReset) (arg 0) .absent parts)

/-- What was sent before a sender's part comes before the next block's part, and what was sent after it waits behind it. -/
theorem witness_messages_wait_behind_RUN_RESET :
    (let sent := fun parts early => (resetting parts).setLcu 0 { rest with toStore := { msgs := [.descriptor 7], early := early } }
     (sent [.lcu 0, .pst] 0).storeRequest 0 = some (.descriptor 7) ∧ (sent [.pst] 1).storeRequest 0 = some (.descriptor 7)
      ∧ (sent [.pst] 0).storeRequest 0 = none ∧ (sent [.sdc] 0).storeRequest 0 = some (.descriptor 7))
    ∧ (resetting [.evq]).queuePathOpen .mu = false ∧ (resetting [.evq]).queuePathOpen .sdc = true := by decide +kernel

theorem witness_RunResetPartsEndTheWork :
    Part.txe ∈ (resetting [.txe, .lcu 0, .lcu 1, .lcu 2, .lcu 3, .pst, .sdc, .mu, .evq]).resetParts
    ∧ (let s := resetting [.lcu 0, .pst, .sdc, .mu, .evq]
       .lcu 0 ∈ s.resetParts ∧ .txe ∉ s.resetParts ∧ (s.lcu 0).waiting = none ∧ ∀ o, (s.lcu 0).claimsOf o = [])
    ∧ (let s := resetting [.pst, .sdc, .mu, .evq]
       .pst ∈ s.resetParts ∧ .txe ∉ s.resetParts ∧ (∀ c, Part.lcu c ∉ s.resetParts) ∧ ∀ c, (s.lcu c).toStore.early = 0)
    ∧ (let s := resetting [.sdc, .mu, .evq]
       .sdc ∈ s.resetParts ∧ .pst ∉ s.resetParts)
    ∧ (let s := resetting [.mu, .evq]
       .mu ∈ s.resetParts ∧ .sdc ∉ s.resetParts ∧ s.sdc.toMatch.early = 0 ∧ s.mu.awaiting = none ∧ s.tb.msTicks = [])
    ∧ (let s := resetting [.evq]
       .evq ∈ s.resetParts ∧ .mu ∉ s.resetParts ∧ ∀ x ∈ allSenders, (s.outbox x).early = 0) := by decide +kernel

/-- The levels of a cycle at a register: true for chip select and the strobes is high, that is inactive. -/
def pins (reset chipSelect readStrobe writeStrobe : Bool) (address : BitVec 6) (data : Byte) : BusPins :=
  { reset := reset, chipSelect := chipSelect, readStrobe := readStrobe, writeStrobe := writeStrobe, address := address
    data := data }

/-- The cycles of the bus at the registers whose reads or writes are events, and the levels that make no cycle. -/
theorem witness_bus_cycles :
    (let read := fun a => pins true false false true a 0
     let write := fun a v => pins true false true false a v
     (∀ p ∈ [pins false false false true 0x35#6 0, pins true true false true 0x35#6 0, pins true false false false 0x35#6 0,
             pins true false true true 0x35#6 0],
        accepted.dataLines p = none ∧ (accepted.endCycle p).pending = [])
      ∧ accepted.dataLines (read 0x06#6) = some 2#8 ∧ (accepted.endCycle (read 0x06#6)).pending = []
      ∧ (accepted.endCycle (read 0x24#6)).pending = [.timeLatchRead]
      ∧ (accepted.endCycle (read 0x35#6)).pending = [.winDataRead]
      ∧ accepted.dataLines (write 0x00#6 0x16#8) = none
      ∧ (accepted.endCycle (write 0x00#6 0x16#8)).pending = [.runReset]
      ∧ (accepted.endCycle (write 0x00#6 0x01#8)).pending = [.channelSet .write]
      ∧ (accepted.endCycle (write 0x00#6 0x17#8)).pending = [.undefinedOpcode (.write 0x17#8)]
      ∧ (accepted.endCycle (write 0x01#6 0x08#8)).pending = [.cmdDoneClear 0x08#8]
      ∧ (accepted.endCycle (write 0x01#6 0xF7#8)).pending = [.registerWrite 0x01#6 0xF7#8]
      ∧ (accepted.endCycle (write 0x35#6 0xFF#8)).pending = [.winDataWrite 0xFF#8]
      ∧ (accepted.endCycle (write 0x3F#6 0xFF#8)).pending = [.registerWrite 0x3F#6 0xFF#8]) := by decide +kernel

/-- One state for each condition of the IRQ output with its enable, the same without it, and the bounds of the addresses. -/
theorem witness_PlainRegistersAndTheInterruptLine :
    (let level := queued 1 0 false
     let age := (queued 1 0 false).setEvq { (queued 1 0 false).evq with evAge := true, threshold := 64 }
     let done := State.reset.setBcu { State.reset.bcu with cmdState := .done, cmdDone := true }
     (level.setBcu { level.bcu with enableLevel := true }).irqActive = true ∧ level.irqActive = false
      ∧ (age.setBcu { age.bcu with enableAge := true }).irqActive = true
      ∧ (age.setBcu { age.bcu with enableLevel := true }).irqActive = false
      ∧ (done.setBcu { done.bcu with enableDone := true }).irqActive = true
      ∧ (done.setBcu { done.bcu with enableAge := true }).irqActive = false)
    ∧ (∀ a ∈ [0x02#6, 0x03#6, 0x09#6, 0x0A#6, 0x0E#6, 0x30#6, 0x36#6, 0x3F#6], ask (fun t => t.bcu)
        (exec (.registerWrite a 0xFF#8) accepted) = some accepted.bcu)
    ∧ ask (fun t => t.bcu.args.arg3) (exec (.registerWrite 0x07#6 0xFF#8) accepted) = some 0xFF#8 := by decide +kernel

/-- A line under ACTIVE_HIGH: a high level is a mark and a low one rest, in the status byte and at an accepted edge. -/
theorem witness_ACTIVE_HIGH :
    (let high : Settings := { Settings.default with polarity := .activeHigh }
     let quiet : Lcu := { rest with settings := high, level := false }
     let edge : Lcu := { quiet with change := some 1000, samples := [⟨1040, true⟩] }
     quiet.isActive = false ∧ ({ quiet with level := true } : Lcu).isActive = true
      ∧ rest.isActive = false ∧ ({ rest with level := false } : Lcu).isActive = true
      ∧ (onLine 0 quiet).readRegister 0x28#6 = 0x01#8
      ∧ (onLine 0 { quiet with level := true }).readRegister 0x28#6 = 0x21#8
      ∧ ask (fun t => ((t.lcu 0).capture, (t.lcu 0).level, (t.lcu 0).toStore.msgs)) (exec (.acceptedEdge 0) (onLine 1040 edge))
        = some (.opened, true, [.descriptor 1000])) := by decide +kernel

/-- The registers that hold a stored byte, each at a value of its own. -/
theorem test_stored_registers_read_back :
    (let s := State.reset.setBcu { State.reset.bcu with
       opcode := 0x13, error := 0x0B, result := 0x5A, args := { arg0 := 0xA0, arg1 := 0xA1, arg2 := 0xA2, arg3 := 0xA3 }
       enableAge := true, winSpace := 5, winIndex := 15, winOffset := 522 }
     ([0x00, 0x02, 0x03, 0x04, 0x05, 0x06, 0x07, 0x08, 0x31, 0x32, 0x33, 0x34] : List (BitVec 6)).map s.readRegister
      = [0x13, 0x0B, 0x5A, 0xA0, 0xA1, 0xA2, 0xA3, 0x02, 5, 15, 0x0A, 0x02]) := by decide +kernel

theorem witness_RegisterReadsShowTheState :
    (State.reset.lcu 3).blankCount ≤ 2 ∧ ((State.reset.setLcu 3 { rest with blankCount := 2 }).lcu 3).blankCount ≤ 2
    ∧ 0x36 ≤ (0x3F#6).toNat := by decide +kernel

/-- The window at an offset of a space. -/
def window (space index : Byte) (offset : Nat) : State :=
  State.reset.setBcu { State.reset.bcu with winSpace := space, winIndex := index, winOffset := offset }

theorem witness_WindowSelectionOffsetAndWrites :
    (∀ p ∈ [(0#8, 9, 10), (1#8, 22, 23), (2#8, 24, 25), (3#8, 20, 21), (4#8, 35, 36), (5#8, 521, 522), (6#8, 27, 28)],
      (window p.1 0 p.2.1).bcu.winOffset = p.2.1 ∧ p.2.1 < spaceLength p.1 ∧ spaceLength p.1 = p.2.2)
    ∧ spaceLength 7#8 ≤ (window 7 0 0).bcu.winOffset := by decide +kernel

theorem witness_WinDataReadStreamsTheSpace :
    (window 4 3 34).bcu.winIndex.toNat = (3 : Channel).val ∧ (window 4 3 34).bcu.winOffset = 2 * 17
    ∧ (window 4 3 35).bcu.winOffset = 2 * 17 + 1
    ∧ (window 5 15 521).bcu.winIndex.toNat = (15 : Handle).val ∧ (window 5 15 521).bcu.winOffset < 522
    ∧ (let d := { held true 8 with count := 255 }
       d.state = .retained ∧ d.count ≤ 255 ∧ d.transmitHolds ≤ 8) ∧ (PulseStore.reset.descriptor 3).state ≠ .retained
    ∧ 3 < (window 4 4 0).bcu.winIndex.toNat ∧ 15 < (window 5 16 0).bcu.winIndex.toNat
    ∧ (window 6 0 27).bcu.winSpace = 6#8 ∧ (window 6 0 27).bcu.winOffset < 28 := by decide +kernel

/-- The window at the LEARN space of a DONE session with its result. -/
theorem witness_the_LEARN_space :
    (∀ x ∈ [session .listening, { session .done with remaining := 60000, result := some learnt },
            { session .done with result := some { learnt with existing := some 127 } }, .idle],
      x.k < 256 ∧ x.remaining < 65536 ∧ x.matchCount < 256 ∧ x.mismatches < 256)
    ∧ learnt.bits < 256 ∧ (LearnSession.idle.bytes.all (· == 0)) = true
    ∧ (let l := { session .done with result := some { learnt with existing := some 127 } }
       l.bytes.getD 0 0 = 3 ∧ l.bytes.getD 26 0 = 4 ∧ l.bytes.getD 27 0 = 127 ∧ l.bytes.getD 10 0 = 0x35
        ∧ ask (fun t => (t.bcu.dataOut, t.bcu.winOffset)) (exec .winDataRead
            ((window 6 0 27).setMu { State.reset.mu with learn := l })) = some (127#8, 28)) := by decide +kernel

/-! ## Witnesses: the invariants, at the reset state -/

theorem witness_evq_sound : State.reset.evq.sound :=
  ⟨by decide, trivial, by decide, by decide, by decide, by decide⟩
theorem witness_pst_sound : State.reset.pst.sound ∧ Memory.wf State.reset.pst.slots := by unfold PulseStore.sound; decide +kernel
theorem witness_blankSound : ∀ c, (State.reset.lcu c).blankSound := by
  intro c; fin_cases c <;> exact ⟨by decide, by decide, by decide, fun h => absurd rfl h⟩
theorem witness_divertSound : State.reset.mu.divertSound := by unfold MatchUnit.divertSound; decide +kernel
theorem witness_decode_holds_nothing : ∀ h, (State.reset.pst.descriptor h).state ≠ .decoding := by decide +kernel
theorem witness_tablesSound : State.reset.tablesSound := by unfold State.tablesSound; exact ⟨by decide +kernel, by
  intro i h; exact absurd h (by revert i; decide +kernel)⟩
theorem witness_reserveSound : State.reset.reserveSound := by
  refine ⟨⟨fun c r h => ?_, rfl, by decide⟩, by decide +kernel, by decide +kernel, by decide, fun x _ a h => ?_⟩
  · have hn : ∀ c, State.reset.mu.key c = none := by decide +kernel
    rw [hn c] at h; exact nomatch h
  · have hn : (State.reset.outbox x).msgs = [] := by cases x with
      | lcu c => fin_cases c <;> rfl
      | txo o => fin_cases o <;> rfl
      | sdc => rfl
      | mu => rfl
    rw [hn] at h; exact nomatch h
theorem witness_decodeSound : State.reset.decodeSound :=
  ⟨⟨by decide +kernel, fun h => absurd h (by decide +kernel), fun h => absurd rfl h, nofun, nofun, nofun⟩,
    fun h hd => absurd hd (witness_decode_holds_nothing h), fun _ => witness_decode_holds_nothing⟩
theorem witness_time_transmit_command_sound : State.reset.tb.sound ∧ State.reset.txe.sound ∧ State.reset.bcu.sound := by
  refine ⟨by unfold TimeBase.sound; decide, ⟨by decide, fun o => ⟨?_, fun r h => ?_⟩⟩, ?_⟩
  · fin_cases o <;> decide
  · have hn : (State.reset.txe.engine o).request = none := by fin_cases o <;> rfl
    rw [hn] at h; exact nomatch h
  · unfold Bcu.sound; decide +kernel

/-! ## Witnesses: the invariants, at busy states -/

/-- Two records across the wrap of the sequence numbers, one lost record, and EV_AGE true. -/
def busyQueue : EventQueue :=
  { State.reset.evq with
    records := [{ aRecord 0 with seq := 65535 }, aRecord 0], nextSeq := 1, lost := 1, overrunPending := true, threshold := 64
    ageLimit := 1, evAge := true }

theorem witness_evq_sound_busy : busyQueue.sound :=
  ⟨by decide, ⟨by decide, by show (1 : Half) = 1; rfl⟩, by decide, by decide, by decide, by decide⟩

/-- Bursts QUEUED, DECODING, RETAINED and OPEN, one block each. -/
def busyStore : PulseStore :=
  { (working.setDescriptor 0 { held true 8 with blocks := [0] }).setDescriptor 15 { open3 1 [31] with channel := 3 } with
    freeBlocks := (List.finRange 32).filter fun b => b ≠ 0 ∧ b ≠ 5 ∧ b ≠ 6 ∧ b ≠ 31, slots := [(80, 560), (511, 65535)] }

theorem witness_pst_sound_busy : busyStore.sound ∧ Memory.wf busyStore.slots := by
  unfold PulseStore.sound; decide +kernel

/-- An unanswered write in OPEN, an unanswered request from IDLE, a channel under two claims, a DISABLED one under one. -/
def busyLines : List Lcu :=
  [{ openMark with waiting := some (.write 5) },
   { rest with capture := .opened, waiting := some (.descriptor 5) },
   { rest with capture := .blanked, blankCount := 2 }, { Lcu.reset with blankCount := 1 }]

theorem witness_blankSound_busy : ∀ l ∈ busyLines, l.blankSound := by unfold Lcu.blankSound; decide +kernel

/-- Channel 0 waits for a write, channel 1 has been granted descriptor 4, and channel 2 has closed descriptor 5. -/
def capturing : State :=
  let s := State.reset.setPst (((PulseStore.reset.setDescriptor 3 (open3 1 [7])).setDescriptor 4
    { open3 0 [] with channel := 1 }).setDescriptor 5 { open3 1 [] with channel := 2 })
  ((s.setLcu 0 { openMark with waiting := some (.write 5), toStore := { msgs := [.write 3 1 560], early := 0 } }).setLcu 1
    { rest with capture := .opened, waiting := some (.descriptor 5), answer := some (.granted 4) }).setLcu 2
    { rest with toStore := { msgs := [.close 5 9], early := 0 } }

/-- An LCU that waits for nothing and holds no burst. -/
theorem askSound_of_none {l : Lcu} (hw : l.waiting = none) (ha : l.answer = none) (hh : l.handle = none)
    (hm : ∀ m ∈ l.toStore.msgs, m.answered = false) : l.askSound := by
  unfold Lcu.askSound
  rw [hw, ha]
  exact ⟨fun h => absurd hh h, nofun, hm⟩

theorem witness_capturing_asks : ∀ c, (capturing.lcu c).askSound := by
  intro c
  fin_cases c
  · exact ⟨fun _ => rfl, nofun, [], .write 3 1 560, rfl, rfl, nofun⟩
  · exact ⟨fun h => absurd rfl h, fun _ _ => rfl, nofun, fun _ _ => ⟨5, rfl⟩⟩
  · exact askSound_of_none rfl rfl rfl (by decide +kernel)
  · exact askSound_of_none rfl rfl rfl (by decide +kernel)

theorem witness_openSound_busy : capturing.openSound := by
  have hr : capturing.resetParts = [] := rfl
  refine ⟨by rw [hr]; exact List.nodup_nil, by rw [hr]; exact nofun, fun c => ⟨witness_capturing_asks c, fun _ => ?_, fun h => ?_⟩⟩
  · have hh : ∀ c, (capturing.lcu c).handles.length ≤ 1
        ∧ ∀ h, capturing.pst.openFor h c = true → h ∈ (capturing.lcu c).handles := by decide +kernel
    exact hh c
  · exact absurd h.1 (by rw [hr]; exact nofun)

/-- Of a RUN_RESET, channel 0's part has been taken and the store's has not: channel 0's descriptor is forgotten, its abandon on
the way, and it asks again. -/
def forgotten : State :=
  commanded ((State.reset.setPst (PulseStore.reset.setDescriptor 3 (open3 1 []))).setLcu 0
      { rest with capture := .opened, waiting := some (.descriptor 5)
                  toStore := { msgs := [.abandon 3, .descriptor 5], early := 1 } })
    (flight (some .runReset) (arg 0) .absent [.lcu 1, .lcu 2, .lcu 3, .pst, .sdc, .mu, .evq])

theorem witness_openSound_in_a_reset : forgotten.openSound := by
  have hr : forgotten.resetParts = [.lcu 1, .lcu 2, .lcu 3, .pst, .sdc, .mu, .evq] := rfl
  refine ⟨by rw [hr]; decide, by rw [hr]; decide, fun c => ?_⟩
  fin_cases c
  · exact ⟨⟨fun h => absurd rfl h, fun _ _ => rfl, [.abandon 3], .descriptor 5, rfl, rfl, by decide⟩,
      fun h => absurd ⟨by rw [hr]; decide, by rw [hr]; decide⟩ h, fun _ => ⟨by decide +kernel, rfl, rfl, by decide +kernel,
        by decide +kernel, by decide +kernel⟩⟩
  all_goals exact ⟨askSound_of_none rfl rfl rfl (by decide +kernel), fun _ => by decide +kernel,
    fun h => absurd (by rw [hr]; decide) h.2⟩

/-- A session that listens, and one that is DONE with its result. -/
def learning (l : LearnSession) (divert : Option Channel) : MatchUnit :=
  { tabled.mu.setKey 1 (some record20) with learn := l, divert := divert }

theorem witness_divertSound_busy :
    (learning (session .listening) (some 2)).divertSound
    ∧ (learning { session .done with result := some learnt } none).divertSound := by
  unfold MatchUnit.divertSound; decide +kernel

/-- Channel 2's set names profiles 0 and 1, and entry 20 stands under profile 1. -/
def configured : State := tabled.setLcu 2 { rest with settings := { Settings.default with profileSet := 3#8 } }

theorem witness_tablesSound_busy : configured.tablesSound := by
  refine ⟨by decide +kernel, fun i h => ?_⟩
  have hi : ∀ i, (configured.mu.entry i).valid = true → i = 20 := by decide +kernel
  rw [hi i h]
  refine ⟨by decide +kernel, by decide +kernel, by decide +kernel, fun n hn => ?_, fun n hn => ?_, fun t ht => ?_⟩
  · exact getLsbD_of_zeroAbove (by decide +kernel) hn
  · exact getLsbD_of_zeroAbove (by decide +kernel) hn
  · have h9 : (configured.sdc.profile (configured.mu.entry 20).profile).toggle = some 9 := by decide +kernel
    rw [h9] at ht
    cases ht
    decide +kernel

/-- A record whose PRESS was admitted on channel 1; channel 2's PRESS on the way, behind a RELEASE of channel 0. -/
def pressing : State :=
  (queued 61 0 false).setMu { (tabled.mu.setKey 1 (some { record20 with state := .pressed })).setKey 2
      (some { record20 with state := .pressed, reported := false }) with
    awaiting := some 2
    toQueue := { msgs := [{ source := channelByte 0, stamp := 0, body := .release 20 40 0 .group 0 },
                          { source := channelByte 2, stamp := 0, body := .press 20 40 false none }], early := 0 } }

theorem witness_reserveSound_busy : pressing.reserveSound := by
  have hp : ∀ c, (pressing.mu.key c).all (fun r => !r.reported || r.state == .pressed) = true := by decide +kernel
  refine ⟨⟨fun c r h hr => ?_, ⟨_, rfl, rfl, rfl⟩,
    [{ source := channelByte 0, stamp := 0, body := .release 20 40 0 .group 0 }],
    { source := channelByte 2, stamp := 0, body := .press 20 40 false none }, rfl, rfl, by decide⟩, by decide +kernel, by decide +kernel, ?_, ?_⟩
  · have h' := hp c
    rw [h] at h'
    simpa [hr] using h'
  · intro a ha hr
    exact ⟨0, by
      have : ∀ a ∈ pressing.mu.toQueue.msgs, a.body.isRelease = true → a.source = channelByte 0 := by decide +kernel
      exact this a ha hr⟩
  · have hn : ∀ x ∈ allSenders, x ≠ .mu → (pressing.outbox x).msgs = [] := by decide +kernel
    intro x hx a ha
    have hm : x ∈ allSenders := by
      cases x with
      | lcu c => fin_cases c <;> decide
      | txo o => fin_cases o <;> decide
      | sdc => decide
      | mu => decide
    rw [hn x hm hx] at ha
    exact nomatch ha

/-- The decoder decodes descriptor 4 while descriptor 3 is QUEUED. -/
def decodingNow : State := (State.reset.setPst working).setSdc { State.reset.sdc with state := .decoding job }

theorem witness_decodeSound_busy : decodingNow.decodeSound :=
  ⟨⟨by decide +kernel, fun h => absurd h (by decide +kernel), fun h => absurd rfl h, nofun, nofun, fun _ _ => rfl⟩,
    by decide +kernel, fun h => absurd h.1 (by decide +kernel)⟩

/-- The divider before its wrap; TXO1 in FRAME with 8 requests waiting; a command in flight, the offset at the length. -/
def busyUnits : State :=
  commanded ((waiting (List.replicate 8 (request (.entry 20)))).setBcu
      { State.reset.bcu with winSpace := 5#8, winOffset := 522 }) (flight (some .tableClear) (arg 0) .absent [.mu])

theorem witness_time_transmit_command_sound_busy :
    ({ counter := 0, divider := 999, msTicks := [5] } : TimeBase).sound
    ∧ (busyUnits.txe.setEngine 1 ((engaged .frame (request (.entry 20)) [aMark]).txe.engine 1)).sound ∧ busyUnits.bcu.sound := by
  have hr : ∀ o : Output, ((busyUnits.txe.setEngine 1 ((engaged .frame (request (.entry 20)) [aMark]).txe.engine 1)).engine
    o).request.all (fun r => r.output = o) = true := by decide +kernel
  refine ⟨by unfold TimeBase.sound; decide, ⟨by decide +kernel, fun o => ⟨?_, fun r h => ?_⟩⟩, ?_⟩
  · revert o; decide +kernel
  · have h' := hr o
    rw [h] at h'
    simpa using h'
  · unfold Bcu.sound; decide +kernel

/-- What the invariant of the open descriptors says of the three channels. -/
theorem test_open_descriptors_of_capturing :
    capturing.pst.openFor 3 0 = true ∧ capturing.pst.openFor 4 1 = true ∧ capturing.pst.openFor 5 2 = true
    ∧ (capturing.lcu 1).handles = [4] := by decide +kernel

/-- A step from that state, which writes the waiting element. -/
theorem test_step_from_capturing :
    ask (fun t => ((t.lcu 0).answer, (t.pst.descriptor 3).count)) (step (capturing.setPending [.elementWrite 0 0]))
      = some (some .taken, 2) := by decide +kernel

end Sys2Proof.Tests
end

section
/-! What an abandoned burst leaves of a Line Capture Unit, and when a channel command is taken by its unit. -/

namespace Sys2Proof.Machine

/-! ## Abandoning a burst, by the handle (R8) -/

/-- Without a handle there is no request to send (R8). -/
theorem Lcu.abandonBurst_of_handle_none {l : Lcu} (h : l.handle = none) : l.abandonBurst = { l with count := 0 } := by
  simp [Lcu.abandonBurst, h]

/-- The request names the handle that is forgotten (R8). -/
theorem Lcu.abandonBurst_of_handle_some {l : Lcu} {h : Handle} (hh : l.handle = some h) :
    l.abandonBurst = { l with toStore := l.toStore.push (.abandon h), handle := none, count := 0 } := by
  simp [Lcu.abandonBurst, hh]

/-- Whatever the handle, an abandon touches the handle, the count and the path to the store alone (R8). -/
theorem Lcu.abandonBurst_eq (l : Lcu) :
    l.abandonBurst = { l with toStore := l.abandonBurst.toStore, handle := none, count := 0 } := by
  cases h : l.handle with
  | none => rw [l.abandonBurst_of_handle_none h, ← h]
  | some k => rw [l.abandonBurst_of_handle_some h]

/-- The path to the store after an abandon: the request of the open handle, where there is one (R8). -/
theorem Lcu.toStore_abandonBurst (l : Lcu) :
    l.abandonBurst.toStore = (match l.handle with
      | some h => l.toStore.push (.abandon h)
      | none => l.toStore) := by
  cases h : l.handle with
  | none => rw [Lcu.abandonBurst_of_handle_none h]
  | some k => rw [Lcu.abandonBurst_of_handle_some h]

/-! ## A channel command's part at its unit (R199, R200) -/

/-- A byte that holds a channel's number names the channel (R199). -/
theorem channelOf_eq_some {b : Byte} {c : Channel} (h : b.toNat = c.val) : channelOf b = some c := by
  simp [channelOf, h]

/-- A command in flight that names its channel and passes the BCU's check is taken by the unit of that channel, when its part
waits and the unit waits for no answer. -/
theorem State.takeCommand_lcuPart {s : State} {cmd : Cmd} {f : InFlight} {c : Channel}
    (act : InFlight → Channel → Lcu → State) (hf : s.bcu.inFlight = some f) (hcmd : f.cmd = some cmd) (hargs : argumentsNameParts cmd f.args = true)
    (hc : channelOf f.args.arg0 = some c) (hp : Part.lcu c ∈ f.parts) (hw : (s.lcu c).waiting = none) :
    s.takeCommand cmd (fun g => s.lcuPart g (act g)) = act f c (s.lcu c) := by
  rw [State.takeCommand_owner _ hf hcmd hargs, State.lcuPart_due _ hc hp hw]

end Sys2Proof.Machine
end

section
/-! Blank claims and drops at a Line Capture Unit (R16, R17). -/

namespace Sys2Proof.Machine

/-! ## Claims (R16) -/

/-- The first claim on a channel that captures without an open burst. -/
theorem Lcu.takeClaim_first {l : Lcu} (hb : l.blankCount = 0) (ho : l.capture ≠ .opened) (hd : l.capture ≠ .disabled) :
    l.takeClaim = { l with capture := .blanked, blankCount := 1, measuringStart := none } := by
  cases hc : l.capture with
  | disabled => exact absurd hc hd
  | opened => exact absurd hc ho
  | idle | discard | stuck | blanked => simp [Lcu.takeClaim, hb, hc]

/-- The first claim on a channel with an open burst, which is abandoned and counted. -/
theorem Lcu.takeClaim_opened {l : Lcu} {h : Handle} (hb : l.blankCount = 0) (ho : l.capture = .opened)
    (hh : l.handle = some h) :
    l.takeClaim = { l with
      capture := .blanked, blankCount := 1, measuringStart := none, handle := none, count := 0
      toStore := l.toStore.push (.abandon h)
      counters := { l.counters with blankAbandoned := bump l.counters.blankAbandoned } } := by
  simp [Lcu.takeClaim, hb, ho, Lcu.abandonBurst_of_handle_some (h := h), hh]

/-- A claim on a DISABLED channel, or on one that a claim already holds, changes the count alone. -/
theorem Lcu.takeClaim_count {l : Lcu} (h : l.capture = .disabled ∨ 0 < l.blankCount) :
    l.takeClaim = { l with blankCount := min 2 (l.blankCount + 1) } := by
  rw [Nat.min_comm]
  by_cases hb : l.blankCount = 0
  · have hd : l.capture = .disabled := h.resolve_right (by omega)
    simp [Lcu.takeClaim, hb, hd]
  · simp [Lcu.takeClaim, hb]

/-- A claim that is due is taken from its output's list. -/
theorem exec_blankClaim_due {s : State} {o : Output} {c : Channel} {claims : List ClaimMsg} (hw : (s.lcu c).waiting = none)
    (hm : (s.lcu c).claimsOf o = .claim :: claims) :
    exec (.blankClaim o c) s = .next (s.setLcu c ((s.lcu c).setClaims o claims).takeClaim) := by
  simp [exec, execBlankClaim, hw, hm]

/-! ## Drops (R17) -/

/-- The drop of the last claim on a BLANKED channel. -/
theorem Lcu.takeDrop_last {l : Lcu} (now : Time) (hb : l.blankCount = 1) (hc : l.capture = .blanked) :
    l.takeDrop now = { l with capture := .discard, blankCount := 0, measuringStart := some now } := by
  simp [Lcu.takeDrop, Lcu.toDiscard, hb, hc]

/-- Any other drop changes the count alone. -/
theorem Lcu.takeDrop_count {l : Lcu} (now : Time) (h : l.blankCount ≠ 1 ∨ l.capture ≠ .blanked) :
    l.takeDrop now = { l with blankCount := l.blankCount - 1 } := by
  have hn : ¬ (l.blankCount = 1 ∧ l.capture = .blanked) := by
    rintro ⟨hb, hc⟩
    exact h.elim (· hb) (· hc)
  simp [Lcu.takeDrop, hn]

/-- A drop that is due is taken from its output's list. -/
theorem exec_claimDrop_due {s : State} {o : Output} {c : Channel} {claims : List ClaimMsg} (hw : (s.lcu c).waiting = none)
    (hm : (s.lcu c).claimsOf o = .drop :: claims) :
    exec (.claimDrop o c) s = .next (s.setLcu c (((s.lcu c).setClaims o claims).takeDrop s.now)) := by
  simp [exec, execClaimDrop, hw, hm]

/-- Settles O8, by the count and the capture state that the claim or the drop finds. -/
theorem blankClaimsAndDropsMoveTheChannel : Obligations.BlankClaimsAndDropsMoveTheChannel := by
  unfold Obligations.BlankClaimsAndDropsMoveTheChannel
  constructor
  · intro s o c claims hw hm
    rw [exec_blankClaim_due hw hm]
    refine ⟨fun hb ho hd => ?firstClaim, fun h hb ho hh => ?openBurst, fun hk => ?countOnly⟩
    case firstClaim => rw [Lcu.takeClaim_first (by simpa using hb) (by simpa using ho) (by simpa using hd)]
    case openBurst =>
      rw [Lcu.takeClaim_opened (by simpa using hb) (by simpa using ho) (by simpa using hh)]
      simp
    case countOnly =>
      rw [Lcu.takeClaim_count (by simpa using hk)]
      simp
  · intro s o c claims hw hm
    rw [exec_claimDrop_due hw hm]
    refine ⟨fun hb hc => ?lastClaim, fun hk => ?countOnly⟩
    case lastClaim => rw [Lcu.takeDrop_last _ (by simpa using hb) (by simpa using hc)]
    case countOnly =>
      rw [Lcu.takeDrop_count _ (by simpa using hk)]
      simp

end Sys2Proof.Machine
end

section
/-! CHANNEL_ENABLE, CHANNEL_DISABLE and CHANNEL_FLUSH at a Line Capture Unit (R19, R20, R21). -/

namespace Sys2Proof.Machine

/-! ## The three switches, by the capture state and the blank count -/

theorem Lcu.enable_claimed {l : Lcu} (now : Time) (hd : l.capture = .disabled) (hb : 0 < l.blankCount) :
    l.enable now = { l with capture := .blanked, measuringStart := none } := by
  simp [Lcu.enable, hd, hb]

theorem Lcu.enable_unclaimed {l : Lcu} (now : Time) (hd : l.capture = .disabled) (hb : l.blankCount = 0) :
    l.enable now = { l with capture := .discard, measuringStart := some now } := by
  simp [Lcu.enable, Lcu.toDiscard, hd, hb]

/-- Enabling a channel that is not DISABLED does nothing (R19). -/
theorem Lcu.enable_enabled {l : Lcu} (now : Time) (hd : l.capture ≠ .disabled) : l.enable now = l := by
  simp [Lcu.enable, hd]

theorem Lcu.disable_enabled {l : Lcu} (hd : l.capture ≠ .disabled) :
    l.disable = { l with
      capture := .disabled, measuringStart := none, handle := none, count := 0
      toStore := l.abandonBurst.toStore.push .purge } := by
  rw [Lcu.disable, if_neg hd, l.abandonBurst_eq]

/-- A second disable sends the purge alone (R20). -/
theorem Lcu.disable_disabled {l : Lcu} (hd : l.capture = .disabled) :
    l.disable = { l with toStore := l.toStore.push .purge } := by
  rw [Lcu.disable, if_pos hd]

theorem Lcu.flush_unclaimed {l : Lcu} (now : Time) (hd : l.capture ≠ .disabled) (hb : l.blankCount = 0) :
    l.flush now = { l with
      capture := .discard, measuringStart := some now, handle := none, count := 0
      toStore := l.abandonBurst.toStore.push .purge } := by
  rw [Lcu.flush, if_neg hd, if_neg (by omega), l.abandonBurst_eq, Lcu.toDiscard]

theorem Lcu.flush_claimed {l : Lcu} (now : Time) (hd : l.capture ≠ .disabled) (hb : 0 < l.blankCount) :
    l.flush now = { l with
      capture := .blanked, measuringStart := none, handle := none, count := 0
      toStore := l.abandonBurst.toStore.push .purge } := by
  rw [Lcu.flush, if_neg hd, if_pos hb, l.abandonBurst_eq]

/-- A flush of a DISABLED channel sends the purge alone (R21). -/
theorem Lcu.flush_disabled {l : Lcu} (now : Time) (hd : l.capture = .disabled) :
    l.flush now = { l with toStore := l.toStore.push .purge } := by
  rw [Lcu.flush, if_pos hd]

/-! ## The events that take them -/

section Due

variable {s : State} {f : InFlight} {c : Channel} (hf : s.bcu.inFlight = some f) (hc : channelOf f.args.arg0 = some c)
  (hp : Part.lcu c ∈ f.parts) (hw : (s.lcu c).waiting = none)
include hf hc hp hw

theorem exec_channelEnable_due (hcmd : f.cmd = some .channelEnable) :
    exec (.channelEnable .take) s = .next ((s.setLcu c ((s.lcu c).enable s.now)).answerPart (.lcu c) {}) :=
  congrArg Host.Outcome.next (State.takeCommand_lcuPart _ hf hcmd (by simp [argumentsNameParts, hc]) hc hp hw)

theorem exec_channelDisable_due (hcmd : f.cmd = some .channelDisable) :
    exec (.channelDisable .take) s = .next ((s.setLcu c (s.lcu c).disable).answerPart (.lcu c) {}) :=
  congrArg Host.Outcome.next (State.takeCommand_lcuPart _ hf hcmd (by simp [argumentsNameParts, hc]) hc hp hw)

theorem exec_channelFlush_due (hcmd : f.cmd = some .channelFlush) :
    exec (.channelFlush .take) s = .next ((s.setLcu c ((s.lcu c).flush s.now)).answerPart (.lcu c) {}) :=
  congrArg Host.Outcome.next (State.takeCommand_lcuPart _ hf hcmd (by simp [argumentsNameParts, hc]) hc hp hw)

end Due

/-- Settles O45, by the command in flight, then by the capture state and the blank count it finds. -/
theorem channelSwitchesMoveTheCapture : Obligations.ChannelSwitchesMoveTheCapture := by
  unfold Obligations.ChannelSwitchesMoveTheCapture
  intro s f c l ended hf harg hp hl hw hended
  have hc : channelOf f.args.arg0 = some c := channelOf_eq_some harg
  have hsent : ended = l.abandonBurst.toStore := hended.trans l.toStore_abandonBurst.symm
  subst hl hsent
  refine ⟨fun hcmd => ?enable, fun hcmd => ?disable, fun hcmd => ?flush⟩
  case enable =>
    rw [exec_channelEnable_due hf hc hp hw hcmd]
    refine ⟨fun hd hb => ?_, fun hd hb => ?_, fun hd => ?_⟩
    · rw [Lcu.enable_claimed _ hd hb]
    · rw [Lcu.enable_unclaimed _ hd hb]
    · rw [Lcu.enable_enabled _ hd, State.setLcu_self]
  case disable =>
    rw [exec_channelDisable_due hf hc hp hw hcmd]
    refine ⟨fun hd => ?_, fun hd => ?_⟩
    · rw [Lcu.disable_enabled hd]
    · rw [Lcu.disable_disabled hd]
  case flush =>
    rw [exec_channelFlush_due hf hc hp hw hcmd]
    refine ⟨fun hd hb => ?_, fun hd hb => ?_, fun hd => ?_⟩
    · rw [Lcu.flush_unclaimed _ hd hb]
    · rw [Lcu.flush_claimed _ hd hb]
    · rw [Lcu.flush_disabled _ hd]

end Sys2Proof.Machine
end

section
/-! The requests of a Line Capture Unit at the Pulse Store: the grant of a descriptor, the close and the abandon (R30, R32,
R33, R34). -/

namespace Sys2Proof.Machine

/-! ## The oldest request (section 2.3) -/

/-- With no part of a RUN_RESET waiting, nothing stands before the oldest request of a unit. -/
theorem State.storeRequest_of_resetParts_nil {s : State} (h : s.resetParts = []) (c : Channel) :
    s.storeRequest c = (s.lcu c).toStore.msgs.head? := by
  simp [State.storeRequest, State.storePathOpen, State.resetBetween, h]

/-- A request that changes nothing in the store only leaves its sender's mailbox. -/
theorem State.storeTook_pst_self (s : State) (c : Channel) (answer : Option LcuAnswer) :
    s.storeTook c s.pst answer = s.setLcu c { s.lcu c with toStore := (s.lcu c).toStore.pop, answer := answer } := rfl

/-! ## The lowest FREE descriptor (R30) -/

theorem PulseStore.lowestFree_of_least {p : PulseStore} {h : Handle} (hf : (p.descriptor h).state = .free)
    (hl : ∀ k < h, (p.descriptor k).state ≠ .free) : p.lowestFree = some h := by
  refine List.find?_eq_some_iff_getElem.2 ⟨by simp [hf], h.val, by simp, by simp, fun j hj => ?_⟩
  have hlow := hl ⟨j, hj.trans h.isLt⟩ hj
  simpa using hlow

theorem PulseStore.lowestFree_eq_none {p : PulseStore} (h : ∀ k, (p.descriptor k).state ≠ .free) : p.lowestFree = none :=
  List.find?_eq_none.2 fun k _ => by simpa using h k

/-! ## Close and abandon, by the descriptor they find (R32, R33, R34) -/

section Found

variable {p : PulseStore} {c : Channel} {h : Handle}

theorem PulseStore.openFor_eq_false (hs : (p.descriptor h).state ≠ .opened ∨ (p.descriptor h).channel ≠ c) :
    p.openFor h c = false := by
  rw [Bool.eq_false_iff, ne_eq, PulseStore.openFor_iff, not_and_or]
  exact hs

theorem PulseStore.close_opened (closeTime : Time) (ho : (p.descriptor h).state = .opened) (hc : (p.descriptor h).channel = c) :
    p.close c h closeTime =
      { p.setDescriptor h { p.descriptor h with state := .queued, closeTime := closeTime } with queue := p.queue ++ [h] } :=
  if_pos ((p.openFor_iff h c).2 ⟨ho, hc⟩)

theorem PulseStore.close_stray (closeTime : Time) (hs : (p.descriptor h).state ≠ .opened ∨ (p.descriptor h).channel ≠ c) :
    p.close c h closeTime = p := by
  simp [PulseStore.close, PulseStore.openFor_eq_false hs]

theorem PulseStore.abandon_opened (ho : (p.descriptor h).state = .opened) (hc : (p.descriptor h).channel = c) :
    p.abandon c h = p.free h :=
  if_pos ((p.openFor_iff h c).2 ⟨ho, hc⟩)

theorem PulseStore.abandon_stray (hs : (p.descriptor h).state ≠ .opened ∨ (p.descriptor h).channel ≠ c) :
    p.abandon c h = p := by
  simp [PulseStore.abandon, PulseStore.openFor_eq_false hs]

end Found

/-! ## The events that take them -/

section Due

variable {s : State} {c : Channel}

theorem exec_descriptorRequest_granted {openTime : Time} {h : Handle} (hr : s.storeRequest c = some (.descriptor openTime))
    (hf : s.pst.lowestFree = some h) :
    exec (.descriptorRequest c) s = .next (s.storeTook c (s.pst.grant h c openTime) (some (.granted h))) := by
  simp [exec, execDescriptorRequest, hr, hf]

theorem exec_descriptorRequest_refused {openTime : Time} (hr : s.storeRequest c = some (.descriptor openTime))
    (hf : s.pst.lowestFree = none) :
    exec (.descriptorRequest c) s = .next (s.storeTook c s.pst (some .noDescriptor)) := by
  simp [exec, execDescriptorRequest, hr, hf]

theorem exec_closeRequest_due {h : Handle} {closeTime : Time} (hr : s.storeRequest c = some (.close h closeTime)) :
    exec (.closeRequest c) s = .next (s.storeTook c (s.pst.close c h closeTime) (s.lcu c).answer) := by
  simp [exec, execCloseRequest, hr]

theorem exec_abandonRequest_due {h : Handle} (hr : s.storeRequest c = some (.abandon h)) :
    exec (.abandonRequest c) s = .next (s.storeTook c (s.pst.abandon c h) (s.lcu c).answer) := by
  simp [exec, execAbandonRequest, hr]

end Due

/-- Settles O9, by whether some descriptor is FREE. -/
theorem descriptorRequestGrantsTheLowestFree : Obligations.DescriptorRequestGrantsTheLowestFree := by
  unfold Obligations.DescriptorRequestGrantsTheLowestFree
  refine ⟨fun s c hreset => State.storeRequest_of_resetParts_nil (State.resetParts_eq_nil hreset) c,
    fun s c openTime hr => ⟨fun h hf hl => ?granted, fun hnone => ?refused⟩⟩
  case granted =>
    rw [exec_descriptorRequest_granted hr (PulseStore.lowestFree_of_least hf hl)]
    rfl
  case refused =>
    rw [exec_descriptorRequest_refused hr (PulseStore.lowestFree_eq_none hnone), State.storeTook_pst_self]

/-- Settles O11, by whether the request's descriptor is OPEN for its sender. -/
theorem closeQueuesAndAbandonFrees : Obligations.CloseQueuesAndAbandonFrees := by
  unfold Obligations.CloseQueuesAndAbandonFrees
  refine fun s c h => ⟨fun closeTime hr => ?close, fun hr => ?abandon⟩
  case close =>
    rw [exec_closeRequest_due hr]
    refine ⟨fun ho hc => ?_, fun hs => ?_⟩
    · rw [PulseStore.close_opened closeTime ho hc]
      rfl
    · rw [PulseStore.close_stray closeTime hs, State.storeTook_pst_self]
  case abandon =>
    rw [exec_abandonRequest_due hr]
    refine ⟨fun ho hc => ?_, fun hs => ?_⟩
    · rw [PulseStore.abandon_opened ho hc]
      rfl
    · rw [PulseStore.abandon_stray hs, State.storeTook_pst_self]

end Sys2Proof.Machine
end

section
/-! The holds of a RETAINED burst: the drops and BURST_RELEASE (R38, R41, R43, R34). -/

namespace Sys2Proof.Machine

/-! ## A command's part at the one owner it has (R199, R200) -/

/-- A byte that holds a handle's number names the handle (R199). -/
theorem handleOf_eq_some {b : Byte} {h : Handle} (hb : b.toNat = h.val) : handleOf b = some h := by
  simp [handleOf, hb]

/-- An owner that takes events takes its part while it waits. -/
theorem State.ownerPart_due {s : State} {f : InFlight} {p : Part} (act : State) (hp : p ∈ f.parts) :
    s.ownerPart f p act = act :=
  if_pos hp

/-! ## The drops, by the holds they find -/

section Holds

variable {p : PulseStore} {h : Handle}

theorem PulseStore.hostHeld_iff : p.hostHeld h = true ↔ (p.descriptor h).state = .retained ∧ (p.descriptor h).hostHold = true := by
  simp [PulseStore.hostHeld]

theorem PulseStore.hostHeld_eq_false (hs : (p.descriptor h).state ≠ .retained ∨ (p.descriptor h).hostHold = false) :
    p.hostHeld h = false := by
  rw [Bool.eq_false_iff, ne_eq, PulseStore.hostHeld_iff, not_and_or, Bool.not_eq_true]
  exact hs

/-- The host hold goes; the burst goes with it where no transmit hold is left (R38, R41). -/
theorem PulseStore.dropHostHold_held (hh : p.hostHeld h = true) :
    p.dropHostHold h = if (p.descriptor h).transmitHolds = 0 then p.free h
      else p.setDescriptor h { p.descriptor h with hostHold := false } :=
  if_pos hh

theorem PulseStore.dropHostHold_stray (hh : p.hostHeld h = false) : p.dropHostHold h = p := by
  simp [PulseStore.dropHostHold, hh]

/-- One transmit hold goes; the burst goes with it where it was the last hold (R38, R43). -/
theorem PulseStore.dropTransmitHold_held (hr : (p.descriptor h).state = .retained) (ht : 0 < (p.descriptor h).transmitHolds) :
    p.dropTransmitHold h = if (p.descriptor h).transmitHolds = 1 ∧ (p.descriptor h).hostHold = false then p.free h
      else p.setDescriptor h { p.descriptor h with transmitHolds := (p.descriptor h).transmitHolds - 1 } :=
  if_pos ⟨hr, ht⟩

theorem PulseStore.dropTransmitHold_stray
    (hs : (p.descriptor h).state ≠ .retained ∨ (p.descriptor h).transmitHolds = 0) : p.dropTransmitHold h = p := by
  refine if_neg ?_
  rintro ⟨hr, ht⟩
  exact hs.elim (· hr) (Nat.ne_of_gt ht)

end Holds

/-! ## The events that take them -/

theorem exec_hostHoldDrop_due {s : State} {h : Handle} (hm : h ∈ s.sdc.hostDrops) :
    exec (.hostHoldDrop h) s = .next ((s.setPst (s.pst.dropHostHold h)).setSdc
      { s.sdc with hostDrops := s.sdc.hostDrops.erase h }) :=
  if_pos hm

theorem exec_transmitHoldDrop_due {s : State} {h : Handle} (hm : h ∈ s.txe.holdDrops) :
    exec (.transmitHoldDrop h) s = .next ((s.setPst (s.pst.dropTransmitHold h)).setTxe
      { s.txe with holdDrops := s.txe.holdDrops.erase h }) :=
  if_pos hm

section Release

variable {s : State} {f : InFlight} {h : Handle} (hf : s.bcu.inFlight = some f) (hcmd : f.cmd = some .burstRelease)
  (harg : handleOf f.args.arg0 = some h) (hp : Part.pst ∈ f.parts)
include hf hcmd harg hp

theorem exec_burstRelease_held (hh : s.pst.hostHeld h = true) :
    exec (.burstRelease .take) s = .next ((s.setPst (s.pst.dropHostHold h)).answerPart .pst {}) := by
  refine congrArg Host.Outcome.next ?_
  rw [State.takeCommand_owner _ hf hcmd (by simp [argumentsNameParts, harg])]
  simp [harg, State.ownerPart_due _ hp, hh]

theorem exec_burstRelease_refused (hh : s.pst.hostHeld h = false) :
    exec (.burstRelease .take) s = .next (s.answerPart .pst { error := some .badHandle }) := by
  refine congrArg Host.Outcome.next ?_
  rw [State.takeCommand_owner _ hf hcmd (by simp [argumentsNameParts, harg])]
  simp [harg, State.ownerPart_due _ hp, hh]

end Release

/-- Settles O15, by the holds that the drop or the release finds. -/
theorem lastHoldDropFreesTheBurst : Obligations.LastHoldDropFreesTheBurst := by
  unfold Obligations.LastHoldDropFreesTheBurst
  refine ⟨fun s h => ⟨fun hm => ⟨_, exec_hostHoldDrop_due hm, fun hr hh => ?hostHeld, fun hs => ?hostStray⟩,
    fun hm => ⟨_, exec_transmitHoldDrop_due hm, PulseStore.dropTransmitHold_held, PulseStore.dropTransmitHold_stray⟩⟩,
    fun s f h hf hcmd harg hp => ⟨fun hr hh => ⟨fun ht => ?releaseLast, fun ht => ?releaseOther⟩, fun hs => ?releaseStray⟩⟩
  case hostHeld => exact PulseStore.dropHostHold_held (PulseStore.hostHeld_iff.2 ⟨hr, hh⟩)
  case hostStray => exact PulseStore.dropHostHold_stray (PulseStore.hostHeld_eq_false hs)
  case releaseLast =>
    have held := PulseStore.hostHeld_iff.2 ⟨hr, hh⟩
    rw [exec_burstRelease_held hf hcmd (handleOf_eq_some harg) hp held, PulseStore.dropHostHold_held held, if_pos ht]
    rfl
  case releaseOther =>
    have held := PulseStore.hostHeld_iff.2 ⟨hr, hh⟩
    rw [exec_burstRelease_held hf hcmd (handleOf_eq_some harg) hp held, PulseStore.dropHostHold_held held,
      if_neg (Nat.ne_of_gt ht)]
  case releaseStray =>
    exact exec_burstRelease_refused hf hcmd (handleOf_eq_some harg) hp (PulseStore.hostHeld_eq_false hs)

end Sys2Proof.Machine
end

section
/-! The transmit staging record: which records the field checks refuse, and what request the others spell (R166, R168, R194). -/

namespace Sys2Proof.Machine

/-! ## The fields of a record -/

section Numbers

variable {n k : Nat}

/-- A number below a bound names the part of that number (R199). -/
theorem dite_fin_eq_some_iff {i : Fin n} : (if h : k < n then some (⟨k, h⟩ : Fin n) else none) = some i ↔ i.val = k := by
  split
  · simp [Fin.ext_iff, eq_comm]
  · have := i.isLt
    simp only [reduceCtorEq, false_iff]
    omega

theorem dite_fin_eq_none_iff : (if h : k < n then some (⟨k, h⟩ : Fin n) else none) = none ↔ n ≤ k := by
  simp

end Numbers

/-- A payload is zero above a bit count when no bit stands at or above it. -/
theorem zeroAbove_iff {bits : Nat} {x : Payload} : zeroAbove bits x = true ↔ ∀ n, bits ≤ n → x.getLsbD n = false := by
  refine ⟨fun h n hn => getLsbD_of_zeroAbove h hn, fun h => ?_⟩
  simpa [zeroAbove] using Nat.lt_pow_two_of_testBit x.toNat h

/-- Two bytes as a number, the low one first. -/
theorem toNat_half (lo hi : Byte) : (half lo hi).toNat = lo.toNat + 256 * hi.toNat := by
  have hlo : lo.toNat < 2 ^ 8 := lo.isLt
  rw [half, BitVec.toNat_append, ← Nat.shiftLeft_add_eq_or_of_lt hlo, Nat.shiftLeft_eq]
  omega

/-- A word is zero when its number is. -/
theorem bitVec_eq_zero_iff {w : Nat} {b : BitVec w} : b = 0#w ↔ b.toNat = 0 := by
  simp [← BitVec.toNat_inj]

/-- A carrier period outside 0 and 64 to 800 (R166). -/
theorem carrierInRange_eq_false_iff {p : Half} :
    carrierInRange p = false ↔ (1 ≤ p.toNat ∧ p.toNat < 64) ∨ 800 < p.toNat := by
  have hz : p = 0 ↔ p.toNat = 0 := bitVec_eq_zero_iff
  simp only [carrierInRange, Bool.or_eq_false_iff, Bool.and_eq_false_iff, decide_eq_false_iff_not, beq_eq_false_iff_ne, ne_eq, hz]
  omega

/-- A code of a record that names one of three things, or none of them (R194). -/
theorem code_cases (k : Nat) : k = 0 ∨ k = 1 ∨ k = 2 ∨ ∃ m, k = m + 3 := by
  obtain hk | hk | hk | hk : k = 0 ∨ k = 1 ∨ k = 2 ∨ 3 ≤ k := by omega
  · exact .inl hk
  · exact .inr (.inl hk)
  · exact .inr (.inr (.inl hk))
  · exact .inr (.inr (.inr (Nat.exists_eq_add_of_le' hk)))

/-! ## The repeat mode and the duty (R168, R194) -/

theorem repeatModeOf_eq_none_iff {r : Vector Byte 21} :
    repeatModeOf r = none ↔ 2 < r[13].toNat ∨ (r[13].toNat = 1 ∧ r[14].toNat = 0) := by
  obtain hk | hk | hk | ⟨m, hk⟩ := code_cases r[13].toNat <;> simp [repeatModeOf, hk, bitVec_eq_zero_iff]

theorem mode_of_repeatModeOf {r : Vector Byte 21} {m : RepeatMode} (h : repeatModeOf r = some m) :
    (r[13].toNat = 0 → m = .once) ∧ (r[13].toNat = 1 → m = .count r[14].toNat) ∧ (r[13].toNat = 2 → m = .hold) := by
  obtain hk | hk | hk | ⟨n, hk⟩ := code_cases r[13].toNat <;> simp [repeatModeOf, hk] at h <;> simp [hk, h]

theorem dutyOf_eq_none_iff {b : Byte} : dutyOf b = none ↔ 2 < b.toNat := by
  obtain hk | hk | hk | ⟨m, hk⟩ := code_cases b.toNat <;> simp [dutyOf, hk]

theorem duty_of_dutyOf {b : Byte} {d : Duty} (h : dutyOf b = some d) :
    (b.toNat = 0 → d = .quarter) ∧ (b.toNat = 1 → d = .third) ∧ (b.toNat = 2 → d = .half) := by
  obtain hk | hk | hk | ⟨m, hk⟩ := code_cases b.toNat <;> simp [dutyOf, hk] at h <;> simp [hk, h]

/-! ## The source, by its kind (R168) -/

/-- The payload bytes of a transmit staging record (R194). -/
def txPayload (r : Vector Byte 21) : Payload := payloadOf r[5] r[6] r[7] r[8] r[9] r[10] r[11] r[12]

section Source

variable {r : Vector Byte 21}

theorem txSourceOf_entry (hk : r[2].toNat = 0) : txSourceOf r = (entryOf r[3]).map .entry := by
  simp [txSourceOf, hk]

/-- The field checks on a code word: its bit count, and no payload bit at or above it. -/
def txWordFits (r : Vector Byte 21) : Prop :=
  1 ≤ r[4].toNat ∧ r[4].toNat ≤ 64 ∧ ∀ n, r[4].toNat ≤ n → (txPayload r).getLsbD n = false

/-- Which field check a code word fails. -/
theorem not_txWordFits_iff : ¬ txWordFits r ↔
    r[4].toNat < 1 ∨ 64 < r[4].toNat ∨ ∃ n, r[4].toNat ≤ n ∧ (txPayload r).getLsbD n = true := by
  simp only [txWordFits, not_and_or, not_le, not_forall, Bool.not_eq_false, exists_prop]

theorem txSourceOf_word (hk : r[2].toNat = 1) (hw : txWordFits r) :
    txSourceOf r = (profileOf r[3]).map (.word · r[4].toNat (txPayload r)) := by
  obtain ⟨hlow, hhigh, hzero⟩ := hw
  rw [← zeroAbove_iff, txPayload] at hzero
  cases hp : profileOf r[3] <;> simp [txSourceOf, txPayload, hk, hp, hlow, hhigh, hzero]

theorem txSourceOf_word_refused (hk : r[2].toNat = 1) (hw : ¬ txWordFits r) : txSourceOf r = none := by
  rw [txWordFits, ← zeroAbove_iff, txPayload] at hw
  cases hp : profileOf r[3] <;> simp [txSourceOf, hk, hp]
  exact fun hlow hhigh => Bool.eq_false_iff.2 fun hzero => hw ⟨hlow, hhigh, hzero⟩

theorem txSourceOf_burst (hk : r[2].toNat = 2) :
    txSourceOf r = if r[20] = 0#8 then none else (handleOf r[3]).map .burst := by
  cases hh : handleOf r[3] <;> simp [txSourceOf, hk, hh]

theorem txSourceOf_unknown (hk : 2 < r[2].toNat) : txSourceOf r = none := by
  obtain ⟨m, hm⟩ := Nat.exists_eq_add_of_le' hk
  simp [txSourceOf, hm]

/-- The field checks on the source (R168). -/
theorem txSourceOf_eq_none_iff :
    txSourceOf r = none ↔ 2 < r[2].toNat ∨ (r[2].toNat = 0 ∧ 127 < r[3].toNat)
      ∨ (r[2].toNat = 1 ∧ (7 < r[3].toNat ∨ ¬ txWordFits r))
      ∨ (r[2].toNat = 2 ∧ (15 < r[3].toNat ∨ r[20].toNat = 0)) := by
  obtain hk | hk | hk | hk : r[2].toNat = 0 ∨ r[2].toNat = 1 ∨ r[2].toNat = 2 ∨ 2 < r[2].toNat := by omega
  · rw [txSourceOf_entry hk, Option.map_eq_none_iff, entryOf, dite_fin_eq_none_iff]
    omega
  · by_cases hw : txWordFits r
    · rw [txSourceOf_word hk hw, Option.map_eq_none_iff, profileOf, dite_fin_eq_none_iff]
      simp only [hw, not_true_eq_false, or_false]
      omega
    · simp [txSourceOf_word_refused hk hw, hk, hw]
  · rw [txSourceOf_burst hk, ite_eq_left_iff, Option.map_eq_none_iff, handleOf, dite_fin_eq_none_iff, bitVec_eq_zero_iff]
    omega
  · simp [txSourceOf_unknown hk, hk]

/-- The source that a record spells (R166). -/
theorem source_of_txSourceOf {x : TxSource} (h : txSourceOf r = some x) :
    (r[2].toNat = 0 → ∃ i : EntryNo, x = .entry i ∧ i.val = r[3].toNat)
    ∧ (r[2].toNat = 1 → ∃ p : ProfileNo, x = .word p r[4].toNat (txPayload r) ∧ p.val = r[3].toNat)
    ∧ (r[2].toNat = 2 → ∃ h : Handle, x = .burst h ∧ h.val = r[3].toNat) := by
  refine ⟨fun hk => ?entry, fun hk => ?word, fun hk => ?burst⟩
  case entry =>
    rw [txSourceOf_entry hk, Option.map_eq_some_iff] at h
    obtain ⟨i, hi, rfl⟩ := h
    exact ⟨i, rfl, dite_fin_eq_some_iff.1 hi⟩
  case word =>
    have hw : txWordFits r := by
      by_contra hw
      rw [txSourceOf_word_refused hk hw] at h
      cases h
    rw [txSourceOf_word hk hw, Option.map_eq_some_iff] at h
    obtain ⟨p, hp, rfl⟩ := h
    exact ⟨p, rfl, dite_fin_eq_some_iff.1 hp⟩
  case burst =>
    rw [txSourceOf_burst hk, Option.ite_none_left_eq_some, Option.map_eq_some_iff] at h
    obtain ⟨-, k, hb, rfl⟩ := h
    exact ⟨k, rfl, dite_fin_eq_some_iff.1 hb⟩

end Source

/-! ## The request (R168) -/

section Request

variable {r : Vector Byte 21}

/-- A record is refused exactly by the check of one of its fields. -/
theorem txRequestOfBytes_eq_none_iff :
    txRequestOfBytes r = none ↔ outputOf r[1] = none ∨ txSourceOf r = none ∨ repeatModeOf r = none
      ∨ carrierInRange (half r[15] r[16]) = false ∨ dutyOf r[17] = none ∨ 15 < r[18].toNat := by
  unfold txRequestOfBytes
  split
  · next o src m d ho hs hm hd =>
    cases hc : carrierInRange (half r[15] r[16]) with
    | false => simp [hc]
    | true =>
      simp only [ho, hs, hm, hd, hc, reduceCtorEq, false_or, Bool.true_and, ite_eq_right_iff, imp_false, decide_eq_true_eq]
      omega
  · next hnone =>
    refine iff_of_true rfl ?_
    by_contra hall
    simp only [not_or, ← ne_eq, Option.ne_none_iff_exists'] at hall
    obtain ⟨⟨o, ho⟩, ⟨src, hs⟩, ⟨m, hm⟩, -, ⟨d, hd⟩, -⟩ := hall
    exact hnone o src m d ho hs hm hd

/-- The fields of the request that a record spells (R166, R194). -/
theorem txRequestOfBytes_some {x : TxRequest} (h : txRequestOfBytes r = some x) :
    outputOf r[1] = some x.output ∧ txSourceOf r = some x.source ∧ repeatModeOf r = some x.mode ∧ dutyOf r[17] = some x.duty
      ∧ x.tag = r[0] ∧ x.carrier = half r[15] r[16] ∧ x.blankSet = r[18].setWidth 4 ∧ x.blankTail = r[19]
      ∧ x.rawGap = r[20] := by
  unfold txRequestOfBytes at h
  split at h
  · next ho hs hm hd =>
    rw [Option.ite_none_right_eq_some] at h
    obtain ⟨-, hx⟩ := h
    cases hx
    exact ⟨ho, hs, hm, hd, rfl, rfl, rfl, rfl, rfl⟩
  · cases h

/-- The field checks of R168, byte by byte. -/
theorem txRequestOfBytes_eq_none_iff_bytes :
    txRequestOfBytes r = none ↔
      1 < r[1].toNat ∨ 2 < r[2].toNat ∨ (r[2].toNat = 0 ∧ 127 < r[3].toNat)
        ∨ (r[2].toNat = 1 ∧ (7 < r[3].toNat ∨ ¬ txWordFits r))
        ∨ (r[2].toNat = 2 ∧ (15 < r[3].toNat ∨ r[20].toNat = 0))
        ∨ 2 < r[13].toNat ∨ (r[13].toNat = 1 ∧ r[14].toNat = 0)
        ∨ (1 ≤ (half r[15] r[16]).toNat ∧ (half r[15] r[16]).toNat < 64) ∨ 800 < (half r[15] r[16]).toNat
        ∨ 2 < r[17].toNat ∨ 15 < r[18].toNat := by
  have ho : outputOf r[1] = none ↔ 1 < r[1].toNat := dite_fin_eq_none_iff
  rw [txRequestOfBytes_eq_none_iff, ho, txSourceOf_eq_none_iff, repeatModeOf_eq_none_iff, carrierInRange_eq_false_iff,
    dutyOf_eq_none_iff]
  simp only [or_assoc]

end Request

end Sys2Proof.Machine
end

section
/-! TX_SUBMIT at the Transmit Engine: the checks in their order and the accepted request (R42, R168, R169). -/

namespace Sys2Proof.Machine

/-! ## A transmit-hold request (R42) -/

section Hold

variable {p : PulseStore} {h : Handle}

theorem PulseStore.addTransmitHold_added (hh : p.hostHeld h = true) (ht : (p.descriptor h).transmitHolds < 8) :
    p.addTransmitHold h =
      (p.setDescriptor h { p.descriptor h with transmitHolds := (p.descriptor h).transmitHolds + 1 }, .added) := by
  rw [PulseStore.addTransmitHold, if_pos hh, Config.transmitHoldLimit, if_pos ht]

theorem PulseStore.addTransmitHold_full (hh : p.hostHeld h = true) (ht : 8 ≤ (p.descriptor h).transmitHolds) :
    p.addTransmitHold h = (p, .full) := by
  rw [PulseStore.addTransmitHold, if_pos hh, Config.transmitHoldLimit, if_neg (Nat.not_lt.2 ht)]

theorem PulseStore.addTransmitHold_badHandle (hh : p.hostHeld h = false) : p.addTransmitHold h = (p, .badHandle) := by
  simp [PulseStore.addTransmitHold, hh]

end Hold

/-! ## The checks in their order (R168) -/

section Submit

variable {s : State} {r : Vector Byte 21} {x : TxRequest}

theorem State.submit_unspelled (hx : txRequestOfBytes r = none) : s.submit r = .error .badArg := by
  simp [State.submit, hx]

theorem State.submit_full (hx : txRequestOfBytes r = some x) (hq : 8 ≤ s.txe.queue.length) : s.submit r = .error .noSpace := by
  simp [State.submit, hx, Config.transmitQueueCapacity, hq]

theorem State.submit_sourceRefused {e : CmdError} (hx : txRequestOfBytes r = some x) (hq : s.txe.queue.length < 8)
    (hs : s.checkSource x.source = .error e) : s.submit r = .error e := by
  simp [State.submit, hx, Config.transmitQueueCapacity, Nat.not_le.2 hq, hs]

theorem State.submit_accepted {p : PulseStore} (hx : txRequestOfBytes r = some x) (hq : s.txe.queue.length < 8)
    (hs : s.checkSource x.source = .ok p) :
    s.submit r = .ok ((s.setPst p).setTxe { s.txe with queue := s.txe.queue ++ [x] }, x.tag) := by
  simp [State.submit, hx, Config.transmitQueueCapacity, Nat.not_le.2 hq, hs]

/-- The code table is read for a request of an entry, when the queue has a place for it (R98, R168). -/
theorem State.submissionReadsEntry_iff : s.submissionReadsEntry r = true ↔
    s.txe.queue.length < 8 ∧ ∃ x, txRequestOfBytes r = some x ∧ ∃ i, x.source = .entry i := by
  have hentry : ∀ a : TxSource, a.isEntry = true ↔ ∃ i, a = .entry i := by
    intro a
    cases a <;> simp [TxSource.isEntry]
  simp only [State.submissionReadsEntry, Bool.and_eq_true, decide_eq_true_eq, Option.any_eq_true, hentry]
  exact Iff.rfl

end Submit

/-! ## The event that takes it -/

section Due

variable {s : State} {f : InFlight} {r : Vector Byte 21} (hf : s.bcu.inFlight = some f) (hcmd : f.cmd = some .txSubmit)
  (hst : f.staging = .transmit r) (hp : Part.txe ∈ f.parts) (hm : s.submissionReadsEntry r = true → s.mu.awaiting = none)
include hf hcmd hst hp hm

theorem exec_txSubmit_refused {e : CmdError} (he : s.submit r = .error e) :
    exec (.txSubmit .take) s = .next (s.answerPart .txe { error := some e }) := by
  refine congrArg Host.Outcome.next ?_
  rw [State.takeCommand_owner _ hf hcmd rfl]
  simp [hst, State.ownerPart_due _ hp, State.afterMatchRead_due _ hm, he]

theorem exec_txSubmit_accepted {t : State} {tag : Byte} (ht : s.submit r = .ok (t, tag)) :
    exec (.txSubmit .take) s = .next (t.answerPart .txe { result := tag }) := by
  refine congrArg Host.Outcome.next ?_
  rw [State.takeCommand_owner _ hf hcmd rfl]
  simp [hst, State.ownerPart_due _ hp, State.afterMatchRead_due _ hm, ht]

end Due

/-- Where the field checks pass and the queue has a place, the source check decides: refused with its error, or accepted with
the store it leaves. The check of an entry waits for the answer to a PRESS. -/
theorem exec_txSubmit_checkSource {s : State} {f : InFlight} {r : Vector Byte 21} {x : TxRequest}
    (hf : s.bcu.inFlight = some f) (hcmd : f.cmd = some .txSubmit) (hst : f.staging = .transmit r) (hp : Part.txe ∈ f.parts)
    (hx : txRequestOfBytes r = some x) (hq : s.txe.queue.length < 8)
    (hm : ∀ i, x.source = .entry i → s.mu.awaiting = none) :
    (∀ e, s.checkSource x.source = .error e →
      exec (.txSubmit .take) s = .next (s.answerPart .txe { error := some e }))
    ∧ ∀ p, s.checkSource x.source = .ok p →
      exec (.txSubmit .take) s = .next
        (((s.setTxe { s.txe with queue := s.txe.queue ++ [x] }).answerPart .txe { result := x.tag }).setPst p) := by
  have hwait : s.submissionReadsEntry r = true → s.mu.awaiting = none := by
    intro hr
    obtain ⟨-, y, hy, i, hi⟩ := State.submissionReadsEntry_iff.1 hr
    rw [hx] at hy
    cases hy
    exact hm i hi
  exact ⟨fun e he => exec_txSubmit_refused hf hcmd hst hp hwait (State.submit_sourceRefused hx hq he),
    fun p hs => exec_txSubmit_accepted hf hcmd hst hp hwait (State.submit_accepted hx hq hs)⟩

/-! ## The source checks (R42, R168) -/

section Source

variable {s : State}

theorem State.checkSource_entry (i : EntryNo) :
    s.checkSource (.entry i) = if (s.mu.entry i).valid = true then .ok s.pst else .error .entryEmpty := rfl

theorem State.checkSource_word (p : ProfileNo) (bits : Nat) (payload : Payload) :
    s.checkSource (.word p bits payload) = if (s.sdc.profile p).valid = true then
      if (s.sdc.profile p).minBits ≤ bits ∧ bits ≤ (s.sdc.profile p).maxBits then .ok s.pst else .error .badArg
    else .error .profileEmpty := rfl

theorem State.checkSource_burst_badHandle {h : Handle} (hh : s.pst.hostHeld h = false) :
    s.checkSource (.burst h) = .error .badHandle := by
  simp [State.checkSource, PulseStore.addTransmitHold_badHandle hh]

theorem State.checkSource_burst_full {h : Handle} (hh : s.pst.hostHeld h = true)
    (ht : 8 ≤ (s.pst.descriptor h).transmitHolds) : s.checkSource (.burst h) = .error .noSpace := by
  simp [State.checkSource, PulseStore.addTransmitHold_full hh ht]

theorem State.checkSource_burst_added {h : Handle} (hh : s.pst.hostHeld h = true)
    (ht : (s.pst.descriptor h).transmitHolds < 8) :
    s.checkSource (.burst h) = .ok (s.pst.setDescriptor h
      { s.pst.descriptor h with transmitHolds := (s.pst.descriptor h).transmitHolds + 1 }) := by
  simp [State.checkSource, PulseStore.addTransmitHold_added hh ht]

end Source

/-- Settles O34, by the first check that fails; of the record, field by field. -/
theorem submitChecksAndQueues : Obligations.SubmitChecksAndQueues := by
  unfold Obligations.SubmitChecksAndQueues
  refine ⟨fun s f r hf hcmd hst hp => ⟨fun hx => ?unspelled, fun x accepted hx hacc => ⟨fun hq => ?full, fun hq =>
    ⟨fun i hsrc hm => ?entry, fun p bits payload hsrc => ?word, fun h d hsrc hd => ?burst⟩⟩⟩,
    fun r payload carrier hpay hcar => ⟨?checks, fun x hx => ?spelled⟩⟩
  case unspelled =>
    refine exec_txSubmit_refused hf hcmd hst hp (fun hr => ?_) (State.submit_unspelled hx)
    obtain ⟨-, y, hy, -⟩ := State.submissionReadsEntry_iff.1 hr
    rw [hx] at hy
    cases hy
  case full =>
    refine exec_txSubmit_refused hf hcmd hst hp (fun hr => ?_) (State.submit_full hx hq)
    obtain ⟨hlt, -⟩ := State.submissionReadsEntry_iff.1 hr
    omega
  case entry =>
    obtain ⟨refused, taken⟩ := exec_txSubmit_checkSource hf hcmd hst hp hx hq fun _ _ => hm
    rw [hsrc, State.checkSource_entry] at refused taken
    subst hacc
    exact ⟨fun hv => refused _ (if_neg (by simp [hv])), fun hv => taken s.pst (if_pos hv)⟩
  case word =>
    obtain ⟨refused, taken⟩ := exec_txSubmit_checkSource hf hcmd hst hp hx hq fun i hi => by simp [hsrc] at hi
    rw [hsrc, State.checkSource_word] at refused taken
    subst hacc
    refine ⟨fun hv => refused _ (if_neg (by simp [hv])), fun hv hout => refused _ ?_, fun hv hlow hhigh => taken s.pst ?_⟩
    · rw [if_pos hv, if_neg (by omega)]
    · rw [if_pos hv, if_pos ⟨hlow, hhigh⟩]
  case burst =>
    obtain ⟨refused, taken⟩ := exec_txSubmit_checkSource hf hcmd hst hp hx hq fun i hi => by simp [hsrc] at hi
    rw [hsrc] at refused taken
    subst hacc hd
    exact ⟨fun hs => refused _ (State.checkSource_burst_badHandle (PulseStore.hostHeld_eq_false hs)),
      fun hr hh ht => refused _ (State.checkSource_burst_full (PulseStore.hostHeld_iff.2 ⟨hr, hh⟩) ht),
      fun hr hh ht => taken _ (State.checkSource_burst_added (PulseStore.hostHeld_iff.2 ⟨hr, hh⟩) ht)⟩
  case checks =>
    replace hpay : payload = txPayload r := hpay
    rw [txRequestOfBytes_eq_none_iff_bytes, not_txWordFits_iff, toNat_half, hpay, hcar]
  case spelled =>
    replace hpay : payload = txPayload r := hpay
    obtain ⟨ho, hs, hm, hd, htag, hc, hset, htail, hgap⟩ := txRequestOfBytes_some hx
    obtain ⟨hentry, hword, hburst⟩ := source_of_txSourceOf hs
    obtain ⟨honce, hcount, hhold⟩ := mode_of_repeatModeOf hm
    obtain ⟨hquarter, hthird, hhalf⟩ := duty_of_dutyOf hd
    have hcarrier : x.carrier.toNat = carrier := by rw [hc, toNat_half, hcar]
    have hblank : ∀ c : Channel, x.blankSet.getLsbD c.val = r[18].getLsbD c.val := by simp [hset]
    exact ⟨htag, dite_fin_eq_some_iff.1 ho, hcarrier, htail, hgap, hblank, hentry, hpay ▸ hword, hburst, honce, hcount, hhold,
      hquarter, hthird, hhalf⟩

end Sys2Proof.Machine
end

section
/-! PROFILE_COMMIT and PROFILE_CLEAR at the Symbol Decoder: the stages of the checks and what is written (R50 to R54). -/

namespace Sys2Proof.Machine

/-- A byte that holds a profile's number names the profile (R199). -/
theorem profileOf_eq_some {b : Byte} {p : ProfileNo} (h : b.toNat = p.val) : profileOf b = some p := by
  simp [profileOf, h]

/-! ## The use checks (R53, R54) -/

theorem mem_allChannels : ∀ c : Channel, c ∈ allChannels := by decide

theorem Lcu.names_iff {l : Lcu} {p : ProfileNo} : l.names p = true ↔ l.settings.profileSet.getLsbD p.val = true := Iff.rfl

theorem MatchUnit.namesProfile_iff {m : MatchUnit} {p : ProfileNo} :
    m.namesProfile p = true ↔ ∃ i, (m.entry i).valid = true ∧ (m.entry i).profile = p := by
  simp [MatchUnit.namesProfile]

/-- The three ways in which an entry stands against a new content of its profile (R53). -/
theorem Entry.conflicts_iff {e : Entry} {x : Profile} : e.conflicts x = true ↔
    e.bits < x.minBits ∨ x.maxBits < e.bits ∨ ∃ t, x.toggle = some t ∧ e.careMask.getLsbD t = true := by
  simp only [Entry.conflicts, Bool.or_eq_true, Bool.not_eq_true', Bool.and_eq_false_iff, decide_eq_false_iff_not, Nat.not_le,
    Option.any_eq_true, or_assoc]

/-- A profile is IN_USE for a commit under an enabled channel that names it or a VALID entry that conflicts with it (R53). -/
theorem State.commitInUse_iff {s : State} {p : ProfileNo} {x : Profile} : s.commitInUse p x = true ↔
    (∃ c, (s.lcu c).settings.profileSet.getLsbD p.val = true ∧ (s.lcu c).capture ≠ .disabled)
      ∨ ∃ i, (s.mu.entry i).valid = true ∧ (s.mu.entry i).profile = p
          ∧ ((s.mu.entry i).bits < x.minBits ∨ x.maxBits < (s.mu.entry i).bits
            ∨ ∃ t, x.toggle = some t ∧ (s.mu.entry i).careMask.getLsbD t = true) := by
  simp only [State.commitInUse, Bool.or_eq_true, List.any_eq_true, mem_allChannels, List.mem_finRange, true_and,
    Bool.and_eq_true, Lcu.names_iff, bne_iff_ne, beq_iff_eq, Entry.conflicts_iff, and_assoc]

/-- A profile is IN_USE for a clear under any channel or VALID entry that names it (R54). -/
theorem State.clearInUse_iff {s : State} {p : ProfileNo} : s.clearInUse p = true ↔
    (∃ c, (s.lcu c).settings.profileSet.getLsbD p.val = true)
      ∨ ∃ i, (s.mu.entry i).valid = true ∧ (s.mu.entry i).profile = p := by
  simp only [State.clearInUse, Bool.or_eq_true, List.any_eq_true, mem_allChannels, true_and, Lcu.names_iff,
    MatchUnit.namesProfile_iff]

/-! ## The stages of PROFILE_COMMIT in their order (R50) -/

section Stages

variable {s : State} {p : ProfileNo} {r : Vector Byte 23} {x : Profile}

theorem State.checkProfile_unspelled (hx : profileOfBytes r = none) : s.checkProfile p r = .error .badArg := by
  simp [State.checkProfile, hx]

theorem State.checkProfile_badTiming (hx : profileOfBytes r = some x) (ht : x.timingValid = false) :
    s.checkProfile p r = .error .badTiming := by
  simp [State.checkProfile, hx, ht]

theorem State.checkProfile_inUse (hx : profileOfBytes r = some x) (ht : x.timingValid = true)
    (hu : s.commitInUse p x = true) : s.checkProfile p r = .error .inUse := by
  simp [State.checkProfile, hx, ht, hu]

theorem State.checkProfile_accepted (hx : profileOfBytes r = some x) (ht : x.timingValid = true)
    (hu : s.commitInUse p x = false) : s.checkProfile p r = .ok x := by
  simp [State.checkProfile, hx, ht, hu]

/-- The code table is read for a commit that passes the stages before the use checks (R50, R98). -/
theorem commitReadsEntries_iff : commitReadsEntries r = true ↔ ∃ x, profileOfBytes r = some x ∧ x.timingValid = true :=
  Option.any_eq_true _ _

end Stages

/-! ## The events that take them -/

section Due

variable {s : State} {f : InFlight} {p : ProfileNo} (hf : s.bcu.inFlight = some f) (harg : profileOf f.args.arg0 = some p)
  (hp : Part.sdc ∈ f.parts)
include hf harg hp

/-- A commit that does not read the code table, or reads it while the Match Unit waits for no answer, answers as its checks
end (R50, R98). -/
theorem exec_profileCommit_due {r : Vector Byte 23} (hcmd : f.cmd = some .profileCommit) (hst : f.staging = .profile r)
    (hm : ∀ x, profileOfBytes r = some x → x.timingValid = true → s.mu.awaiting = none) :
    (∀ e, s.checkProfile p r = .error e →
      exec (.profileCommit .take) s = .next (s.answerPart .sdc { error := some e }))
    ∧ ∀ x, s.checkProfile p r = .ok x →
      exec (.profileCommit .take) s = .next ((s.setSdc (s.sdc.setProfile p x)).answerPart .sdc {}) := by
  have hwait : commitReadsEntries r = true → s.mu.awaiting = none := fun hr =>
    have ⟨x, hx, ht⟩ := commitReadsEntries_iff.1 hr
    hm x hx ht
  refine ⟨fun e he => congrArg Host.Outcome.next ?_, fun x hx => congrArg Host.Outcome.next ?_⟩ <;>
    rw [State.takeCommand_owner _ hf hcmd (by simp [argumentsNameParts, harg])]
  · simp [harg, hst, State.ownerPart_due _ hp, State.afterMatchRead_due _ hwait, he]
  · simp [harg, hst, State.ownerPart_due _ hp, State.afterMatchRead_due _ hwait, hx]

/-- A clear answers as its use checks end, while the Match Unit waits for no answer (R54, R98). -/
theorem exec_profileClear_due (hcmd : f.cmd = some .profileClear) (hm : s.mu.awaiting = none) :
    exec (.profileClear .take) s = .next (if s.clearInUse p then s.answerPart .sdc { error := some .inUse }
      else (s.setSdc (s.sdc.setProfile p .cleared)).answerPart .sdc {}) := by
  refine congrArg Host.Outcome.next ?_
  rw [State.takeCommand_owner _ hf hcmd (by simp [argumentsNameParts, harg])]
  simp [harg, State.ownerPart_due _ hp, State.afterMatchRead_due _ fun _ => hm]

end Due

/-- Settles O17, by the stage at which the checks of the commit end and by the use check of the clear. -/
theorem profileCommandsCheckAndWrite : Obligations.ProfileCommandsCheckAndWrite := by
  unfold Obligations.ProfileCommandsCheckAndWrite
  intro s f p hf hbyte hp
  have harg : profileOf f.args.arg0 = some p := profileOf_eq_some hbyte
  refine ⟨fun r hcmd hst => ⟨fun hx => ?unspelled, fun x inUse hx hu => ⟨fun ht => ?badTiming,
    fun ht hm => ?commitInUse, fun ht hm => ?committed⟩⟩,
    fun inUse hcmd hm hu => ⟨fun h => ?clearInUse, fun h => ?cleared⟩⟩
  case unspelled =>
    exact (exec_profileCommit_due hf harg hp hcmd hst (by simp [hx])).1 _ (State.checkProfile_unspelled hx)
  case badTiming =>
    exact (exec_profileCommit_due hf harg hp hcmd hst (by simp [hx, ht])).1 _ (State.checkProfile_badTiming hx ht)
  case commitInUse =>
    intro h
    have used : s.commitInUse p x = true := State.commitInUse_iff.2 (hu.1 h)
    exact (exec_profileCommit_due hf harg hp hcmd hst fun _ _ _ => hm).1 _ (State.checkProfile_inUse hx ht used)
  case committed =>
    intro h
    have unused : s.commitInUse p x = false := Bool.eq_false_iff.2 fun used => h (hu.2 (State.commitInUse_iff.1 used))
    exact (exec_profileCommit_due hf harg hp hcmd hst fun _ _ _ => hm).2 _ (State.checkProfile_accepted hx ht unused)
  case clearInUse =>
    rw [exec_profileClear_due hf harg hp hcmd hm, if_pos (State.clearInUse_iff.2 (hu.1 h))]
  case cleared =>
    rw [exec_profileClear_due hf harg hp hcmd hm, if_neg fun used => h (hu.2 (State.clearInUse_iff.1 used))]

end Sys2Proof.Machine
end

section
/-! The consistency of the profile table, the code table and the channels' profile sets (R4, R53, R54, R81): what each command
that writes one of them checks first, and that no other command writes them. -/

namespace Sys2Proof.Machine

/-! ## An entry under a profile (R81) -/

/-- A VALID entry's agreement with the profile it references (R81). -/
structure Entry.StandsUnder (e : Entry) (x : Profile) : Prop where
  valid : x.valid = true
  minBits : x.minBits ≤ e.bits
  maxBits : e.bits ≤ x.maxBits
  pattern : ∀ n, e.bits ≤ n → e.pattern.getLsbD n = false
  careMask : ∀ n, e.bits ≤ n → e.careMask.getLsbD n = false
  toggle : ∀ t, x.toggle = some t → e.careMask.getLsbD t = false

theorem Entry.standsUnder_iff {e : Entry} {x : Profile} : e.StandsUnder x ↔
    x.valid = true ∧ x.minBits ≤ e.bits ∧ e.bits ≤ x.maxBits ∧ (∀ n, e.bits ≤ n → e.pattern.getLsbD n = false)
      ∧ (∀ n, e.bits ≤ n → e.careMask.getLsbD n = false) ∧ ∀ t, x.toggle = some t → e.careMask.getLsbD t = false :=
  ⟨fun ⟨a, b, c, d, e, f⟩ => ⟨a, b, c, d, e, f⟩, fun ⟨a, b, c, d, e, f⟩ => ⟨a, b, c, d, e, f⟩⟩

theorem State.tablesSound_iff {s : State} : s.tablesSound ↔
    (∀ c p, (s.lcu c).names p = true → (s.sdc.profile p).valid = true)
      ∧ ∀ i, (s.mu.entry i).valid = true → (s.mu.entry i).StandsUnder (s.sdc.profile (s.mu.entry i).profile) := by
  simp only [State.tablesSound, Entry.standsUnder_iff]

/-- An entry that stands under one content of its profile stands under every VALID content that it does not conflict with (R53). -/
theorem Entry.StandsUnder.of_not_conflicts {e : Entry} {x y : Profile} (h : e.StandsUnder x) (hv : y.valid = true)
    (hc : ¬ e.conflicts y = true) : e.StandsUnder y := by
  simp only [Entry.conflicts_iff, not_or, Nat.not_lt, not_exists, not_and, Bool.not_eq_true] at hc
  obtain ⟨hmin, hmax, htoggle⟩ := hc
  exact ⟨hv, hmin, hmax, h.pattern, h.careMask, htoggle⟩

/-! ## One block replaced -/

section Replaced

variable {s t : State}

/-- The consistency depends on the settings and the two tables alone. -/
theorem State.tablesSound_of_same (h : s.tablesSound) (hl : ∀ c, (t.lcu c).settings = (s.lcu c).settings)
    (hd : t.sdc.profiles = s.sdc.profiles) (hm : t.mu.table = s.mu.table) : t.tablesSound := by
  simp only [State.tablesSound, Lcu.names, Decoder.profile, MatchUnit.entry, hl, hd, hm]
  exact h

/-- A unit whose profile set names VALID profiles alone may be put in any place. -/
theorem State.tablesSound_setLcu (h : s.tablesSound) (c : Channel) {l : Lcu}
    (hl : ∀ p, l.names p = true → (s.sdc.profile p).valid = true) : (s.setLcu c l).tablesSound := by
  refine ⟨fun d p hp => ?_, h.2⟩
  rw [State.lcu_setLcu] at hp
  split at hp
  · exact hl p hp
  · exact h.1 d p hp

/-- A profile may take a content that is VALID where a channel names it, and under which its VALID entries stand. -/
theorem State.tablesSound_setProfile (h : s.tablesSound) {p : ProfileNo} {x : Profile}
    (hl : ∀ c, (s.lcu c).names p = true → x.valid = true)
    (he : ∀ i, (s.mu.entry i).valid = true → (s.mu.entry i).profile = p → (s.mu.entry i).StandsUnder x) :
    (s.setSdc (s.sdc.setProfile p x)).tablesSound := by
  obtain ⟨names, entries⟩ := State.tablesSound_iff.1 h
  refine State.tablesSound_iff.2 ⟨fun c q hq => ?_, fun i hi => ?_⟩
  · rw [State.sdc_setSdc, Decoder.profile_setProfile]
    split
    · next hqp => exact hl c (hqp ▸ hq)
    · exact names c q hq
  · rw [State.sdc_setSdc, State.mu_setSdc, Decoder.profile_setProfile]
    split
    · next hip => exact he i hi hip
    · exact entries i hi

/-- A Match Unit may be put in place whose VALID entries stand under their profiles. -/
theorem State.tablesSound_setMu (h : s.tablesSound) {m : MatchUnit}
    (hm : ∀ i, (m.entry i).valid = true → (m.entry i).StandsUnder (s.sdc.profile (m.entry i).profile)) :
    (s.setMu m).tablesSound :=
  State.tablesSound_iff.2 ⟨h.1, hm⟩

/-- A Match Unit with one entry changed to one that is EMPTY, or stands under its profile, may be put in place. -/
theorem State.tablesSound_setMu_of_setEntry (h : s.tablesSound) {i : EntryNo} {e : Entry} {m : MatchUnit}
    (ht : m.table = (s.mu.setEntry i e).table) (he : e.valid = true → e.StandsUnder (s.sdc.profile e.profile)) :
    (s.setMu m).tablesSound := by
  have entry : ∀ j, m.entry j = if j = i then e else s.mu.entry j := fun j => by
    rw [← MatchUnit.entry_setEntry]
    simp only [MatchUnit.entry, ht]
  refine State.tablesSound_setMu h fun j hj => ?_
  rw [entry] at hj ⊢
  by_cases hji : j = i
  · rw [if_pos hji] at hj ⊢
    exact he hj
  · rw [if_neg hji] at hj ⊢
    exact (State.tablesSound_iff.1 h).2 j hj

end Replaced

/-! ## What the checks of the writing commands give -/

/-- Settings that passed the checks name VALID profiles alone (R4). -/
theorem Lcu.checkSettings_none {l : Lcu} {x : Settings} {d : Decoder} (h : l.checkSettings x d.profiles = none) (p : ProfileNo)
    (hp : x.profileSet.getLsbD p.val = true) : (d.profile p).valid = true := by
  have named : profileSetValid d.profiles x.profileSet = true := by
    unfold Lcu.checkSettings at h
    split at h
    · cases h
    · split at h
      · cases h
      · split at h
        · cases h
        · next hn => simpa using hn
  simp only [profileSetValid, List.all_eq_true, List.mem_finRange, true_implies, Bool.or_eq_true, Bool.not_eq_true'] at named
  exact (named p).resolve_left (by simp [hp])

/-- A profile that passed the stages of its commit is VALID and not IN_USE (R50, R53). -/
theorem State.checkProfile_ok {s : State} {p : ProfileNo} {r : Vector Byte 23} {x : Profile} (h : s.checkProfile p r = .ok x) :
    x.valid = true ∧ s.commitInUse p x = false := by
  unfold State.checkProfile at h
  split at h
  · cases h
  · next y hy =>
    split at h
    · cases h
    · split at h <;> cases h
      next hu => exact ⟨profileOfBytes_valid hy, Bool.eq_false_iff.2 hu⟩

/-- A commit that passed its checks changes the one entry of the table, to one that stands under its profile (R83 to R85). -/
theorem MatchUnit.commitEntry_ok {m n : MatchUnit} {i : EntryNo} {x : EntryFields} {d : Decoder} {now : Time}
    (h : m.commitEntry i x d.profiles now = .ok n) :
    ∃ e, n.table = (m.setEntry i e).table ∧ e.StandsUnder (d.profile e.profile) := by
  unfold MatchUnit.commitEntry at h
  split at h
  · cases h
  · next e he =>
    obtain ⟨_, pattern, careMask⟩ := entryOfFields_some he
    simp only at h
    split at h
    · next valid =>
      split at h <;> cases h
      next hb =>
        obtain ⟨minBits, maxBits, toggle⟩ := hb
        refine ⟨e, (KeysOnly.entryChanged none (m.setEntry i e) i now).table,
          valid, minBits, maxBits, pattern, careMask, fun t ht => ?_⟩
        replace ht : d.profiles[e.profile.val].toggle = some t := ht
        simpa [ht] using toggle
    · cases h

/-- The commit of a learn result is the commit of an entry (R141). -/
theorem MatchUnit.commitResult_ok {m n : MatchUnit} {i : EntryNo} {staged : EntryFields} {d : Decoder} {now : Time}
    (h : m.commitResult i staged d.profiles now = .ok n) :
    ∃ e, n.table = (m.setEntry i e).table ∧ e.StandsUnder (d.profile e.profile) := by
  unfold MatchUnit.commitResult at h
  split at h
  · split at h
    · cases h
    · next hc =>
      cases h
      obtain ⟨e, table, stands⟩ := MatchUnit.commitEntry_ok hc
      exact ⟨e, table, stands⟩
  · cases h

/-- A clear of an entry leaves it EMPTY, or leaves the table as it is (R87). -/
theorem MatchUnit.table_clearEntry (m : MatchUnit) (i : EntryNo) (now : Time) :
    (m.clearEntry i now).table = m.table ∨ (m.clearEntry i now).table = (m.setEntry i .cleared).table := by
  unfold MatchUnit.clearEntry
  split
  · exact .inr (KeysOnly.entryChanged none (m.setEntry i .cleared) i now).table
  · exact .inl rfl

/-- A clear of the table leaves every entry EMPTY (R88). -/
theorem MatchUnit.entry_clearTable (m : MatchUnit) (now : Time) (i : EntryNo) : (m.clearTable now).entry i = .cleared := by
  have table : (m.clearTable now).table = Vector.replicate 128 .cleared := (KeysOnly.tableCleared none _ now).table
  simp [MatchUnit.entry, table]

/-! ## The commands -/

/-- The commands that write settings, a profile or an entry. -/
def tableWriters : List Instr :=
  [.pinReset, .channelSet .take, .profileCommit .take, .profileClear .take, .entryCommit .take, .entryClear .take,
    .tableClear .take, .learnCommit .take]

/-- Pin reset leaves no profile named and no entry VALID (R24, R101). -/
theorem State.tablesSound_reset : State.reset.tablesSound := by
  refine State.tablesSound_iff.2 ⟨fun c p hp => ?_, fun i hi => ?_⟩
  · simp [State.reset, State.lcu, Lcu.names, Lcu.reset, Settings.default] at hp
  · simp [State.reset, MatchUnit.reset, MatchUnit.entry, Entry.cleared] at hi

section Writers

variable {s t : State} (h : s.tablesSound)
include h

theorem State.tablesSound_takeCommand {cmd : Cmd} {owner : InFlight → State} (ho : ∀ f, (owner f).tablesSound) :
    (s.takeCommand cmd owner).tablesSound :=
  State.takeCommand_induct (P := State.tablesSound) h (fun _ => h) ho

/-- CHANNEL_SET takes a set of VALID profiles alone (R4). -/
theorem exec_channelSet_keeps_tablesSound (he : exec (.channelSet .take) s = .next t) : t.tablesSound := by
  cases he
  refine State.tablesSound_takeCommand h fun f => State.lcuPart_induct (P := State.tablesSound) h fun c _ => ?_
  split
  · simp only
    split
    · exact h
    · next hx =>
      refine State.tablesSound_setLcu h c fun p hp => Lcu.checkSettings_none hx p ?_
      rwa [Lcu.names_iff, Lcu.settings_applySettings] at hp
  all_goals exact h

/-- PROFILE_COMMIT puts a VALID profile, which no VALID entry of that profile conflicts with (R51, R53). -/
theorem exec_profileCommit_keeps_tablesSound (he : exec (.profileCommit .take) s = .next t) : t.tablesSound := by
  cases he
  refine State.tablesSound_takeCommand h fun f => ?_
  split
  · refine State.ownerPart_induct h (State.afterMatchRead_induct h ?_)
    split
    · exact h
    · next p r _ _ x hx =>
      obtain ⟨valid, unused⟩ := State.checkProfile_ok hx
      refine State.tablesSound_setProfile h (fun _ _ => valid) fun i hi hip => ?_
      refine ((State.tablesSound_iff.1 h).2 i hi).of_not_conflicts valid fun conflict => ?_
      exact Bool.eq_false_iff.1 unused (State.commitInUse_iff.2 (.inr ⟨i, hi, hip, Entry.conflicts_iff.1 conflict⟩))
  · exact h

/-- PROFILE_CLEAR clears a profile that no channel and no VALID entry names (R54). -/
theorem exec_profileClear_keeps_tablesSound (he : exec (.profileClear .take) s = .next t) : t.tablesSound := by
  cases he
  refine State.tablesSound_takeCommand h fun f => ?_
  split
  · refine State.ownerPart_induct h (State.afterMatchRead_induct h ?_)
    split
    · exact h
    · next unused =>
      exact State.tablesSound_setProfile h (fun c hc => absurd (State.clearInUse_iff.2 (.inl ⟨c, hc⟩)) unused)
        fun i hi hip => absurd (State.clearInUse_iff.2 (.inr ⟨i, hi, hip⟩)) unused
  · exact h

/-- The answer to a commit keeps the consistency where an accepted one puts an entry that stands under its profile. -/
theorem State.tablesSound_commitAnswer {i : EntryNo} {x : Except CmdError MatchUnit}
    (hx : ∀ m, x = .ok m → ∃ e, m.table = (s.mu.setEntry i e).table ∧ e.StandsUnder (s.sdc.profile e.profile)) :
    (s.commitAnswer x).tablesSound := by
  cases x with
  | error e => exact h
  | ok m =>
    obtain ⟨e, table, stands⟩ := hx m rfl
    exact State.tablesSound_setMu_of_setEntry h table fun _ => stands

theorem exec_entryCommit_keeps_tablesSound (he : exec (.entryCommit .take) s = .next t) : t.tablesSound := by
  cases he
  refine State.tablesSound_takeCommand h fun f => ?_
  split
  · exact State.matchPart_induct h fun _ => State.tablesSound_commitAnswer h fun _ => MatchUnit.commitEntry_ok
  · exact h

theorem exec_learnCommit_keeps_tablesSound (he : exec (.learnCommit .take) s = .next t) : t.tablesSound := by
  cases he
  refine State.tablesSound_takeCommand h fun f => ?_
  split
  · exact State.matchPart_induct h fun _ => State.tablesSound_commitAnswer h fun _ => MatchUnit.commitResult_ok
  · exact h

theorem exec_entryClear_keeps_tablesSound (he : exec (.entryClear .take) s = .next t) : t.tablesSound := by
  cases he
  refine State.tablesSound_takeCommand h fun f => ?_
  split
  · next i _ =>
    refine State.matchPart_induct h fun _ => ?_
    obtain same | cleared := s.mu.table_clearEntry i s.now
    · exact State.tablesSound_of_same h (fun _ => rfl) rfl same
    · exact State.tablesSound_setMu_of_setEntry h cleared nofun
  · exact h

theorem exec_tableClear_keeps_tablesSound (he : exec (.tableClear .take) s = .next t) : t.tablesSound := by
  cases he
  refine State.tablesSound_takeCommand h fun f => State.matchPart_induct h fun _ => ?_
  refine State.tablesSound_setMu (m := s.mu.clearTable s.now) h fun i hi => ?_
  simp [MatchUnit.entry_clearTable, Entry.cleared] at hi

/-- Every other command leaves the settings and the two tables as they are. -/
theorem exec_keeps_tablesSound_of_not_writer {i : Instr} (hi : i ∉ tableWriters) (he : exec i s = .next t) :
    t.tablesSound := by
  simp only [tableWriters, List.mem_cons, List.not_mem_nil, or_false, not_or] at hi
  obtain ⟨pinReset, channelSet, profileCommit, profileClear, entryCommit, entryClear, tableClear, learnCommit⟩ := hi
  exact State.tablesSound_of_same h (fun c => (exec_linesQuiet pinReset channelSet he c).settings)
    (exec_profiles pinReset profileCommit profileClear he)
    (exec_table pinReset entryCommit learnCommit entryClear tableClear he)

theorem exec_keeps_tablesSound {i : Instr} (he : exec i s = .next t) : t.tablesSound := by
  by_cases hi : i ∈ tableWriters
  · simp only [tableWriters, List.mem_cons, List.not_mem_nil, or_false] at hi
    obtain rfl | rfl | rfl | rfl | rfl | rfl | rfl | rfl := hi
    · cases he
      exact State.tablesSound_reset
    · exact exec_channelSet_keeps_tablesSound h he
    · exact exec_profileCommit_keeps_tablesSound h he
    · exact exec_profileClear_keeps_tablesSound h he
    · exact exec_entryCommit_keeps_tablesSound h he
    · exact exec_entryClear_keeps_tablesSound h he
    · exact exec_tableClear_keeps_tablesSound h he
    · exact exec_learnCommit_keeps_tablesSound h he
  · exact exec_keeps_tablesSound_of_not_writer h hi he

end Writers

/-- Settles O54, by the commands that write settings, a profile or an entry: each checks what it writes against the rest. -/
theorem stepKeepsTheTablesConsistent : Obligations.StepKeepsTheTablesConsistent := by
  unfold Obligations.StepKeepsTheTablesConsistent
  exact fun s t h he => step_keeps (P := State.tablesSound) (fun _ _ hs => hs) (fun _ _ _ hs hx => exec_keeps_tablesSound hs hx)
    h he

end Sys2Proof.Machine
end

section
/-! The lookup of a code word: which entries fit, which of them wins, and what the word that fits none brings (R92 to R95). -/

namespace Sys2Proof.Machine

/-! ## Fitting (R92) -/

/-- Two payloads agree in every bit of a mask exactly where the mask leaves nothing of their difference. -/
theorem masked_xor_eq_zero_iff {x y mask : Payload} :
    (x ^^^ y) &&& mask = 0 ↔ ∀ n, mask.getLsbD n = true → x.getLsbD n = y.getLsbD n := by
  refine ⟨fun h n hn => ?_, fun h => BitVec.eq_of_getLsbD_eq fun n _ => ?_⟩
  · have bit := congrArg (BitVec.getLsbD · n) h
    simpa [hn] using bit
  · cases hn : mask.getLsbD n with
    | false => simp [hn]
    | true => simp [hn, h n hn]

theorem Entry.fits_iff {e : Entry} {w : CodeWord} : e.fits w = true ↔
    e.valid = true ∧ e.profile = w.profile ∧ e.bits = w.bits ∧ e.channels.getLsbD w.channel.val = true
      ∧ ∀ n, e.careMask.getLsbD n = true → w.payload.getLsbD n = e.pattern.getLsbD n := by
  simp only [Entry.fits, Bool.and_eq_true, beq_iff_eq, masked_xor_eq_zero_iff, and_assoc]

/-! ## The entries that fit a word, lowest first (R93) -/

section Fitting

variable {m : MatchUnit} {w : CodeWord} {i : EntryNo}

theorem MatchUnit.mem_fitting : i ∈ m.fitting w ↔ (m.entry i).fits w = true := by
  simp [MatchUnit.fitting]

theorem MatchUnit.pairwise_fitting : (m.fitting w).Pairwise (· < ·) :=
  (List.sortedLT_finRange 128).pairwise.filter _

theorem MatchUnit.fitting_eq_nil (h : ∀ i, (m.entry i).fits w = false) : m.fitting w = [] :=
  List.eq_nil_iff_forall_not_mem.2 fun i hi => Bool.eq_false_iff.1 (h i) (MatchUnit.mem_fitting.1 hi)

/-- The lowest entry that fits is the first; the others follow. -/
theorem MatchUnit.fitting_eq_cons (hi : (m.entry i).fits w = true) (lowest : ∀ j < i, (m.entry j).fits w = false) :
    ∃ others, m.fitting w = i :: others ∧ ∀ j, j ∈ others ↔ j ≠ i ∧ (m.entry j).fits w = true := by
  have mem : i ∈ m.fitting w := MatchUnit.mem_fitting.2 hi
  have sorted : (m.fitting w).Pairwise (· < ·) := MatchUnit.pairwise_fitting
  cases hf : m.fitting w with
  | nil => simp [hf] at mem
  | cons first others =>
    rw [hf] at mem sorted
    obtain ⟨above, -⟩ := List.pairwise_cons.1 sorted
    have fits : ∀ j, (m.entry j).fits w = true ↔ j = first ∨ j ∈ others := fun j => by
      rw [← MatchUnit.mem_fitting, hf, List.mem_cons]
    obtain rfl : i = first := by
      refine (List.mem_cons.1 mem).resolve_right fun hm => ?_
      exact Bool.eq_false_iff.1 (lowest first (above i hm)) ((fits first).2 (.inl rfl))
    refine ⟨others, rfl, fun j => ⟨fun hj => ⟨(above j hj).ne', (fits j).2 (.inr hj)⟩, fun ⟨hne, hj⟩ => ?_⟩⟩
    exact ((fits j).1 hj).resolve_left hne

end Fitting

/-! ## The lookup (R93, R94) -/

section Lookup

variable {m : MatchUnit} {w : CodeWord} {report : Bool} {now deadline : Time}

/-- A word that fits no entry is counted, and reported where the channel asks for it (R94, R95). -/
theorem MatchUnit.lookup_unmatched (h : ∀ i, (m.entry i).fits w = false) : m.lookup w report now deadline =
    { m.setCounter w.channel { m.counter w.channel with unmatched := bump (m.counter w.channel).unmatched } with
      toQueue := if report then m.toQueue.push
          { source := channelByte w.channel, stamp := w.stamp, body := .unknown w.profile w.bits w.payload w.toggle }
        else m.toQueue } := by
  unfold MatchUnit.lookup
  rw [MatchUnit.fitting_eq_nil h]
  cases report <;> rfl

/-- The lowest fitting entry wins; the word is ambiguous where another fits too (R93). -/
theorem MatchUnit.lookup_winner {i : EntryNo} {ambiguous : Bool} (hi : (m.entry i).fits w = true)
    (lowest : ∀ j < i, (m.entry j).fits w = false)
    (ha : ambiguous = true ↔ ∃ j, j ≠ i ∧ (m.entry j).fits w = true) : m.lookup w report now deadline =
    (m.setCounter w.channel
        { m.counter w.channel with
          hits := bump (m.counter w.channel).hits
          ambiguous := if ambiguous then bump (m.counter w.channel).ambiguous
            else (m.counter w.channel).ambiguous }).winningFrame w.channel i
      { kind := .full, toggle := w.toggle, ambiguous := ambiguous, stamp := w.stamp, now := now, deadline := deadline } := by
  obtain ⟨others, hf, mem⟩ := MatchUnit.fitting_eq_cons hi lowest
  have another : (!others.isEmpty) = ambiguous := by
    rw [Bool.eq_iff_iff, ha, Bool.not_eq_true', List.isEmpty_eq_false_iff_exists_mem]
    exact exists_congr mem
  unfold MatchUnit.lookup
  rw [hf, ← another]
  rfl

end Lookup

/-! ## CODE_WORD (R91) -/

/-- A word on a channel that is not diverted is looked up, and the decoder that handed it on is IDLE (R72, R91). -/
theorem exec_codeWord_lookup {s : State} {w : CodeWord} (hw : s.matchMessage = some (.word w))
    (hd : s.mu.divert ≠ some w.channel) (hearly : s.sdc.toMatch.early = 0) :
    exec .codeWord s = .next
      ((s.setMu (s.mu.lookup w (s.lcu w.channel).settings.reportUnknown s.now
          (s.now + BitVec.ofNat 32 ((s.lcu w.channel).settings.holdWindow.toNat * 1000)))).setSdc
        { s.sdc with toMatch := s.sdc.toMatch.pop, state := .idle }) := by
  simp [exec, execCodeWord, hw, hd, Decoder.handedOn, hearly, deadlineOf, msToTime]

/-- Settles O22, by the list of the entries that fit: empty, or headed by the lowest of them. -/
theorem codeWordReachesTheLowestFittingEntry : Obligations.CodeWordReachesTheLowestFittingEntry := by
  unfold Obligations.CodeWordReachesTheLowestFittingEntry
  refine ⟨fun _ _ => Entry.fits_iff, fun s w k hw hd hearly hk => ?_⟩
  subst hk
  rw [exec_codeWord_lookup hw hd hearly]
  refine ⟨fun h => ?unmatched, fun i ambiguous hi lowest ha => ?winner⟩
  case unmatched => rw [MatchUnit.lookup_unmatched h]
  case winner => rw [MatchUnit.lookup_winner hi lowest ha]

end Sys2Proof.Machine
end

section
/-! The refresh of a key record by a frame of its own entry and toggle, or by a repeat notice (R108 to R112, R120). -/

namespace Sys2Proof.Machine

/-! ## A refresh, by the record's state (R109 to R111) -/

section Refresh

variable {m : MatchUnit} {c : Channel} {r : KeyRecord} {f : FrameArrival}

/-- A frame of the record's own entry with its toggle is a refresh (R105). -/
theorem MatchUnit.winningFrame_refresh (hk : m.key c = some r) (ht : r.toggle = f.toggle) :
    m.winningFrame c r.entry f = m.refreshKey c r f := by
  simp only [MatchUnit.winningFrame, hk, if_true, if_pos ht]

theorem MatchUnit.refreshKey_pending (hs : r.state = .pending) : m.refreshKey c r f =
    m.confirm c { r with deadline := f.deadline, confirmations := r.confirmations + 1 } f := by
  simp only [MatchUnit.refreshKey, hs]

/-- One confirmation short of the confirm count, the record stays PENDING (R109). -/
theorem MatchUnit.refreshKey_pending_unconfirmed (hs : r.state = .pending) (hn : r.confirmations + 1 < r.confirm) :
    m.refreshKey c r f =
      m.setKey c (some { r with deadline := f.deadline, confirmations := r.confirmations + 1 }) := by
  rw [MatchUnit.refreshKey_pending hs]
  exact if_neg (Nat.not_le.2 hn)

/-- The frame that brings the confirm count makes the record PRESSED (R109). -/
theorem MatchUnit.refreshKey_pending_confirmed (hs : r.state = .pending) (hn : r.confirm ≤ r.confirmations + 1) :
    m.refreshKey c r f =
      m.reachPressed c { r with deadline := f.deadline, confirmations := r.confirmations + 1 } f := by
  rw [MatchUnit.refreshKey_pending hs]
  exact if_pos hn

/-- The model's condition for a HOLD, in numbers: the count increased, to a multiple of the hold interval, and the PRESS was
admitted (R110). -/
theorem KeyRecord.holdDue_iff :
    (r.repeats ≠ 65535#16 ∧ 0 < r.holdInterval ∧ (bump r.repeats).toNat % r.holdInterval = 0 ∧ r.reported = true) ↔
      r.reported = true ∧ 0 < r.holdInterval ∧ r.repeats.toNat < 65535 ∧ (r.repeats.toNat + 1) % r.holdInterval = 0 := by
  have unsaturated : r.repeats ≠ 65535#16 ↔ r.repeats.toNat < 65535 := by bv_omega
  have increased (h : r.repeats.toNat < 65535) : (bump r.repeats).toNat = r.repeats.toNat + 1 := by
    rw [bump_toNat]
    omega
  rw [unsaturated]
  constructor
  · rintro ⟨below, interval, multiple, reported⟩
    exact ⟨reported, interval, below, increased below ▸ multiple⟩
  · rintro ⟨reported, interval, below, multiple⟩
    exact ⟨below, interval, (increased below).symm ▸ multiple, reported⟩

/-- A PRESSED record counts a repeat, and sends a HOLD where one is due (R110). -/
theorem MatchUnit.refreshKey_pressed {hold : Bool} (hs : r.state = .pressed)
    (hh : hold = true ↔ r.reported = true ∧ 0 < r.holdInterval ∧ r.repeats.toNat < 65535
      ∧ (r.repeats.toNat + 1) % r.holdInterval = 0) :
    m.refreshKey c r f =
      { m.setKey c (some { r with deadline := f.deadline, repeats := bump r.repeats }) with
        toQueue := if hold then m.toQueue.push
            { source := channelByte c, stamp := f.stamp, body := .hold r.entry r.keyId (bump r.repeats) }
          else m.toQueue } := by
  simp only [MatchUnit.refreshKey, hs, KeyRecord.holdDue_iff, ← hh]
  cases hold <;> rfl

/-- A TRACKING record counts a repeat, and sends the KEY of the frame's kind (R111, R112). -/
theorem MatchUnit.refreshKey_tracking (hs : r.state = .tracking) : m.refreshKey c r f =
    (m.setKey c (some { r with deadline := f.deadline, repeats := bump r.repeats })).send
      ({ r with deadline := f.deadline, repeats := bump r.repeats }.keyAppend c f) := by
  simp only [MatchUnit.refreshKey, hs]

/-- Of the frame, a record that is not TRACKING sees the time stamp and the two moments alone. -/
theorem MatchUnit.refreshKey_eq_of_not_tracking {g : FrameArrival} (hs : r.state ≠ .tracking) (hstamp : f.stamp = g.stamp)
    (hnow : f.now = g.now) (hdeadline : f.deadline = g.deadline) : m.refreshKey c r f = m.refreshKey c r g := by
  cases h : r.state with
  | pending =>
    simp only [MatchUnit.refreshKey_pending h, MatchUnit.confirm, MatchUnit.reachPressed, hstamp, hnow, hdeadline]
  | pressed => simp only [MatchUnit.refreshKey, h, hstamp, hdeadline]
  | tracking => exact absurd h hs

end Refresh

/-- Settles O25, by the record's state and, of a PENDING one, by whether the frame brings its confirm count. -/
theorem refreshFollowsTheRecordState : Obligations.RefreshFollowsTheRecordState := by
  unfold Obligations.RefreshFollowsTheRecordState
  intro m c f r d hk hkind ht hd
  subst hd
  rw [MatchUnit.winningFrame_refresh hk ht]
  refine ⟨fun hs hn => ?unconfirmed, fun hs hn x hx => ?confirmed, fun hs hold hh => ?pressed, fun hs => ?tracking⟩
  case unconfirmed => exact MatchUnit.refreshKey_pending_unconfirmed hs hn
  case confirmed =>
    rw [MatchUnit.refreshKey_pending_confirmed hs hn, hx]
    rfl
  case pressed => exact MatchUnit.refreshKey_pressed hs hh
  case tracking =>
    rw [MatchUnit.refreshKey_tracking hs, KeyRecord.keyAppend, hkind]
    rfl

/-! ## A repeat notice (R120) -/

/-- The frame that a repeat notice is to the record it refreshes: of kind REPEAT, without a toggle, and with the deadline of
the channel's hold window (R108, R120). -/
def Notice.arrival (n : Notice) (now deadline : Time) : FrameArrival :=
  { kind := .repeated, toggle := none, ambiguous := false, stamp := n.stamp, now := now, deadline := deadline }

section Notice

variable {m : MatchUnit} {n : Notice} {f : FrameArrival}

/-- A notice whose channel has no record of its profile is counted as an orphan (R120). -/
theorem MatchUnit.takeNotice_orphan
    (h : m.key n.channel = none ∨ ∃ r, m.key n.channel = some r ∧ (m.entry r.entry).profile ≠ n.profile) :
    m.takeNotice n f = m.setCounter n.channel
      { m.counter n.channel with orphanRepeats := bump (m.counter n.channel).orphanRepeats } := by
  obtain hk | ⟨r, hk, hp⟩ := h
  · simp only [MatchUnit.takeNotice, hk, MatchUnit.count]
  · simp only [MatchUnit.takeNotice, hk, if_neg hp, MatchUnit.count]

theorem MatchUnit.takeNotice_refresh {r : KeyRecord} (hk : m.key n.channel = some r)
    (hp : (m.entry r.entry).profile = n.profile) : m.takeNotice n f = m.refreshKey n.channel r f := by
  simp only [MatchUnit.takeNotice, hk, if_pos hp]

/-- While the record is PENDING or PRESSED, the notice counts as a frame of the record's own entry and toggle (R120). -/
theorem MatchUnit.takeNotice_eq_winningFrame {r : KeyRecord} (hk : m.key n.channel = some r)
    (hp : (m.entry r.entry).profile = n.profile) (hs : r.state ≠ .tracking) : m.takeNotice n f =
      m.winningFrame n.channel r.entry { f with kind := .full, toggle := r.toggle, ambiguous := r.ambiguous } := by
  rw [MatchUnit.takeNotice_refresh hk hp, MatchUnit.winningFrame_refresh hk rfl]
  exact MatchUnit.refreshKey_eq_of_not_tracking hs rfl rfl rfl

end Notice

/-! ## REPEAT_NOTICE (R120) -/

section Taken

variable {s : State} {n : Notice} {done : Decoder} (hn : s.matchMessage = some (.notice n))
  (hearly : s.sdc.toMatch.early = 0) (hdone : done = { s.sdc with toMatch := s.sdc.toMatch.pop, state := .idle })
include hn hearly hdone

/-- A notice on a diverted channel reaches no record (R120, R133). -/
theorem exec_repeatNotice_diverted (hd : s.mu.divert = some n.channel) :
    exec .repeatNotice s = .next (s.setSdc done) := by
  simp [exec, execRepeatNotice, hn, hd, Decoder.handedOn, hearly, hdone]

theorem exec_repeatNotice_undiverted {deadline : Time} (hd : s.mu.divert ≠ some n.channel)
    (hdeadline : deadline = s.now + BitVec.ofNat 32 ((s.lcu n.channel).settings.holdWindow.toNat * 1000)) :
    exec .repeatNotice s = .next ((s.setMu (s.mu.takeNotice n (n.arrival s.now deadline))).setSdc done) := by
  simp [exec, execRepeatNotice, hn, hd, Decoder.handedOn, hearly, hdone, hdeadline, Notice.arrival, deadlineOf, msToTime]

end Taken

/-- Settles O27, by the divert flag, then by the record that the notice finds and its state. -/
theorem repeatNoticeRefreshesOrIsAnOrphan : Obligations.RepeatNoticeRefreshesOrIsAnOrphan := by
  unfold Obligations.RepeatNoticeRefreshesOrIsAnOrphan
  intro s n k done deadline hn hearly hk hdone hdeadline
  subst hk
  refine ⟨exec_repeatNotice_diverted hn hearly hdone, fun hd => ?_⟩
  rw [exec_repeatNotice_undiverted hn hearly hdone hd hdeadline]
  refine ⟨fun horphan => ?orphan, fun r hr hp => ?record⟩
  case orphan => rw [MatchUnit.takeNotice_orphan horphan]
  case record =>
    refine ⟨fun hs => ?waiting, fun hs => ?tracking⟩
    case waiting =>
      rw [MatchUnit.takeNotice_eq_winningFrame hr hp hs]
      rfl
    case tracking =>
      rw [MatchUnit.takeNotice_refresh hr hp, MatchUnit.refreshKey_tracking hs]
      rfl

end Sys2Proof.Machine
end

section
/-! Appends at the Event Queue: admission, the OVERRUN and the answer to the sender (R149, R150, R152, R153). -/

namespace Sys2Proof.Machine

/-! ## The senders' mailboxes -/

/-- With no part of a RUN_RESET waiting, nothing stands before an append. -/
theorem State.queuePathOpen_of_resetParts_nil {s : State} (h : s.resetParts = []) (x : Sender) : s.queuePathOpen x = true := by
  cases x with
  | mu => simp [State.queuePathOpen, State.resetBetween, h]
  | lcu _ | sdc | txo _ => rfl

/-- The mailbox that was put in its place is read there. -/
@[simp] theorem State.outbox_setOutbox_self (s : State) (m : Mailbox Append) (x : Sender) : (s.setOutbox m x).outbox x = m := by
  cases x with
  | lcu c => exact congrArg Lcu.toQueue (State.lcu_setLcu_self s c _)
  | txo o => exact congrArg Engine.toQueue (Transmit.engine_setEngine_self s.txe o _)
  | sdc | mu => rfl

/-- An answer stands beside its sender's mailbox. -/
@[simp] theorem State.outbox_deliverAnswer (s : State) (x y : Sender) (early : Nat) (b : EventBody) (ok : Bool) :
    (s.deliverAnswer x early b ok).outbox y = s.outbox y := by
  rcases s.deliverAnswer_cases x early b ok with same | ⟨-, mu⟩ | ⟨-, -, sdc⟩
  · rw [same]
  · rw [mu]
    cases y <;> rfl
  · rw [sdc]
    cases y <;> rfl

theorem Mailbox.pop_eq_of_msgs_cons {α : Type} {m : Mailbox α} {x : α} {rest : List α} (hm : m.msgs = x :: rest)
    (he : m.early = 0) : m.pop = { msgs := rest, early := 0 } := by
  simp [Mailbox.pop, hm, he]

/-! ## The OVERRUN and the judgement, by the occupancy (R150, R152, R153) -/

section Judged

variable {q : EventQueue} {now : Time}

theorem EventQueue.insertOverrun_pending (hp : q.overrunPending = true) (hn : q.records.length < 60) :
    q.insertOverrun now = { q with
      records := q.records ++ [{ seq := q.nextSeq, source := 0, stamp := now, body := .overrun q.lost, admitted := now }]
      nextSeq := q.nextSeq + 1, lost := 0, overrunPending := false } := by
  have due : (q.overrunPending && decide (q.occupancy < Config.generalLimit)) = true :=
    Bool.and_eq_true_iff.2 ⟨hp, decide_eq_true hn⟩
  rw [EventQueue.insertOverrun, if_pos due, EventQueue.place]

theorem EventQueue.insertOverrun_not_due (h : q.overrunPending = false ∨ 60 ≤ q.records.length) : q.insertOverrun now = q := by
  rcases q.insertOverrun_cases now with same | ⟨hp, hn, -⟩
  · exact same
  · have below : q.records.length < 60 := hn
    rcases h with clear | full
    · exact absurd (hp.symm.trans clear) (by decide)
    · omega

/-- A kind's limit, in numbers: 60, and for a RELEASE 64 (R150). -/
theorem lt_admissionLimit_iff {n : Nat} {b : EventBody} : n < admissionLimit b ↔ n < 60 ∨ b.isRelease = true ∧ n < 64 := by
  cases hb : b.isRelease with
  | true =>
    simp only [admissionLimit, hb, if_true, true_and, Config.queueCapacity]
    omega
  | false => simp [admissionLimit, hb, Config.generalLimit]

/-- Below its kind's limit an append is placed at the tail (R150). -/
theorem EventQueue.judge_admitted {a : Append} (h : q.records.length < 60 ∨ a.body.isRelease = true ∧ q.records.length < 64) :
    q.judge a now = (q.place a now, true) :=
  if_pos (lt_admissionLimit_iff.2 h)

/-- The counter's increase stops at 65,535 (00_scope.md, Counters). -/
theorem bump_eq_saturating (c : Half) : bump c = if c = 65535#16 then 65535#16 else c + 1 := by
  unfold bump
  split
  · next h => exact h
  · rfl

/-- At its kind's limit an append is counted as lost (R152). -/
theorem EventQueue.judge_refused {a : Append} (hn : 60 ≤ q.records.length)
    (h : a.body.isRelease = false ∨ 64 ≤ q.records.length) :
    q.judge a now =
      ({ q with lost := if q.lost = 65535#16 then 65535#16 else q.lost + 1, overrunPending := true }, false) := by
  rw [← bump_eq_saturating]
  refine if_neg fun below => ?_
  rcases lt_admissionLimit_iff.1 below with general | ⟨release, reserve⟩
  · exact absurd hn (Nat.not_le.2 general)
  · rcases h with other | full
    · exact absurd (release.symm.trans other) (by decide)
    · exact absurd full (Nat.not_le.2 reserve)

end Judged

/-! ## The answer, by the sender and the kind (R79, R113, R149) -/

section Answered

variable {s : State} {x : Sender} {a : Append} {admitted : Bool}

theorem Append.isPress_iff : a.isPress = true ↔ ∃ entry keyId ambiguous toggle, a.body = .press entry keyId ambiguous toggle := by
  unfold Append.isPress
  cases a.body <;> simp

theorem State.deliverAnswer_press (early : Nat) (hp : a.isPress = true) :
    s.deliverAnswer .mu early a.body admitted = s.setMu { s.mu with answer := some admitted } := by
  obtain ⟨entry, keyId, ambiguous, toggle, hb⟩ := Append.isPress_iff.1 hp
  rw [hb]
  rfl

theorem State.deliverAnswer_undecoded (elements : Nat) (reason : FailReason) (handle : Option Handle) :
    s.deliverAnswer .sdc 0 (.undecoded elements reason handle) admitted =
      s.setSdc { s.sdc with answer := some (if admitted then .admitted else .refused) } := rfl

/-- Neither the Match Unit's PRESS nor the decoder's UNDECODED: no one reads an answer (R149). -/
theorem State.deliverAnswer_unread (early : Nat) (hmu : x ≠ .mu ∨ a.isPress = false)
    (hsdc : x ≠ .sdc ∨ ∀ n r h, a.body ≠ .undecoded n r h) : s.deliverAnswer x early a.body admitted = s := by
  unfold State.deliverAnswer
  split
  · next hb =>
    have press : a.isPress = true := Append.isPress_iff.2 ⟨_, _, _, _, hb⟩
    simp [press] at hmu
  · next n r h hb => exact absurd hb (hsdc.resolve_left (fun ne => ne rfl) n r h)
  · rfl

end Answered

/-! ## The event that takes it -/

/-- The oldest append of a sender whose path is open is taken: it leaves the mailbox, and the queue answers. -/
theorem exec_append_due {s : State} {x : Sender} {a : Append} {rest : List Append} (hm : (s.outbox x).msgs = a :: rest)
    (ho : s.queuePathOpen x = true) :
    exec (.append x) s = .next (((s.setEvq (s.evq.take a s.now).1).setOutbox (s.outbox x).pop x).deliverAnswer x
      (s.outbox x).early a.body (s.evq.take a s.now).2) := by
  simp [exec, execAppend, hm, ho]

/-- Settles O31, by the OVERRUN that is due, the limit of the kind, and the sender that reads the answer. -/
theorem appendIsAdmittedOrCounted : Obligations.AppendIsAdmittedOrCounted := by
  unfold Obligations.AppendIsAdmittedOrCounted
  refine ⟨fun s x hreset => State.queuePathOpen_of_resetParts_nil (State.resetParts_eq_nil hreset) x,
    fun s => ⟨fun _ => rfl, rfl, rfl, fun _ => rfl⟩,
    fun s x a rest q hm ho hoverrun hsame => ⟨⟨_, exec_append_due hm ho, ?queue, ?mailbox⟩, ?judged⟩,
    fun s x a rest admitted hm ho hearly hadmitted => ?answered⟩
  case queue => simp
  case mailbox => simp [Mailbox.pop, hm]
  case judged =>
    have after : q = s.evq.insertOverrun s.now := by
      by_cases due : s.evq.overrunPending = true ∧ s.evq.records.length < 60
      · exact (hoverrun due.1 due.2).trans (EventQueue.insertOverrun_pending due.1 due.2).symm
      · have notDue : s.evq.overrunPending = false ∨ 60 ≤ s.evq.records.length := by
          simpa only [not_and_or, Bool.not_eq_true, Nat.not_lt] using due
        exact (hsame notDue).trans (EventQueue.insertOverrun_not_due notDue).symm
    rw [EventQueue.take, ← after]
    exact ⟨EventQueue.judge_admitted, EventQueue.judge_refused⟩
  case answered =>
    rw [exec_append_due hm ho, ← hadmitted, hearly, Mailbox.pop_eq_of_msgs_cons hm hearly]
    refine ⟨fun hx hp => ?press, fun hx ⟨n, r, h, hb⟩ => ?undecoded, fun hmu hsdc => ?unread⟩
    case press =>
      subst hx
      rw [State.deliverAnswer_press 0 hp]
      rfl
    case undecoded =>
      subst hx
      rw [hb, State.deliverAnswer_undecoded]
      rfl
    case unread => rw [State.deliverAnswer_unread 0 hmu hsdc]

end Sys2Proof.Machine
end

section
/-! The registers of the Event Queue: EVENT_NEXT, the threshold, the age limit and the age condition (R157, R160, R161). -/

namespace Sys2Proof.Machine

/-! ## The queue's operations -/

section Registers

variable {q : EventQueue} {now : Time}

theorem EventQueue.evLevel_iff : q.evLevel = true ↔ q.threshold.toNat ≤ q.records.length :=
  decide_eq_true_iff

/-- EV_AGE is a judgement of the head, where there is one (R161). -/
theorem EventQueue.headAged_eq : q.headAged now =
    q.records.head?.any fun x => q.ageLimit != 0 && decide (q.ageLimit.toNat * 1000 ≤ (now - x.admitted).toNat) := by
  unfold EventQueue.headAged
  cases q.records with
  | nil => rfl
  | cons x rest => rfl

theorem EventQueue.removeHead_nil (h : q.records = []) : q.removeHead now = q := by
  simp only [EventQueue.removeHead, h]

theorem EventQueue.removeHead_cons {x : EventRecord} {rest : List EventRecord} (h : q.records = x :: rest) :
    q.removeHead now = ({ q with records := rest } : EventQueue).rejudgeAge now := by
  simp only [EventQueue.removeHead, h]

/-- A write of the threshold changes the threshold alone, and only to a value from 1 to 64 (R160). -/
theorem EventQueue.writeThreshold_eq (v : Byte) : q.writeThreshold v =
    { q with threshold := if 1 ≤ v.toNat ∧ v.toNat ≤ 64 then v else q.threshold } := by
  unfold EventQueue.writeThreshold Config.queueCapacity
  split <;> rfl

end Registers

/-! ## The events -/

theorem exec_eventNext (s : State) (v : Byte) : exec (.eventNext v) s = .next (s.setEvq (s.evq.removeHead s.now)) := rfl

theorem exec_eventThresholdWrite (s : State) (v : Byte) :
    exec (.eventThresholdWrite v) s = .next (s.setEvq (s.evq.writeThreshold v)) := rfl

theorem exec_eventAgeWrite (s : State) (v : Byte) : exec (.eventAgeWrite v) s = .next (s.setEvq (s.evq.writeAge v s.now)) := rfl

theorem exec_ageEvent_aged {s : State} (h : s.evq.headAged s.now = true) :
    exec .ageEvent s = .next (s.setEvq { s.evq with evAge := true }) :=
  if_pos h

/-- Settles O32, by whether the queue is empty; EV_AGE by the judgement of the head. -/
theorem queueRegistersMoveHeadThresholdAndAge : Obligations.QueueRegistersMoveHeadThresholdAndAge := by
  unfold Obligations.QueueRegistersMoveHeadThresholdAndAge
  refine fun s v => ⟨EventQueue.evLevel_iff, rfl, rfl, rfl, fun h => ?nextEmpty, fun x rest h => ?nextHead, ?threshold, ?age,
    fun x rest h hlimit haged => ?ageEvent⟩
  case nextEmpty =>
    rw [exec_eventNext, EventQueue.removeHead_nil h, State.setEvq_self]
  case nextHead =>
    rw [exec_eventNext, EventQueue.removeHead_cons h, EventQueue.rejudgeAge, EventQueue.headAged_eq]
  case threshold =>
    rw [exec_eventThresholdWrite, EventQueue.writeThreshold_eq]
  case age =>
    rw [exec_eventAgeWrite, EventQueue.writeAge, EventQueue.rejudgeAge, EventQueue.headAged_eq]
  case ageEvent =>
    refine exec_ageEvent_aged ?_
    rw [EventQueue.headAged_eq, h]
    exact Bool.and_eq_true_iff.2 ⟨bne_iff_ne.2 hlimit, decide_eq_true haged⟩

end Sys2Proof.Machine
end

section
/-! TX_STOP and TX_ABORT at the Transmit Engine, by the engine's state: the entry into the tail and the purge of the queue (R182
to R186). -/

namespace Sys2Proof.Machine

/-! ## The entry into the tail, by the blank tail (R182) -/

section Tail

variable {s : State} {o : Output} {e : Engine} {r : TxRequest} (moment : Time) (hr : e.request = some r)
include hr

theorem State.enterTail_lasting (hb : r.blankTail ≠ 0) :
    s.enterTail o e moment = s.setEngine o { e with state := .tail, tailStart := moment, elements := [] } := by
  simp only [State.enterTail, hr, if_neg hb]

theorem State.enterTail_zero (hb : r.blankTail = 0) :
    s.enterTail o e moment = (s.setEngine o { e with state := .tail, tailStart := moment, elements := [] }).endTail o := by
  simp [State.enterTail, hr, hb]

/-- A blank tail of 0 is over as soon as the engine is in TAIL. -/
theorem exec_tailEnd_zero (hs : e.state = .tail) (hb : r.blankTail = 0) :
    exec (.tailEnd o) (s.setEngine o e) = .next ((s.setEngine o e).endTail o) := by
  change execTailEnd o (s.setEngine o e) = _
  simp [execTailEnd, hs, hr, hb]

/-- An event that takes the engine into its tail leaves it there, or, with a blank tail of 0, where TAIL_END leaves it. -/
theorem exec_enterTail {i : Instr} {t : State} {p : Part}
    (hi : exec i t = .next ((s.enterTail o e moment).answerPart p {})) {u : State}
    (hu : u = s.setEngine o { e with state := .tail, tailStart := moment, elements := [] }) :
    (r.blankTail ≠ 0 → exec i t = .next (u.answerPart p {}))
    ∧ (r.blankTail = 0 → ∃ v, exec (.tailEnd o) u = .next v ∧ exec i t = .next (v.answerPart p {})) := by
  subst hu
  refine ⟨fun hb => ?_, fun hb => ⟨_, exec_tailEnd_zero hr rfl hb, ?_⟩⟩
  · rw [hi, State.enterTail_lasting moment hr hb]
  · rw [hi, State.enterTail_zero moment hr hb]

end Tail

/-! ## The stop and the abort, by the engine's state (R183, R184) -/

section Engine

variable {s : State} {o : Output}

theorem State.stopOutput_frame (h : (s.txe.engine o).state = .frame) :
    s.stopOutput o = s.setEngine o { s.txe.engine o with stopRequested := true } := by
  simp [State.stopOutput, h]

theorem State.stopOutput_gap (h : (s.txe.engine o).state = .gap) :
    s.stopOutput o = s.enterTail o (s.txe.engine o) s.now := by
  simp [State.stopOutput, h]

theorem State.stopOutput_ending (h : (s.txe.engine o).state = .tail ∨ (s.txe.engine o).state = .idle) :
    s.stopOutput o = s := by
  rcases h with h | h <;> simp [State.stopOutput, h]

theorem State.abortOutput_sending (h : (s.txe.engine o).state = .frame ∨ (s.txe.engine o).state = .gap) :
    s.abortOutput o = s.enterTail o { s.txe.engine o with endKind := .aborted .host } s.now := by
  rcases h with h | h <;> simp [State.abortOutput, h]

theorem State.abortOutput_ending (h : (s.txe.engine o).state = .tail ∨ (s.txe.engine o).state = .idle) :
    s.abortOutput o = s := by
  rcases h with h | h <;> simp [State.abortOutput, h]

end Engine

/-! ## The purge (R185, R186) -/

/-- An engine with the end records of purged requests behind what it has sent (R185). -/
def Engine.reportPurged (e : Engine) (o : Output) (now : Time) (gone : List TxRequest) : Engine :=
  { e with toQueue := { e.toQueue with
      msgs := e.toQueue.msgs ++ gone.map fun r => endRecord o now r.tag 0 (.aborted .purged) } }

/-- The requests of the output leave the queue; their end records and their hold drops are sent. -/
theorem State.purgeOutput_eq (s : State) (o : Output) :
    s.purgeOutput o = s.setTxe { s.txe.setEngine o ((s.txe.engine o).reportPurged o s.now
        (s.txe.queue.filter fun r => r.output = o)) with
      queue := s.txe.queue.filter fun r => r.output ≠ o
      holdDrops := s.txe.holdDrops ++ (s.txe.queue.filter fun r => r.output = o).filterMap TxRequest.heldBurst } := by
  simp only [State.purgeOutput, Engine.reportPurged, bne, beq_eq_decide, decide_not]

theorem State.engine_purgeOutput (s : State) (o : Output) :
    (s.purgeOutput o).txe.engine o =
      (s.txe.engine o).reportPurged o s.now (s.txe.queue.filter fun r => r.output = o) := by
  rw [State.purgeOutput_eq]
  exact Transmit.engine_setEngine_self _ _ _

/-! ## The events that take them -/

/-- A byte that holds an output's number names the output (R199). -/
theorem outputOf_eq_some {b : Byte} {o : Output} (h : b.toNat = o.val) : outputOf b = some o :=
  dite_fin_eq_some_iff.2 h.symm

section Due

variable {s : State} {f : InFlight} {o : Output} (hf : s.bcu.inFlight = some f) (ho : outputOf f.args.arg0 = some o)
  (hp : Part.txe ∈ f.parts)
include hf ho hp

theorem exec_txStop_due (hcmd : f.cmd = some .txStop) :
    exec (.txStop .take) s = .next ((s.stopOutput o).answerPart .txe {}) := by
  refine congrArg Host.Outcome.next ?_
  rw [State.takeCommand_owner _ hf hcmd (by simp [argumentsNameParts, ho])]
  simp [ho, State.ownerPart_due _ hp]

theorem exec_txAbort_due (hcmd : f.cmd = some .txAbort) (ha : f.args.arg1.toNat ≤ 1) :
    exec (.txAbort .take) s = .next ((s.abortTransmit o (f.args.arg1 == 1)).answerPart .txe {}) := by
  refine congrArg Host.Outcome.next ?_
  rw [State.takeCommand_owner _ hf hcmd (by simp [argumentsNameParts, ho, ha])]
  simp [ho, State.ownerPart_due _ hp]

theorem exec_txAbort_unpurged (hcmd : f.cmd = some .txAbort) (ha : f.args.arg1 = 0) :
    exec (.txAbort .take) s = .next ((s.abortOutput o).answerPart .txe {}) := by
  rw [exec_txAbort_due hf ho hp hcmd (by simp [ha]), ha]
  rfl

theorem exec_txAbort_purged (hcmd : f.cmd = some .txAbort) (ha : f.args.arg1 = 1) :
    exec (.txAbort .take) s = .next (((s.purgeOutput o).abortOutput o).answerPart .txe {}) := by
  rw [exec_txAbort_due hf ho hp hcmd (by simp [ha]), ha]
  rfl

end Due

/-- TX_ABORT's purge argument is one of the two that pass the BCU's check (R199). -/
theorem purge_cases {b : Byte} (h : b.toNat ≤ 1) : b = 0 ∨ b = 1 := by
  bv_omega

/-- Settles O39, by the engine's state; an abort acts on what its purge leaves. -/
theorem stopAndAbortEndTheRequest : Obligations.StopAndAbortEndTheRequest := by
  unfold Obligations.StopAndAbortEndTheRequest
  intro s f o e hf harg hp he
  have ho : outputOf f.args.arg0 = some o := outputOf_eq_some harg
  subst he
  refine ⟨fun hcmd => ?stop, fun gone p v hcmd ha hkept hpurged => ?abort⟩
  case stop =>
    have hx := exec_txStop_due hf ho hp hcmd
    refine ⟨fun hs => ?frame, fun r u hs hr hu => ?gap, fun hs => ?ending⟩
    case frame => rw [hx, State.stopOutput_frame hs]
    case gap =>
      rw [State.stopOutput_gap hs] at hx
      exact exec_enterTail _ hr hx hu
    case ending => rw [hx, State.stopOutput_ending hs]
  case abort =>
    obtain ⟨hx, hpe, hnow, hstate, hrequest⟩ : exec (.txAbort .take) s = .next ((v.abortOutput o).answerPart .txe {})
        ∧ p = v.txe.engine o ∧ v.now = s.now ∧ p.state = (s.txe.engine o).state
        ∧ p.request = (s.txe.engine o).request := by
      rcases purge_cases ha with h0 | h1
      · obtain ⟨rfl, rfl⟩ := hkept h0
        exact ⟨exec_txAbort_unpurged hf ho hp hcmd h0, rfl, rfl, rfl, rfl⟩
      · obtain ⟨rfl, rfl, hv⟩ := hpurged h1
        have hvp : v = s.purgeOutput o := hv.trans (s.purgeOutput_eq o).symm
        subst hvp
        exact ⟨exec_txAbort_purged hf ho hp hcmd h1, (s.engine_purgeOutput o).symm, rfl, rfl, rfl⟩
    rw [← hstate, ← hrequest]
    subst hpe
    refine ⟨fun r u hs hr hu => ?sending, fun hs => ?ending⟩
    case sending =>
      rw [State.abortOutput_sending hs, hnow] at hx
      exact exec_enterTail (e := { v.txe.engine o with endKind := .aborted .host }) _ hr hx hu
    case ending => rw [hx, State.abortOutput_ending hs]

end Sys2Proof.Machine
end

section
/-! What the registers of the window read: the status bytes by their fields, the counts, the stored bytes and the addresses that
hold none (R191, R197). -/

namespace Sys2Proof.Machine

/-! ## The bytes and the codes in them -/

theorem toNat_natByte_of_lt {n : Nat} (h : n < 256) : (natByte n).toNat = n := Nat.mod_eq_of_lt h

/-- A flag at a bit of weight `n`. -/
theorem mul_boolToNat (n : Nat) (b : Bool) : n * b.toNat = if b then n else 0 := by
  cases b with
  | false => rfl
  | true => exact Nat.mul_one n

/-- A byte of three flags from bit 0 up, as IRQ_ENABLE and EVENT_STATUS hold them (R159, R204). -/
theorem toNat_natByte_threeFlags (a b c : Bool) : (natByte (a.toNat + 2 * b.toNat + 4 * c.toNat)).toNat =
    (if a then 1 else 0) + (if b then 2 else 0) + (if c then 4 else 0) := by
  have ha := a.toNat_lt
  have hb := b.toNat_lt
  have hc := c.toNat_lt
  rw [toNat_natByte_of_lt (by omega), mul_boolToNat, mul_boolToNat, ← mul_boolToNat 1 a, Nat.one_mul]

theorem CaptureState.code_lt (x : CaptureState) : x.code < 8 := by cases x <;> decide

theorem EngineState.code_lt (x : EngineState) : x.code < 4 := by cases x <;> decide

theorem CmdState.code_lt (x : CmdState) : x.code < 4 := by cases x <;> decide

/-! ## The status bytes, by their fields (R197) -/

theorem Lcu.isActive_iff (l : Lcu) : l.isActive = true ↔
    l.settings.polarity = .activeLow ∧ l.level = false ∨ l.settings.polarity = .activeHigh ∧ l.level = true := by
  unfold Lcu.isActive
  cases l.settings.polarity with
  | activeLow => simp
  | activeHigh => simp

/-- With at most two claims on the channel the blank count fits its two bits, so the fields do not run into one another. -/
theorem Lcu.statusByte_fields {l : Lcu} (h : l.blankCount ≤ 2) :
    l.statusByte.toNat % 8 = l.capture.code ∧ l.statusByte.toNat / 8 % 4 = l.blankCount
      ∧ l.statusByte.toNat / 32 = if l.isActive then 1 else 0 := by
  have hc := l.capture.code_lt
  have ha := l.isActive.toNat_lt
  rw [Lcu.statusByte, toNat_natByte_of_lt (by omega), ← mul_boolToNat 1]
  omega

theorem Transmit.statusByte_field (t : Transmit) (o : Output) :
    t.statusByte.toNat / 4 ^ o.val % 4 = (t.engine o).state.code := by
  have h0 := (t.engine 0).state.code_lt
  have h1 := (t.engine 1).state.code_lt
  rw [Transmit.statusByte, toNat_natByte_of_lt (by omega)]
  match o with
  | 0 => simp; omega
  | 1 => simp; omega

theorem Bcu.toNat_statusByte (b : Bcu) : b.statusByte.toNat =
    b.cmdState.code + (if b.collision then 4 else 0) + (if b.cmdDone then 8 else 0) := by
  have hs := b.cmdState.code_lt
  have hc := b.collision.toNat_lt
  have hd := b.cmdDone.toNat_lt
  rw [Bcu.statusByte, toNat_natByte_of_lt (by omega), mul_boolToNat, mul_boolToNat]

theorem EventQueue.toNat_statusByte (q : EventQueue) : q.statusByte.toNat =
    (if q.threshold.toNat ≤ q.records.length then 1 else 0) + (if q.evAge then 2 else 0)
      + (if q.overrunPending then 4 else 0) := by
  simp only [EventQueue.statusByte, toNat_natByte_threeFlags, EventQueue.evLevel_iff]

/-! ## FREE_DESC (R45) -/

theorem PulseStore.freeDescriptors_eq_card (p : PulseStore) :
    p.freeDescriptors = (Finset.univ.filter fun h : Handle => (p.descriptor h).state = .free).card := by
  simp only [PulseStore.freeDescriptors, beq_eq_decide]
  rfl

/-- There are sixteen descriptors, so their number fits the byte. -/
theorem PulseStore.toNat_freeDescriptors (p : PulseStore) : (natByte p.freeDescriptors).toNat =
    (Finset.univ.filter fun h : Handle => (p.descriptor h).state = .free).card := by
  rw [p.freeDescriptors_eq_card]
  exact toNat_natByte_of_lt ((Finset.card_le_univ _).trans_lt (by decide))

/-! ## The register map (R191) -/

theorem State.readRegister_chanStatus (s : State) (c : Channel) :
    s.readRegister (0x28#6 + BitVec.ofNat 6 c.val) = (s.lcu c).statusByte := by
  fin_cases c <;> rfl

/-- Two addresses below the event window and all above WIN_DATA stand in no row of the map. -/
theorem State.readRegister_unmapped (s : State) {a : BitVec 6}
    (h : a.toNat = 0x0E ∨ a.toNat = 0x0F ∨ 0x36 ≤ a.toNat) : s.readRegister a = 0 := by
  have hlt := a.isLt
  unfold State.readRegister
  generalize a.toNat = n at h hlt
  rcases h with rfl | rfl | h
  · rfl
  · rfl
  · interval_cases n <;> rfl

/-- Settles O49, register by register. -/
theorem registerReadsShowTheState : Obligations.RegisterReadsShowTheState := by
  unfold Obligations.RegisterReadsShowTheState
  refine ⟨Lcu.isActive_iff, fun s => ⟨?stored, fun c x hx hcount => ?channel, ?learn, fun o => ?engines, ?command, ?queue,
    rfl, rfl, rfl, s.pst.toNat_freeDescriptors, fun a => s.readRegister_unmapped⟩⟩
  case stored =>
    exact ⟨rfl, rfl, rfl, rfl, rfl, rfl, rfl, toNat_natByte_threeFlags _ _ _, rfl, rfl,
      toNat_natByte_of_lt (Nat.mod_lt _ (by decide)), rfl⟩
  case channel =>
    rw [hx, s.readRegister_chanStatus c]
    exact Lcu.statusByte_fields hcount
  case learn => rfl
  case engines => exact s.txe.statusByte_field o
  case command => exact s.bcu.toNat_statusByte
  case queue => exact s.evq.toNat_statusByte

end Sys2Proof.Machine
end

section
/-! Every step keeps the event queue (R148, R152, R155, R160, R161). -/

namespace Sys2Proof.Machine

/-- The commands that write the Event Queue: the resets, the writes of its registers, the age condition and the appends. -/
theorem exec_keeps_evqSound {i : Instr} {s t : State} (h : s.evq.sound) (he : exec i s = .next t) : t.evq.sound := by
  by_cases hb : Block.evq ∈ writes i
  swap
  · rwa [(exec_frame he).evq hb]
  cases i with
  | pinReset => cases he; exact EventQueue.sound_reset
  | eventThresholdWrite v => cases he; exact EventQueue.sound_writeThreshold h v
  | eventAgeWrite v => cases he; exact EventQueue.sound_writeAge h v _
  | eventNext v => cases he; exact EventQueue.sound_removeHead h _
  | ageEvent =>
    simp only [exec, execAgeEvent] at he
    split at he <;> cases he
    · next aged => exact EventQueue.sound_ageEvent h aged
    · exact h
  | registerWrite a v =>
    simp only [exec, execRegisterWrite] at he
    split at he <;> cases he
    case h_4 => exact EventQueue.sound_writeThreshold h v
    case h_5 => exact EventQueue.sound_writeAge h v _
    case h_6 => exact EventQueue.sound_removeHead h _
    all_goals exact h
  | runResetEvq =>
    simp only [exec, execRunResetEvq] at he
    split at he <;> cases he
    · exact EventQueue.sound_runReset h
    · exact h
  | append x =>
    simp only [exec, execAppend] at he
    split at he
    · cases he; exact h
    · next a _ _ =>
      split at he <;> cases he
      · rw [State.evq_deliverAnswer, State.evq_setOutbox]
        exact EventQueue.sound_take h a _
      · exact h
  | countersClear p => cases p <;> simp [writes, lineBlocks] at hb
  | channelSet p | channelGet p | channelEnable p | channelDisable p | channelFlush p | profileCommit p
  | profileRead p | profileClear p | entryCommit p | entryRead p | entryClear p | tableClear p | burstRelease p | learnStart p
  | learnAbort p | learnCommit p | learnDiscard p | txSubmit p | txStop p | txAbort p =>
    cases p <;> simp [writes, commandBlocks, lineBlocks] at hb
  | _ => simp [writes, lineBlocks] at hb

/-- Settles O52, by the commands that write the queue. -/
theorem stepKeepsTheEventQueue : Obligations.StepKeepsTheEventQueue := by
  unfold Obligations.StepKeepsTheEventQueue
  exact fun s t h he => step_keeps (P := fun s => s.evq.sound) (fun _ _ hs => hs)
    (fun _ _ _ hs hx => exec_keeps_evqSound hs hx) h he

end Sys2Proof.Machine
end

section
/-! What a command can do to the command unit, and the soundness of the Time Base, the Transmit Engine and the command unit
(R1, R167, R170, R193, R198, R203). -/

namespace Sys2Proof.Machine

/-! ## A command that is taken -/

/-- A command that is taken is the one in flight: the BCU's check completes it, or its owner acts. -/
theorem State.takeCommand_inFlight (s : State) (cmd : Cmd) (owner : InFlight → State) :
    s.takeCommand cmd owner = s ∨ ∃ f, s.bcu.inFlight = some f ∧ f.cmd = some cmd
      ∧ ((∃ e, s.takeCommand cmd owner = s.setBcu (s.bcu.complete (some e) 0 .absent)) ∨ s.takeCommand cmd owner = owner f) := by
  unfold State.takeCommand State.inFlightAs
  cases hf : s.bcu.inFlight with
  | none => exact .inl rfl
  | some f =>
    by_cases hc : f.cmd = some cmd
    · refine .inr ⟨f, rfl, hc, ?_⟩
      cases hr : f.refusal with
      | none => simp [Option.filter, hc, hr]
      | some e => exact .inl ⟨e, by simp [Option.filter, hc, hr]⟩
    · simp [Option.filter, hc]

/-! ## The moves of the command unit -/

/-- No part of a RUN_RESET waits. -/
def Bcu.NoResetPart (b : Bcu) : Prop := ∀ f, b.inFlight = some f → f.cmd = some .runReset → f.parts = []

theorem Bcu.noResetPart_of_cmd {b : Bcu} {f : InFlight} (hf : b.inFlight = some f) (hc : f.cmd ≠ some .runReset) :
    b.NoResetPart := fun g hg isReset => by
  obtain rfl : f = g := Option.some.inj (hf.symm.trans hg)
  exact absurd isReset hc

theorem State.resetParts_of_noResetPart {s : State} (h : s.bcu.NoResetPart) : s.resetParts = [] :=
  State.resetParts_eq_nil h

/-- The part is not one of those that RUN_RESET has at the store and at the Line Capture Units. -/
def Part.Elsewhere (p : Part) : Prop := p ≠ .pst ∧ ∀ c, p ≠ .lcu c

/-- Everything that a command can make of the command unit, but for PIN_RESET and the parts of RUN_RESET at the store and at the
Line Capture Units. -/
inductive Bcu.Moves (b : Bcu) : Bcu → Prop
  | same : b.Moves b
  | answer (p : Part) (a : PartAnswer) (h : b.NoResetPart ∨ p.Elsewhere) : b.Moves (b.answerPart p a)
  | opcode (v : Byte) : b.Moves (b.writeOpcode v)
  | complete (e : Option CmdError) (r : Byte) (c : StagingRecord) (h : b.NoResetPart) : b.Moves (b.complete e r c)
  | status (v : Byte) : b.Moves (b.writeStatus v)
  | enable (v : Byte) : b.Moves (b.writeEnable v)
  | latch (time : Time) (data : Byte) : b.Moves { b with timeLatch := time, dataOut := data }
  | space (v : Byte) : b.Moves (b.writeSpace v)
  | index (v : Byte) : b.Moves (b.writeIndex v)
  | offset (high : Bool) (v : Byte) : b.Moves (b.writeOffset high v)
  | dataRead (data : Byte) (captured : Half) : b.Moves { b.advance with dataOut := data, counterCapture := captured }
  | dataWrite (v : Byte) : b.Moves (b.stageByte v).advance
  | arg (a : BitVec 6) (v : Byte) : b.Moves (b.writeArg a v)

namespace Bcu.Moves

/-- A part of another command than RUN_RESET, answered on a machine with the same command unit. -/
theorem answered {s t : State} (hn : s.bcu.NoResetPart) (h : t.bcu = s.bcu) (p : Part) (a : PartAnswer) :
    s.bcu.Moves (t.answerPart p a).bcu := by
  rw [State.bcu_answerPart, h]
  exact .answer p a (.inl hn)

/-- A part that neither the store nor a Line Capture Unit answers. -/
theorem answeredElsewhere {s t : State} (h : t.bcu = s.bcu) {p : Part} (hp : p.Elsewhere) (a : PartAnswer) :
    s.bcu.Moves (t.answerPart p a).bcu := by
  rw [State.bcu_answerPart, h]
  exact .answer p a (.inr hp)

theorem commitAnswer {s : State} (hn : s.bcu.NoResetPart) (x : Except CmdError MatchUnit) :
    s.bcu.Moves (s.commitAnswer x).bcu := by
  cases x with
  | error e => exact answered hn rfl _ _
  | ok m => exact answered hn rfl _ _

/-- A command but RUN_RESET that is taken: the BCU's check completes it, or its owner acts, or it is not due. -/
theorem takeCommand {s : State} {cmd : Cmd} {owner : InFlight → State} (hc : cmd ≠ .runReset)
    (ho : ∀ f, s.bcu.NoResetPart → s.bcu.Moves (owner f).bcu) : s.bcu.Moves (s.takeCommand cmd owner).bcu := by
  obtain same | ⟨f, flies, isCmd, outcome⟩ := s.takeCommand_inFlight cmd owner
  · rw [same]; exact .same
  · have hn : s.bcu.NoResetPart := Bcu.noResetPart_of_cmd flies (by simp [isCmd, hc])
    obtain ⟨e, refused⟩ | taken := outcome
    · rw [refused, State.bcu_setBcu]; exact .complete _ _ _ hn
    · rw [taken]; exact ho f hn

section Parts

variable {s : State} {f : InFlight}

theorem lcuPart {act : Channel → Lcu → State} (ha : ∀ c l, s.bcu.Moves (act c l).bcu) :
    s.bcu.Moves (s.lcuPart f act).bcu :=
  State.lcuPart_induct (P := fun t => s.bcu.Moves t.bcu) .same fun c _ => ha c _

theorem ownerPart {p : Part} {act : State} (ha : s.bcu.Moves act.bcu) : s.bcu.Moves (s.ownerPart f p act).bcu :=
  State.ownerPart_induct (P := fun t => s.bcu.Moves t.bcu) .same ha

theorem matchPart {act : State} (ha : s.bcu.Moves act.bcu) : s.bcu.Moves (s.matchPart f act).bcu :=
  State.matchPart_induct (P := fun t => s.bcu.Moves t.bcu) .same fun _ => ha

theorem afterMatchRead {reads : Bool} {act : State} (ha : s.bcu.Moves act.bcu) :
    s.bcu.Moves (s.afterMatchRead reads act).bcu :=
  State.afterMatchRead_induct (P := fun t => s.bcu.Moves t.bcu) .same ha

end Parts

end Bcu.Moves

/-- The commands of the window at their owners (R200), but for the parts of RUN_RESET and of a flush or disable behind the LCU. -/
def ownerCommands : List Instr :=
  [.channelSet .take, .channelGet .take, .channelEnable .take, .channelDisable .take, .channelFlush .take,
    .countersClear .lcu, .countersClear .sdc, .countersClear .mu, .profileCommit .take, .profileRead .take,
    .profileClear .take, .entryCommit .take, .entryRead .take, .entryClear .take, .tableClear .take, .burstRelease .take,
    .learnStart .take, .learnAbort .take, .learnCommit .take, .learnDiscard .take, .txSubmit .take, .txStop .take,
    .txAbort .take]

/-- The BCU's check completes such a command, or its owner answers a part, or it is not due. -/
theorem exec_ownerCommand_bcuMoves {s t : State} : ∀ i ∈ ownerCommands, exec i s = .next t → s.bcu.Moves t.bcu := by
  open Bcu.Moves in
  simp only [ownerCommands, List.forall_mem_cons, List.not_mem_nil, false_imp_iff, implies_true, and_true]
  refine ⟨?channelSet, ?channelGet, ?channelEnable, ?channelDisable, ?channelFlush, ?clearLcu, ?clearSdc, ?clearMu,
    ?profileCommit, ?profileRead, ?profileClear, ?entryCommit, ?entryRead, ?entryClear, ?tableClear, ?burstRelease,
    ?learnStart, ?learnAbort, ?learnCommit, ?learnDiscard, ?txSubmit, ?txStop, ?txAbort⟩ <;> rintro ⟨⟩ <;>
    refine takeCommand (by simp) fun f hn => ?_
  case channelSet =>
    refine lcuPart fun c l => ?_
    split
    · simp only
      split
      · exact answered hn rfl _ _
      · exact answered hn rfl _ _
    all_goals exact .same
  case channelGet | channelEnable | channelDisable | channelFlush | clearLcu => exact lcuPart fun c l => answered hn rfl _ _
  case clearSdc | clearMu =>
    split
    · exact .same
    · split
      · exact answered hn rfl _ _
      · exact .same
  case profileCommit =>
    split
    · refine ownerPart (afterMatchRead ?_)
      split
      · exact answered hn rfl _ _
      · exact answered hn rfl _ _
    · exact .same
  case profileRead =>
    split
    · exact ownerPart (answered hn rfl _ _)
    · exact .same
  case profileClear =>
    split
    · refine ownerPart (afterMatchRead ?_)
      split
      · exact answered hn rfl _ _
      · exact answered hn rfl _ _
    · exact .same
  case entryCommit | learnCommit =>
    split
    · exact matchPart (commitAnswer hn _)
    · exact .same
  case entryRead | entryClear =>
    split
    · exact matchPart (answered hn rfl _ _)
    · exact .same
  case tableClear => exact matchPart (answered hn rfl _ _)
  case burstRelease =>
    split
    · refine ownerPart ?_
      split
      · exact answered hn rfl _ _
      · exact answered hn rfl _ _
    · exact .same
  case learnStart =>
    split
    · refine matchPart ?_
      split
      · exact answered hn rfl _ _
      · exact answered hn rfl _ _
    · exact .same
  case learnAbort | learnDiscard =>
    refine matchPart ?_
    split
    · exact answered hn rfl _ _
    · exact answered hn rfl _ _
  case txSubmit =>
    split
    · refine ownerPart (afterMatchRead ?_)
      split
      · exact answered hn rfl _ _
      · next e => exact answered hn (State.submit_bcu e) _ _
    all_goals exact .same
  case txStop =>
    split
    · exact ownerPart (answered hn (State.bcu_stopOutput _ _) _ _)
    · exact .same
  case txAbort =>
    split
    · exact ownerPart (answered hn (State.bcu_abortTransmit _ _ _) _ _)
    · exact .same

/-- Every command but three makes one move of the command unit, if any. -/
theorem exec_bcuMoves {i : Instr} {s t : State} (hp : i ≠ .pinReset) (hl : ∀ c, i ≠ .runResetLcu c) (hs : i ≠ .runResetPst)
    (he : exec i s = .next t) : s.bcu.Moves t.bcu := by
  by_cases hb : Block.bcu ∈ writes i
  swap
  · rw [(exec_frame he).bcu hb]; exact .same
  cases i with
  | pinReset => exact absurd rfl hp
  | runResetLcu c => exact absurd rfl (hl c)
  | runResetPst => exact absurd rfl hs
  | channelPurge c =>
    simp only [exec, execChannelPurge] at he
    split at he <;> cases he
    · exact .answeredElsewhere (State.bcu_storeTook _ _ _ _) (by simp [Part.Elsewhere]) _
    · exact .same
  | muChannelPart =>
    simp only [exec, execMuChannelPart] at he
    split at he
    · cases he; exact .same
    · split at he
      · cases he; exact .same
      · split at he
        · split at he <;> cases he
          · exact .answeredElsewhere rfl (by simp [Part.Elsewhere]) _
          · exact .answeredElsewhere rfl (by simp [Part.Elsewhere]) _
          · exact .same
        · cases he; exact .same
  | runReset => cases he; exact .opcode _
  | runResetTxe | runResetSdc | runResetMu | runResetEvq =>
    simp only [exec, execRunResetTxe, execRunResetSdc, execRunResetMu, execRunResetEvq] at he
    split at he <;> cases he
    · exact .answeredElsewhere rfl (by simp [Part.Elsewhere]) _
    · exact .same
  | undefinedOpcode p =>
    cases p with
    | write v => cases he; exact .opcode v
    | check =>
      simp only [exec, execUndefinedOpcode] at he
      split at he
      · cases he; exact .same
      · next f flies =>
        split at he <;> cases he
        · next undefined =>
          rw [State.bcu_setBcu]
          exact .complete _ _ _ (Bcu.noResetPart_of_cmd flies (by simp [undefined]))
        · exact .same
  | commandCompletion =>
    simp only [exec, execCommandCompletion] at he
    split at he
    · cases he; exact .same
    · next f flies =>
      split at he <;> cases he
      · next due =>
        rw [State.bcu_setBcu]
        refine .complete _ _ _ fun g hg _ => ?_
        obtain rfl : f = g := Option.some.inj (flies.symm.trans hg)
        exact due.2
      · exact .same
  | cmdDoneClear v => cases he; exact .status v
  | irqEnableWrite v => cases he; exact .enable v
  | timeLatchRead => cases he; exact .latch _ _
  | winSpaceWrite v => cases he; exact .space v
  | winIndexWrite v => cases he; exact .index v
  | winOffsetWrite high v => cases he; exact .offset high v
  | winDataRead => cases he; exact .dataRead _ _
  | winDataWrite v => cases he; exact .dataWrite v
  | registerWrite a v =>
    simp only [exec, execRegisterWrite] at he
    split at he <;> cases he
    case h_1 => exact .opcode v
    case h_2 => exact .status v
    case h_3 => exact .enable v
    case h_7 => exact .space v
    case h_8 => exact .index v
    case h_9 => exact .offset false v
    case h_10 => exact .offset true v
    case h_11 => exact .dataWrite v
    case h_12 => exact .arg a v
    all_goals exact .same
  | countersClear p =>
    cases p with
    | write => cases he; exact .opcode _
    | _ => exact exec_ownerCommand_bcuMoves _ (by simp [ownerCommands]) he
  | channelSet p | channelGet p | channelEnable p | channelDisable p | channelFlush p | profileCommit p
  | profileRead p | profileClear p | entryCommit p | entryRead p | entryClear p | tableClear p | burstRelease p | learnStart p
  | learnAbort p | learnCommit p | learnDiscard p | txSubmit p | txStop p | txAbort p =>
    cases p with
    | write => cases he; exact .opcode _
    | take => exact exec_ownerCommand_bcuMoves _ (by simp [ownerCommands]) he
  | append x => cases x <;> simp [writes, senderBlock] at hb
  | _ => simp [writes, lineBlocks] at hb

theorem Bcu.Moves.sound {b c : Bcu} (m : b.Moves c) (h : b.sound) : c.sound := by
  cases m with
  | same => exact h
  | answer p a => exact Bcu.sound_answerPart h p a
  | opcode v => exact Bcu.sound_writeOpcode h v
  | complete e r c => exact Bcu.sound_complete h e r c
  | status v => exact Bcu.sound_writeStatus h v
  | enable v => exact h
  | latch => exact h
  | space v => exact Bcu.sound_writeSpace h v
  | index v => exact Bcu.sound_writeIndex h v
  | offset high v => exact Bcu.sound_writeOffset h high v
  | dataRead => exact Bcu.sound_advance h
  | dataWrite v => exact Bcu.sound_advance (Bcu.sound_stageByte h v)
  | arg a v => exact Bcu.sound_writeArg h a v

theorem exec_keeps_bcuSound {i : Instr} {s t : State} (h : s.bcu.sound) (he : exec i s = .next t) : t.bcu.sound := by
  by_cases hp : i = .pinReset
  · subst hp; cases he; exact Bcu.sound_reset
  by_cases hs : i = .runResetPst
  · subst hs
    simp only [exec, execRunResetPst] at he
    split at he <;> cases he
    · exact Bcu.sound_answerPart h _ _
    · exact h
  by_cases hl : ∃ c, i = .runResetLcu c
  · obtain ⟨c, rfl⟩ := hl
    simp only [exec, execRunResetLcu] at he
    split at he <;> cases he
    · exact Bcu.sound_answerPart h _ _
    · exact h
  · exact (exec_bcuMoves hp (fun c hc => hl ⟨c, hc⟩) hs he).sound h

/-! ## The Time Base -/

theorem TimeBase.sound_tick {t : TimeBase} (h : t.sound) : t.tick.sound := by
  unfold TimeBase.sound TimeBase.tick at *
  simp only [decide_eq_true_eq]
  split <;> omega

theorem exec_keeps_tbSound {i : Instr} {s t : State} (h : s.tb.sound) (he : exec i s = .next t) : t.tb.sound := by
  by_cases hb : Block.tb ∈ writes i
  swap
  · rwa [(exec_frame he).tb hb]
  cases i with
  | pinReset => cases he; exact (by decide : 0 < 1000)
  | microsecondTick lines => cases he; exact TimeBase.sound_tick h
  | millisecondTick =>
    simp only [exec, execMillisecondTick] at he
    split at he <;> cases he <;> exact h
  | append x => cases x <;> simp [writes, senderBlock] at hb
  | countersClear p => cases p <;> simp [writes, lineBlocks] at hb
  | channelSet p | channelGet p | channelEnable p | channelDisable p | channelFlush p | profileCommit p
  | profileRead p | profileClear p | entryCommit p | entryRead p | entryClear p | tableClear p | burstRelease p | learnStart p
  | learnAbort p | learnCommit p | learnDiscard p | txSubmit p | txStop p | txAbort p =>
    cases p <;> simp [writes, commandBlocks, lineBlocks] at hb
  | _ => simp [writes, lineBlocks] at hb

/-! ## The Transmit Engine -/

/-- RUN_RESET leaves both engines IDLE without a request (R189). -/
theorem Transmit.sound_runReset (t : Transmit) :
    ({ t with engines := t.engines.map Engine.runReset, queue := [] } : Transmit).sound := by
  refine ⟨Nat.zero_le _, fun o => ?_⟩
  have engine : ({ t with engines := t.engines.map Engine.runReset, queue := [] } : Transmit).engine o
      = (t.engine o).runReset := by simp [Transmit.engine]
  rw [engine]
  exact ⟨Iff.intro (fun _ => rfl) (fun _ => rfl), nofun⟩

/-- An accepted submission found a place in the queue (R168). -/
theorem State.sound_submit {s t : State} {r : Vector Byte 21} {tag : Byte} (h : s.txe.sound)
    (hs : s.submit r = .ok (t, tag)) : t.txe.sound := by
  obtain ⟨x, p, -, -, place, -, rfl⟩ := State.submit_ok hs
  refine ⟨?_, h.2⟩
  simpa [Config.transmitQueueCapacity] using place

/-- A message that the Event Queue takes leaves the engines their requests. -/
theorem State.sound_txe_append {s : State} (h : s.txe.sound) (x : Sender) (q : EventQueue) (early : Nat) (b : EventBody)
    (ok : Bool) : (((s.setEvq q).setOutbox (s.outbox x).pop x).deliverAnswer x early b ok).txe.sound := by
  have taken : ((s.setEvq q).setOutbox (s.outbox x).pop x).txe.sound := by
    cases x with
    | txo o => exact Transmit.sound_sameRequest h o rfl Iff.rfl
    | _ => exact h
  rcases ((s.setEvq q).setOutbox (s.outbox x).pop x).deliverAnswer_cases x early b ok with e | ⟨_, e⟩ | ⟨_, _, e⟩ <;>
    rw [e] <;> exact taken

/-- The activation of a request that names the output gives its engine that request (R171). -/
theorem exec_activation_keeps_txeSound {o : Output} {s t : State} (h : s.txe.sound)
    (he : exec (.activation o) s = .next t) : t.txe.sound := by
  simp only [exec, execActivation] at he
  split at he
  · next idle =>
    split at he <;> cases he
    · exact h
    · next r rest taken =>
      obtain ⟨own, shorter⟩ := takeRequestFor_some taken
      have kept : ({ s.txe with queue := rest } : Transmit).sound := Transmit.sound_queue h (by omega)
      refine State.afterMatchRead_induct (P := fun s => s.txe.sound) h ?_
      split
      · exact Transmit.sound_sameRequest kept o rfl Iff.rfl
      · rw [State.activateWith, State.txe_sendClaims]
        refine Transmit.sound_setEngine kept o ⟨nofun, nofun⟩ fun r' hr => ?_
        obtain rfl : r = r' := Option.some.inj hr
        exact own
  · cases he; exact h

theorem exec_keeps_txeSound {i : Instr} {s t : State} (h : s.txe.sound) (he : exec i s = .next t) : t.txe.sound := by
  have take : ∀ cmd owner, (∀ f, (owner f : State).txe.sound) → (s.takeCommand cmd owner).txe.sound := fun cmd owner ho =>
    State.takeCommand_induct (P := fun s => s.txe.sound) h (fun _ => h) ho
  by_cases hb : Block.txe ∈ writes i
  swap
  · rwa [(exec_frame he).txe hb]
  cases i with
  | pinReset => cases he; exact Transmit.sound_reset
  | transmitHoldDrop k =>
    simp only [exec, execTransmitHoldDrop] at he
    split at he <;> cases he
    · exact Transmit.sound_holdDrops h _
    · exact h
  | txSubmit p =>
    cases p <;> cases he
    · exact h
    · refine take _ _ fun f => ?_
      split
      · refine State.ownerPart_induct (P := fun s => s.txe.sound) h
          (State.afterMatchRead_induct (P := fun s => s.txe.sound) h ?_)
        split
        · exact h
        · next e => exact (State.sound_submit h e :)
      all_goals exact h
  | txStop p =>
    cases p <;> cases he
    · exact h
    · refine take _ _ fun f => ?_
      split
      · exact State.ownerPart_induct (P := fun s => s.txe.sound) h (State.sound_stopOutput h _)
      · exact h
  | txAbort p =>
    cases p <;> cases he
    · exact h
    · refine take _ _ fun f => ?_
      split
      · exact State.ownerPart_induct (P := fun s => s.txe.sound) h (State.sound_abortTransmit h _ _)
      · exact h
  | runResetTxe =>
    simp only [exec, execRunResetTxe] at he
    split at he <;> cases he
    · exact s.txe.sound_runReset
    · exact h
  | runResetPst =>
    simp only [exec, execRunResetPst] at he
    split at he <;> cases he <;> exact h
  | append x =>
    simp only [exec, execAppend] at he
    split at he
    · cases he; exact h
    · split at he <;> cases he
      · exact State.sound_txe_append h x _ _ _ _
      · exact h
  | activation o => exact exec_activation_keeps_txeSound h he
  | elementEnd o =>
    simp only [exec, execElementEnd] at he
    split at he
    · split at he <;> cases he
      · exact Transmit.sound_sameRequest h o rfl Iff.rfl
      · exact h
    · cases he; exact h
  | frameEnd o =>
    simp only [exec, execFrameEnd] at he
    split at he
    · next inFrame _ =>
      split at he <;> cases he
      · exact State.sound_endFrame h o _ inFrame
      · exact h
    · cases he; exact h
  | gapEnd o =>
    simp only [exec, execGapEnd] at he
    split at he <;> cases he
    · next due => exact Transmit.sound_sameRequest h o rfl (by simp [Engine.beginFrame, due.1])
    · exact h
  | tailEnd o =>
    simp only [exec, execTailEnd] at he
    split at he
    · next active =>
      split at he <;> cases he
      · exact State.sound_endTail h o (by simp [active])
      · exact h
    · cases he; exact h
  | countersClear p => cases p <;> simp [writes, lineBlocks] at hb
  | channelSet p | channelGet p | channelEnable p | channelDisable p | channelFlush p | profileCommit p
  | profileRead p | profileClear p | entryCommit p | entryRead p | entryClear p | tableClear p | burstRelease p | learnStart p
  | learnAbort p | learnCommit p | learnDiscard p =>
    cases p <;> simp [writes, commandBlocks, lineBlocks] at hb
  | _ => simp [writes, lineBlocks] at hb

/-- Settles O59, block by block. -/
theorem stepKeepsTimeTransmitAndCommandUnit : Obligations.StepKeepsTimeTransmitAndCommandUnit := by
  unfold Obligations.StepKeepsTimeTransmitAndCommandUnit
  refine fun s t h he => step_keeps (P := fun s => s.tb.sound ∧ s.txe.sound ∧ s.bcu.sound) (fun _ _ hs => hs) ?_ h he
  rintro i s t ⟨timeBase, engines, commandUnit⟩ hx
  exact ⟨exec_keeps_tbSound timeBase hx, exec_keeps_txeSound engines hx, exec_keeps_bcuSound commandUnit hx⟩

end Sys2Proof.Machine
end

section
/-! The events of a Line Capture Unit, and what each keeps of its blank count (R16) and of its open descriptor (R9, R29). -/

namespace Sys2Proof.Machine

/-! ## What an event makes of the unit -/

/-- Everything that an event of its own makes of channel `c`'s Line Capture Unit (R5 to R17). -/
inductive Lcu.Events (l : Lcu) (c : Channel) (now : Time) : Lcu → Prop
  | same : l.Events c now l
  | start (hw : l.waiting = none) (edge : Time) : l.Events c now { l with change := some edge }.settle
  | cancel (hw : l.waiting = none) : l.Events c now ({ l with change := none } : Lcu).countGlitch.settle
  | cancelExpired (hw : l.waiting = none) : l.Events c now (({ l with change := none } : Lcu).countGlitch.takeExpiry c).settle
  | accept (hw : l.waiting = none) (edge accepted : Time) : l.Events c now (l.acceptChange edge accepted now).settle
  | granted {edge : Time} {h : Handle} (hw : l.waiting = some (.descriptor edge)) (ha : l.answer = some (.granted h)) :
    l.Events c now { l with waiting := none, answer := none, capture := .opened, handle := some h, count := 0
                            elementStart := edge, measuringStart := none }
  | noDescriptor {edge : Time} (hw : l.waiting = some (.descriptor edge)) (ha : l.answer = some .noDescriptor) :
    l.Events c now (Lcu.toDiscard { l with waiting := none, answer := none, counters := { l.counters with
      noDescriptor := bump l.counters.noDescriptor } } now)
  | taken {edge : Time} (hw : l.waiting = some (.write edge)) (ha : l.answer = some .taken) :
    l.Events c now { l with waiting := none, answer := none, count := l.count + 1, elementStart := edge }
  | noBlock {edge : Time} {b : Lcu} (hw : l.waiting = some (.write edge)) (ha : l.answer = some .noBlock)
    (hb : b = Lcu.abandonBurst { l with waiting := none, answer := none }) :
    l.Events c now (Lcu.toDiscard { b with counters := { b.counters with storeFull := bump b.counters.storeFull } } now)
  | close (hw : l.waiting = none) (hc : l.capture = .opened) : l.Events c now l.closeBurst
  | rest (hw : l.waiting = none) (hc : l.capture = .discard) : l.Events c now l.toIdle
  | stuck (hw : l.waiting = none) : l.Events c now (l.goStuck c)
  | claim (hw : l.waiting = none) (o : Output) (rest : List ClaimMsg) : l.Events c now (l.setClaims o rest).takeClaim
  | drop (hw : l.waiting = none) (o : Output) (rest : List ClaimMsg) : l.Events c now ((l.setClaims o rest).takeDrop now)

/-- The events of one Line Capture Unit. -/
inductive LineEvent (c : Channel) : Instr → Prop
  | pendingChangeStart : LineEvent c (.pendingChangeStart c)
  | pendingChangeCancel : LineEvent c (.pendingChangeCancel c)
  | acceptedEdge : LineEvent c (.acceptedEdge c)
  | descriptorAnswer : LineEvent c (.descriptorAnswer c)
  | writeAnswer : LineEvent c (.writeAnswer c)
  | endGapExpiry : LineEvent c (.endGapExpiry c)
  | discardEndGapExpiry : LineEvent c (.discardEndGapExpiry c)
  | stuckLimitExpiry : LineEvent c (.stuckLimitExpiry c)
  | blankClaim (o : Output) : LineEvent c (.blankClaim o c)
  | claimDrop (o : Output) : LineEvent c (.claimDrop o c)

/-- An event of a Line Capture Unit changes that unit alone. -/
theorem exec_lineEvent {s t : State} {c : Channel} {i : Instr} (hi : LineEvent c i) (he : exec i s = .next t) :
    ∃ l, (s.lcu c).Events c s.now l ∧ t = s.setLcu c l := by
  have same : ∃ l, (s.lcu c).Events c s.now l ∧ s = s.setLcu c l := ⟨_, .same, (s.setLcu_self c).symm⟩
  cases hi
  case pendingChangeStart =>
    simp only [exec, execPendingChangeStart] at he
    split at he <;> cases he
    · next waits _ => exact ⟨_, .start waits _, rfl⟩
    · exact same
  case pendingChangeCancel =>
    simp only [exec, execPendingChangeCancel] at he
    split at he <;> cases he
    · next waits _ =>
      split
      · exact ⟨_, .cancelExpired waits, rfl⟩
      · exact ⟨_, .cancel waits, rfl⟩
    · exact same
  case acceptedEdge =>
    simp only [exec, execAcceptedEdge] at he
    split at he
    · next waits _ _ =>
      split at he <;> cases he
      · exact same
      · exact ⟨_, .accept waits _ _, rfl⟩
    · cases he; exact same
  case descriptorAnswer =>
    simp only [exec, execDescriptorAnswer] at he
    split at he <;> cases he
    · next waits answered => exact ⟨_, .granted waits answered, rfl⟩
    · next waits answered => exact ⟨_, .noDescriptor waits answered, rfl⟩
    · exact same
  case writeAnswer =>
    simp only [exec, execWriteAnswer] at he
    split at he <;> cases he
    · next waits answered => exact ⟨_, .taken waits answered, rfl⟩
    · next waits answered => exact ⟨_, .noBlock waits answered rfl, rfl⟩
    · exact same
  case endGapExpiry =>
    simp only [exec, execEndGapExpiry] at he
    split at he <;> cases he
    · next due =>
      simp only [Bool.and_eq_true, Option.isNone_iff_eq_none, beq_iff_eq] at due
      obtain ⟨⟨⟨waits, opened⟩, -⟩, -⟩ := due
      exact ⟨_, .close waits opened, rfl⟩
    · exact same
  case discardEndGapExpiry =>
    simp only [exec, execDiscardEndGapExpiry] at he
    split at he <;> cases he
    · next due =>
      simp only [Bool.and_eq_true, Option.isNone_iff_eq_none, beq_iff_eq] at due
      obtain ⟨⟨⟨waits, discard⟩, -⟩, -⟩ := due
      exact ⟨_, .rest waits discard, rfl⟩
    · exact same
  case stuckLimitExpiry =>
    simp only [exec, execStuckLimitExpiry] at he
    split at he <;> cases he
    · next due =>
      simp only [Bool.and_eq_true, Option.isNone_iff_eq_none] at due
      obtain ⟨⟨waits, -⟩, -⟩ := due
      exact ⟨_, .stuck waits, rfl⟩
    · exact same
  case blankClaim =>
    simp only [exec, execBlankClaim] at he
    split at he <;> cases he
    · next waits _ => exact ⟨_, .claim waits _ _, rfl⟩
    · exact same
  case claimDrop =>
    simp only [exec, execClaimDrop] at he
    split at he <;> cases he
    · next waits _ => exact ⟨_, .drop waits _ _, rfl⟩
    · exact same

/-! ## The blank count (R16) -/

theorem Lcu.waiting_countGlitch (l : Lcu) : l.countGlitch.waiting = l.waiting := by
  unfold Lcu.countGlitch
  split <;> rfl

theorem Lcu.Events.blankSound {l m : Lcu} {c : Channel} {now : Time} (e : l.Events c now m) (h : l.blankSound) :
    m.blankSound := by
  have noChange : ({ l with change := none } : Lcu).countGlitch.blankSound := Lcu.blankSound_countGlitch (blankSound_of h rfl rfl rfl)
  cases e with
  | same => exact h
  | start hw edge => exact Lcu.blankSound_settle (Lcu.blankSound_of h rfl rfl rfl)
  | cancel hw => exact Lcu.blankSound_settle noChange
  | cancelExpired hw =>
    exact Lcu.blankSound_settle (Lcu.blankSound_takeExpiry noChange ((Lcu.waiting_countGlitch _).trans hw) c)
  | accept hw edge accepted =>
    have changed : ({ l with level := !l.level, change := none } : Lcu).blankSound := Lcu.blankSound_of h rfl rfl rfl
    exact Lcu.blankSound_settle (Lcu.blankSound_handleEdge changed hw _ _ _)
  | granted hw ha =>
    have opened : l.capture = .opened := h.2.2.2 (by simp [hw])
    exact Lcu.blankSound_move h (by simp [opened]) (by simp [opened]) rfl (by simp) rfl
  | noDescriptor hw ha =>
    have opened : l.capture = .opened := h.2.2.2 (by simp [hw])
    exact Lcu.blankSound_move h (by simp [opened]) (by simp [opened]) rfl (by simp [Lcu.toDiscard]) rfl
  | taken hw ha =>
    have opened : l.capture = .opened := h.2.2.2 (by simp [hw])
    exact Lcu.blankSound_move h (by simp [opened]) (by simp [opened]) rfl (by simp [opened]) rfl
  | noBlock hw ha hb =>
    have opened : l.capture = .opened := h.2.2.2 (by simp [hw])
    subst hb
    exact Lcu.blankSound_move h (by simp [opened]) (by simp [opened]) (Lcu.blankCount_abandonBurst _) (by simp [Lcu.toDiscard])
      (Lcu.waiting_abandonBurst _)
  | close hw hc => exact Lcu.blankSound_closeBurst h hc hw
  | rest hw hc => exact Lcu.blankSound_move h (by simp [hc]) (by simp [hc]) rfl (by simp [Lcu.toIdle]) hw
  | stuck hw => exact Lcu.blankSound_goStuck h hw c
  | claim hw o rest => exact Lcu.blankSound_takeClaim (l := l.setClaims o rest) (Lcu.blankSound_of h rfl rfl rfl) hw
  | drop hw o rest => exact Lcu.blankSound_takeDrop (l := l.setClaims o rest) (Lcu.blankSound_of h rfl rfl rfl) hw now

/-! ## The open descriptor (R9, R29) -/

theorem Lcu.Events.keepsOpen {l m : Lcu} {c : Channel} {now : Time} (e : l.Events c now m) : l.KeepsOpen m := by
  have cleared : l.KeepsOpen { l with change := none } := keepsOpen_of_capture rfl rfl rfl rfl rfl
  have noChange : l.KeepsOpen ({ l with change := none } : Lcu).countGlitch := cleared.trans (keepsOpen_countGlitch _)
  cases e with
  | same => exact .refl l
  | start hw edge => exact (keepsOpen_of_capture rfl rfl rfl rfl rfl).trans (keepsOpen_settle _)
  | cancel hw => exact noChange.trans (keepsOpen_settle _)
  | cancelExpired hw =>
    have waits : ({ l with change := none } : Lcu).countGlitch.waiting = none := (Lcu.waiting_countGlitch _).trans hw
    exact (noChange.trans (keepsOpen_takeExpiry waits c)).trans (keepsOpen_settle _)
  | accept hw edge accepted =>
    have changed : l.KeepsOpen { l with level := !l.level, change := none } := keepsOpen_of_capture rfl rfl rfl rfl rfl
    have handled : Lcu.KeepsOpen { l with level := !l.level, change := none } (l.acceptChange edge accepted now) :=
      keepsOpen_handleEdge (l := { l with level := !l.level, change := none }) hw edge accepted now
    exact (changed.trans handled).trans (keepsOpen_settle _)
  | granted hw ha =>
    intro g p c' sound
    have handle : l.handle = none := sound.1.2.1 _ hw
    refine (?_ : l.KeepsOpen _) g p c' sound
    exact keepsOpen_answered hw ha rfl rfl rfl (.inl (by simp [handle, LcuAnswer.handle])) (fun _ => rfl)
  | noDescriptor hw ha =>
    intro g p c' sound
    have handle : l.handle = none := sound.1.2.1 _ hw
    refine (?_ : l.KeepsOpen _) g p c' sound
    exact keepsOpen_answered hw ha rfl rfl rfl (.inr ⟨rfl, rfl⟩) (fun hh => absurd handle hh)
  | taken hw ha =>
    intro g p c' sound
    refine (?_ : l.KeepsOpen _) g p c' sound
    exact keepsOpen_answered hw ha rfl rfl rfl (.inr ⟨rfl, rfl⟩) (fun hh => sound.1.1 hh)
  | noBlock hw ha hb =>
    subst hb
    intro g p c' sound
    have answered : l.KeepsOpen { l with waiting := none, answer := none } :=
      keepsOpen_answered hw ha rfl rfl rfl (.inr ⟨rfl, rfl⟩) (fun hh => sound.1.1 hh)
    refine answered.trans ?_ g p c' sound
    exact keepsOpen_after_abandon rfl rfl rfl rfl rfl
  | close hw hc => exact keepsOpen_closeBurst hw
  | rest hw hc => exact keepsOpen_of_not_opened (by simp [hc]) rfl rfl rfl rfl
  | stuck hw => exact keepsOpen_goStuck hw c
  | claim hw o rest =>
    have left : l.KeepsOpen (l.setClaims o rest) := keepsOpen_of_capture rfl rfl rfl rfl rfl
    exact left.trans (keepsOpen_takeClaim (l := l.setClaims o rest) hw)
  | drop hw o rest =>
    have left : l.KeepsOpen (l.setClaims o rest) := keepsOpen_of_capture rfl rfl rfl rfl rfl
    exact left.trans (keepsOpen_takeDrop now)

end Sys2Proof.Machine
end

section
/-! The commands of a channel at its Line Capture Unit, and what the outputs and the Event Queue change of a unit (R4, R19 to R22,
R181, R182); every step keeps the blank counts (R16). -/

namespace Sys2Proof.Machine

/-! ## The channel commands -/

/-- What a command of the channel makes of a unit that waits for no answer (R4, R19 to R22). -/
inductive Lcu.Commands (l : Lcu) (now : Time) : Lcu → Prop
  | same : l.Commands now l
  | settings (x : Settings) : l.Commands now (l.applySettings x now)
  | enable : l.Commands now (l.enable now)
  | disable : l.Commands now l.disable
  | flush : l.Commands now (l.flush now)
  | clear : l.Commands now { l with counters := .zero }

/-- The commands whose part a Line Capture Unit takes, but for RUN_RESET. -/
inductive ChannelCommand : Instr → Prop
  | set : ChannelCommand (.channelSet .take)
  | get : ChannelCommand (.channelGet .take)
  | enable : ChannelCommand (.channelEnable .take)
  | disable : ChannelCommand (.channelDisable .take)
  | flush : ChannelCommand (.channelFlush .take)
  | clear : ChannelCommand (.countersClear .lcu)

/-- A channel command is not due, or completed by the BCU's check, or one unit takes its part of it; it is not RUN_RESET. -/
inductive State.ChannelMoves (s : State) : State → Prop
  | same : s.ChannelMoves s
  | refused (e : CmdError) (hr : s.resetParts = []) : s.ChannelMoves (s.setBcu (s.bcu.complete (some e) 0 .absent))
  | taken {c : Channel} {l : Lcu} (a : PartAnswer) (hr : s.resetParts = []) (hw : (s.lcu c).waiting = none)
    (hl : (s.lcu c).Commands s.now l) : s.ChannelMoves ((s.setLcu c l).answerPart (.lcu c) a)

theorem State.ChannelMoves.of_takeCommand {s : State} {cmd : Cmd} {act : InFlight → Channel → Lcu → State}
    (hcmd : cmd ≠ .runReset)
    (ha : ∀ f c, s.resetParts = [] → (s.lcu c).waiting = none → s.ChannelMoves (act f c (s.lcu c))) :
    s.ChannelMoves (s.takeCommand cmd fun f => s.lcuPart f (act f)) := by
  obtain same | ⟨f, flies, isCmd, outcome⟩ := s.takeCommand_inFlight cmd fun f => s.lcuPart f (act f)
  · rw [same]; exact .same
  · have other : s.resetParts = [] := resetParts_of_other s f flies (by simp [isCmd, hcmd])
    obtain ⟨e, refused⟩ | taken := outcome
    · rw [refused]; exact .refused e other
    · rw [taken]; exact State.lcuPart_induct (P := s.ChannelMoves) .same fun c hw => ha f c other hw

theorem exec_channelCommand {s t : State} {i : Instr} (hi : ChannelCommand i) (he : exec i s = .next t) :
    s.ChannelMoves t := by
  cases hi with
  | set =>
    cases he
    refine .of_takeCommand (by simp) fun f c hr hw => ?_
    split
    · simp only
      split
      · next e _ =>
        have taken := State.ChannelMoves.taken { error := some e } hr hw .same
        rwa [s.setLcu_self] at taken
      · exact .taken {} hr hw (.settings _)
    all_goals exact .same
  | get =>
    cases he
    refine .of_takeCommand (by simp) fun f c hr hw => ?_
    have taken := State.ChannelMoves.taken { copy := .channel (settingsBytes (s.lcu c).settings) } hr hw .same
    rwa [s.setLcu_self] at taken
  | enable => cases he; exact .of_takeCommand (by simp) fun f c hr hw => .taken {} hr hw .enable
  | disable => cases he; exact .of_takeCommand (by simp) fun f c hr hw => .taken {} hr hw .disable
  | flush => cases he; exact .of_takeCommand (by simp) fun f c hr hw => .taken {} hr hw .flush
  | clear => cases he; exact .of_takeCommand (by simp) fun f c hr hw => .taken {} hr hw .clear

theorem Lcu.Commands.blankSound {l m : Lcu} {now : Time} (x : l.Commands now m) (hw : l.waiting = none) (h : l.blankSound) :
    m.blankSound := by
  cases x with
  | same => exact h
  | settings x => exact Lcu.blankSound_applySettings h x now
  | enable => exact Lcu.blankSound_enable h hw now
  | disable => exact Lcu.blankSound_disable h hw
  | flush => exact Lcu.blankSound_flush h hw now
  | clear => exact Lcu.blankSound_of h rfl rfl rfl

theorem Lcu.Commands.keepsOpen {l m : Lcu} {now : Time} (x : l.Commands now m) (hw : l.waiting = none) : l.KeepsOpen m := by
  cases x with
  | same => exact .refl l
  | settings x => exact keepsOpen_applySettings l x now
  | enable => exact keepsOpen_enable l now
  | disable => exact keepsOpen_disable hw
  | flush => exact keepsOpen_flush hw now
  | clear => exact keepsOpen_of_capture rfl rfl rfl rfl rfl

/-! ## Claims and appends on their way -/

/-- Two units are the same but for the claims that they have not taken and the appends that are on their way. -/
def Lcu.Aside (l m : Lcu) : Prop := ∃ claims toQueue, m = { l with claims := claims, toQueue := toQueue }

theorem Lcu.Aside.refl (l : Lcu) : l.Aside l := ⟨_, _, rfl⟩

theorem Lcu.Aside.setClaims {l m : Lcu} (h : l.Aside m) (o : Output) (ms : List ClaimMsg) : l.Aside (m.setClaims o ms) := by
  obtain ⟨claims, toQueue, rfl⟩ := h
  exact ⟨_, _, rfl⟩

theorem Lcu.Aside.blankSound {l m : Lcu} (a : l.Aside m) (h : l.blankSound) : m.blankSound := by
  obtain ⟨claims, toQueue, rfl⟩ := a
  exact Lcu.blankSound_of h rfl rfl rfl

theorem Lcu.Aside.keepsOpen {l m : Lcu} (a : l.Aside m) : l.KeepsOpen m := by
  obtain ⟨claims, toQueue, rfl⟩ := a
  exact keepsOpen_of_capture rfl rfl rfl rfl rfl

/-- Every unit of the second state is the first's but for claims and appends. -/
def State.LinesAside (s t : State) : Prop := ∀ c, (s.lcu c).Aside (t.lcu c)

namespace State.LinesAside

variable {s t : State} (h : s.LinesAside t) (o : Output)

theorem refl (s : State) : s.LinesAside s := fun _ => .refl _

include h

theorem setTxe (x : Transmit) : s.LinesAside (t.setTxe x) := h

theorem setEngine (e : Engine) : s.LinesAside (t.setEngine o e) := h

theorem answerPart (p : Part) (a : PartAnswer) : s.LinesAside (t.answerPart p a) := h

theorem sendClaims (set : BitVec 4) (msg : ClaimMsg) : s.LinesAside (t.sendClaims o set msg) := fun c => by
  rw [State.lcu_sendClaims]
  split
  · exact (h c).setClaims o _
  · exact h c

theorem endTail : s.LinesAside (t.endTail o) := by
  unfold State.endTail
  simp only
  split
  · exact h.setEngine o _
  · exact (h.sendClaims o _ _).setTxe _

theorem enterTail (e : Engine) (moment : Time) : s.LinesAside (t.enterTail o e moment) := by
  unfold State.enterTail
  simp only
  split
  · split
    · exact (h.setEngine o _).endTail o
    · exact h.setEngine o _
  · exact h.setEngine o _

theorem endFrame (moment : Time) : s.LinesAside (t.endFrame o moment) := by
  unfold State.endFrame
  simp only
  split
  · exact h.enterTail o _ _
  · exact h.setEngine o _

theorem stopOutput : s.LinesAside (t.stopOutput o) := by
  unfold State.stopOutput
  simp only
  split
  · exact h.setEngine o _
  · exact h.enterTail o _ _
  · exact h
  · exact h

theorem abortOutput : s.LinesAside (t.abortOutput o) := by
  unfold State.abortOutput
  simp only
  split
  · exact h.enterTail o _ _
  · exact h.enterTail o _ _
  · exact h
  · exact h

theorem abortTransmit (purge : Bool) : s.LinesAside (t.abortTransmit o purge) := by
  unfold State.abortTransmit
  split
  · exact (h.setTxe _ : s.LinesAside (t.purgeOutput o)).abortOutput o
  · exact h.abortOutput o

omit h

/-- An append that is taken leaves its sender's list. -/
theorem append (x : Sender) (q : EventQueue) (early : Nat) (b : EventBody) (ok : Bool) :
    s.LinesAside (((s.setEvq q).setOutbox (s.outbox x).pop x).deliverAnswer x early b ok) := by
  have taken : s.LinesAside ((s.setEvq q).setOutbox (s.outbox x).pop x) := by
    cases x with
    | lcu c =>
      intro d
      show (s.lcu d).Aside ((s.setLcu c { s.lcu c with toQueue := (s.lcu c).toQueue.pop }).lcu d)
      rw [State.lcu_setLcu]
      split
      · next e => rw [e]; exact ⟨_, _, rfl⟩
      · exact .refl _
    | _ => exact refl s
  rcases ((s.setEvq q).setOutbox (s.outbox x).pop x).deliverAnswer_cases x early b ok with e | ⟨_, e⟩ | ⟨_, _, e⟩ <;>
    rw [e] <;> exact taken

end State.LinesAside

/-- The commands and events of the outputs that claim channels or drop claims, and the appends. -/
inductive AsideEvent : Instr → Prop
  | txStop : AsideEvent (.txStop .take)
  | txAbort : AsideEvent (.txAbort .take)
  | activation (o : Output) : AsideEvent (.activation o)
  | frameEnd (o : Output) : AsideEvent (.frameEnd o)
  | tailEnd (o : Output) : AsideEvent (.tailEnd o)
  | append (x : Sender) : AsideEvent (.append x)

theorem exec_linesAside {s t : State} {i : Instr} (hi : AsideEvent i) (he : exec i s = .next t) : s.LinesAside t := by
  have h : s.LinesAside s := .refl s
  cases hi with
  | txStop =>
    cases he
    refine State.takeCommand_induct (P := s.LinesAside) h (fun _ => h) fun f => ?_
    split
    · exact State.ownerPart_induct (P := s.LinesAside) h ((h.stopOutput _).answerPart _ _)
    · exact h
  | txAbort =>
    cases he
    refine State.takeCommand_induct (P := s.LinesAside) h (fun _ => h) fun f => ?_
    split
    · exact State.ownerPart_induct (P := s.LinesAside) h ((h.abortTransmit _ _).answerPart _ _)
    · exact h
  | activation o =>
    simp only [exec, execActivation] at he
    split at he
    · split at he <;> cases he
      · exact h
      · refine State.afterMatchRead_induct (P := s.LinesAside) h ?_
        split
        · exact (h.setTxe _).setEngine o _
        · exact ((h.setTxe _).setEngine o _).sendClaims o _ _
    · cases he; exact h
  | frameEnd o =>
    simp only [exec, execFrameEnd] at he
    split at he
    · split at he <;> cases he
      · exact h.endFrame o _
      · exact h
    · cases he; exact h
  | tailEnd o =>
    simp only [exec, execTailEnd] at he
    split at he
    · split at he <;> cases he
      · exact h.endTail o
      · exact h
    · cases he; exact h
  | append x =>
    simp only [exec, execAppend] at he
    split at he
    · cases he; exact h
    · split at he <;> cases he
      · exact .append x _ _ _ _
      · exact h

/-! ## The blank counts (R16) -/

/-- At a tick every unit samples its line (R5). -/
theorem State.lcu_microsecondTick {s t : State} {lines : BitVec 4} (he : exec (.microsecondTick lines) s = .next t)
    (c : Channel) : t.lcu c = (s.lcu c).takeSample { time := s.tb.tick.counter, level := lines.getLsbD c.val } := by
  cases he
  simp [State.lcu, sampleLines]

section Blank

variable {s t : State} (h : ∀ c, (s.lcu c).blankSound)
include h

theorem State.blankSound_setLcu {c : Channel} {l : Lcu} (hl : l.blankSound) (d : Channel) :
    ((s.setLcu c l).lcu d).blankSound := by
  rw [State.lcu_setLcu]
  split
  · exact hl
  · exact h d

/-- The store takes a request: the unit's state, its count and what it waits for stay. -/
theorem State.blankSound_storeTook (c : Channel) (p : PulseStore) (a : Option LcuAnswer) (d : Channel) :
    ((s.storeTook c p a).lcu d).blankSound :=
  State.blankSound_setLcu (s := s.setPst p) h
    (l := { s.lcu c with toStore := (s.lcu c).toStore.pop, answer := a }) (Lcu.blankSound_of (h c) rfl rfl rfl) d

theorem exec_storeRequest_keeps_blankSound {c : Channel} {i : Instr}
    (hi : i ∈ [Instr.descriptorRequest c, .closeRequest c, .abandonRequest c, .channelPurge c]
      ∨ ∃ pick, i = .elementWrite c pick)
    (he : exec i s = .next t) (d : Channel) : (t.lcu d).blankSound := by
  simp only [List.mem_cons, List.not_mem_nil, or_false] at hi
  obtain (rfl | rfl | rfl | rfl) | ⟨pick, rfl⟩ := hi
  · simp only [exec, execDescriptorRequest] at he
    split at he
    · split at he <;> cases he <;> exact State.blankSound_storeTook h c _ _ d
    · cases he; exact h d
  · simp only [exec, execCloseRequest] at he
    split at he <;> cases he
    · exact State.blankSound_storeTook h c _ _ d
    · exact h d
  · simp only [exec, execAbandonRequest] at he
    split at he <;> cases he
    · exact State.blankSound_storeTook h c _ _ d
    · exact h d
  · simp only [exec, execChannelPurge] at he
    split at he <;> cases he
    · rw [State.lcu_answerPart]
      exact State.blankSound_storeTook h c _ _ d
    · exact h d
  · simp only [exec, execElementWrite] at he
    split at he <;> cases he
    · exact State.blankSound_storeTook h c _ _ d
    · exact h d

theorem exec_keeps_blankSound {i : Instr} (he : exec i s = .next t) (d : Channel) : (t.lcu d).blankSound := by
  have aside (hi : AsideEvent i) : (t.lcu d).blankSound := (exec_linesAside hi he d).blankSound (h d)
  have event {c : Channel} (hi : LineEvent c i) : (t.lcu d).blankSound := by
    obtain ⟨l, moved, rfl⟩ := exec_lineEvent hi he
    exact State.blankSound_setLcu h (moved.blankSound (h c)) d
  have command (hi : ChannelCommand i) : (t.lcu d).blankSound := by
    cases exec_channelCommand hi he with
    | same => exact h d
    | refused e hr => exact h d
    | taken a hr hw hl => exact State.blankSound_setLcu h (hl.blankSound hw (h _)) d
  have request {c : Channel} := exec_storeRequest_keeps_blankSound (c := c) (i := i) (t := t) h
  by_cases hb : Block.lcu d ∈ writes i
  swap
  · rw [(exec_frame he).lcu d hb]; exact h d
  cases i with
  | pinReset =>
    cases he
    have reset : (State.reset.lcu d) = .reset := by simp [State.reset, State.lcu]
    exact reset ▸ Lcu.blankSound_reset
  | pendingChangeStart c => exact event .pendingChangeStart
  | pendingChangeCancel c => exact event .pendingChangeCancel
  | acceptedEdge c => exact event .acceptedEdge
  | descriptorAnswer c => exact event .descriptorAnswer
  | writeAnswer c => exact event .writeAnswer
  | endGapExpiry c => exact event .endGapExpiry
  | discardEndGapExpiry c => exact event .discardEndGapExpiry
  | stuckLimitExpiry c => exact event .stuckLimitExpiry
  | blankClaim o c => exact event (.blankClaim o)
  | claimDrop o c => exact event (.claimDrop o)
  | descriptorRequest c => exact request (c := c) (.inl (by simp)) he d
  | closeRequest c => exact request (c := c) (.inl (by simp)) he d
  | abandonRequest c => exact request (c := c) (.inl (by simp)) he d
  | channelPurge c => exact request (c := c) (.inl (by simp)) he d
  | elementWrite c pick => exact request (c := c) (.inr ⟨pick, rfl⟩) he d
  | channelSet p =>
    cases p with
    | write => simp [writes, commandBlocks] at hb
    | take => exact command .set
  | channelEnable p =>
    cases p with
    | write => simp [writes, commandBlocks] at hb
    | take => exact command .enable
  | channelDisable p =>
    cases p with
    | write => simp [writes, commandBlocks] at hb
    | take => exact command .disable
  | channelFlush p =>
    cases p with
    | write => simp [writes, commandBlocks] at hb
    | take => exact command .flush
  | countersClear p =>
    cases p with
    | lcu => exact command .clear
    | _ => simp [writes] at hb
  | txStop p =>
    cases p with
    | write => simp [writes, commandBlocks] at hb
    | take => exact aside .txStop
  | txAbort p =>
    cases p with
    | write => simp [writes, commandBlocks] at hb
    | take => exact aside .txAbort
  | runResetLcu c =>
    simp only [exec, execRunResetLcu] at he
    split at he <;> cases he
    · next due =>
      obtain ⟨-, waits, -⟩ := due
      exact State.blankSound_setLcu h (Lcu.blankSound_runReset _ waits _) d
    · exact h d
  | append x => exact aside (.append x)
  | activation o => exact aside (.activation o)
  | frameEnd o => exact aside (.frameEnd o)
  | tailEnd o => exact aside (.tailEnd o)
  | microsecondTick lines => rw [State.lcu_microsecondTick he]; exact Lcu.blankSound_takeSample (h d) _
  | channelGet p | profileCommit p | profileRead p | profileClear p | entryCommit p | entryRead p | entryClear p
  | tableClear p | burstRelease p | learnStart p | learnAbort p | learnCommit p | learnDiscard p | txSubmit p =>
    cases p <;> simp [writes, commandBlocks] at hb
  | _ => simp [writes] at hb

end Blank

/-- Settles O58, by the events and the commands of a Line Capture Unit. -/
theorem stepKeepsTheBlankCounts : Obligations.StepKeepsTheBlankCounts := by
  unfold Obligations.StepKeepsTheBlankCounts
  exact fun s t h he => step_keeps (P := fun s => ∀ c, (s.lcu c).blankSound) (fun _ _ hs => hs)
    (fun _ _ _ hs hx => exec_keeps_blankSound hs hx) h he

end Sys2Proof.Machine
end

section
/-! What a command can do to the Pulse Store, and what every step keeps of its counts and of the open descriptors (R27, R29). -/

namespace Sys2Proof.Machine

/-! ## The moves of the store -/

/-- Everything that a command can make of the Pulse Store, but for the grant of a descriptor. -/
inductive PulseStore.Moves (p : PulseStore) : PulseStore → Prop
  | same : p.Moves p
  | reset (m : Memory) (hm : Memory.wf p.slots → Memory.wf m) : p.Moves { PulseStore.reset with slots := m }
  | write (c : Channel) (h : Handle) (position : Nat) (duration : Half) (pick : BlockNo) :
    p.Moves (p.write c h position duration pick).1
  | close (c : Channel) (h : Handle) (time : Time) : p.Moves (p.close c h time)
  | abandon (c : Channel) (h : Handle) : p.Moves (p.abandon c h)
  | purge (c : Channel) : p.Moves (p.purge c)
  | take : p.Moves p.take.1
  | finish (h : Handle) (d : Disposition) : p.Moves (p.finish h d).1
  | hostDrop (h : Handle) : p.Moves (p.dropHostHold h)
  | transmitDrop (h : Handle) : p.Moves (p.dropTransmitHold h)
  | hold (h : Handle) : p.Moves (p.addTransmitHold h).1

/-- An accepted submission takes a transmit hold or leaves the store (R168). -/
theorem State.pstMoves_submit {s t : State} {r : Vector Byte 21} {tag : Byte} (hs : s.submit r = .ok (t, tag)) :
    s.pst.Moves t.pst := by
  obtain ⟨x, p, -, -, -, checked, rfl⟩ := State.submit_ok hs
  obtain rfl | ⟨k, rfl⟩ := State.checkSource_pst checked
  · exact .same
  · exact .hold k

/-- The store grants the lowest FREE descriptor, or refuses (R30). -/
theorem exec_descriptorRequest_pst {c : Channel} {s t : State} (he : exec (.descriptorRequest c) s = .next t) :
    t.pst = s.pst ∨ ∃ h time, s.pst.lowestFree = some h ∧ t.pst = s.pst.grant h c time := by
  simp only [exec, execDescriptorRequest] at he
  split at he
  · split at he <;> cases he
    · next lowest => exact .inr ⟨_, _, lowest, State.pst_storeTook _ _ _ _⟩
    · exact .inl (State.pst_storeTook _ _ _ _)
  · cases he; exact .inl rfl

/-- Every command but a descriptor request makes one move of the store, if any. -/
theorem exec_storeMoves {i : Instr} {s t : State} (hi : ∀ c, i ≠ .descriptorRequest c) (he : exec i s = .next t) :
    s.pst.Moves t.pst := by
  have take : ∀ cmd owner, (∀ f, s.pst.Moves (owner f : State).pst) → s.pst.Moves (s.takeCommand cmd owner).pst :=
    fun cmd owner ho => State.takeCommand_induct (P := fun t => s.pst.Moves t.pst) .same (fun _ => .same) ho
  by_cases hb : Block.pst ∈ writes i
  swap
  · rw [(exec_frame he).pst hb]; exact .same
  cases i with
  | pinReset => cases he; exact .reset _ fun _ => Memory.wf_nil
  | descriptorRequest c => exact absurd rfl (hi c)
  | elementWrite c pick =>
    simp only [exec, execElementWrite] at he
    split at he <;> cases he
    · exact .write c _ _ _ _
    · exact .same
  | closeRequest c =>
    simp only [exec, execCloseRequest] at he
    split at he <;> cases he
    · rw [State.pst_storeTook]; exact .close c _ _
    · exact .same
  | abandonRequest c =>
    simp only [exec, execAbandonRequest] at he
    split at he <;> cases he
    · rw [State.pst_storeTook]; exact .abandon c _
    · exact .same
  | channelPurge c =>
    simp only [exec, execChannelPurge] at he
    split at he <;> cases he
    · rw [State.pst_answerPart, State.pst_storeTook]; exact .purge c
    · exact .same
  | takeRequest =>
    simp only [exec, execTakeRequest] at he
    split at he
    · split at he <;> cases he
      · exact .same
      · rw [State.pst_setSdc, State.pst_setPst]; exact .take
    · cases he; exact .same
  | decodeFinish =>
    simp only [exec, execDecodeFinish] at he
    split at he <;> cases he
    · rw [State.pst_setSdc, State.pst_setPst]; exact .finish _ _
    · exact .same
  | hostHoldDrop h =>
    simp only [exec, execHostHoldDrop] at he
    split at he <;> cases he
    · rw [State.pst_setSdc, State.pst_setPst]; exact .hostDrop h
    · exact .same
  | transmitHoldDrop h =>
    simp only [exec, execTransmitHoldDrop] at he
    split at he <;> cases he
    · rw [State.pst_setTxe, State.pst_setPst]; exact .transmitDrop h
    · exact .same
  | runResetPst =>
    simp only [exec, execRunResetPst] at he
    split at he <;> cases he
    · exact .reset _ id
    · exact .same
  | burstRelease p =>
    cases p <;> cases he
    · exact .same
    · refine take _ _ fun f => ?_
      split
      · refine State.ownerPart_induct (P := fun t => s.pst.Moves t.pst) .same ?_
        split
        · rw [State.pst_answerPart, State.pst_setPst]; exact .hostDrop _
        · exact .same
      · exact .same
  | txSubmit p =>
    cases p <;> cases he
    · exact .same
    · refine take _ _ fun f => ?_
      split
      · refine State.ownerPart_induct (P := fun t => s.pst.Moves t.pst) .same
          (State.afterMatchRead_induct (P := fun t => s.pst.Moves t.pst) .same ?_)
        split
        · exact .same
        · next e => rw [State.pst_answerPart]; exact State.pstMoves_submit e
      all_goals exact .same
  | append x => cases x <;> simp [writes, senderBlock] at hb
  | countersClear p => cases p <;> simp [writes, lineBlocks] at hb
  | channelSet p | channelGet p | channelEnable p | channelDisable p | channelFlush p | profileCommit p
  | profileRead p | profileClear p | entryCommit p | entryRead p | entryClear p | tableClear p | learnStart p
  | learnAbort p | learnCommit p | learnDiscard p | txStop p | txAbort p =>
    cases p <;> simp [writes, commandBlocks, lineBlocks] at hb
  | _ => simp [writes, lineBlocks] at hb

theorem PulseStore.Moves.sound {p q : PulseStore} (m : p.Moves q) (h : p.sound) : q.sound := by
  cases m with
  | same => exact h
  | reset m => exact PulseStore.sound_reset m
  | write c k position duration pick => exact PulseStore.sound_write h c k position duration pick
  | close c k time => exact PulseStore.sound_close h c k time
  | abandon c k => exact PulseStore.sound_abandon h c k
  | purge c => exact PulseStore.sound_purge h c
  | take => exact PulseStore.sound_take h
  | finish k d => exact PulseStore.sound_finish h k d
  | hostDrop k => exact PulseStore.sound_dropHostHold h k
  | transmitDrop k => exact PulseStore.sound_dropTransmitHold h k
  | hold k => exact PulseStore.sound_addTransmitHold h k

theorem PulseStore.Moves.wf {p q : PulseStore} (m : p.Moves q) (h : Memory.wf p.slots) : Memory.wf q.slots := by
  cases m with
  | reset m hm => exact hm h
  | write c k position duration pick => exact PulseStore.slots_write h c k position duration pick
  | _ => simpa using h

theorem opensNoMore_close (p : PulseStore) (c : Channel) (h : Handle) (time : Time) : p.OpensNoMore (p.close c h time) := by
  unfold PulseStore.close
  split
  · exact opensNoMore_setDescriptor p h { p.descriptor h with state := .queued, closeTime := time } nofun _ rfl
  · exact .refl p

theorem opensNoMore_abandon (p : PulseStore) (c : Channel) (h : Handle) : p.OpensNoMore (p.abandon c h) := by
  unfold PulseStore.abandon
  split
  · exact opensNoMore_free p h
  · exact .refl p

theorem PulseStore.Moves.opensNoMore {p q : PulseStore} (m : p.Moves q) : p.OpensNoMore q := by
  cases m with
  | same => exact .refl p
  | reset m => exact fun k c ho => by simp [PulseStore.openFor, PulseStore.descriptor, PulseStore.reset, Descriptor.freed] at ho
  | write c k position duration pick => exact opensNoMore_write p c k position duration pick
  | close c k time => exact opensNoMore_close p c k time
  | abandon c k => exact opensNoMore_abandon p c k
  | purge c => exact opensNoMore_purge p c
  | take => exact opensNoMore_take p
  | finish k d => exact opensNoMore_finish p k d
  | hostDrop k => exact opensNoMore_dropHostHold p k
  | transmitDrop k => exact opensNoMore_dropTransmitHold p k
  | hold k => exact opensNoMore_addTransmitHold p k

theorem exec_keeps_storeSound {i : Instr} {s t : State} (h : s.pst.sound ∧ Memory.wf s.pst.slots)
    (he : exec i s = .next t) : t.pst.sound ∧ Memory.wf t.pst.slots := by
  obtain ⟨sound, canonical⟩ := h
  by_cases hi : ∃ c, i = .descriptorRequest c
  · obtain ⟨c, rfl⟩ := hi
    obtain same | ⟨k, time, lowest, granted⟩ := exec_descriptorRequest_pst he
    · rw [same]; exact ⟨sound, canonical⟩
    · rw [granted, PulseStore.slots_grant]
      exact ⟨PulseStore.sound_grant sound k c time (PulseStore.lowestFree_state lowest), canonical⟩
  · have moved := exec_storeMoves (fun c hc => hi ⟨c, hc⟩) he
    exact ⟨moved.sound sound, moved.wf canonical⟩

/-! ## The parts of RUN_RESET at the units and at the store (R25, R47) -/

section ResetParts

variable {s : State} {f : InFlight}

theorem Lcu.openSound_reset (g : Prop) (c : Channel) : Lcu.reset.openSound g PulseStore.reset c := by
  have closed (h : Handle) : PulseStore.reset.openFor h c = false := by
    simp [PulseStore.openFor, PulseStore.descriptor, PulseStore.reset, Descriptor.freed]
  refine ⟨⟨nofun, nofun, nofun⟩, fun _ => ⟨Nat.zero_le _, fun h ho => ?_⟩, fun _ => ⟨fun h k ho => ?_, rfl, rfl, le_rfl,
    nofun, nofun⟩⟩
  · simp [closed] at ho
  · simp [closed] at ho

/-- Pin reset leaves no open descriptor and no request on its way. -/
theorem State.openSound_reset : State.reset.openSound := by
  refine ⟨List.nodup_nil, nofun, fun c => ?_⟩
  have reset : State.reset.lcu c = .reset := by simp [State.reset, State.lcu]
  exact reset ▸ Lcu.openSound_reset _ c

/-- What a unit that waits for no answer forgets at its part: its handle is the one that may be open, its requests on the way
ask for nothing and come before its part. -/
theorem Lcu.openSound_runReset {l : Lcu} {g g' : Prop} {p : PulseStore} {c : Channel} (h : l.openSound g p c) (hg : ¬ g)
    (hg' : g') (hw : l.waiting = none) (now : Time) : (l.runReset now).openSound g' p c := by
  obtain ⟨asked, one, -⟩ := h
  obtain ⟨few, own⟩ := one hg
  obtain ⟨unanswered, quiet⟩ := asksNothing_of_askSound asked hw
  have fields : (l.runReset now).handle = none ∧ (l.runReset now).waiting = none ∧ (l.runReset now).answer = none
      ∧ (l.runReset now).toStore = l.toStore.markEarly := by
    unfold Lcu.runReset
    simp only
    split <;> exact ⟨rfl, hw, unanswered, rfl⟩
  obtain ⟨noHandle, waits, noAnswer, marked⟩ := fields
  refine ⟨⟨fun hh => absurd noHandle hh, fun _ _ => noHandle, ?_⟩, fun hn => absurd hg' hn, fun _ => ⟨fun h k oh ok => ?_,
    noHandle, noAnswer, ?_, ?_, ?_⟩⟩
  · rw [waits, noAnswer, marked]
    exact quiet
  · match l.handles, few, own h oh, own k ok with
    | [x], _, hx, kx => exact (List.mem_singleton.1 hx).trans (List.mem_singleton.1 kx).symm
  · simp [marked]
  · rw [marked]
    exact fun m hm => quiet m (List.mem_of_mem_take hm)
  · simp [marked]

theorem exec_runResetLcu_keeps_openSound {c : Channel} {t : State} (h : s.openSound)
    (he : exec (.runResetLcu c) s = .next t) : t.openSound := by
  simp only [exec, execRunResetLcu] at he
  split at he <;> cases he
  swap
  · exact h
  next due =>
  obtain ⟨due, waits, -⟩ := due
  obtain ⟨mine, -⟩ := resetDue_mem due
  obtain ⟨nodup, store, line⟩ := h
  have parts := resetParts_answerPart (s.setLcu c ((s.lcu c).runReset s.now)) (.lcu c) {}
  rw [show (s.setLcu c ((s.lcu c).runReset s.now)).resetParts = s.resetParts from rfl] at parts
  refine ⟨?_, fun d hd => ?_, fun d => ?_⟩
  · rw [parts]; exact nodup.erase _
  · rw [parts] at hd ⊢
    exact (List.mem_erase_of_ne (by simp)).2 (store d (List.mem_of_mem_erase hd))
  · rw [State.lcu_answerPart, State.pst_answerPart, State.pst_setLcu]
    by_cases hd : d = c
    · subst hd
      rw [State.lcu_setLcu_self]
      refine Lcu.openSound_runReset (line d) (fun awaits => awaits.2 mine) ⟨?_, ?_⟩ waits s.now
      · rw [parts]; exact (List.mem_erase_of_ne (by simp)).2 (store d mine)
      · rw [parts]; exact nodup.not_mem_erase
    · rw [State.lcu_setLcu_ne _ _ hd]
      have awaits : State.awaitsStoreReset ((s.setLcu c ((s.lcu c).runReset s.now)).answerPart (.lcu c) {}) d
          ↔ s.awaitsStoreReset d := by
        unfold State.awaitsStoreReset
        rw [parts, List.mem_erase_of_ne (by simp), List.mem_erase_of_ne (by simpa using hd)]
      have kept := line d
      rwa [Lcu.openSound, ← awaits] at kept

/-- The store's part frees every descriptor; what the units have sent after their parts ends none. -/
theorem Lcu.openSound_storeReset {l : Lcu} {g g' : Prop} {p : PulseStore} {c : Channel} (h : l.openSound g p c) (hg : g)
    (hg' : ¬ g') (he : l.toStore.early = 0) (m : Memory) : l.openSound g' { PulseStore.reset with slots := m } c := by
  obtain ⟨asked, -, forgotten⟩ := h
  obtain ⟨-, noHandle, noAnswer, -, -, endNone⟩ := forgotten hg
  rw [he, List.drop_zero] at endNone
  have noHandles : l.handles = [] := by
    simp only [Lcu.handles, noHandle, noAnswer, Option.toList_none, Option.bind_none, List.nil_append]
    exact List.filterMap_eq_nil_iff.2 endNone
  refine ⟨asked, fun _ => ⟨by simp [noHandles], fun k ho => ?_⟩, fun hn => absurd hn hg'⟩
  simp [PulseStore.openFor, PulseStore.descriptor, PulseStore.reset, Descriptor.freed] at ho

/-- The store's part after those of the units: no descriptor is open, and no request on the way ends one. -/
theorem State.openSound_storePart {t : State} (h : s.openSound) (mine : .pst ∈ s.resetParts)
    (noLine : ∀ c, Part.lcu c ∉ s.resetParts) (noEarly : ∀ c, (s.lcu c).toStore.early = 0)
    (parts : t.resetParts = s.resetParts.erase .pst) (lines : ∀ c, t.lcu c = s.lcu c) {m : Memory}
    (store : t.pst = { PulseStore.reset with slots := m }) : t.openSound := by
  obtain ⟨nodup, -, line⟩ := h
  refine ⟨?_, fun d hd => ?_, fun d => ?_⟩
  · rw [parts]; exact nodup.erase _
  · rw [parts] at hd; exact absurd (List.mem_of_mem_erase hd) (noLine d)
  · rw [lines, store]
    refine Lcu.openSound_storeReset (line d) ⟨mine, noLine d⟩ (fun awaits => ?_) (noEarly d) m
    rw [State.awaitsStoreReset, parts] at awaits
    exact nodup.not_mem_erase awaits.1

theorem exec_runResetPst_keeps_openSound {t : State} (h : s.openSound) (he : exec .runResetPst s = .next t) :
    t.openSound := by
  simp only [exec, execRunResetPst] at he
  split at he <;> cases he
  · next due =>
    obtain ⟨due, taken⟩ := due
    obtain ⟨mine, others⟩ := resetDue_mem due
    refine State.openSound_storePart h mine (fun c => others _ (by fin_cases c <;> simp)) (fun c => ?_)
      (resetParts_answerPart _ .pst {}) (fun _ => rfl) rfl
    simp only [allChannels, List.all_eq_true, beq_iff_eq] at taken
    exact taken c (by fin_cases c <;> simp)
  · exact h

end ResetParts

/-! ## The store takes a request (R30 to R33, R36) -/

theorem PulseStore.write_grants_nothing (p : PulseStore) (c : Channel) (k : Handle) (position : Nat) (duration : Half) (pick : BlockNo)
    (j : Handle) : (p.write c k position duration pick).2 ≠ .granted j := by
  unfold PulseStore.write
  repeat' split
  all_goals nofun

section Requests

variable {s t : State} {c : Channel} (h : s.openSound)
include h

theorem exec_descriptorRequest_keeps_openSound (he : exec (.descriptorRequest c) s = .next t) : t.openSound := by
  simp only [exec, execDescriptorRequest] at he
  split at he
  · next time request =>
    split at he <;> cases he
    · next k _ =>
      refine openSound_storeAnswered h request rfl (.granted k) (fun _ _ => ⟨time, rfl⟩) fun j d ho => ?_
      rw [PulseStore.openFor_iff, PulseStore.grant, PulseStore.descriptor_setDescriptor] at ho
      split at ho
      · next e => exact .inr ⟨ho.2.symm, by rw [e]; rfl⟩
      · exact .inl ((PulseStore.openFor_iff _ j d).2 ho)
    · exact openSound_storeAnswered h request rfl .noDescriptor nofun fun _ _ ho => .inl ho
  · cases he; exact h

theorem exec_elementWrite_keeps_openSound {pick : BlockNo} (he : exec (.elementWrite c pick) s = .next t) :
    t.openSound := by
  simp only [exec, execElementWrite] at he
  split at he <;> cases he
  · next request =>
    refine openSound_storeAnswered h request rfl _ (fun j hj => ?_) fun j d ho => .inl (opensNoMore_write _ _ _ _ _ _ j d ho)
    exact absurd hj (PulseStore.write_grants_nothing _ _ _ _ _ _ j)
  · exact h

theorem exec_closeRequest_keeps_openSound (he : exec (.closeRequest c) s = .next t) : t.openSound := by
  simp only [exec, execCloseRequest] at he
  split at he <;> cases he
  · next k time request =>
    refine openSound_storeTook h request rfl (opensNoMore_close _ _ _ _) fun j hj => ?_
    obtain rfl : k = j := Option.some.inj hj
    unfold PulseStore.close
    split
    · simp [PulseStore.openFor, PulseStore.descriptor, PulseStore.setDescriptor]
    · next notOpen => simpa using notOpen
  · exact h

theorem exec_abandonRequest_keeps_openSound (he : exec (.abandonRequest c) s = .next t) : t.openSound := by
  simp only [exec, execAbandonRequest] at he
  split at he <;> cases he
  · next k request =>
    refine openSound_storeTook h request rfl (opensNoMore_abandon _ _ _) fun j hj => ?_
    obtain rfl : k = j := Option.some.inj hj
    unfold PulseStore.abandon
    split
    · simp [PulseStore.openFor, PulseStore.descriptor, PulseStore.free, PulseStore.setDescriptor, Descriptor.freed]
    · next notOpen => simpa using notOpen
  · exact h

theorem exec_channelPurge_keeps_openSound (he : exec (.channelPurge c) s = .next t) : t.openSound := by
  simp only [exec, execChannelPurge] at he
  split at he <;> cases he
  · next request =>
    exact openSound_answerPart (openSound_storeTook h request rfl (opensNoMore_purge _ _) nofun) _ _ (by simp) (by simp)
  · exact h

end Requests

/-! ## The lines keep their open descriptors (R9, R29) -/

/-- The requests of a unit at the store. -/
inductive StoreEvent (c : Channel) : Instr → Prop
  | descriptor : StoreEvent c (.descriptorRequest c)
  | write (pick : BlockNo) : StoreEvent c (.elementWrite c pick)
  | close : StoreEvent c (.closeRequest c)
  | abandon : StoreEvent c (.abandonRequest c)
  | purge : StoreEvent c (.channelPurge c)

theorem exec_linesKeepOpen {i : Instr} {s t : State} (hp : i ≠ .pinReset) (hl : ∀ c, i ≠ .runResetLcu c)
    (hr : ∀ c, ¬StoreEvent c i) (he : exec i s = .next t) (d : Channel) : (s.lcu d).KeepsOpen (t.lcu d) := by
  have aside (hi : AsideEvent i) : (s.lcu d).KeepsOpen (t.lcu d) := (exec_linesAside hi he d).keepsOpen
  have moved {c : Channel} {l : Lcu} (hk : (s.lcu c).KeepsOpen l) : (s.lcu d).KeepsOpen ((s.setLcu c l).lcu d) := by
    rw [State.lcu_setLcu]
    split
    · next e => rw [e]; exact hk
    · exact .refl _
  have event {c : Channel} (hi : LineEvent c i) : (s.lcu d).KeepsOpen (t.lcu d) := by
    obtain ⟨l, e, rfl⟩ := exec_lineEvent hi he
    exact moved e.keepsOpen
  have command (hi : ChannelCommand i) : (s.lcu d).KeepsOpen (t.lcu d) := by
    cases exec_channelCommand hi he with
    | same => exact .refl _
    | refused e hr => exact .refl _
    | taken a hr hw hl => exact moved (hl.keepsOpen hw)
  by_cases hb : Block.lcu d ∈ writes i
  swap
  · rw [(exec_frame he).lcu d hb]; exact .refl _
  cases i with
  | pinReset => exact absurd rfl hp
  | runResetLcu c => exact absurd rfl (hl c)
  | pendingChangeStart c => exact event .pendingChangeStart
  | pendingChangeCancel c => exact event .pendingChangeCancel
  | acceptedEdge c => exact event .acceptedEdge
  | descriptorAnswer c => exact event .descriptorAnswer
  | writeAnswer c => exact event .writeAnswer
  | endGapExpiry c => exact event .endGapExpiry
  | discardEndGapExpiry c => exact event .discardEndGapExpiry
  | stuckLimitExpiry c => exact event .stuckLimitExpiry
  | blankClaim o c => exact event (.blankClaim o)
  | claimDrop o c => exact event (.claimDrop o)
  | descriptorRequest c => exact absurd .descriptor (hr c)
  | elementWrite c pick => exact absurd (.write pick) (hr c)
  | closeRequest c => exact absurd .close (hr c)
  | abandonRequest c => exact absurd .abandon (hr c)
  | channelPurge c => exact absurd .purge (hr c)
  | channelSet p =>
    cases p with
    | write => simp [writes, commandBlocks] at hb
    | take => exact command .set
  | channelEnable p =>
    cases p with
    | write => simp [writes, commandBlocks] at hb
    | take => exact command .enable
  | channelDisable p =>
    cases p with
    | write => simp [writes, commandBlocks] at hb
    | take => exact command .disable
  | channelFlush p =>
    cases p with
    | write => simp [writes, commandBlocks] at hb
    | take => exact command .flush
  | countersClear p =>
    cases p with
    | lcu => exact command .clear
    | _ => simp [writes] at hb
  | txStop p =>
    cases p with
    | write => simp [writes, commandBlocks] at hb
    | take => exact aside .txStop
  | txAbort p =>
    cases p with
    | write => simp [writes, commandBlocks] at hb
    | take => exact aside .txAbort
  | append x => exact aside (.append x)
  | activation o => exact aside (.activation o)
  | frameEnd o => exact aside (.frameEnd o)
  | tailEnd o => exact aside (.tailEnd o)
  | microsecondTick lines => rw [State.lcu_microsecondTick he]; exact keepsOpen_takeSample _ _
  | channelGet p | profileCommit p | profileRead p | profileClear p | entryCommit p | entryRead p | entryClear p
  | tableClear p | burstRelease p | learnStart p | learnAbort p | learnCommit p | learnDiscard p | txSubmit p =>
    cases p <;> simp [writes, commandBlocks] at hb
  | _ => simp [writes] at hb

/-! ## Every step -/

/-- A move of the command unit keeps the open descriptors: it leaves the parts of a RUN_RESET that wait, or there are none, or
the part is neither the store's nor a unit's. -/
theorem State.openSound_setBcu_of_moves {s : State} (h : s.openSound) (hs : s.bcu.sound) {b : Bcu} (m : s.bcu.Moves b) :
    (s.setBcu b).openSound := by
  cases m with
  | same => exact h
  | answer p a hp =>
    obtain none | ⟨notStore, notLine⟩ := hp
    · exact openSound_answerPart_of_none h (State.resetParts_of_noResetPart none) p a
    · exact openSound_answerPart h p a notStore notLine
  | opcode v => exact openSound_writeOpcode h hs v
  | complete e r c none =>
    exact openSound_setBcu_of_none h (State.resetParts_of_noResetPart none) _ fun f hf => absurd hf (by simp [Bcu.complete])
  | status v => exact openSound_setBcu h (by unfold Bcu.writeStatus; split <;> rfl)
  | enable v => exact openSound_setBcu h rfl
  | latch => exact openSound_setBcu h rfl
  | space v => exact openSound_setBcu h rfl
  | index v => exact openSound_setBcu h rfl
  | offset high v => exact openSound_setBcu h rfl
  | dataRead => exact openSound_setBcu h rfl
  | dataWrite v => exact openSound_setBcu h (by unfold Bcu.stageByte; simp only; split <;> rfl)
  | arg a v => exact openSound_setBcu h (by unfold Bcu.writeArg; split <;> rfl)

theorem exec_keeps_openSound {i : Instr} {s t : State} (h : s.openSound) (hs : s.bcu.sound) (he : exec i s = .next t) :
    t.openSound := by
  by_cases hp : i = .pinReset
  · subst hp; cases he; exact State.openSound_reset
  by_cases hl : ∃ c, i = .runResetLcu c
  · obtain ⟨c, rfl⟩ := hl
    exact exec_runResetLcu_keeps_openSound h he
  by_cases hst : i = .runResetPst
  · subst hst
    exact exec_runResetPst_keeps_openSound h he
  by_cases hr : ∃ c, StoreEvent c i
  · obtain ⟨c, request⟩ := hr
    cases request with
    | descriptor => exact exec_descriptorRequest_keeps_openSound h he
    | write pick => exact exec_elementWrite_keeps_openSound h he
    | close => exact exec_closeRequest_keeps_openSound h he
    | abandon => exact exec_abandonRequest_keeps_openSound h he
    | purge => exact exec_channelPurge_keeps_openSound h he
  have notLine : ∀ c, i ≠ .runResetLcu c := fun c hc => hl ⟨c, hc⟩
  have notRequest : ∀ c, ¬StoreEvent c i := fun c hc => hr ⟨c, hc⟩
  have store : s.pst.Moves t.pst := exec_storeMoves (fun c hc => notRequest c (by rw [hc]; exact .descriptor)) he
  have before : (t.setBcu s.bcu).openSound :=
    openSound_of h rfl (fun c => exec_linesKeepOpen hp notLine notRequest he c) store.opensNoMore
  have moved : (t.setBcu s.bcu).bcu.Moves t.bcu := by
    rw [State.bcu_setBcu]
    exact exec_bcuMoves hp notLine hst he
  have after := State.openSound_setBcu_of_moves before hs moved
  rwa [State.setBcu_setBcu, State.setBcu_self] at after

/-- What is OPEN for a channel is one descriptor: the unit's handles are one at most, and what it has forgotten is one. -/
theorem State.open_unique {s : State} (h : s.openSound) {c : Channel} {j k : Handle} (hj : s.pst.openFor j c = true)
    (hk : s.pst.openFor k c = true) : j = k := by
  obtain ⟨-, -, line⟩ := h
  obtain ⟨-, own, forgotten⟩ := line c
  by_cases awaits : s.awaitsStoreReset c
  · exact (forgotten awaits).1 j k hj hk
  · obtain ⟨few, mine⟩ := own awaits
    match (s.lcu c).handles, few, mine j hj, mine k hk with
    | [x], _, hjx, hkx => exact (List.mem_singleton.1 hjx).trans (List.mem_singleton.1 hkx).symm

/-- Settles O53, by the moves of the store, of the units and of the command unit. -/
theorem stepKeepsTheStoreCounts : Obligations.StepKeepsTheStoreCounts := by
  unfold Obligations.StepKeepsTheStoreCounts
  refine ⟨fun s t h he => ?_, fun s t h he => ?_, fun s h c j k hj hk => State.open_unique h hj hk⟩
  · exact step_keeps (P := fun s => s.pst.sound ∧ Memory.wf s.pst.slots) (fun _ _ hs => hs)
      (fun _ _ _ hs hx => exec_keeps_storeSound hs hx) h he
  · have kept := step_keeps (P := fun s => s.openSound ∧ s.bcu.sound) (fun _ _ hs => hs)
      (fun _ _ _ hs hx => ⟨exec_keeps_openSound hs.1 hs.2 hx, exec_keeps_bcuSound hs.2 hx⟩) h he
    exact kept.1

end Sys2Proof.Machine
end

section
/-! What a command can do to the Match Unit, and what every step keeps of the learn-divert flag (R104, R129, R130). -/

namespace Sys2Proof.Machine

/-! ## The moves of the Match Unit -/

/-- Everything that a command but an append can make of the Match Unit: the answer to a PRESS, a tick, counters that are
cleared, and what it does while it waits for no answer (R113). -/
inductive MatchUnit.Moves (m : MatchUnit) : MatchUnit → Prop
  | same : m.Moves m
  | reset : m.Moves .reset
  | tick (moment : Time) : m.Moves (m.tickLearn moment).tickHeld
  | clearCounters (c : Channel) (x : MatchCounters) : m.Moves (m.setCounter c x)
  | pressAnswered {c : Channel} {ok : Bool} (hc : m.awaiting = some c) (ha : m.answer = some ok) :
    m.Moves (m.pressAnswered c ok)
  | learnWord (hr : m.ready = true) (w : CodeWord) (toggle : Option Nat) (hd : m.divert = some w.channel) :
    m.Moves (m.learnWord w toggle)
  | lookup (hr : m.ready = true) (w : CodeWord) (report : Bool) (now deadline : Time) (hd : m.divert ≠ some w.channel) :
    m.Moves (m.lookup w report now deadline)
  | notice (hr : m.ready = true) (n : Notice) (f : FrameArrival) (hd : m.divert ≠ some n.channel) : m.Moves (m.takeNotice n f)
  | expire (hr : m.ready = true) (c : Channel) (deadline : Time) : m.Moves (m.expire c deadline)
  | failLearn (hr : m.ready = true) (reason : LearnFailReason) (stamp : Time) : m.Moves (m.failLearn reason stamp)
  | commit (hr : m.ready = true) {i : EntryNo} {x : EntryFields} {profiles : Vector Profile 8} {now : Time} {n : MatchUnit}
    (hn : m.commitEntry i x profiles now = .ok n) : m.Moves n
  | commitResult (hr : m.ready = true) {i : EntryNo} {x : EntryFields} {profiles : Vector Profile 8} {now : Time}
    {n : MatchUnit} (hn : m.commitResult i x profiles now = .ok n) : m.Moves n
  | clearEntry (hr : m.ready = true) (i : EntryNo) (now : Time) : m.Moves (m.clearEntry i now)
  | clearTable (hr : m.ready = true) (now : Time) : m.Moves (m.clearTable now)
  | startLearn (hr : m.ready = true) (c : Channel) (k seconds : Nat) (now : Time) : m.Moves (m.startLearn c k seconds now)
  | endLearn (hr : m.ready = true) : m.Moves m.endLearn
  | flush (hr : m.ready = true) (c : Channel) (now : Time) : m.Moves (m.removeKey c .flush now)
  | disable (hr : m.ready = true) (c : Channel) (now : Time) : m.Moves (m.disableChannel c now)
  | runReset (hr : m.ready = true) : m.Moves m.runReset

theorem MatchUnit.Moves.commitAnswer {s : State} {x : Except CmdError MatchUnit} (hx : ∀ m, x = .ok m → s.mu.Moves m) :
    s.mu.Moves (s.commitAnswer x).mu := by
  cases x with
  | error e => exact .same
  | ok m => exact hx m rfl

/-- The oldest word or notice is taken while the Match Unit waits for no answer. -/
theorem State.ready_of_matchMessage {s : State} {x : MatchMsg} (h : s.matchMessage = some x) : s.mu.ready = true := by
  unfold State.matchMessage at h
  split at h
  · next due => exact State.ready_of_matchReady (Bool.and_eq_true_iff.1 due).1
  · cases h

/-- The commands that the Match Unit owns (R200). -/
inductive MatchCommand : Instr → Prop
  | countersClear : MatchCommand (.countersClear .mu)
  | entryCommit : MatchCommand (.entryCommit .take)
  | entryClear : MatchCommand (.entryClear .take)
  | tableClear : MatchCommand (.tableClear .take)
  | learnStart : MatchCommand (.learnStart .take)
  | learnAbort : MatchCommand (.learnAbort .take)
  | learnCommit : MatchCommand (.learnCommit .take)
  | learnDiscard : MatchCommand (.learnDiscard .take)

theorem exec_matchCommand_moves {i : Instr} {s t : State} (hi : MatchCommand i) (he : exec i s = .next t) :
    s.mu.Moves t.mu := by
  have take {cmd owner} (ho : ∀ f, s.mu.Moves (owner f : State).mu) : s.mu.Moves (s.takeCommand cmd owner).mu :=
    State.takeCommand_induct (P := fun t => s.mu.Moves t.mu) .same (fun _ => .same) ho
  have part {f act} (ha : s.mu.ready = true → s.mu.Moves act.mu) : s.mu.Moves (s.matchPart f act).mu :=
    State.matchPart_induct (P := fun t => s.mu.Moves t.mu) .same ha
  cases hi <;> cases he <;> refine take fun f => ?_
  case countersClear =>
    split
    · exact .same
    · split
      · exact .clearCounters _ _
      · exact .same
  case entryCommit =>
    split
    · exact part fun hr => .commitAnswer fun m => .commit hr
    · exact .same
  case entryClear =>
    split
    · exact part fun hr => .clearEntry hr _ _
    · exact .same
  case tableClear => exact part fun hr => .clearTable hr _
  case learnStart =>
    split
    · refine part fun hr => ?_
      split
      · exact .same
      · exact .startLearn hr _ _ _ _
    · exact .same
  case learnAbort =>
    refine part fun hr => ?_
    split
    · exact .same
    · exact .endLearn hr
  case learnCommit =>
    split
    · exact part fun hr => .commitAnswer fun m => .commitResult hr
    · exact .same
  case learnDiscard =>
    refine part fun hr => ?_
    split
    · exact .endLearn hr
    · exact .same

theorem exec_matchMoves {i : Instr} {s t : State} (hi : ∀ x, i ≠ .append x) (he : exec i s = .next t) :
    s.mu.Moves t.mu := by
  by_cases hb : Block.mu ∈ writes i
  swap
  · rw [(exec_frame he).mu hb]; exact .same
  cases i with
  | append x => exact absurd rfl (hi x)
  | pinReset => cases he; exact .reset
  | codeWord =>
    simp only [exec, execCodeWord] at he
    split at he <;> cases he
    · next w message =>
      have hr := State.ready_of_matchMessage message
      rw [State.mu_setSdc, State.mu_setMu]
      split
      · next diverted => exact .learnWord hr w _ diverted
      · next free => exact .lookup hr w _ _ _ free
    · exact .same
  | repeatNotice =>
    simp only [exec, execRepeatNotice] at he
    split at he <;> cases he
    · next n message =>
      have hr := State.ready_of_matchMessage message
      rw [State.mu_setSdc, State.mu_setMu]
      split
      · exact .same
      · next free => exact .notice hr n _ free
    · exact .same
  | pressAnswer =>
    simp only [exec, execPressAnswer] at he
    split at he <;> cases he
    · next awaits answered => exact .pressAnswered awaits answered
    · exact .same
  | expiry c =>
    simp only [exec, execExpiry] at he
    split at he
    · split at he <;> cases he
      · next due => exact .expire (State.ready_of_matchReady (Bool.and_eq_true_iff.1 due).1) c _
      · exact .same
    · cases he; exact .same
  | learnTimeout =>
    simp only [exec, execLearnTimeout] at he
    split at he
    · split at he <;> cases he
      · next due => exact .failLearn (State.ready_of_matchReady (Bool.and_eq_true_iff.1 due).1) _ _
      · exact .same
    · cases he; exact .same
  | muChannelPart =>
    simp only [exec, execMuChannelPart] at he
    split at he
    · cases he; exact .same
    · split at he
      · cases he; exact .same
      · split at he
        · next due =>
          have hr := State.ready_of_matchReady due.1
          split at he <;> cases he
          · exact .flush hr _ _
          · exact .disable hr _ _
          · exact .same
        · cases he; exact .same
  | runResetMu =>
    simp only [exec, execRunResetMu] at he
    split at he <;> cases he
    · next due => exact .runReset (State.ready_of_matchReady due.2.2)
    · exact .same
  | millisecondTick =>
    simp only [exec, execMillisecondTick] at he
    split at he <;> cases he
    · exact .same
    · exact .tick _
  | countersClear p =>
    cases p with
    | mu => exact exec_matchCommand_moves .countersClear he
    | _ => simp [writes, lineBlocks] at hb
  | entryCommit p | entryClear p | tableClear p | learnStart p | learnAbort p | learnCommit p | learnDiscard p =>
    cases p with
    | write => cases he; exact .same
    | take => exact exec_matchCommand_moves (by constructor) he
  | channelSet p | channelGet p | channelEnable p | channelDisable p | channelFlush p | profileCommit p
  | profileRead p | profileClear p | entryRead p | burstRelease p | txSubmit p | txStop p | txAbort p =>
    cases p <;> simp [writes, commandBlocks, lineBlocks] at hb
  | _ => simp [writes, lineBlocks] at hb

/-! ## The divert and the session -/

/-- Without a session nothing is diverted, whatever the table, the keys and the counters. -/
theorem MatchUnit.divertSound_of_idle {m : MatchUnit} (hd : m.divert = none) (hl : m.learn = .idle) : m.divertSound := by
  refine ⟨fun c => ?_, fun c hc => ?_, ?_, fun _ => hl⟩
  · simp [hd, hl, LearnSession.active, LearnSession.idle]
  · simp [hd] at hc
  · simp [hl, LearnSession.idle]

/-- Key records come and go; the diverted channel gets none. -/
theorem MatchUnit.divertSound_of_keysOnly {m n : MatchUnit} {c : Option Channel} (h : m.divertSound) (k : KeysOnly c m n)
    (hc : ∀ d, c = some d → m.divert ≠ some d) : n.divertSound := by
  obtain ⟨flag, noKey, result, idle⟩ := h
  rw [MatchUnit.divertSound, k.divert, k.learn]
  exact ⟨flag, fun d hd => k.absent d (fun e => hc d e hd) (noKey d hd), result, idle⟩

/-- A session that stays active on its channel, still without a result, keeps the divert. -/
theorem MatchUnit.divertSound_of_active {m : MatchUnit} (h : m.divertSound) {l : LearnSession}
    (hl : l.active = true) (hm : m.learn.active = true) (hc : l.channel = m.learn.channel) (hr : l.result = m.learn.result) :
    ({ m with learn := l } : MatchUnit).divertSound := by
  obtain ⟨flag, noKey, result, -⟩ := h
  have notDone {x : LearnSession} (hx : x.active = true) : x.state ≠ .done := fun done => by
    simp [LearnSession.active, done] at hx
  have notIdle : l.state ≠ .idle := fun idle => by simp [LearnSession.active, idle] at hl
  refine ⟨fun c => ?_, noKey, ?_, fun idle => absurd idle notIdle⟩
  · show m.divert = some c ↔ l.active = true ∧ l.channel = c
    rw [flag, hl, hm, hc]
  · show l.result.isSome = true ↔ l.state = .done
    rw [hr, result]
    exact iff_of_false (notDone hm) (notDone hl)

theorem MatchUnit.divertSound_endLearn (m : MatchUnit) : m.endLearn.divertSound := divertSound_of_idle rfl rfl

theorem MatchUnit.divertSound_failLearn (m : MatchUnit) (reason : LearnFailReason) (stamp : Time) :
    (m.failLearn reason stamp).divertSound := divertSound_of_idle rfl rfl

theorem MatchUnit.divertSound_learnDone {m : MatchUnit} (w : CodeWord) (x : Candidate) (toggle : Option Nat) (n : Nat) :
    (m.learnDone w x toggle n).divertSound := by
  refine ⟨fun c => ?_, nofun, iff_of_true rfl rfl, nofun⟩
  exact iff_of_false nofun fun active => absurd active.1 (by simp [MatchUnit.learnDone, LearnSession.active])

/-- A word that the session takes keeps it listening or confirming, or ends it (R134 to R136). -/
theorem MatchUnit.divertSound_learnWord {m : MatchUnit} (h : m.divertSound) (w : CodeWord) (toggle : Option Nat)
    (active : m.learn.active = true) : (m.learnWord w toggle).divertSound := by
  unfold MatchUnit.learnWord
  simp only
  split
  · exact divertSound_of_active h rfl active rfl rfl
  · split
    · split
      · exact divertSound_learnDone _ _ _ _
      · exact divertSound_of_active h active active rfl rfl
    · split
      · exact divertSound_failLearn _ _ _
      · exact divertSound_of_active h active active rfl rfl

/-- A session that starts takes the record of its channel away (R132). -/
theorem MatchUnit.divertSound_startLearn (m : MatchUnit) (c : Channel) (k seconds : Nat) (now : Time) :
    (m.startLearn c k seconds now).divertSound := by
  refine ⟨fun d => ?_, fun d hd => ?_, iff_of_false nofun nofun, nofun⟩
  · exact ⟨fun hd => ⟨rfl, Option.some.inj hd⟩, fun hd => congrArg some hd.2⟩
  · obtain rfl : c = d := Option.some.inj hd
    exact ReserveIdle.key_removeKey m c .learn now

theorem MatchUnit.divertSound_tickLearn {m : MatchUnit} (h : m.divertSound) (moment : Time) :
    (m.tickLearn moment).divertSound := by
  unfold MatchUnit.tickLearn
  split
  · next due =>
    have active := (Bool.and_eq_true_iff.1 due).1
    exact divertSound_of_active h active active rfl rfl
  · exact h

theorem MatchUnit.divertSound_entryChanged {m : MatchUnit} (h : m.divertSound) (i : EntryNo) (e : Entry) (now : Time) :
    ((m.setEntry i e).entryChanged i now).divertSound :=
  divertSound_of_keysOnly (m := m.setEntry i e) h (.entryChanged none _ i now) nofun

theorem MatchUnit.divertSound_commitEntry {m n : MatchUnit} (h : m.divertSound) {i : EntryNo} {x : EntryFields}
    {profiles : Vector Profile 8} {now : Time} (hn : m.commitEntry i x profiles now = .ok n) : n.divertSound := by
  unfold MatchUnit.commitEntry at hn
  split at hn
  · cases hn
  · simp only at hn
    split at hn
    · split at hn <;> cases hn
      exact divertSound_entryChanged h _ _ _
    · cases hn

theorem MatchUnit.divertSound_commitResult {m n : MatchUnit} {i : EntryNo} {x : EntryFields}
    {profiles : Vector Profile 8} {now : Time} (hn : m.commitResult i x profiles now = .ok n) : n.divertSound := by
  unfold MatchUnit.commitResult at hn
  split at hn
  · split at hn <;> cases hn
    exact divertSound_endLearn _
  · cases hn

theorem MatchUnit.divertSound_disableChannel {m : MatchUnit} (h : m.divertSound) (c : Channel) (now : Time) :
    (m.disableChannel c now).divertSound := by
  unfold MatchUnit.disableChannel
  simp only
  split
  · exact divertSound_failLearn _ _ _
  · exact divertSound_of_keysOnly h (.removeKey none m c _ now) nofun

theorem MatchUnit.Moves.divertSound {m n : MatchUnit} (x : m.Moves n) (h : m.divertSound) : n.divertSound := by
  have keys {n} (k : KeysOnly none m n) : n.divertSound := divertSound_of_keysOnly h k nofun
  cases x with
  | same => exact h
  | reset => exact divertSound_of_idle rfl rfl
  | tick moment => exact divertSound_of_keysOnly (divertSound_tickLearn h moment) (.tickHeld none _) nofun
  | clearCounters c x => exact h
  | pressAnswered => exact keys (.pressAnswered none m _ _)
  | learnWord hr w toggle hd => exact divertSound_learnWord h w toggle ((h.1 _).1 hd).1
  | lookup hr w report now deadline hd =>
    exact divertSound_of_keysOnly h (.lookup m w report now deadline) fun d e => Option.some.inj e ▸ hd
  | notice hr n f hd => exact divertSound_of_keysOnly h (.takeNotice m n f) fun d e => Option.some.inj e ▸ hd
  | expire hr c deadline => exact keys (.expire none m c deadline)
  | failLearn hr reason stamp => exact divertSound_failLearn m reason stamp
  | commit hr hn => exact divertSound_commitEntry h hn
  | commitResult hr hn => exact divertSound_commitResult hn
  | clearEntry hr i now =>
    unfold MatchUnit.clearEntry
    split
    · exact divertSound_entryChanged h _ _ _
    · exact h
  | clearTable hr now =>
    exact divertSound_of_keysOnly (m := { m with table := Vector.replicate 128 .cleared }) h (.tableCleared none _ now) nofun
  | startLearn hr c k seconds now => exact divertSound_startLearn m c k seconds now
  | endLearn hr => exact divertSound_endLearn m
  | flush hr c now => exact keys (.removeKey none m c _ now)
  | disable hr c now => exact divertSound_disableChannel h c now
  | runReset hr => exact divertSound_of_idle rfl rfl

/-- An append that is taken leaves the Match Unit its keys and its session. -/
theorem exec_append_keeps_divertSound {s t : State} {x : Sender} (h : s.mu.divertSound) (he : exec (.append x) s = .next t) :
    t.mu.divertSound := by
  simp only [exec, execAppend] at he
  split at he
  · cases he; exact h
  · next a _ _ =>
    split at he <;> cases he
    · have taken : ((s.setEvq (s.evq.take a s.now).1).setOutbox (s.outbox x).pop x).mu.divertSound := by
        cases x with
        | mu => exact h
        | _ => exact h
      rcases State.deliverAnswer_cases ((s.setEvq (s.evq.take a s.now).1).setOutbox (s.outbox x).pop x) x (s.outbox x).early
        a.body (s.evq.take a s.now).2 with e | ⟨_, e⟩ | ⟨_, _, e⟩ <;> rw [e] <;> exact taken
    · exact h

/-- Settles O55, by the moves of the Match Unit. -/
theorem stepKeepsTheDivert : Obligations.StepKeepsTheDivert := by
  unfold Obligations.StepKeepsTheDivert
  refine fun s t h he => step_keeps (P := fun s => s.mu.divertSound) (fun _ _ hs => hs) (fun i s t hs hx => ?_) h he
  by_cases hi : ∃ x, i = .append x
  · obtain ⟨x, rfl⟩ := hi
    exact exec_append_keeps_divertSound hs hx
  · exact (exec_matchMoves (fun x hx => hi ⟨x, hx⟩) hx).divertSound hs

end Sys2Proof.Machine
end

section
/-! Every step keeps the release reserve (R113, R151). -/

namespace Sys2Proof.Machine

/-! ## The Match Unit, but for its appends -/

/-- The RELEASE records on the way and the records whose PRESS was admitted, of one channel. -/
def MatchUnit.reserved (m : MatchUnit) (c : Channel) : Nat := m.releasesOnTheWay c + m.pressAdmitted c

/-- The clauses of the reserve that speak of the Match Unit alone. -/
structure MatchUnit.ReserveSound (m : MatchUnit) : Prop where
  press : m.pressSound
  one : ∀ c, m.reserved c ≤ 1
  source : ∀ a ∈ m.toQueue.msgs, a.body.isRelease = true → ∃ c, a.source = channelByte c

theorem State.reserveSound_iff {s : State} : s.reserveSound ↔ s.mu.ReserveSound
    ∧ s.evq.occupancy + ∑ c : Channel, s.mu.reserved c ≤ Config.queueCapacity
    ∧ ∀ x, x ≠ .mu → ∀ a ∈ (s.outbox x).msgs, a.body.isRelease = false :=
  ⟨fun ⟨press, one, room, source, others⟩ => ⟨⟨press, one, source⟩, room, others⟩,
    fun ⟨⟨press, one, source⟩, room, others⟩ => ⟨press, one, room, source, others⟩⟩

theorem MatchUnit.reserveKept {m : MatchUnit} (h : m.ReserveSound) : ReserveKept m.reserved m :=
  ⟨h.press, fun _ => le_rfl, h.source⟩

/-- After pin reset nothing is reserved. -/
theorem MatchUnit.reserveKept_reset (b : Channel → Nat) : ReserveKept b .reset := by
  have noKey (c : Channel) : MatchUnit.reset.key c = none := by simp [MatchUnit.reset, MatchUnit.key]
  refine ⟨⟨fun c r hr => ?_, rfl, nofun⟩, fun c => ?_, nofun⟩
  · simp [noKey] at hr
  · have nothing : MatchUnit.reset.pressAdmitted c = 0 := by
      rw [MatchUnit.pressAdmitted, noKey]
      rfl
    rw [nothing]
    exact Nat.zero_le _

/-- No command but an append reserves more than is reserved. -/
theorem MatchUnit.Moves.reserveKept {m n : MatchUnit} (x : m.Moves n) (h : m.ReserveSound) :
    ReserveKept m.reserved n := by
  have idle (hr : m.ready = true) : ReserveIdle m.reserved m := MatchUnit.reserveIdle h.press hr h.source
  cases x with
  | same => exact m.reserveKept h
  | reset => exact MatchUnit.reserveKept_reset _
  | tick moment => exact ((m.reserveKept h).tickLearn moment).tickHeld
  | clearCounters c x => exact (m.reserveKept h).setCounter c x
  | pressAnswered hc ha => exact (m.reserveKept h).pressAnswered hc ha
  | learnWord hr w toggle hd => exact ((idle hr).learnWord w toggle).kept
  | lookup hr w report now deadline hd => exact (idle hr).lookup w report now deadline
  | notice hr n f hd => exact (idle hr).takeNotice n f
  | expire hr c deadline => exact ((idle hr).expire c deadline).kept
  | failLearn hr reason stamp => exact ((idle hr).failLearn reason stamp).kept
  | commit hr hn => exact ((idle hr).commitEntry hn).kept
  | commitResult hr hn => exact ((idle hr).commitResult hn).kept
  | clearEntry hr i now => exact ((idle hr).clearEntry i now).kept
  | clearTable hr now => exact ((idle hr).clearTable now).kept
  | startLearn hr c k seconds now => exact ((idle hr).startLearn c k seconds now).kept
  | endLearn hr => exact (idle hr).endLearn.kept
  | flush hr c now => exact ((idle hr).removeKey c _ now).kept
  | disable hr c now => exact ((idle hr).disableChannel c now).kept
  | runReset hr => exact (idle hr).runReset.kept

/-- What is kept within the present counts is sound. -/
theorem ReserveKept.sound {m n : MatchUnit} (k : ReserveKept m.reserved n) (h : m.ReserveSound) : n.ReserveSound :=
  ⟨k.press, fun c => (k.bound c).trans (h.one c), k.source⟩

/-! ## The occupancy, but for the appends -/

theorem EventQueue.occupancy_removeHead_le (q : EventQueue) (now : Time) : (q.removeHead now).occupancy ≤ q.occupancy := by
  unfold EventQueue.removeHead EventQueue.occupancy
  split
  · exact le_rfl
  · next e => simp [EventQueue.rejudgeAge, e]

theorem EventQueue.occupancy_writeThreshold (q : EventQueue) (v : Byte) : (q.writeThreshold v).occupancy = q.occupancy := by
  unfold EventQueue.writeThreshold
  split <;> rfl

/-- Only an append makes the queue fuller. -/
theorem exec_occupancy_le {i : Instr} {s t : State} (hi : ∀ x, i ≠ .append x) (he : exec i s = .next t) :
    t.evq.occupancy ≤ s.evq.occupancy := by
  by_cases hb : Block.evq ∈ writes i
  swap
  · rw [(exec_frame he).evq hb]
  cases i with
  | append x => exact absurd rfl (hi x)
  | pinReset => cases he; exact Nat.zero_le _
  | eventThresholdWrite v => cases he; exact (EventQueue.occupancy_writeThreshold _ v).le
  | eventAgeWrite v => cases he; exact le_rfl
  | eventNext v => cases he; exact EventQueue.occupancy_removeHead_le _ _
  | ageEvent =>
    simp only [exec, execAgeEvent] at he
    split at he <;> cases he <;> exact le_rfl
  | registerWrite a v =>
    simp only [exec, execRegisterWrite] at he
    split at he <;> cases he
    case h_4 => exact (EventQueue.occupancy_writeThreshold _ v).le
    case h_6 => exact EventQueue.occupancy_removeHead_le _ _
    all_goals exact le_rfl
  | runResetEvq =>
    simp only [exec, execRunResetEvq] at he
    split at he <;> cases he
    · exact Nat.zero_le _
    · exact le_rfl
  | countersClear p => cases p <;> simp [writes, lineBlocks] at hb
  | channelSet p | channelGet p | channelEnable p | channelDisable p | channelFlush p | profileCommit p
  | profileRead p | profileClear p | entryCommit p | entryRead p | entryClear p | tableClear p | burstRelease p | learnStart p
  | learnAbort p | learnCommit p | learnDiscard p | txSubmit p | txStop p | txAbort p =>
    cases p <;> simp [writes, commandBlocks, lineBlocks] at hb
  | _ => simp [writes, lineBlocks] at hb

/-! ## The other senders -/

theorem Lcu.Commands.toQueue {l m : Lcu} {now : Time} (x : l.Commands now m) : m.toQueue.msgs = l.toQueue.msgs := by
  have abandon : l.abandonBurst.toQueue = l.toQueue := by
    unfold Lcu.abandonBurst
    split <;> rfl
  cases x with
  | same => rfl
  | clear => rfl
  | settings x =>
    unfold Lcu.applySettings
    simp only
    split
    · split <;> rfl
    · rfl
  | enable =>
    unfold Lcu.enable
    split
    · split <;> rfl
    · rfl
  | disable =>
    unfold Lcu.disable
    simp only
    split
    · rfl
    · rw [abandon]
  | flush =>
    unfold Lcu.flush
    simp only
    split
    · rfl
    · split
      · rw [abandon]
      · simp only [Lcu.toDiscard, abandon]

/-- No unit sends a RELEASE. -/
theorem exec_linesNoRelease {i : Instr} {s t : State} (h : ∀ c, NoRelease (s.lcu c).toQueue) (he : exec i s = .next t)
    (c : Channel) : NoRelease (t.lcu c).toQueue := by
  by_cases hp : i = .pinReset
  · subst hp
    cases he
    have reset : (State.reset.setPending s.pending).lcu c = .reset := by simp [State.reset, State.lcu]
    rw [reset]
    exact nofun
  by_cases hs : i = .channelSet .take
  · subst hs
    cases exec_channelCommand .set he with
    | same => exact h c
    | refused e hr => exact h c
    | taken a hr hw hl =>
      intro x hx
      rw [State.lcu_answerPart, State.lcu_setLcu] at hx
      split at hx
      · rw [hl.toQueue] at hx
        exact h _ x hx
      · exact h c x hx
  · intro x hx
    obtain before | stuck := (exec_linesQuiet hp hs he c).appends x hx
    · exact h c x before
    · rw [stuck]; rfl

theorem exec_othersNoRelease {i : Instr} {s t : State} (h : ∀ x, x ≠ .mu → ∀ a ∈ (s.outbox x).msgs, a.body.isRelease = false)
    (he : exec i s = .next t) : ∀ x, x ≠ .mu → ∀ a ∈ (t.outbox x).msgs, a.body.isRelease = false := by
  intro x hx
  cases x with
  | lcu c => exact exec_linesNoRelease (fun c => h (.lcu c) nofun) he c
  | sdc => exact exec_decoderNoRelease (h .sdc nofun) he
  | mu => exact absurd rfl hx
  | txo o => exact exec_outputsNoRelease (fun o => h (.txo o) nofun) he o

/-! ## The appends -/

/-- The Match Unit when the Event Queue has taken its oldest append (R113). -/
def MatchUnit.appendTaken (m : MatchUnit) (a : Append) (ok : Bool) : MatchUnit :=
  { m with toQueue := m.toQueue.pop, answer := if a.isPress then some ok else m.answer }

theorem State.mu_deliver_mu (s : State) (q : EventQueue) (early : Nat) (a : Append) (ok : Bool) :
    (((s.setEvq q).setOutbox (s.outbox .mu).pop .mu).deliverAnswer .mu early a.body ok).mu = s.mu.appendTaken a ok := by
  obtain ⟨source, stamp, body⟩ := a
  cases body <;> rfl

theorem State.mu_deliver_ne (s : State) {x : Sender} (hx : x ≠ .mu) (q : EventQueue) (early : Nat) (b : EventBody)
    (ok : Bool) : (((s.setEvq q).setOutbox (s.outbox x).pop x).deliverAnswer x early b ok).mu = s.mu := by
  have taken : ((s.setEvq q).setOutbox (s.outbox x).pop x).mu = s.mu := by
    cases x with
    | mu => exact absurd rfl hx
    | _ => rfl
  rcases State.deliverAnswer_cases ((s.setEvq q).setOutbox (s.outbox x).pop x) x early b ok with e | ⟨e, _⟩ | ⟨_, _, e⟩
  · rw [e, taken]
  · exact absurd e hx
  · rw [e]; exact taken

theorem Append.isRelease_of_isPress {a : Append} (h : a.isPress = true) : a.body.isRelease = false := by
  obtain ⟨source, stamp, body⟩ := a
  cases body <;> simp [Append.isPress, EventBody.isRelease] at h ⊢

/-- An append leaves the queue with room for every channel's reserve, or no fuller than it was; a PRESS that is admitted leaves
it with that room (R150, R151). -/
theorem EventQueue.occupancy_take_le (q : EventQueue) {a : Append} (now : Time) (ha : a.body.isRelease = false) :
    (q.take a now).1.occupancy ≤ 60 ∨ (q.take a now).1.occupancy ≤ q.occupancy ∧ (q.take a now).2 = false :=
  q.occupancy_take_general a now ha

theorem MatchUnit.pressAdmitted_le_one (m : MatchUnit) (c : Channel) : m.pressAdmitted c ≤ 1 := by
  unfold MatchUnit.pressAdmitted
  split <;> omega

/-- The four channels reserve at most one place each. -/
theorem MatchUnit.sum_reserved_le {m : MatchUnit} (h : ∀ c, m.reserved c ≤ 1) : ∑ c : Channel, m.reserved c ≤ 4 :=
  (Finset.sum_le_sum fun c _ => h c).trans (by simp)

section Taken

variable {m : MatchUnit} {a : Append} {rest : List Append} (h : m.ReserveSound) (hm : m.toQueue.msgs = a :: rest)
include h hm

/-- A PRESS that is taken was the only append on the way, of a record that nothing had been admitted for. -/
theorem MatchUnit.press_taken (ha : a.isPress = true) :
    ∃ c, m.awaiting = some c ∧ m.answer = none ∧ rest = [] ∧ m.reserved c = 0 := by
  obtain ⟨-, wait⟩ := h.press
  cases hw : m.awaiting with
  | none =>
    rw [hw] at wait
    exact absurd (wait.2 a (by simp [hm])) (by simp [ha])
  | some c =>
    rw [hw] at wait
    obtain ⟨⟨r, key, -, unreported⟩, outstanding⟩ := wait
    cases hans : m.answer with
    | some ok => simp [hans, hm] at outstanding
    | none =>
      simp only [hans, hm] at outstanding
      obtain ⟨before, x, split, -, quiet⟩ := outstanding
      cases before with
      | nil =>
        obtain ⟨rfl, rfl⟩ := List.cons.inj split
        refine ⟨c, rfl, rfl, rfl, ?_⟩
        simp [MatchUnit.reserved, MatchUnit.releasesOnTheWay, MatchUnit.pressAdmitted, hm, key, unreported, hw, hans,
          Append.isRelease_of_isPress ha]
      | cons b bs =>
        obtain ⟨rfl, -⟩ := List.cons.inj split
        exact absurd (quiet a (by simp)) (by simp [ha])

/-- The waiting stays sound: a PRESS's answer is on its way, or what is on the way ends as before. -/
theorem MatchUnit.pressSound_appendTaken (ok : Bool) : (m.appendTaken a ok).pressSound := by
  obtain ⟨reported, wait⟩ := h.press
  refine ⟨reported, ?_⟩
  cases ha : a.isPress with
  | true =>
    obtain ⟨c, awaits, unanswered, rfl, -⟩ := MatchUnit.press_taken h hm ha
    rw [awaits] at wait
    simp only [MatchUnit.appendTaken, awaits, ha, if_true]
    exact ⟨wait.1, by simp [hm]⟩
  | false =>
    simp only [MatchUnit.appendTaken, ha, Bool.false_eq_true, if_false, Mailbox.msgs_pop, hm, List.tail_cons]
    cases hw : m.awaiting with
    | none =>
      rw [hw, hm] at wait
      exact ⟨wait.1, fun x hx => wait.2 x (List.mem_cons_of_mem a hx)⟩
    | some c =>
      rw [hw] at wait
      refine ⟨wait.1, ?_⟩
      obtain ⟨-, outstanding⟩ := wait
      cases hans : m.answer with
      | some ok => simp [hans, hm] at outstanding
      | none =>
        simp only [hans, hm] at outstanding
        obtain ⟨before, x, split, press, quiet⟩ := outstanding
        cases before with
        | nil =>
          obtain ⟨rfl, -⟩ := List.cons.inj split
          simp [ha] at press
        | cons b bs =>
          obtain ⟨rfl, rest⟩ := List.cons.inj split
          exact ⟨bs, x, rest, press, fun y hy => quiet y (List.mem_cons_of_mem a hy)⟩

end Taken

/-- What a channel has reserved once its append is taken: a RELEASE on the way is one less. -/
theorem MatchUnit.reserved_appendTaken {m : MatchUnit} {a : Append} {rest : List Append} (hm : m.toQueue.msgs = a :: rest)
    (ha : a.isPress = false) (ok : Bool) (c : Channel) :
    (m.appendTaken a ok).reserved c + (if a.body.isRelease && a.source == channelByte c then 1 else 0) = m.reserved c := by
  simp only [MatchUnit.reserved, MatchUnit.releasesOnTheWay, MatchUnit.pressAdmitted, MatchUnit.appendTaken, ha,
    Bool.false_eq_true, if_false, Mailbox.msgs_pop, hm, List.tail_cons, List.countP_cons]
  exact Nat.add_right_comm _ _ _

/-- The Match Unit's append keeps the reserve. -/
theorem MatchUnit.reserve_append {m : MatchUnit} {q : EventQueue} {a : Append} {rest : List Append} {now : Time}
    (h : m.ReserveSound) (room : q.occupancy + ∑ c : Channel, m.reserved c ≤ 64) (hm : m.toQueue.msgs = a :: rest) :
    (m.appendTaken a (q.take a now).2).ReserveSound
      ∧ (q.take a now).1.occupancy + ∑ c : Channel, (m.appendTaken a (q.take a now).2).reserved c ≤ 64 := by
  have press := MatchUnit.pressSound_appendTaken h hm (q.take a now).2
  have source : ∀ x ∈ (m.appendTaken a (q.take a now).2).toQueue.msgs, x.body.isRelease = true →
      ∃ c, x.source = channelByte c := fun x hx => h.source x (List.mem_of_mem_tail hx)
  cases ha : a.isPress with
  | true =>
    obtain ⟨c, awaits, unanswered, rfl, -⟩ := MatchUnit.press_taken h hm ha
    have none (d : Channel) : (m.appendTaken a (q.take a now).2).releasesOnTheWay d = 0 := by
      simp [MatchUnit.releasesOnTheWay, MatchUnit.appendTaken, hm]
    have one (d : Channel) : (m.appendTaken a (q.take a now).2).reserved d ≤ 1 := by
      rw [MatchUnit.reserved, none, Nat.zero_add]
      exact MatchUnit.pressAdmitted_le_one _ d
    refine ⟨⟨press, one, source⟩, ?_⟩
    obtain general | ⟨fuller, refused⟩ := q.occupancy_take_le now (Append.isRelease_of_isPress ha)
    · exact Nat.add_le_add general (MatchUnit.sum_reserved_le one)
    · have same (d : Channel) : (m.appendTaken a (q.take a now).2).reserved d ≤ m.reserved d := by
        rw [MatchUnit.reserved, none, Nat.zero_add, refused]
        refine Nat.le_add_left_of_le ?_
        simp [MatchUnit.pressAdmitted, MatchUnit.appendTaken, MatchUnit.key, ha, unanswered]
      exact (Nat.add_le_add fuller (Finset.sum_le_sum fun d _ => same d)).trans room
  | false =>
    have less := MatchUnit.reserved_appendTaken hm ha (q.take a now).2
    have one (c : Channel) : (m.appendTaken a (q.take a now).2).reserved c ≤ 1 :=
      (Nat.le_of_add_right_le (less c).le).trans (h.one c)
    refine ⟨⟨press, one, source⟩, ?_⟩
    have total : ∑ c : Channel, (m.appendTaken a (q.take a now).2).reserved c
        + ∑ c : Channel, (if a.body.isRelease && a.source == channelByte c then 1 else 0) = ∑ c : Channel, m.reserved c := by
      rw [← Finset.sum_add_distrib]
      exact Finset.sum_congr rfl fun c _ => less c
    have atMost := MatchUnit.sum_reserved_le h.one
    cases hr : a.body.isRelease with
    | true =>
      obtain ⟨c, hc⟩ := h.source a (by simp [hm]) hr
      have place : 1 ≤ ∑ c : Channel, (if a.body.isRelease && a.source == channelByte c then 1 else 0) :=
        Finset.single_le_sum_of_canonicallyOrdered (f := fun c => if a.body.isRelease && a.source == channelByte c then 1 else 0)
          (Finset.mem_univ c) |>.trans' (by simp [hr, hc])
      have taken := q.occupancy_take_release a now
      simp only [Config.generalLimit] at taken
      omega
    | false =>
      have taken := q.occupancy_take_le now hr
      omega

/-- Another sender's append takes no place of the reserve. -/
theorem MatchUnit.reserve_append_other {m : MatchUnit} {q : EventQueue} {a : Append} {now : Time} (h : m.ReserveSound)
    (room : q.occupancy + ∑ c : Channel, m.reserved c ≤ 64) (ha : a.body.isRelease = false) :
    (q.take a now).1.occupancy + ∑ c : Channel, m.reserved c ≤ 64 := by
  have atMost := MatchUnit.sum_reserved_le h.one
  have taken := q.occupancy_take_le now ha
  omega

theorem exec_append_keeps_reserve {x : Sender} {s t : State} (h : s.mu.ReserveSound)
    (room : s.evq.occupancy + ∑ c : Channel, s.mu.reserved c ≤ 64)
    (others : ∀ x, x ≠ .mu → ∀ a ∈ (s.outbox x).msgs, a.body.isRelease = false) (he : exec (.append x) s = .next t) :
    t.mu.ReserveSound ∧ t.evq.occupancy + ∑ c : Channel, t.mu.reserved c ≤ 64 := by
  simp only [exec, execAppend] at he
  split at he
  · cases he; exact ⟨h, room⟩
  · next a rest sent =>
    split at he <;> cases he
    · rw [State.evq_deliverAnswer, State.evq_setOutbox, State.evq_setEvq]
      by_cases hx : x = .mu
      · subst hx
        rw [State.mu_deliver_mu]
        exact MatchUnit.reserve_append h room sent
      · rw [State.mu_deliver_ne _ hx]
        exact ⟨h, MatchUnit.reserve_append_other h room (others x hx a (by simp [sent]))⟩
    · exact ⟨h, room⟩

theorem exec_keeps_reserveSound {i : Instr} {s t : State} (h : s.reserveSound) (he : exec i s = .next t) : t.reserveSound := by
  obtain ⟨matchUnit, room, others⟩ := State.reserveSound_iff.1 h
  have others' := exec_othersNoRelease others he
  by_cases hi : ∃ x, i = .append x
  · obtain ⟨x, rfl⟩ := hi
    obtain ⟨matchUnit', room'⟩ := exec_append_keeps_reserve matchUnit room others he
    exact State.reserveSound_iff.2 ⟨matchUnit', room', others'⟩
  · have notAppend : ∀ x, i ≠ .append x := fun x hx => hi ⟨x, hx⟩
    have kept := (exec_matchMoves notAppend he).reserveKept matchUnit
    refine State.reserveSound_iff.2 ⟨kept.sound matchUnit, ?_, others'⟩
    exact (Nat.add_le_add (exec_occupancy_le notAppend he) (Finset.sum_le_sum fun c _ => kept.bound c)).trans room

/-- Settles O56, by the moves of the Match Unit and by the append that is taken. -/
theorem stepKeepsTheReleaseReserve : Obligations.StepKeepsTheReleaseReserve := by
  unfold Obligations.StepKeepsTheReleaseReserve
  exact fun s t h he => step_keeps (P := State.reserveSound) (fun _ _ hs => hs)
    (fun _ _ _ hs hx => exec_keeps_reserveSound hs hx) h he

end Sys2Proof.Machine
end

section
/-! Every step keeps the one decode in flight (R29, R35, R47, R68 to R75). -/

namespace Sys2Proof.Machine

/-! ## The decoder's own events -/

/-- The decoder stays sound and keeps the handle that it holds. -/
structure Decoder.Kept (d e : Decoder) : Prop where
  sound : e.sound
  holds : ∀ h, d.holds = some h → e.holds = some h

theorem Decoder.Kept.refl {d : Decoder} (h : d.sound) : d.Kept d := ⟨h, fun _ => id⟩

/-- The profiles, the counters and the drops on their way do not matter. -/
theorem Decoder.kept_of_same {d e : Decoder} (h : d.sound) (state : e.state = d.state) (request : e.request = d.request)
    (answer : e.answer = d.answer) (toMatch : e.toMatch = d.toMatch) (toQueue : e.toQueue = d.toQueue) : d.Kept e := by
  refine ⟨?_, fun k hk => ?_⟩
  · rw [Decoder.sound, Decoder.outstanding, state, request, answer, toMatch, toQueue]
    exact h
  · rw [Decoder.holds, state, request, answer]
    exact hk

/-- A decoder that reports nothing waits for the taking of nothing. -/
theorem Decoder.outstanding_eq_zero {d : Decoder} (h : d.sound) (hs : ∀ job k, d.state ≠ .reporting job k) :
    d.outstanding = 0 := by
  obtain ⟨few, reporting, -⟩ := h
  by_contra some
  obtain ⟨job, k, hr⟩ := reporting (by omega)
  exact hs job k hr

/-- While a result is reported the store's answers and requests are done with (R72, R74). -/
theorem Decoder.request_of_reporting {d : Decoder} (h : d.sound) {job : DecodeJob} {k : Option Handle}
    (hs : d.state = .reporting job k) : d.request = none := by
  obtain ⟨-, -, -, take, finish, -⟩ := h
  cases hr : d.request with
  | none => rfl
  | some r =>
    cases r with
    | take => simp [take hr] at hs
    | finish x disposition =>
      obtain ⟨job', result, report, hf⟩ := finish x disposition hr
      simp [hf] at hs

/-- A decoder in REPORTING holds nothing. -/
theorem Decoder.holds_of_reporting {d : Decoder} {job : DecodeJob} {k : Option Handle} (hs : d.state = .reporting job k) :
    d.holds = none := by
  simp [Decoder.holds, hs]

/-- A decoder that the store has answered asks nothing more (R35, R37). -/
theorem Decoder.request_of_answer {d : Decoder} (h : d.sound) {a : DecoderAnswer} (ha : d.answer = some a)
    (hn : a ≠ .admitted) (hm : a ≠ .refused) : d.request = none := by
  obtain ⟨-, -, waits, -⟩ := h
  by_contra asks
  have answers := waits asks
  simp [ha, hn, hm] at answers

/-- A decoder without a request that is not decoding: one thing outstanding at most, and that in REPORTING. -/
theorem Decoder.sound_of_no_request {e : Decoder} (request : e.request = none) (few : e.outstanding ≤ 1)
    (reporting : e.outstanding = 1 → ∃ job k, e.state = .reporting job k) (notDecoding : ∀ job, e.state ≠ .decoding job) :
    e.sound :=
  ⟨few, reporting, fun hr => absurd request hr, fun hr => absurd (request.symm.trans hr) nofun,
    fun _ _ hr => absurd (request.symm.trans hr) nofun, fun job hj => absurd hj (notDecoding job)⟩

section Events

variable {d : Decoder} (h : d.sound)
include h

/-- DECODER_TAKE_START (R68). -/
theorem Decoder.kept_takeStart (idle : d.state = .idle) (unanswered : d.answer = none) :
    d.Kept { d with request := some .take } := by
  have nothing := Decoder.outstanding_eq_zero h (by simp [idle])
  refine ⟨⟨nothing.le.trans (Nat.zero_le 1), fun one => absurd (nothing.symm.trans one) (by simp), fun _ => .inl unanswered,
    fun _ => idle, nofun, fun job hj => unanswered⟩, fun k hk => ?_⟩
  simp [Decoder.holds, idle, unanswered] at hk

/-- TAKE_ANSWER with a handle (R68, R69). -/
theorem Decoder.kept_took {job : DecodeJob} (idle : d.state = .idle) (took : d.answer = some (.took job.handle)) :
    d.Kept { d with answer := none, state := .decoding job } := by
  have nothing : Decoder.outstanding { d with answer := none, state := .decoding job } = 0 := by
    have before := Decoder.outstanding_eq_zero h (by simp [idle])
    simpa [Decoder.outstanding, took] using before
  have request : d.request = none := Decoder.request_of_answer h took nofun nofun
  refine ⟨⟨nothing.le.trans (Nat.zero_le 1), fun one => absurd (nothing.symm.trans one) (by simp), fun hr => absurd request hr,
    fun hr => ?_, fun k x hr => ?_, fun _ _ => rfl⟩, fun k hk => ?_⟩
  · exact absurd (request.symm.trans hr) nofun
  · exact absurd (request.symm.trans hr) nofun
  · simpa [Decoder.holds, idle, took] using hk

/-- TAKE_ANSWER with EMPTY (R68). -/
theorem Decoder.kept_empty (idle : d.state = .idle) (empty : d.answer = some .empty) : d.Kept { d with answer := none } := by
  have nothing : Decoder.outstanding { d with answer := none } = 0 := by
    have before := Decoder.outstanding_eq_zero h (by simp [idle])
    simpa [Decoder.outstanding, empty] using before
  obtain ⟨-, -, -, take, finish, -⟩ := h
  refine ⟨⟨nothing.le.trans (Nat.zero_le 1), fun one => absurd (nothing.symm.trans one) (by simp), fun _ => .inl rfl, take,
    finish, fun _ _ => rfl⟩, fun k hk => ?_⟩
  simp [Decoder.holds, idle, empty] at hk

/-- DECODE_END (R70). -/
theorem Decoder.kept_decodeEnd {job : DecodeJob} (decoding : d.state = .decoding job) (result : DecodeResult) (report : Bool)
    (x : Disposition) :
    d.Kept { d with state := .finishing job result report, request := some (.finish job.handle x) } := by
  have nothing : d.outstanding = 0 := Decoder.outstanding_eq_zero h (by simp [decoding])
  obtain ⟨-, -, -, -, -, answer⟩ := h
  refine ⟨⟨nothing.le.trans (Nat.zero_le 1), fun one => absurd (nothing.symm.trans one) (by simp),
    fun _ => .inl (answer job decoding), nofun, fun _ _ _ => ⟨job, result, report, rfl⟩, nofun⟩, fun k hk => ?_⟩
  simpa [Decoder.holds, decoding] using hk

/-- UNDECODED_ANSWER (R74, R75). -/
theorem Decoder.kept_undecodedAnswer {job : DecodeJob} {k : Option Handle} (reporting : d.state = .reporting job k)
    (told : d.answer = some .admitted ∨ d.answer = some .refused) (drops : List Handle) :
    d.Kept { d with state := .idle, answer := none, hostDrops := drops } := by
  have nothing : Decoder.outstanding { d with state := .idle, answer := none, hostDrops := drops } = 0 := by
    have few := h.1
    simp only [Decoder.outstanding, if_pos told] at few
    simp only [Decoder.outstanding, reduceCtorEq, or_self, if_false]
    omega
  have request : d.request = none := Decoder.request_of_reporting h reporting
  refine ⟨Decoder.sound_of_no_request request (nothing.le.trans (Nat.zero_le 1))
    (fun one => absurd (nothing.symm.trans one) (by simp)) nofun, fun j hj => ?_⟩
  simp [Decoder.holds_of_reporting reporting] at hj

/-- FINISH_ANSWER (R71 to R74): one message goes on its way, at most. -/
theorem Decoder.kept_finished {job : DecodeJob} {result : DecodeResult} {report : Bool} {a : DecoderAnswer}
    (finishing : d.state = .finishing job result report) (ha : d.answer = some a) : d.Kept (d.finished job result report a) := by
  by_cases other : d.finished job result report a = d
  · rw [other]; exact .refl h
  have answered : a ≠ .admitted ∧ a ≠ .refused := by
    constructor <;> rintro rfl <;> exact other rfl
  have request : d.request = none := Decoder.request_of_answer h ha answered.1 answered.2
  have nothing : (d.toMatch.msgs.length - d.toMatch.early) + (d.toQueue.msgs.length - d.toQueue.early) = 0 := by
    have before := Decoder.outstanding_eq_zero h (by simp [finishing])
    simpa [Decoder.outstanding, ha, answered.1, answered.2] using before
  refine ⟨?_, fun k hk => by simp [Decoder.holds, finishing, request] at hk⟩
  have toIdle {e : Decoder} (hr : e.request = none) (hm : e.toMatch = d.toMatch) (hq : e.toQueue = d.toQueue)
      (hn : e.answer = none) (hs : e.state = .idle) : e.sound := by
    have none : e.outstanding = 0 := by simpa [Decoder.outstanding, hm, hq, hn] using nothing
    exact Decoder.sound_of_no_request hr (by omega) (by omega) (by simp [hs])
  have toReporting {e : Decoder} {job k} (hr : e.request = none) (hn : e.answer = none) (hs : e.state = .reporting job k)
      (one : (e.toMatch.msgs.length - e.toMatch.early) + (e.toQueue.msgs.length - e.toQueue.early) ≤ 1) : e.sound :=
    Decoder.sound_of_no_request hr (by simpa [Decoder.outstanding, hn] using one) (fun _ => ⟨job, k, hs⟩) (by simp [hs])
  cases a with
  | stale => exact toIdle request rfl rfl rfl rfl
  | freed | retained | noRoom =>
    cases result with
    | full p bits payload toggle =>
      refine toReporting (k := none) (job := job) request rfl rfl ?_
      simp only [Decoder.finished, Mailbox.msgs_push, Mailbox.early_push, List.length_append, List.length_singleton,
        Decoder.toQueue_count]
      omega
    | repeated p =>
      refine toReporting (k := none) (job := job) request rfl rfl ?_
      simp only [Decoder.finished, Mailbox.msgs_push, Mailbox.early_push, List.length_append, List.length_singleton,
        Decoder.toQueue_count]
      omega
    | undecodable reason =>
      cases report with
      | false => exact toIdle request rfl rfl rfl rfl
      | true =>
        refine toReporting (job := job) request rfl rfl ?_
        simp only [Decoder.finished, Decoder.undecodable, if_true, Mailbox.msgs_push, Mailbox.early_push, List.length_append,
          List.length_singleton, Decoder.toQueue_count, Decoder.toMatch_count]
        omega
  | took | empty | admitted | refused => exact absurd rfl other

/-- What was sent has been taken: no more is outstanding than before. -/
theorem Decoder.kept_of_fewer {e : Decoder} (state : e.state = d.state) (request : e.request = d.request)
    (answer : e.answer = d.answer) (fewer : e.outstanding ≤ d.outstanding) : d.Kept e := by
  obtain ⟨few, reporting, others⟩ := h
  refine ⟨?_, fun k hk => ?_⟩
  · rw [Decoder.sound, state, request, answer]
    exact ⟨fewer.trans few, fun one => reporting (le_antisymm few (one ▸ fewer)), others⟩
  · rwa [Decoder.holds, state, request, answer]

/-- The Match Unit has taken a word or a notice (R72, R79). -/
theorem Decoder.kept_handedOn {x : MatchMsg} {rest : List MatchMsg} (sent : d.toMatch.msgs = x :: rest) :
    d.Kept d.handedOn := by
  by_cases early : d.toMatch.early = 0
  · have outstanding : d.handedOn.outstanding + 1 = d.outstanding := by
      simp only [Decoder.outstanding, Decoder.handedOn, Mailbox.msgs_pop, Mailbox.early_pop, sent, early, List.length_cons,
        List.tail_cons]
      omega
    have few := h.1
    obtain ⟨job, k, reporting⟩ := h.2.1 (by omega)
    have request : d.request = none := Decoder.request_of_reporting h reporting
    refine ⟨Decoder.sound_of_no_request request (by omega) (by omega) (by simp [Decoder.handedOn, early]), fun j hj => ?_⟩
    simp [Decoder.holds_of_reporting reporting] at hj
  · refine Decoder.kept_of_fewer h (if_neg early) rfl rfl ?_
    simp only [Decoder.outstanding, Decoder.handedOn, Mailbox.msgs_pop, Mailbox.early_pop, sent, List.length_cons, List.tail_cons]
    exact Nat.add_le_add_right (by omega) _

/-- The Event Queue has taken an append that it does not answer (R149). -/
theorem Decoder.kept_append : d.Kept { d with toQueue := d.toQueue.pop } := by
  refine Decoder.kept_of_fewer h rfl rfl rfl ?_
  simp only [Decoder.outstanding, Mailbox.msgs_pop, Mailbox.early_pop, List.length_tail]
  omega

/-- The Event Queue has taken an append and answers it (R74). -/
theorem Decoder.kept_answered {a : Append} {rest : List Append} (sent : d.toQueue.msgs = a :: rest)
    (early : d.toQueue.early = 0) (ok : Bool) :
    d.Kept { d with toQueue := d.toQueue.pop, answer := some (if ok then .admitted else .refused) } := by
  have few := h.1
  have told : (some (if ok then .admitted else .refused) : Option DecoderAnswer) = some .admitted
      ∨ (some (if ok then .admitted else .refused) : Option DecoderAnswer) = some .refused := by
    cases ok with
    | true => exact .inl rfl
    | false => exact .inr rfl
  have outstanding : d.outstanding = 1 ∧ Decoder.outstanding
      { d with toQueue := d.toQueue.pop, answer := some (if ok then .admitted else .refused) } = 1 := by
    simp only [Decoder.outstanding, Mailbox.msgs_pop, Mailbox.early_pop, sent, early, List.length_cons, List.tail_cons,
      if_pos told] at few ⊢
    omega
  obtain ⟨job, k, reporting⟩ := h.2.1 outstanding.1
  have request : d.request = none := Decoder.request_of_reporting h reporting
  refine ⟨Decoder.sound_of_no_request request outstanding.2.le (fun _ => ⟨job, k, reporting⟩) (by simp [reporting]),
    fun j hj => ?_⟩
  simp [Decoder.holds_of_reporting reporting] at hj

end Events

/-! ## Every command but those at which the store takes or gives up a decode -/

theorem State.matchMessage_sent {s : State} {x : MatchMsg} (h : s.matchMessage = some x) :
    ∃ rest, s.sdc.toMatch.msgs = x :: rest := by
  unfold State.matchMessage at h
  split at h
  · exact List.head?_eq_some_iff.1 h
  · cases h

theorem exec_append_decoderKept {x : Sender} {s t : State} (h : s.sdc.sound) (he : exec (.append x) s = .next t) :
    s.sdc.Kept t.sdc := by
  simp only [exec, execAppend] at he
  split at he
  · cases he; exact .refl h
  · next a rest sent =>
    split at he <;> cases he
    · have taken : s.sdc.Kept ((s.setEvq (s.evq.take a s.now).1).setOutbox (s.outbox x).pop x).sdc := by
        cases x with
        | sdc => exact Decoder.kept_append h
        | _ => exact .refl h
      rcases State.deliverAnswer_cases ((s.setEvq (s.evq.take a s.now).1).setOutbox (s.outbox x).pop x) x (s.outbox x).early
        a.body (s.evq.take a s.now).2 with e | ⟨_, e⟩ | ⟨rfl, early, e⟩
      · rw [e]; exact taken
      · rw [e]; exact taken
      · rw [e]; exact Decoder.kept_answered h sent early _
    · exact .refl h

/-- The commands at which a decode is taken, finished or given up. -/
def decodeTurns : List Instr := [.pinReset, .takeRequest, .decodeFinish, .runResetSdc]

theorem exec_decoderKept {i : Instr} {s t : State} (hi : i ∉ decodeTurns) (h : s.sdc.sound) (he : exec i s = .next t) :
    s.sdc.Kept t.sdc := by
  have take {cmd owner} (ho : ∀ f, s.sdc.Kept (owner f : State).sdc) : s.sdc.Kept (s.takeCommand cmd owner).sdc :=
    State.takeCommand_induct (P := fun t => s.sdc.Kept t.sdc) (.refl h) (fun _ => .refl h) ho
  by_cases hb : Block.sdc ∈ writes i
  swap
  · rw [(exec_frame he).sdc hb]; exact .refl h
  cases i with
  | pinReset | takeRequest | decodeFinish | runResetSdc => simp [decodeTurns] at hi
  | append x => exact exec_append_decoderKept h he
  | profileCommit p =>
    cases p <;> cases he
    · exact .refl h
    · refine take fun f => ?_
      split
      · refine State.ownerPart_induct (P := fun t => s.sdc.Kept t.sdc) (.refl h)
          (State.afterMatchRead_induct (P := fun t => s.sdc.Kept t.sdc) (.refl h) ?_)
        split
        · exact .refl h
        · exact Decoder.kept_of_same h rfl rfl rfl rfl rfl
      · exact .refl h
  | profileClear p =>
    cases p <;> cases he
    · exact .refl h
    · refine take fun f => ?_
      split
      · refine State.ownerPart_induct (P := fun t => s.sdc.Kept t.sdc) (.refl h)
          (State.afterMatchRead_induct (P := fun t => s.sdc.Kept t.sdc) (.refl h) ?_)
        split
        · exact .refl h
        · exact Decoder.kept_of_same h rfl rfl rfl rfl rfl
      · exact .refl h
  | countersClear p =>
    cases p with
    | sdc =>
      cases he
      refine take fun f => ?_
      split
      · exact .refl h
      · split
        · exact Decoder.kept_of_same h rfl rfl rfl rfl rfl
        · exact .refl h
    | _ => simp [writes, lineBlocks] at hb
  | runResetPst =>
    simp only [exec, execRunResetPst] at he
    split at he <;> cases he
    · exact Decoder.kept_of_same h rfl rfl rfl rfl rfl
    · exact .refl h
  | hostHoldDrop k =>
    simp only [exec, execHostHoldDrop] at he
    split at he <;> cases he
    · exact Decoder.kept_of_same h rfl rfl rfl rfl rfl
    · exact .refl h
  | decoderTakeStart =>
    simp only [exec, execDecoderTakeStart] at he
    split at he <;> cases he
    · next due =>
      obtain ⟨idle, -, unanswered, -⟩ := due
      exact Decoder.kept_takeStart h idle unanswered
    · exact .refl h
  | takeAnswer =>
    simp only [exec, execTakeAnswer] at he
    split at he <;> cases he
    · next idle took => exact Decoder.kept_took h idle took
    · next idle empty => exact Decoder.kept_empty h idle empty
    · exact .refl h
  | decodeEnd =>
    simp only [exec, execDecodeEnd] at he
    split at he <;> cases he
    · next decoding => exact Decoder.kept_decodeEnd h decoding _ _ _
    · exact .refl h
  | finishAnswer =>
    simp only [exec, execFinishAnswer] at he
    split at he <;> cases he
    · next finishing answered => exact Decoder.kept_finished h finishing answered
    · exact .refl h
  | undecodedAnswer =>
    simp only [exec, execUndecodedAnswer] at he
    split at he <;> cases he
    · next reporting told => exact Decoder.kept_undecodedAnswer h reporting (.inl told) _
    · next reporting told => exact Decoder.kept_undecodedAnswer h reporting (.inr told) _
    · next reporting told => exact Decoder.kept_undecodedAnswer h reporting (.inr told) _
    · exact .refl h
  | codeWord =>
    simp only [exec, execCodeWord] at he
    split at he <;> cases he
    · next message =>
      obtain ⟨rest, sent⟩ := State.matchMessage_sent message
      exact Decoder.kept_handedOn h sent
    · exact .refl h
  | repeatNotice =>
    simp only [exec, execRepeatNotice] at he
    split at he <;> cases he
    · next message =>
      obtain ⟨rest, sent⟩ := State.matchMessage_sent message
      exact Decoder.kept_handedOn h sent
    · exact .refl h
  | channelSet p | channelGet p | channelEnable p | channelDisable p | channelFlush p | profileRead p
  | entryCommit p | entryRead p | entryClear p | tableClear p | burstRelease p | learnStart p
  | learnAbort p | learnCommit p | learnDiscard p | txSubmit p | txStop p | txAbort p =>
    cases p <;> simp [writes, commandBlocks, lineBlocks] at hb
  | _ => simp [writes, lineBlocks] at hb

/-! ## The store's part in a decode -/

/-- A decoder in IDLE without an answer, and with nothing on its way, is sound. -/
theorem Decoder.sound_idle {d : Decoder} (idle : d.state = .idle) (request : d.request = none)
    (nothing : d.outstanding = 0) : d.sound :=
  Decoder.sound_of_no_request request (by omega) (by omega) (by simp [idle])

theorem Decoder.sound_reset : Decoder.reset.sound := Decoder.sound_idle rfl rfl rfl

theorem PulseStore.not_decoding_reset (m : Memory) (h : Handle) :
    (({ PulseStore.reset with slots := m } : PulseStore).descriptor h).state ≠ .decoding := by
  simp [PulseStore.reset, PulseStore.descriptor, Descriptor.freed]

/-- A burst that is finished is not DECODING any more; the others are as they were (R37). -/
theorem PulseStore.not_decoding_finish (p : PulseStore) (h : Handle) (x : Disposition) :
    ((p.finish h x).1.descriptor h).state ≠ .decoding := by
  have freed : ((p.free h).descriptor h).state ≠ .decoding := by
    simp [PulseStore.free, PulseStore.descriptor, PulseStore.setDescriptor, Descriptor.freed]
  unfold PulseStore.finish
  split
  · split
    · exact freed
    · split
      · exact freed
      · split
        · simp
        · exact freed
  · next other => exact other

section Turns

variable {s t : State} (h : s.decodeSound)
include h

theorem exec_takeRequest_keeps_decodeSound (he : exec .takeRequest s = .next t) : t.decodeSound := by
  simp only [exec, execTakeRequest] at he
  split at he
  · next asks =>
    split at he <;> cases he
    · exact h
    · next free =>
      obtain ⟨sound, held, -⟩ := h
      have idle : s.sdc.state = .idle := sound.2.2.2.1 asks
      have answers := sound.2.2.1 (by simp [asks])
      have nothing : s.sdc.outstanding = 0 := Decoder.outstanding_eq_zero sound (by simp [idle])
      have none (j : Handle) : (s.pst.descriptor j).state ≠ .decoding := fun hj => by
        have holds := held j hj
        rcases answers with e | e | e <;> simp [Decoder.holds, idle, e] at holds
      have taken (a : DecoderAnswer) (ha : a ≠ .admitted ∧ a ≠ .refused) :
          Decoder.sound { s.sdc with request := Option.none, answer := some a } := by
        refine Decoder.sound_idle idle rfl ?_
        simp only [Decoder.outstanding] at nothing
        simp only [Decoder.outstanding, Option.some.injEq, ha.1, ha.2, or_self, if_false]
        omega
      have notPast : ¬(.sdc ∈ s.resetParts ∧ .pst ∉ s.resetParts) := fun past =>
        free (State.resetBetween_iff.2 ⟨past.1, past.2, rfl⟩)
      refine ⟨?_, fun j hj => ?_, fun past => absurd past notPast⟩
      · rw [State.sdc_setSdc]
        refine taken _ ?_
        unfold PulseStore.take
        split <;> exact ⟨nofun, nofun⟩
      · rw [State.pst_setSdc, State.pst_setPst] at hj
        rw [State.sdc_setSdc]
        unfold PulseStore.take at hj ⊢
        split at hj
        · exact absurd hj (none j)
        · next k rest _ =>
          have descriptor : (({ s.pst.setDescriptor k { s.pst.descriptor k with state := .decoding, stale := false } with
              queue := rest } : PulseStore).descriptor j) = if j = k then _ else s.pst.descriptor j :=
            PulseStore.descriptor_setDescriptor s.pst k j _
          rw [descriptor] at hj
          split at hj
          · next e => simp [Decoder.holds, idle, e]
          · exact absurd hj (none j)
  · cases he; exact h

theorem exec_decodeFinish_keeps_decodeSound (he : exec .decodeFinish s = .next t) : t.decodeSound := by
  have kept := exec_noneTaken (by simp) he
  have past : t.bcu = s.bcu := (exec_frame he).bcu (by simp [writes])
  simp only [exec, execDecodeFinish] at he
  split at he <;> cases he
  · next k x asks =>
    obtain ⟨sound, held, reset⟩ := h
    obtain ⟨job, result, report, finishing⟩ := sound.2.2.2.2.1 k x asks
    have nothing : s.sdc.outstanding = 0 := Decoder.outstanding_eq_zero sound (by simp [finishing])
    refine ⟨?_, fun j hj => ?_, fun after j hj => reset after j (kept j hj)⟩
    · rw [State.sdc_setSdc]
      have answer : (s.pst.finish k x).2 ≠ .admitted ∧ (s.pst.finish k x).2 ≠ .refused := by
        unfold PulseStore.finish
        repeat' split
        all_goals exact ⟨nofun, nofun⟩
      have none : Decoder.outstanding { s.sdc with request := Option.none, answer := some (s.pst.finish k x).2 } = 0 := by
        simp only [Decoder.outstanding] at nothing
        simp only [Decoder.outstanding, Option.some.injEq, answer.1, answer.2, or_self, if_false]
        omega
      exact Decoder.sound_of_no_request rfl (none.le.trans (Nat.zero_le 1)) (fun one => absurd (none.symm.trans one) (by simp))
        (by simp [finishing])
    · have before := held j (kept j hj)
      obtain rfl : k = j := by simpa [Decoder.holds, finishing, asks] using before
      exact absurd hj (PulseStore.not_decoding_finish _ _ _)
  · exact h

theorem exec_runResetSdc_keeps_decodeSound (he : exec .runResetSdc s = .next t) : t.decodeSound := by
  simp only [exec, execRunResetSdc] at he
  split at he <;> cases he
  · next due =>
    obtain ⟨mine, others⟩ := resetDue_mem due
    have none := h.2.2 ⟨mine, others _ (by simp)⟩
    refine ⟨?_, fun j hj => absurd hj (none j), fun _ => none⟩
    rw [State.sdc_answerPart, State.sdc_setSdc]
    exact Decoder.sound_idle rfl rfl (by simp [Decoder.outstanding])
  · exact h

theorem exec_keeps_decodeSound {i : Instr} (he : exec i s = .next t) : t.decodeSound := by
  by_cases hi : i ∈ decodeTurns
  · simp only [decodeTurns, List.mem_cons, List.not_mem_nil, or_false] at hi
    obtain rfl | rfl | rfl | rfl := hi
    · cases he
      have none (j : Handle) := PulseStore.not_decoding_reset [] j
      exact ⟨Decoder.sound_reset, fun j hj => absurd hj (none j), fun _ => none⟩
    · exact exec_takeRequest_keeps_decodeSound h he
    · exact exec_decodeFinish_keeps_decodeSound h he
    · exact exec_runResetSdc_keeps_decodeSound h he
  · obtain ⟨sound, held, past⟩ := h
    have kept := exec_decoderKept hi sound he
    have noneTaken : s.pst.NoneTaken t.pst := exec_noneTaken (by rintro rfl; simp [decodeTurns] at hi) he
    refine ⟨kept.sound, fun j hj => kept.holds j (held j (noneTaken j hj)), fun after j hj => ?_⟩
    by_cases store : i = .runResetPst
    · subst store
      simp only [exec, execRunResetPst] at he
      split at he <;> cases he
      · exact PulseStore.not_decoding_reset _ j hj
      · exact past after j hj
    · have before : s.bcu.pastStore := exec_pastStore store he ((State.pastStore_iff t).2 after)
      exact past ((State.pastStore_iff s).1 before) j (noneTaken j hj)

end Turns

/-- Settles O57, by the decoder's own events and the commands at which the store takes or gives up a decode. -/
theorem stepKeepsOneDecode : Obligations.StepKeepsOneDecode := by
  unfold Obligations.StepKeepsOneDecode
  exact fun s t h he => step_keeps (P := State.decodeSound) (fun _ _ hs => hs)
    (fun _ _ _ hs hx => exec_keeps_decodeSound hs hx) h he

/-! ## Right after reset -/

theorem State.reserveSound_reset : State.reset.reserveSound := by
  have kept := MatchUnit.reserveKept_reset fun _ => 0
  refine State.reserveSound_iff.2 ⟨⟨kept.press, fun c => (kept.bound c).trans (Nat.zero_le 1), kept.source⟩, ?_, fun x hx => ?_⟩
  · exact (Nat.add_le_add_left (Finset.sum_le_sum fun c _ => kept.bound c) _).trans (by simp [State.reset, EventQueue.reset,
      EventQueue.occupancy])
  · cases x with
    | lcu c =>
      have reset : State.reset.lcu c = .reset := by simp [State.reset, State.lcu]
      rw [State.outbox, reset]
      exact nofun
    | sdc => exact nofun
    | mu => exact nofun
    | txo o =>
      have reset : State.reset.txe.engine o = .reset := by simp [State.reset, Transmit.reset, Transmit.engine]
      rw [State.outbox, reset]
      exact nofun

/-- Settles O60, by the pin-reset state of each block. -/
theorem invariantsHoldAtReset : Obligations.InvariantsHoldAtReset := by
  unfold Obligations.InvariantsHoldAtReset
  have notDecoding (j : Handle) := PulseStore.not_decoding_reset [] j
  have line (c : Channel) : State.reset.lcu c = .reset := by simp [State.reset, State.lcu]
  exact ⟨EventQueue.sound_reset, PulseStore.sound_reset [], Memory.wf_nil, State.openSound_reset, State.tablesSound_reset,
    MatchUnit.divertSound_of_idle rfl rfl, State.reserveSound_reset,
    ⟨Decoder.sound_reset, fun j hj => absurd hj (notDecoding j), fun _ => notDecoding⟩,
    fun c => line c ▸ Lcu.blankSound_reset, (by decide : 0 < 1000), Transmit.sound_reset, Bcu.sound_reset⟩

end Sys2Proof.Machine
end

section
/-! The order of the commands and the parts of the state, pin reset, the microsecond tick and the Time Base latch (R1, R2, R5,
R205). -/

namespace Sys2Proof.Machine

/-- Settles O1, by the updates of the parts: each is read back where it was put, and stands nowhere else. -/
theorem stepRunsFrontCommand : Obligations.StepRunsFrontCommand := by
  unfold Obligations.StepRunsFrontCommand
  refine ⟨fun s c => step_cons rfl, fun s => step_nil, ?blocks, ?units, ?claims, ?descriptors, ?profiles, ?decoderCounters,
    ?entries, ?keys, ?matchCounters, ?engines, ?engine⟩
  case blocks => exact fun _ _ _ _ _ _ _ _ => ⟨rfl, rfl, rfl, rfl, rfl, rfl, rfl, rfl⟩
  case units => exact fun s c d l => ⟨s.lcu_setLcu c d l, rfl⟩
  case claims => exact fun l o u x => ⟨l.claimsOf_setClaims o u x, rfl⟩
  case descriptors => exact fun p h k d => ⟨p.descriptor_setDescriptor h k d, rfl⟩
  case profiles => exact fun x p q y => ⟨x.profile_setProfile p q y, rfl⟩
  case decoderCounters => exact fun x c d y => ⟨x.counter_setCounter c d y, rfl⟩
  case entries => exact fun m i j e => ⟨m.entry_setEntry i j e, rfl⟩
  case keys => exact fun m c d k => ⟨m.key_setKey c d k, rfl⟩
  case matchCounters => exact fun m c d y => ⟨m.counter_setCounter c d y, rfl⟩
  case engines => exact fun t o u e => ⟨t.engine_setEngine o u e, rfl⟩
  case engine => exact fun _ _ _ => rfl

/-! ## The blocks' parts after pin reset (R205) -/

/-- Pin reset keeps the commands that wait, and nothing else (R205, log 4). -/
theorem exec_pinReset (s : State) : exec .pinReset s = .next (State.reset.setPending s.pending) := rfl

@[simp] theorem State.lcu_reset (c : Channel) : State.reset.lcu c = .reset := by
  unfold State.lcu
  exact Vector.getElem_replicate _

@[simp] theorem Lcu.claimsOf_reset (o : Output) : Lcu.reset.claimsOf o = [] := by
  unfold Lcu.claimsOf
  exact Vector.getElem_replicate _

@[simp] theorem PulseStore.descriptor_reset (h : Handle) : PulseStore.reset.descriptor h = .freed := by
  unfold PulseStore.descriptor
  exact Vector.getElem_replicate _

@[simp] theorem Decoder.profile_reset (p : ProfileNo) : Decoder.reset.profile p = .cleared := by
  unfold Decoder.profile
  exact Vector.getElem_replicate _

@[simp] theorem Decoder.counter_reset (c : Channel) : Decoder.reset.counter c = .zero := by
  unfold Decoder.counter
  exact Vector.getElem_replicate _

@[simp] theorem MatchUnit.entry_reset (i : EntryNo) : MatchUnit.reset.entry i = .cleared := by
  unfold MatchUnit.entry
  exact Vector.getElem_replicate _

@[simp] theorem MatchUnit.key_reset (c : Channel) : MatchUnit.reset.key c = none := by
  unfold MatchUnit.key
  exact Vector.getElem_replicate _

@[simp] theorem MatchUnit.counter_reset (c : Channel) : MatchUnit.reset.counter c = .zero := by
  unfold MatchUnit.counter
  exact Vector.getElem_replicate _

@[simp] theorem Transmit.engine_reset (o : Output) : Transmit.reset.engine o = .reset := by
  unfold Transmit.engine
  exact Vector.getElem_replicate _

/-- Settles O2, block by block. -/
theorem pinResetGivesSpecValues : Obligations.PinResetGivesSpecValues := by
  unfold Obligations.PinResetGivesSpecValues
  intro s
  have engine (o : Output) : (State.reset.setPending s.pending).txe.engine o = .reset := Transmit.engine_reset o
  refine ⟨_, exec_pinReset s, rfl, rfl, rfl, rfl, rfl, fun c => ?nothingWaits, rfl, rfl, rfl, rfl, rfl, rfl, rfl,
    fun o => by rw [engine o]; rfl, rfl, fun c => ?line, PulseStore.descriptor_reset, List.mem_finRange, List.length_finRange,
    rfl, rfl, Decoder.counter_reset, Decoder.profile_reset, MatchUnit.entry_reset, MatchUnit.key_reset, rfl, rfl, rfl,
    MatchUnit.counter_reset, rfl, rfl, rfl, rfl, rfl, rfl, rfl, fun o => ?engine, rfl, rfl, rfl, rfl, rfl, rfl, rfl, rfl, rfl,
    rfl, rfl, rfl, rfl, rfl, rfl, rfl, rfl, rfl, rfl, rfl, rfl⟩
  case nothingWaits =>
    rw [State.lcu_setPending, State.lcu_reset]
    exact ⟨rfl, rfl, rfl, rfl, rfl, rfl, Lcu.claimsOf_reset⟩
  case line =>
    rw [State.lcu_setPending, State.lcu_reset]
    exact ⟨rfl, rfl, rfl, rfl, rfl, rfl, rfl, rfl⟩
  case engine =>
    simp only [State.txPin, engine o]
    exact ⟨rfl, rfl, rfl, rfl, rfl, rfl, fun unit => rfl⟩

/-! ## The microsecond tick (R1, R5) -/

/-- At a tick the Time Base advances and every unit samples its line; no other block changes. -/
theorem exec_microsecondTick (lines : BitVec 4) (s : State) :
    exec (.microsecondTick lines) s =
      .next { s with tb := s.tb.tick, lcus := sampleLines s.lcus s.tb.tick.counter lines } := rfl

theorem TimeBase.toNat_counter_tick (t : TimeBase) : t.tick.counter.toNat = (t.counter.toNat + 1) % 2 ^ 32 := by
  simp [TimeBase.tick, BitVec.toNat_add]

theorem TimeBase.divider_tick {t : TimeBase} (h : t.divider < 1000) : t.tick.divider = (t.divider + 1) % 1000 := by
  simp only [TimeBase.tick, decide_eq_true_eq]
  split <;> omega

/-- Each wrap of the divider is a 1 ms tick (R1, log 25). -/
theorem TimeBase.msTicks_tick {t : TimeBase} (h : t.divider < 1000) :
    t.tick.msTicks = if t.divider = 999 then t.msTicks ++ [t.tick.counter] else t.msTicks := by
  have wraps : 999 ≤ t.divider ↔ t.divider = 999 := by omega
  simp only [TimeBase.tick, decide_eq_true_eq, wraps]

/-- The first sample after RESET gives the accepted level (R5). -/
theorem Lcu.takeSample_first {l : Lcu} (x : Sample) (h : l.sampled = false) :
    l.takeSample x = { l with sampled := true, level := x.level } := by
  simp [Lcu.takeSample, h]

/-- A later sample waits with those before it, and those that ask for nothing leave (R5, log 7). -/
theorem Lcu.takeSample_later {l : Lcu} (x : Sample) (h : l.sampled = true) :
    l.takeSample x = ({ l with samples := l.samples ++ [x] } : Lcu).settle := by
  simp [Lcu.takeSample, h]

/-- The samples that leave are those in front that ask for nothing (log 7). -/
theorem Lcu.samples_settle (l : Lcu) : ∃ left, l.samples = left ++ l.settle.samples
    ∧ (∀ x ∈ left, l.lineAction x = none) ∧ ∀ x rest, l.settle.samples = x :: rest → l.lineAction x ≠ none := by
  refine ⟨l.samples.takeWhile fun x => (l.lineAction x).isNone, List.takeWhile_append_dropWhile.symm, ?left, ?first⟩
  case left => exact fun x hx => Option.isNone_iff_eq_none.mp (List.mem_takeWhile_imp (p := fun x => (l.lineAction x).isNone) hx)
  case first =>
    intro x rest hx
    have head : l.settle.samples.head? = some x := by rw [hx]; rfl
    have asks := List.head?_dropWhile_not (fun x => (l.lineAction x).isNone) l.samples
    simp only [Lcu.settle] at head
    rw [head] at asks
    simpa [Option.isSome_iff_ne_none] using asks

/-! ## The latch (R2) -/

/-- A word is its four bytes, the low one last (00_scope.md). -/
theorem bytes_append (w : BitVec 32) : byteOf w 3 ++ byteOf w 2 ++ byteOf w 1 ++ byteOf w 0 = w := by
  refine BitVec.eq_of_getElem_eq fun i hi => ?_
  simp only [byteOf, BitVec.getElem_append, BitVec.getElem_extractLsb']
  grind

theorem exec_timeLatchRead (s : State) :
    exec .timeLatchRead s = .next (s.setBcu { s.bcu with timeLatch := s.now, dataOut := byteOf s.now 0 }) := rfl

/-- The opcode write leaves the latch. -/
theorem Bcu.timeLatch_writeOpcode (b : Bcu) (v : Byte) : (b.writeOpcode v).timeLatch = b.timeLatch := by
  unfold Bcu.writeOpcode
  split <;> rfl

/-- Settles O3, by the tick, the samples in front of the list, and the register cycles on the latch. -/
theorem timeBaseTicksAndTheLatchIsConsistent : Obligations.TimeBaseTicksAndTheLatchIsConsistent := by
  unfold Obligations.TimeBaseTicksAndTheLatchIsConsistent
  refine ⟨?tick, ?settle, ?latch⟩
  case tick =>
    intro s lines hd
    refine ⟨_, exec_microsecondTick lines s, rfl, s.tb.toNat_counter_tick, s.tb.divider_tick hd, s.tb.msTicks_tick hd,
      fun c => ?_⟩
    rw [State.lcu_microsecondTick (exec_microsecondTick lines s)]
    exact ⟨Lcu.takeSample_first _, Lcu.takeSample_later _⟩
  case settle =>
    intro l idle hidle
    have idle_iff (x) : idle x ↔ l.lineAction x = none := (hidle x).trans (l.lineAction_eq_none_iff x).symm
    obtain ⟨left, split, leave, stay⟩ := l.samples_settle
    exact ⟨left, split, fun x hx => (idle_iff x).mpr (leave x hx), fun x rest hx h => stay x rest hx ((idle_iff x).mp h), rfl⟩
  case latch =>
    intro s v
    refine ⟨⟨_, exec_timeLatchRead s, rfl, rfl, fun u hu => ?_⟩, rfl, rfl, rfl, rfl, ⟨_, exec_pinReset s, rfl⟩,
      ⟨_, rfl, s.bcu.timeLatch_writeOpcode _⟩⟩
    have latched : u.bcu.timeLatch = s.now := hu
    change byteOf u.bcu.timeLatch 3 ++ byteOf u.bcu.timeLatch 2 ++ byteOf u.bcu.timeLatch 1 ++ byteOf s.now 0 = s.now
    rw [latched, bytes_append]

end Sys2Proof.Machine
end

section
/-! Samples, accepted edges, the store's answers and the expiries at a Line Capture Unit (R5 to R15). -/

namespace Sys2Proof.Machine

/-! ## What the oldest sample asks for (R5, R6) -/

section Next

variable {l : Lcu} {x : Sample} {rest : List Sample} (hs : l.samples = x :: rest)
include hs

theorem Lcu.nextAction_start (hc : l.change = none) (hl : x.level ≠ l.level) : l.nextAction = some (.start, x) := by
  simp [Lcu.nextAction, Lcu.lineAction, hs, hc, hl]

theorem Lcu.nextAction_cancel {edge : Time} (hc : l.change = some edge) (hl : x.level = l.level) :
    l.nextAction = some (.cancel, x) := by
  simp [Lcu.nextAction, Lcu.lineAction, hs, hc, hl]

theorem Lcu.nextAction_accept {edge : Time} (hc : l.change = some edge) (hl : x.level ≠ l.level)
    (hg : l.settings.glitchMin.toNat ≤ elapsed edge x.time) : l.nextAction = some (.accept, x) := by
  simp [Lcu.nextAction, Lcu.lineAction, hs, hc, hl, hg]

/-- Without a pending change, the oldest sample says up to when the level is known to have stood (R7). -/
theorem Lcu.steadyUntil_sample (now : Time) (hc : l.change = none) : l.steadyUntil now = x.time := by
  simp [Lcu.steadyUntil, hs, hc]

end Next

/-! ## Intervals (R7) -/

section Intervals

variable {l : Lcu} {upTo now : Time}

/-- The level is timed in OPEN and in DISCARD (R13, R15). -/
theorem Lcu.timedFrom_eq_some_iff {start : Time} : l.timedFrom = some start ↔
    (l.capture = .opened ∧ start = l.elementStart) ∨ (l.capture = .discard ∧ l.measuringStart = some start) := by
  unfold Lcu.timedFrom
  cases l.capture <;> simp [eq_comm]

theorem Lcu.intervalReached_iff : l.intervalReached upTo now = true ↔
    ∃ start, l.timedFrom = some start
      ∧ (l.isActive = true → 0 < l.settings.stuckLimit.toNat ∧ l.settings.stuckLimit.toNat * 1000 ≤ heldFor start upTo now)
      ∧ (l.isActive = false → l.settings.endGap.toNat ≤ heldFor start upTo now) := by
  unfold Lcu.intervalReached
  cases l.timedFrom with
  | none => simp
  | some start => cases l.isActive <;> simp [bitVec_eq_zero_iff, Nat.pos_iff_ne_zero]

theorem Lcu.capture_of_intervalReached (h : l.intervalReached upTo now = true) :
    l.capture = .opened ∨ l.capture = .discard := by
  obtain ⟨start, timed, _⟩ := Lcu.intervalReached_iff.mp h
  exact (Lcu.timedFrom_eq_some_iff.mp timed).imp And.left And.left

end Intervals

/-! ## The glitch count (R6) -/

/-- The change is gone, and counted where the channel captures (R6). -/
theorem Lcu.countGlitch_eq (l : Lcu) : l.countGlitch = { l with counters := { l.counters with
    glitches := if l.capture = .disabled ∨ l.capture = .blanked then l.counters.glitches else bump l.counters.glitches } } := by
  cases l with
  | mk settings capture => cases capture <;> rfl

/-- The count of a glitch does not move the interval. -/
theorem Lcu.intervalReached_cancelled (l : Lcu) (upTo now : Time) :
    ({ l with change := none } : Lcu).countGlitch.intervalReached upTo now = l.intervalReached upTo now := by
  rw [Lcu.countGlitch_eq]
  rfl

/-! ## The start and the end of a change (R5, R6) -/

section Change

variable {s : State} {c : Channel} {x : Sample} {rest : List Sample} (hw : (s.lcu c).waiting = none)
  (hs : (s.lcu c).samples = x :: rest)
include hw hs

theorem exec_pendingChangeStart_due (hc : (s.lcu c).change = none) (hl : x.level ≠ (s.lcu c).level) :
    exec (.pendingChangeStart c) s = .next (s.setLcu c { s.lcu c with change := some x.time }.settle) := by
  simp only [exec, execPendingChangeStart, hw, Lcu.nextAction_start hs hc hl]

section Cancel

variable {edge : Time} (hc : (s.lcu c).change = some edge) (hl : x.level = (s.lcu c).level)
include hc hl

theorem exec_pendingChangeCancel_unreached (hr : (s.lcu c).intervalReached x.time s.now = false) :
    exec (.pendingChangeCancel c) s = .next (s.setLcu c ({ s.lcu c with change := none } : Lcu).countGlitch.settle) := by
  have unreached := (s.lcu c).intervalReached_cancelled x.time s.now
  simp only [hw, hr] at unreached
  simp only [exec, execPendingChangeCancel, hw, Lcu.nextAction_cancel hs hc hl, unreached, Bool.false_eq_true, if_false]

/-- An interval that the change held back is taken with the cancellation (R7). -/
theorem exec_pendingChangeCancel_reached (hr : (s.lcu c).intervalReached x.time s.now = true) :
    exec (.pendingChangeCancel c) s =
      .next (s.setLcu c (({ s.lcu c with change := none } : Lcu).countGlitch.takeExpiry c).settle) := by
  have reached := (s.lcu c).intervalReached_cancelled x.time s.now
  simp only [hw, hr] at reached
  simp only [exec, execPendingChangeCancel, hw, Lcu.nextAction_cancel hs hc hl, reached, if_true]

end Cancel

theorem exec_acceptedEdge_due {edge : Time} (hc : (s.lcu c).change = some edge) (hl : x.level ≠ (s.lcu c).level)
    (hg : (s.lcu c).settings.glitchMin.toNat ≤ elapsed edge x.time) (hd : (s.lcu c).expiryDue s.now = false) :
    exec (.acceptedEdge c) s = .next (s.setLcu c ((s.lcu c).acceptChange edge x.time s.now).settle) := by
  simp only [exec, execAcceptedEdge, hw, Lcu.nextAction_accept hs hc hl hg, hc, hd, Bool.false_eq_true, if_false]

end Change

/-! ## The expiries (R12, R13, R15) -/

section Expiry

variable {s : State} {c : Channel} (hw : (s.lcu c).waiting = none) (hd : (s.lcu c).expiryDue s.now = true)
include hw hd

theorem exec_endGapExpiry_due (ha : (s.lcu c).isActive = false) (ho : (s.lcu c).capture = .opened) :
    exec (.endGapExpiry c) s = .next (s.setLcu c (s.lcu c).closeBurst) := by
  simp [exec, execEndGapExpiry, hw, hd, ha, ho]

theorem exec_discardEndGapExpiry_due (ha : (s.lcu c).isActive = false) (ho : (s.lcu c).capture = .discard) :
    exec (.discardEndGapExpiry c) s = .next (s.setLcu c { s.lcu c with capture := .idle }) := by
  simp [exec, execDiscardEndGapExpiry, hw, hd, ha, ho, Lcu.toIdle]

theorem exec_stuckLimitExpiry_due (ha : (s.lcu c).isActive = true) :
    exec (.stuckLimitExpiry c) s = .next (s.setLcu c ((s.lcu c).goStuck c)) := by
  simp [exec, execStuckLimitExpiry, hw, hd, ha]

/-- Each interval has its event, and the event is the interval's transition. -/
theorem exec_expiryEvent_due :
    exec (if (s.lcu c).isActive then .stuckLimitExpiry c
      else if (s.lcu c).capture = .opened then .endGapExpiry c else .discardEndGapExpiry c) s =
      .next (s.setLcu c ((s.lcu c).takeExpiry c)) := by
  cases ha : (s.lcu c).isActive with
  | true => simpa [Lcu.takeExpiry, ha] using exec_stuckLimitExpiry_due hw hd ha
  | false =>
    rcases Lcu.capture_of_intervalReached hd with ho | ho
    · simpa [Lcu.takeExpiry, ha, ho] using exec_endGapExpiry_due hw hd ha ho
    · simpa [Lcu.takeExpiry, Lcu.toIdle, ha, ho] using exec_discardEndGapExpiry_due hw hd ha ho

end Expiry

/-- The interval that a change held back is due once the change is gone. -/
theorem exec_expiryEvent_cancelled {s : State} {c : Channel} {x : Sample} {rest : List Sample}
    (hw : (s.lcu c).waiting = none) (hs : (s.lcu c).samples = x :: rest)
    (hr : (s.lcu c).intervalReached x.time s.now = true) :
    exec (if (s.lcu c).isActive then .stuckLimitExpiry c
      else if (s.lcu c).capture = .opened then .endGapExpiry c else .discardEndGapExpiry c)
      (s.setLcu c ({ s.lcu c with change := none } : Lcu).countGlitch) =
      .next (s.setLcu c (({ s.lcu c with change := none } : Lcu).countGlitch.takeExpiry c)) := by
  have eq := Lcu.countGlitch_eq { s.lcu c with change := none }
  have still := (s.lcu c).intervalReached_cancelled x.time s.now
  generalize ({ s.lcu c with change := none } : Lcu).countGlitch = a at eq still ⊢
  have waits : a.waiting = none := by rw [eq]; exact hw
  have samples : a.samples = x :: rest := by rw [eq]; exact hs
  have change : a.change = none := by rw [eq]
  have active : a.isActive = (s.lcu c).isActive := by rw [eq]; rfl
  have capture : a.capture = (s.lcu c).capture := by rw [eq]
  have due : a.expiryDue s.now = true := by
    rw [Lcu.expiryDue, Lcu.steadyUntil_sample samples s.now change, still, hr]
  have taken := exec_expiryEvent_due (s := s.setLcu c a) (c := c)
  simp only [State.lcu_setLcu_self, State.now_setLcu, State.setLcu_setLcu, active, capture] at taken
  exact taken waits due

/-- Settles O4, by what the oldest sample asks for; a change that held back an interval takes the interval's transition. -/
theorem sampleStartsOrCancelsAChange : Obligations.SampleStartsOrCancelsAChange := by
  unfold Obligations.SampleStartsOrCancelsAChange
  refine ⟨fun s c x rest hw hs => ⟨exec_pendingChangeStart_due hw hs, fun edge hc hl hr => ?unreached⟩,
    fun s c x rest edge hw hs hc hl hr => ?reached⟩
  case unreached =>
    rw [exec_pendingChangeCancel_unreached hw hs hc hl hr, Lcu.countGlitch_eq]
  case reached =>
    have captures : ¬ ((s.lcu c).capture = .disabled ∨ (s.lcu c).capture = .blanked) := by
      rcases Lcu.capture_of_intervalReached hr with h | h <;> simp [h]
    have cancelled := Lcu.countGlitch_eq { s.lcu c with change := none }
    simp only [captures, if_false] at cancelled
    refine ⟨_, ?_, cancelled ▸ exec_expiryEvent_cancelled hw hs hr⟩
    rw [exec_pendingChangeCancel_reached hw hs hc hl hr, State.lcu_setLcu_self]
    exact congrArg (fun a : Lcu => Host.Outcome.next (s.setLcu c (a.takeExpiry c).settle)) cancelled

/-! ## Accepted edges, by the capture state (R9 to R11, R14, R15) -/

section Accepted

variable {l : Lcu} {edge accepted now : Time}

/-- The accepted edge turns a mark to rest and rest to a mark. -/
theorem Lcu.isActive_turned (l : Lcu) : ({ l with level := !l.level, change := none } : Lcu).isActive = !l.isActive := by
  cases hp : l.settings.polarity <;> simp [Lcu.isActive, hp]

theorem Lcu.acceptChange_mark (hc : l.capture = .idle) (ha : l.isActive = false) : l.acceptChange edge accepted now =
    { l with
      level := !l.level, change := none, capture := .opened, waiting := some (.descriptor edge)
      toStore := l.toStore.push (.descriptor edge) } := by
  have mark := l.isActive_turned
  simp only [hc, ha, Bool.not_false] at mark
  simp [Lcu.acceptChange, Lcu.handleEdge, hc, mark, Lcu.requestDescriptor]

theorem Lcu.acceptChange_element {h : Handle} (hc : l.capture = .opened) (hh : l.handle = some h)
    (hn : l.count + 1 ≤ l.settings.elementLimit.toNat) : l.acceptChange edge accepted now =
      { l with
        level := !l.level, change := none, waiting := some (.write edge)
        toStore := l.toStore.push (.write h l.count (clipDuration (elapsed l.elementStart edge))) } := by
  simp [Lcu.acceptChange, Lcu.handleEdge, hc, Lcu.endElement, Nat.not_lt.mpr hn, hh]

theorem Lcu.acceptChange_tooLong {h : Handle} (hc : l.capture = .opened) (hh : l.handle = some h)
    (hn : l.settings.elementLimit.toNat < l.count + 1) : l.acceptChange edge accepted now =
      { l with
        level := !l.level, change := none, capture := .discard, handle := none, count := 0
        measuringStart := some accepted, toStore := l.toStore.push (.abandon h)
        counters := { l.counters with tooLong := bump l.counters.tooLong } } := by
  simp [Lcu.acceptChange, Lcu.handleEdge, hc, Lcu.endElement, hn, Lcu.abandonBurst, hh, Lcu.toDiscard]

theorem Lcu.acceptChange_unstuck (hc : l.capture = .stuck) (ha : l.isActive = true) : l.acceptChange edge accepted now =
    { l with level := !l.level, change := none, capture := .discard, measuringStart := some accepted } := by
  have rest := l.isActive_turned
  simp only [hc, ha, Bool.not_true] at rest
  simp [Lcu.acceptChange, Lcu.handleEdge, hc, rest, Lcu.toDiscard]

theorem Lcu.acceptChange_discard {m : Time} (hc : l.capture = .discard) (hm : l.measuringStart = some m) :
    l.acceptChange edge accepted now =
      { l with level := !l.level, change := none, measuringStart := some (later now m edge) } := by
  simp [Lcu.acceptChange, Lcu.handleEdge, hc, hm]

theorem Lcu.acceptChange_level
    (hc : l.capture = .disabled ∨ l.capture = .blanked ∨ l.capture = .idle ∧ l.isActive = true) :
    l.acceptChange edge accepted now = { l with level := !l.level, change := none } := by
  rcases hc with hc | hc | ⟨hc, ha⟩
  · simp [Lcu.acceptChange, Lcu.handleEdge, hc]
  · simp [Lcu.acceptChange, Lcu.handleEdge, hc]
  · have rest := l.isActive_turned
    simp only [hc, ha, Bool.not_true] at rest
    simp [Lcu.acceptChange, Lcu.handleEdge, hc, rest]

end Accepted

/-- Settles O5, by the capture state that the accepted edge finds. -/
theorem acceptedEdgeMovesTheCapture : Obligations.AcceptedEdgeMovesTheCapture := by
  unfold Obligations.AcceptedEdgeMovesTheCapture
  refine ⟨fun s c x rest edge hw hs hc hl hg hd => ?capturing, fun s c x rest edge hw hs hc hl hg hd => ?resting⟩
  case capturing =>
    rw [exec_acceptedEdge_due hw hs hc hl hg hd]
    exact ⟨fun hi ha => by rw [Lcu.acceptChange_mark hi ha],
      fun h ho hh => ⟨fun hn => by rw [Lcu.acceptChange_element ho hh hn]; rfl,
        fun hn => by rw [Lcu.acceptChange_tooLong ho hh hn]⟩⟩
  case resting =>
    rw [exec_acceptedEdge_due hw hs hc hl hg hd]
    exact ⟨fun hi ha => by rw [Lcu.acceptChange_unstuck hi ha],
      fun m hi hm => by rw [Lcu.acceptChange_discard hi hm]; rfl, fun hi => by rw [Lcu.acceptChange_level hi]⟩

/-! ## The store's answers (R9, R10) -/

section Answers

variable {s : State} {c : Channel} {edge : Time}

theorem exec_descriptorAnswer_granted {h : Handle} (hw : (s.lcu c).waiting = some (.descriptor edge))
    (ha : (s.lcu c).answer = some (.granted h)) :
    exec (.descriptorAnswer c) s = .next (s.setLcu c { s.lcu c with
      waiting := none, answer := none, capture := .opened, handle := some h, count := 0, elementStart := edge
      measuringStart := none }) := by
  simp only [exec, execDescriptorAnswer, hw, ha]

theorem exec_descriptorAnswer_refused (hw : (s.lcu c).waiting = some (.descriptor edge))
    (ha : (s.lcu c).answer = some .noDescriptor) :
    exec (.descriptorAnswer c) s = .next (s.setLcu c { s.lcu c with
      waiting := none, answer := none, capture := .discard, measuringStart := some s.now
      counters := { (s.lcu c).counters with noDescriptor := bump (s.lcu c).counters.noDescriptor } }) := by
  simp only [exec, execDescriptorAnswer, hw, ha, Lcu.toDiscard]

theorem exec_writeAnswer_taken (hw : (s.lcu c).waiting = some (.write edge)) (ha : (s.lcu c).answer = some .taken) :
    exec (.writeAnswer c) s = .next (s.setLcu c { s.lcu c with
      waiting := none, answer := none, count := (s.lcu c).count + 1, elementStart := edge }) := by
  simp only [exec, execWriteAnswer, hw, ha]

theorem exec_writeAnswer_refused {h : Handle} (hw : (s.lcu c).waiting = some (.write edge))
    (ha : (s.lcu c).answer = some .noBlock) (hh : (s.lcu c).handle = some h) :
    exec (.writeAnswer c) s = .next (s.setLcu c { s.lcu c with
      waiting := none, answer := none, capture := .discard, measuringStart := some s.now, handle := none, count := 0
      toStore := (s.lcu c).toStore.push (.abandon h)
      counters := { (s.lcu c).counters with storeFull := bump (s.lcu c).counters.storeFull } }) := by
  simp only [exec, execWriteAnswer, hw, ha, Lcu.abandonBurst, hh, Lcu.toDiscard]

end Answers

/-- Settles O6, by the answer. -/
theorem storeAnswersMoveTheCapture : Obligations.StoreAnswersMoveTheCapture := by
  unfold Obligations.StoreAnswersMoveTheCapture
  intro s c edge
  exact ⟨fun hw => ⟨fun h => exec_descriptorAnswer_granted hw, exec_descriptorAnswer_refused hw⟩,
    fun hw => ⟨exec_writeAnswer_taken hw, fun h => exec_writeAnswer_refused hw⟩⟩

/-! ## What an expiry leaves (R12, R13) -/

theorem Lcu.closeBurst_some {l : Lcu} {h : Handle} (hh : l.handle = some h) : l.closeBurst =
    { l with
      capture := .idle, handle := none, count := 0, measuringStart := some l.elementStart
      toStore := l.toStore.push (.close h l.elementStart)
      counters := { l.counters with burstsClosed := bump l.counters.burstsClosed } } := by
  simp only [Lcu.closeBurst, hh]

/-- At the stuck limit an open burst is abandoned, and the episode is counted and, where asked for, reported (R13). -/
theorem Lcu.goStuck_eq {l : Lcu} {start : Time} (c : Channel) (ht : l.timedFrom = some start) : l.goStuck c =
    { l with
      capture := .stuck, handle := none, count := 0, measuringStart := some start, toStore := l.abandonBurst.toStore
      counters := { l.counters with stuckEpisodes := bump l.counters.stuckEpisodes }
      toQueue := if l.settings.reportStuck then l.toQueue.push
          { source := channelByte c, stamp := start + msToTime l.settings.stuckLimit.toNat, body := .lineStuck }
        else l.toQueue } := by
  simp only [Lcu.goStuck, ht]
  rw [l.abandonBurst_eq]
  split <;> rfl

/-- Settles O7, by the level that has reached its interval and the capture state. -/
theorem expiriesEndTheBurstOrTheRest : Obligations.ExpiriesEndTheBurstOrTheRest := by
  unfold Obligations.ExpiriesEndTheBurstOrTheRest
  refine ⟨fun l now upTo held hheld => ⟨?interval, fun hu => ?due⟩, fun s c hw ha hd => ⟨fun h ho hh => ?close, fun ho => ?rest⟩,
    fun s c start hw ha hd hstart => ?stuck⟩
  case interval =>
    have held_eq (start) : held start = heldFor start upTo now := hheld start
    simp only [Lcu.intervalReached_iff, Lcu.timedFrom_eq_some_iff, held_eq]
  case due =>
    have steady : l.steadyUntil now = upTo := by
      rw [hu]
      unfold Lcu.steadyUntil
      cases l.change with
      | some edge => rfl
      | none => cases l.samples <;> rfl
    rw [Lcu.expiryDue, steady]
  case close => rw [exec_endGapExpiry_due hw hd ha ho, Lcu.closeBurst_some hh]
  case rest => exact exec_discardEndGapExpiry_due hw hd ha ho
  case stuck =>
    have timed : (s.lcu c).timedFrom = some start := Lcu.timedFrom_eq_some_iff.mpr (hstart.imp
      (fun ⟨captures, from_start, _⟩ => ⟨captures, from_start⟩) fun ⟨captures, measured, _⟩ => ⟨captures, measured⟩)
    rw [exec_stuckLimitExpiry_due hw hd ha, Lcu.goStuck_eq c timed, Lcu.toStore_abandonBurst]
    rfl

end Sys2Proof.Machine
end

section
/-! The Pulse Store's part in an element write, a channel purge and a decode (R31, R35, R36, R37). -/

namespace Sys2Proof.Machine

/-! ## The element write, by the descriptor and the position it finds (R31, R34) -/

/-- A descriptor that is replaced twice is as the second replacement has it. -/
theorem PulseStore.setDescriptor_setDescriptor (p : PulseStore) (h : Handle) (x y : Descriptor) :
    (p.setDescriptor h x).setDescriptor h y = p.setDescriptor h y := by
  simp [PulseStore.setDescriptor]

section Write

variable {p : PulseStore} {c : Channel} {h : Handle} {position : Nat} {duration : Half} {pick : BlockNo}

/-- The block that is granted is one of the free-block list (R27, log 12). -/
theorem PulseStore.pickBlock_some (hf : p.freeBlocks ≠ []) : ∃ b ∈ p.freeBlocks, p.pickBlock pick = some b := by
  have inside : pick.val % p.freeBlocks.length < p.freeBlocks.length :=
    Nat.mod_lt _ (List.length_pos_iff.mpr hf)
  exact ⟨p.freeBlocks[pick.val % p.freeBlocks.length], List.getElem_mem inside, List.getElem?_eq_getElem inside⟩

theorem PulseStore.pickBlock_none (hf : p.freeBlocks = []) : p.pickBlock pick = none := by
  simp [PulseStore.pickBlock, hf]

theorem PulseStore.write_stray (hs : (p.descriptor h).state ≠ .opened ∨ (p.descriptor h).channel ≠ c) :
    p.write c h position duration pick = (p, .taken) := by
  simp [PulseStore.write, PulseStore.openFor_eq_false hs]

variable (ho : (p.descriptor h).state = .opened) (hc : (p.descriptor h).channel = c)
include ho hc

/-- Within a block, the burst's block takes the element. -/
theorem PulseStore.write_inBlock {b : BlockNo} (hp : position % 16 ≠ 0)
    (hb : (p.descriptor h).blocks[position / 16]? = some b) :
    p.write c h position duration pick = (p.place h b position duration, .taken) := by
  simp [PulseStore.write, (PulseStore.openFor_iff p h c).mpr ⟨ho, hc⟩, hp, hb, Config.slotsPerBlock]

/-- At the start of a block, the block that is granted takes the element. -/
theorem PulseStore.write_newBlock {b : BlockNo} (hp : position % 16 = 0) (hb : p.pickBlock pick = some b) :
    p.write c h position duration pick = ((p.grantBlock h b).place h b position duration, .taken) := by
  simp [PulseStore.write, (PulseStore.openFor_iff p h c).mpr ⟨ho, hc⟩, hp, hb, Config.slotsPerBlock]

theorem PulseStore.write_noBlock (hp : position % 16 = 0) (hf : p.freeBlocks = []) :
    p.write c h position duration pick = (p, .noBlock) := by
  simp [PulseStore.write, (PulseStore.openFor_iff p h c).mpr ⟨ho, hc⟩, hp, PulseStore.pickBlock_none hf, Config.slotsPerBlock]

omit ho hc in
/-- A block that is granted and takes the element: the descriptor, the free-block list and the slot change at once. -/
theorem PulseStore.place_grantBlock (b : BlockNo) (hp : position % 16 = 0) : (p.grantBlock h b).place h b position duration =
    { p.setDescriptor h { p.descriptor h with
        count := (p.descriptor h).count + 1, blocks := (p.descriptor h).blocks ++ [b] } with
      freeBlocks := p.freeBlocks.erase b
      slots := Memory.write p.slots (16 * b.val) duration } := by
  simp [PulseStore.place, PulseStore.grantBlock, PulseStore.setDescriptor, PulseStore.descriptor, slotAddress,
    Config.slotsPerBlock, hp]

/-- Where the block list is as long as the position asks for, and a block is free where one is needed, the write is taken, and
its slot is the one that the position names (R26, R31). -/
theorem PulseStore.write_taken (hl : (p.descriptor h).blocks.length = (position + 15) / 16)
    (hf : position % 16 = 0 → p.freeBlocks ≠ []) :
    ∃ q b, p.write c h position duration pick = (q, .taken) ∧ (q.descriptor h).blocks[position / 16]? = some b
      ∧ q.slots = Memory.write p.slots (16 * b.val + position % 16) duration := by
  by_cases hp : position % 16 = 0
  · obtain ⟨b, _, hb⟩ := PulseStore.pickBlock_some (pick := pick) (hf hp)
    have last : position / 16 = (p.descriptor h).blocks.length := by omega
    refine ⟨_, b, PulseStore.write_newBlock ho hc hp hb, ?_, ?_⟩
    · rw [PulseStore.place_grantBlock b hp, last]
      simp [PulseStore.descriptor, PulseStore.setDescriptor]
    · rw [PulseStore.place_grantBlock b hp, hp]
      rfl
  · have inside : position / 16 < (p.descriptor h).blocks.length := by omega
    have hb := List.getElem?_eq_getElem inside
    refine ⟨_, _, PulseStore.write_inBlock ho hc hp hb, ?_, rfl⟩
    rw [← hb]
    simp [PulseStore.place, PulseStore.descriptor, PulseStore.setDescriptor]

end Write

/-- The element at a position of a burst whose block stands there (R26). -/
theorem PulseStore.elementAt_block {p : PulseStore} {d : Descriptor} {position : Nat} {b : BlockNo}
    (hb : d.blocks[position / 16]? = some b) :
    p.elementAt d position = Memory.read p.slots (16 * b.val + position % 16) := by
  simp only [PulseStore.elementAt, Config.slotsPerBlock, hb, slotAddress]

theorem exec_elementWrite_due {s : State} {c : Channel} {pick : BlockNo} {h : Handle} {position : Nat} {duration : Half}
    (hr : s.storeRequest c = some (.write h position duration)) :
    exec (.elementWrite c pick) s = .next (s.storeTook c (s.pst.write c h position duration pick).1
      (some (s.pst.write c h position duration pick).2)) := by
  simp only [exec, execElementWrite, hr]

/-- Settles O10, by the descriptor that the write finds and by whether its position starts a block. -/
theorem elementWritePlacesTheDuration : Obligations.ElementWritePlacesTheDuration := by
  unfold Obligations.ElementWritePlacesTheDuration
  refine ⟨fun s c pick h position duration hr => ⟨fun ho hc => ⟨fun b hp hb => ?inBlock, fun hp hf => ?newBlock,
      fun hp hf => ?noBlock⟩, fun hs => ?stray⟩,
    fun s c pick h position duration hr ho hc hl hf hm => ?placed⟩
  case inBlock =>
    rw [exec_elementWrite_due hr, PulseStore.write_inBlock ho hc hp hb]
    rfl
  case newBlock =>
    obtain ⟨b, free, hb⟩ := PulseStore.pickBlock_some (pick := pick) hf
    refine ⟨b, free, ?_⟩
    rw [exec_elementWrite_due hr, PulseStore.write_newBlock ho hc hp hb, PulseStore.place_grantBlock b hp]
    rfl
  case noBlock =>
    rw [exec_elementWrite_due hr, PulseStore.write_noBlock ho hc hp hf, State.storeTook_pst_self]
  case stray =>
    rw [exec_elementWrite_due hr, PulseStore.write_stray hs, State.storeTook_pst_self]
  case placed =>
    obtain ⟨q, b, written, block, slots⟩ := PulseStore.write_taken (duration := duration) (pick := pick) ho hc hl hf
    refine ⟨s.storeTook c q (some .taken), b, by rw [exec_elementWrite_due hr, written], by simp, block, ?_, fun a ha => ?_⟩
    · rw [State.pst_storeTook, PulseStore.elementAt_block block, slots, Memory.read_write_self hm]
    · rw [State.pst_storeTook, slots, Memory.read_write_ne hm _ ha]

/-! ## The channel purge (R36) -/

/-- A QUEUED burst of the channel leaves with the purge. -/
def Descriptor.Leaves (d : Descriptor) (c : Channel) : Prop := d.channel = c ∧ d.state = .queued

/-- A descriptor after the purge of a channel: FREE where it leaves, stale where it is being decoded (R36). -/
def Descriptor.purged (d : Descriptor) (c : Channel) : Descriptor :=
  if d.channel = c ∧ d.state = .queued then .freed
  else if d.channel = c ∧ d.state = .decoding then { d with stale := true }
  else d

section Purge

variable {p : PulseStore} {c : Channel} {h : Handle}

theorem PulseStore.purgeOne_leaves (hl : (p.descriptor h).Leaves c) :
    p.purgeOne c h = { p.free h with queue := p.queue.erase h } := by
  simp [PulseStore.purgeOne, hl.1, hl.2]

/-- A descriptor that does not leave is at most marked stale. -/
theorem PulseStore.purgeOne_stays (hl : ¬ (p.descriptor h).Leaves c) :
    p.purgeOne c h = p.setDescriptor h ((p.descriptor h).purged c) := by
  have same : p.setDescriptor h (p.descriptor h) = p := by simp [PulseStore.setDescriptor, PulseStore.descriptor]
  unfold Descriptor.Leaves at hl
  by_cases hc : (p.descriptor h).channel = c
  · cases hs : (p.descriptor h).state <;> simp [PulseStore.purgeOne, Descriptor.purged, hc, hs, same] at hl ⊢
  · simp [PulseStore.purgeOne, Descriptor.purged, hc, same]

theorem PulseStore.descriptor_purgeOne (k : Handle) :
    (p.purgeOne c h).descriptor k = if k = h then (p.descriptor h).purged c else p.descriptor k := by
  by_cases hl : (p.descriptor h).Leaves c
  · have left : (p.descriptor h).purged c = .freed := if_pos hl
    rw [PulseStore.purgeOne_leaves hl, left]
    exact p.descriptor_setDescriptor h k .freed
  · rw [PulseStore.purgeOne_stays hl, PulseStore.descriptor_setDescriptor]

theorem PulseStore.queue_purgeOne (hn : p.queue.Nodup) : (p.purgeOne c h).queue =
    p.queue.filter fun k => ¬ (k = h ∧ (p.descriptor k).channel = c ∧ (p.descriptor k).state = .queued) := by
  by_cases hl : (p.descriptor h).Leaves c
  · rw [PulseStore.purgeOne_leaves hl]
    simp only [hn.erase_eq_filter]
    refine List.filter_congr fun k _ => ?_
    by_cases hk : k = h
    · simp [hk, hl.1, hl.2]
    · simp [hk]
  · rw [PulseStore.purgeOne_stays hl, PulseStore.queue_setDescriptor]
    refine (List.filter_eq_self.mpr fun k _ => ?_).symm
    simp only [decide_eq_true_eq]
    rintro ⟨rfl, leaves⟩
    exact hl leaves

theorem PulseStore.mem_freeBlocks_purgeOne (b : BlockNo) : b ∈ (p.purgeOne c h).freeBlocks ↔
    b ∈ p.freeBlocks ∨ (p.descriptor h).Leaves c ∧ b ∈ (p.descriptor h).blocks := by
  by_cases hl : (p.descriptor h).Leaves c
  · rw [PulseStore.purgeOne_leaves hl]
    simp [PulseStore.free, hl]
  · rw [PulseStore.purgeOne_stays hl]
    simp [hl]

/-! Over a list of handles, each once. -/

variable {l : List Handle}

theorem PulseStore.descriptor_purgeList (hn : l.Nodup) (k : Handle) :
    (l.foldl (·.purgeOne c) p).descriptor k = if k ∈ l then (p.descriptor k).purged c else p.descriptor k := by
  induction l generalizing p with
  | nil => simp
  | cons h rest ih =>
    obtain ⟨once, hn⟩ := List.nodup_cons.mp hn
    rw [List.foldl_cons, ih hn, PulseStore.descriptor_purgeOne]
    by_cases hk : k = h
    · subst hk
      simp [once]
    · simp [hk]

theorem PulseStore.queue_purgeList (hn : l.Nodup) (hq : p.queue.Nodup) : (l.foldl (·.purgeOne c) p).queue =
    p.queue.filter fun k => ¬ (k ∈ l ∧ (p.descriptor k).channel = c ∧ (p.descriptor k).state = .queued) := by
  induction l generalizing p with
  | nil => simp
  | cons h rest ih =>
    obtain ⟨once, hn⟩ := List.nodup_cons.mp hn
    have first := PulseStore.queue_purgeOne (c := c) (h := h) hq
    rw [List.foldl_cons, ih hn (first ▸ hq.filter _), first, List.filter_filter]
    refine List.filter_congr fun k _ => ?_
    rw [PulseStore.descriptor_purgeOne]
    by_cases hk : k = h
    · subst hk
      simp [once]
    · simp [hk]

theorem PulseStore.mem_freeBlocks_purgeList (hn : l.Nodup) (b : BlockNo) : b ∈ (l.foldl (·.purgeOne c) p).freeBlocks ↔
    b ∈ p.freeBlocks ∨ ∃ h ∈ l, (p.descriptor h).Leaves c ∧ b ∈ (p.descriptor h).blocks := by
  induction l generalizing p with
  | nil => simp
  | cons h rest ih =>
    obtain ⟨once, hn⟩ := List.nodup_cons.mp hn
    have others : ∀ k ∈ rest, (p.purgeOne c h).descriptor k = p.descriptor k := by
      intro k hk
      rw [PulseStore.descriptor_purgeOne, if_neg fun e : k = h => once (e ▸ hk)]
    rw [List.foldl_cons, ih hn, PulseStore.mem_freeBlocks_purgeOne, List.exists_mem_cons_iff, or_assoc]
    exact or_congr_right (or_congr_right (exists_congr fun k => and_congr_right fun hk => by rw [others k hk]))

end Purge

theorem exec_channelPurge_due {s : State} {c : Channel} (hr : s.storeRequest c = some .purge) :
    exec (.channelPurge c) s =
      .next ((s.storeTook c (s.pst.purge c) (s.lcu c).answer).answerPart .purge {}) := by
  simp only [exec, execChannelPurge, hr]

/-- Settles O12, handle by handle; what is in the burst queue is QUEUED. -/
theorem channelPurgeFreesQueuedAndMarksStale : Obligations.ChannelPurgeFreesQueuedAndMarksStale := by
  unfold Obligations.ChannelPurgeFreesQueuedAndMarksStale
  intro s c hr hs
  obtain ⟨_, _, once, queued, _⟩ := hs
  have all : (List.finRange 16).Nodup := List.nodup_finRange 16
  have store : ((s.storeTook c (s.pst.purge c) (s.lcu c).answer).answerPart .purge {}).pst = s.pst.purge c := by simp
  refine ⟨_, exec_channelPurge_due hr, ?taken, ?_⟩
  case taken =>
    rw [store]
    rfl
  rw [store]
  refine ⟨fun h => ?descriptor, ?queue, s.pst.slots_purge c, fun b => ?blocks⟩
  case descriptor =>
    have purged := PulseStore.descriptor_purgeList (p := s.pst) (c := c) all h
    rwa [if_pos (List.mem_finRange h)] at purged
  case queue =>
    refine (PulseStore.queue_purgeList (p := s.pst) (c := c) all once).trans (List.filter_congr fun h hh => ?_)
    simp [List.mem_finRange, (queued h).mp hh]
  case blocks =>
    refine (PulseStore.mem_freeBlocks_purgeList (p := s.pst) (c := c) all b).trans (or_congr_right (exists_congr fun h => ?_))
    simp [List.mem_finRange, Descriptor.Leaves, and_assoc]

/-! ## The take (R35, R68, R69) -/

section Take

variable {s : State}

theorem exec_takeRequest_due (hr : s.sdc.request = some .take) (hb : .pst ∈ s.resetParts ∨ .sdc ∉ s.resetParts) :
    exec .takeRequest s =
      .next ((s.setPst s.pst.take.1).setSdc { s.sdc with request := none, answer := some s.pst.take.2 }) := by
  have between : s.resetBetween .pst .sdc 0 = false := by
    rcases hb with h | h <;> simp [State.resetBetween, h]
  simp [exec, execTakeRequest, hr, between]

theorem exec_decoderTakeStart_due (hi : s.sdc.state = .idle) (hr : s.sdc.request = none) (ha : s.sdc.answer = none)
    (hq : s.pst.queue ≠ []) :
    exec .decoderTakeStart s = .next (s.setSdc { s.sdc with request := some .take }) := by
  simp [exec, execDecoderTakeStart, hi, hr, ha, hq]

theorem exec_takeAnswer_took {h : Handle} (hi : s.sdc.state = .idle) (ha : s.sdc.answer = some (.took h)) :
    exec .takeAnswer s = .next (s.setSdc { s.sdc with
      answer := none
      state := .decoding
        { handle := h, channel := (s.pst.descriptor h).channel, openTime := (s.pst.descriptor h).openTime
          count := (s.pst.descriptor h).count
          profileSet := (s.lcu (s.pst.descriptor h).channel).settings.profileSet } }) := by
  simp only [exec, execTakeAnswer, hi, ha]

theorem exec_takeAnswer_empty (hi : s.sdc.state = .idle) (ha : s.sdc.answer = some .empty) :
    exec .takeAnswer s = .next (s.setSdc { s.sdc with answer := none }) := by
  simp only [exec, execTakeAnswer, hi, ha]

end Take

/-- Settles O13, by the burst queue and the answer. -/
theorem decoderTakesTheHeadBurst : Obligations.DecoderTakesTheHeadBurst := by
  unfold Obligations.DecoderTakesTheHeadBurst
  refine ⟨fun s hr hb => ⟨fun h rest hq => ?head, fun hq => ?empty⟩,
    fun s hi => ⟨exec_decoderTakeStart_due hi, fun h => exec_takeAnswer_took hi, exec_takeAnswer_empty hi⟩⟩
  case head => rw [exec_takeRequest_due hr hb, PulseStore.take, hq]
  case empty => rw [exec_takeRequest_due hr hb, PulseStore.take, hq, State.setPst_self]

/-! ## The decode finish (R37, R39) -/

theorem PulseStore.retainedDescriptors_eq_card (p : PulseStore) :
    p.retainedDescriptors = (Finset.univ.filter fun h : Handle => (p.descriptor h).state = .retained).card := by
  rw [PulseStore.retained_eq_sum, Finset.card_filter]
  refine Finset.sum_congr rfl fun h _ => ?_
  by_cases hr : (p.descriptor h).state = .retained <;> simp [hr]

section Finish

variable {p : PulseStore} {h : Handle}

/-- A burst that is stale, is not to be retained, or finds no place among the RETAINED ones is freed (R37, R39). -/
theorem PulseStore.finish_freed {d : Disposition} {answer : DecoderAnswer} (hd : (p.descriptor h).state = .decoding)
    (hf : (p.descriptor h).stale = true ∧ answer = .stale
      ∨ (p.descriptor h).stale = false ∧ d = .free ∧ answer = .freed
      ∨ (p.descriptor h).stale = false ∧ d = .retain ∧ 4 ≤ p.retainedDescriptors ∧ answer = .noRoom) :
    p.finish h d = (p.free h, answer) := by
  rcases hf with ⟨stale, rfl⟩ | ⟨stale, rfl, rfl⟩ | ⟨stale, rfl, full, rfl⟩
  · simp [PulseStore.finish, hd, stale]
  · simp [PulseStore.finish, hd, stale]
  · simp [PulseStore.finish, hd, stale, Config.retainedLimit, Nat.not_lt.mpr full]

theorem PulseStore.finish_retained (hd : (p.descriptor h).state = .decoding) (hs : (p.descriptor h).stale = false)
    (hn : p.retainedDescriptors < 4) : p.finish h .retain =
      (p.setDescriptor h { p.descriptor h with state := .retained, hostHold := true, transmitHolds := 0 }, .retained) := by
  simp [PulseStore.finish, hd, hs, Config.retainedLimit, hn]

theorem PulseStore.finish_stray {d : Disposition} (hd : (p.descriptor h).state ≠ .decoding) :
    p.finish h d = (p, .stale) := by
  simp [PulseStore.finish, hd]

end Finish

theorem exec_decodeFinish_due {s : State} {h : Handle} {d : Disposition} (hr : s.sdc.request = some (.finish h d)) :
    exec .decodeFinish s = .next
      ((s.setPst (s.pst.finish h d).1).setSdc { s.sdc with request := none, answer := some (s.pst.finish h d).2 }) := by
  simp only [exec, execDecodeFinish, hr]

/-- Settles O14, by the descriptor that the finish names. -/
theorem decodeFinishFreesOrRetains : Obligations.DecodeFinishFreesOrRetains := by
  unfold Obligations.DecodeFinishFreesOrRetains
  refine ⟨PulseStore.retainedDescriptors_eq_card, fun s h d answer hr =>
    ⟨fun hd => ⟨fun hf => ?freed, fun hs hk hn => ?retained⟩, fun hd => ?stray⟩⟩
  case freed =>
    rw [exec_decodeFinish_due hr, PulseStore.finish_freed hd hf]
    rfl
  case retained =>
    subst hk
    rw [exec_decodeFinish_due hr, PulseStore.finish_retained hd hs hn]
  case stray => rw [exec_decodeFinish_due hr, PulseStore.finish_stray hd, State.setPst_self]

end Sys2Proof.Machine
end

section
/-! The checks on profiles and entries (R51, R52, R83), and what the decoder does with the store's and the queue's answers (R71 to
R75). -/

namespace Sys2Proof.Machine

/-! ## The field checks on a profile (R51) -/

theorem encodingOf_eq_none_iff {b : Byte} : encodingOf b = none ↔ 2 < b.toNat := by
  unfold encodingOf
  split <;> simp_all
  omega

theorem encodingOf_eq_biphase_iff {b : Byte} : encodingOf b = some .biphase ↔ b.toNat = 2 := by
  unfold encodingOf
  split <;> simp_all

theorem bitOrderOf_eq_none_iff {b : Byte} : bitOrderOf b = none ↔ 1 < b.toNat := by
  unfold bitOrderOf
  split <;> simp_all
  omega

theorem ite_some_eq_none_iff {α : Type} {c : Bool} {x : α} : (if c then some x else none) = none ↔ c = false := by
  cases c <;> simp

/-- A number checked where it is present fails where it is present and out of its range. -/
theorem all_ite_lt_eq_false_iff {b : Bool} {t n : Nat} :
    (if b then some t else none).all (fun k => decide (k < n)) = false ↔ b = true ∧ n ≤ t := by
  cases b <;> simp

/-- A record is refused exactly by the check of one of its fields (R51). -/
theorem profileOfBytes_eq_none_iff (r : Vector Byte 23) : profileOfBytes r = none ↔
    2 < r[1].toNat ∨ 1 < r[20].toNat ∨ r[2].toNat < 1 ∨ 12 < r[2].toNat ∨ r[18].toNat < 1 ∨ 64 < r[18].toNat
      ∨ r[19].toNat < 1 ∨ 64 < r[19].toNat ∨ r[19].toNat < r[18].toNat
      ∨ (r[3].getLsbD 1 = true ∧ r[1].toNat = 2) ∨ (r[3].getLsbD 2 = true ∧ r[18].toNat ≤ r[21].toNat) := by
  unfold profileOfBytes
  cases he : encodingOf r[1] with
  | none => simp [encodingOf_eq_none_iff.mp he]
  | some encoding =>
    cases ho : bitOrderOf r[20] with
    | none => simp [bitOrderOf_eq_none_iff.mp ho]
    | some order =>
      have spelled : ¬ 2 < r[1].toNat := fun h => by simp [encodingOf_eq_none_iff.mpr h] at he
      have ordered : ¬ 1 < r[20].toNat := fun h => by simp [bitOrderOf_eq_none_iff.mpr h] at ho
      have biphase : encoding = .biphase ↔ r[1].toNat = 2 := by rw [← encodingOf_eq_biphase_iff, he, Option.some_inj]
      have repeated : (if r[3].getLsbD 1 then
          some (MarkSpace.mk (half r[8] r[9]) (half r[10] r[11])) else none).isSome = r[3].getLsbD 1 := by
        cases r[3].getLsbD 1 <;> rfl
      refine ite_some_eq_none_iff.trans ?_
      simp only [Bool.and_eq_false_iff, all_ite_lt_eq_false_iff, decide_eq_false_iff_not,
        Bool.not_eq_false', Bool.and_eq_true, beq_iff_eq, biphase, repeated, spelled, ordered, false_or, not_le, or_assoc]

/-! ## The timing checks (R52) -/

theorem Profile.mem_usedNominals (p : Profile) (n : Half) : n ∈ p.usedNominals ↔
    (∃ l, p.leader = some l ∧ (n = l.mark ∨ n = l.space)) ∨ (∃ l, p.repeatLeader = some l ∧ (n = l.mark ∨ n = l.space))
      ∨ n = p.unit1 ∨ (p.encoding ≠ .biphase ∧ (n = p.unit2 ∨ n = p.unit3)) := by
  unfold Profile.usedNominals
  cases p.leader <;> cases p.repeatLeader <;> cases p.encoding <;> simp [or_assoc]

theorem nominalInRange_eq_false_iff {n : Half} : nominalInRange n = false ↔ n.toNat < 50 ∨ 30000 < n.toNat := by
  simp only [nominalInRange, Bool.and_eq_false_iff, decide_eq_false_iff_not, Nat.not_le]

/-- The check of the encoding's own fields (R52). -/
def Profile.encodingCheck (p : Profile) : Bool :=
  match p.encoding with
  | .distance => separable p.tolerance p.unit2 p.unit3
  | .width => separable p.tolerance p.unit1 p.unit2
  | .biphase => decide (p.tolerance ≤ 10)

/-- The check of the two leaders' spaces (R52). -/
def Profile.leaderCheck (p : Profile) : Bool :=
  match p.leader, p.repeatLeader with
  | some l, some r => separable p.tolerance l.space r.space
  | _, _ => true

theorem Profile.timingValid_eq (p : Profile) :
    p.timingValid = (p.usedNominals.all nominalInRange && p.encodingCheck && p.leaderCheck) := rfl

theorem Profile.encodingCheck_eq_false_iff (p : Profile) : p.encodingCheck = false ↔
    (p.encoding = .distance ∧ separable p.tolerance p.unit2 p.unit3 = false)
      ∨ (p.encoding = .width ∧ separable p.tolerance p.unit1 p.unit2 = false)
      ∨ (p.encoding = .biphase ∧ 10 < p.tolerance) := by
  unfold Profile.encodingCheck
  cases p.encoding <;> simp

theorem Profile.leaderCheck_eq_false_iff (p : Profile) : p.leaderCheck = false ↔
    ∃ l r, p.leader = some l ∧ p.repeatLeader = some r ∧ separable p.tolerance l.space r.space = false := by
  unfold Profile.leaderCheck
  cases p.leader <;> cases p.repeatLeader <;> simp

theorem Profile.timingValid_eq_false_iff (p : Profile) : p.timingValid = false ↔
    (∃ n ∈ p.usedNominals, n.toNat < 50 ∨ 30000 < n.toNat)
      ∨ (p.encoding = .distance ∧ separable p.tolerance p.unit2 p.unit3 = false)
      ∨ (p.encoding = .width ∧ separable p.tolerance p.unit1 p.unit2 = false)
      ∨ (p.encoding = .biphase ∧ 10 < p.tolerance)
      ∨ ∃ l r, p.leader = some l ∧ p.repeatLeader = some r ∧ separable p.tolerance l.space r.space = false := by
  rw [p.timingValid_eq, Bool.and_eq_false_iff, Bool.and_eq_false_iff, p.encodingCheck_eq_false_iff,
    p.leaderCheck_eq_false_iff, List.all_eq_false]
  simp only [Bool.not_eq_true, nominalInRange_eq_false_iff, or_assoc]

theorem separable_comm (k : Nat) (x y : Half) : separable k y x = separable k x y := by
  unfold separable
  rw [min_comm, max_comm]

theorem separable_iff_of_le {k : Nat} {x y : Half} (h : x.toNat ≤ y.toNat) :
    separable k x y = true ↔ x.toNat * (32 + k) < y.toNat * (32 - k) := by
  unfold separable
  rw [min_eq_left h, max_eq_right h, decide_eq_true_iff]

/-! ## The field checks on an entry (R83) -/

theorem eventModeOf_eq_none_iff {b : Byte} : eventModeOf b = none ↔ 1 < b.toNat := by
  unfold eventModeOf
  split <;> simp_all
  omega

/-- A payload has a bit at or above a bit count. -/
theorem zeroAbove_eq_false_iff {bits : Nat} {x : Payload} :
    zeroAbove bits x = false ↔ ∃ n, bits ≤ n ∧ x.getLsbD n = true := by
  rw [← Bool.not_eq_true, zeroAbove_iff]
  simp

/-- An entry's fields are refused exactly by the check of one of them (R83). -/
theorem entryOfFields_eq_none_iff (x : EntryFields) : entryOfFields x = none ↔
    7 < x.profile ∨ x.bits < 1 ∨ 64 < x.bits ∨ (∃ n, x.bits ≤ n ∧ x.pattern.getLsbD n = true)
      ∨ (∃ n, x.bits ≤ n ∧ x.careMask.getLsbD n = true) ∨ x.channels = 0 ∨ 15 < x.channels.toNat ∨ 15 < x.group.toNat
      ∨ 1 < x.mode.toNat ∨ x.confirm.toNat < 1 ∨ 4 < x.confirm.toNat := by
  unfold entryOfFields
  by_cases hp : x.profile < 8
  · rw [dif_pos hp]
    have named : ¬ 7 < x.profile := by omega
    have wide : ¬ x.channels.toNat < 16 ↔ 15 < x.channels.toNat := Nat.not_lt
    cases hm : eventModeOf x.mode with
    | none => simp [eventModeOf_eq_none_iff.mp hm]
    | some mode =>
      have moded : ¬ 1 < x.mode.toNat := fun h => by simp [eventModeOf_eq_none_iff.mpr h] at hm
      refine ite_some_eq_none_iff.trans ?_
      simp only [Bool.and_eq_false_iff, decide_eq_false_iff_not, zeroAbove_eq_false_iff, bne_eq_false_iff_eq,
        wide, named, moded, false_or, Nat.not_le, or_assoc]
  · rw [dif_neg hp]
    simp [show 7 < x.profile by omega]

/-- Settles O16, check by check. -/
theorem fieldAndTimingChecks : Obligations.FieldAndTimingChecks := by
  unfold Obligations.FieldAndTimingChecks
  exact ⟨profileOfBytes_eq_none_iff, Profile.timingValid_eq_false_iff, Profile.mem_usedNominals,
    fun k x y h => ⟨separable_iff_of_le h, separable_comm k x y⟩, entryOfFields_eq_none_iff⟩

/-! ## The store's answer to a finish (R71 to R73) -/

section Finished

variable {d : Decoder} {job : DecodeJob} {result : DecodeResult} {report : Bool} {answer : DecoderAnswer}

theorem Decoder.finished_stale : d.finished job result report .stale =
    { d.setCounter job.channel { d.counter job.channel with stale := bump (d.counter job.channel).stale } with
      state := .idle, answer := none } := rfl

theorem Decoder.finished_full (p : ProfileNo) (bits : Nat) (payload : Payload) (toggle : Option Bool) :
    d.finished job (.full p bits payload toggle) report .freed =
      { d.setCounter job.channel { d.counter job.channel with fullFrames := bump (d.counter job.channel).fullFrames } with
        state := .reporting job none, answer := none
        toMatch := d.toMatch.push (.word { channel := job.channel, profile := p, bits := bits, payload := payload
                                           toggle := toggle, stamp := job.openTime }) } := rfl

theorem Decoder.finished_repeated (p : ProfileNo) : d.finished job (.repeated p) report .freed =
    { d.setCounter job.channel { d.counter job.channel with repeatFrames := bump (d.counter job.channel).repeatFrames } with
      state := .reporting job none, answer := none
      toMatch := d.toMatch.push (.notice { channel := job.channel, profile := p, stamp := job.openTime }) } := rfl

/-- An undecodable burst is counted, and reported where the channel asks for it, with its handle where it was retained (R73). -/
theorem Decoder.finished_undecodable (reason : FailReason) {handle : Option Handle}
    (ha : answer = .freed ∧ handle = none ∨ answer = .noRoom ∧ handle = none
      ∨ answer = .retained ∧ handle = some job.handle) :
    d.finished job (.undecodable reason) report answer =
      { d.setCounter job.channel
          { d.counter job.channel with
            undecodable := bump (d.counter job.channel).undecodable
            notRetained := if answer = .noRoom then bump (d.counter job.channel).notRetained
              else (d.counter job.channel).notRetained } with
        state := if report then .reporting job handle else .idle
        answer := none
        toQueue := if report then d.toQueue.push
            { source := channelByte job.channel, stamp := job.openTime, body := .undecoded job.count reason handle }
          else d.toQueue } := by
  rcases ha with ⟨rfl, rfl⟩ | ⟨rfl, rfl⟩ | ⟨rfl, rfl⟩ <;> cases report <;> rfl

end Finished

theorem exec_finishAnswer_due {s : State} {job : DecodeJob} {result : DecodeResult} {report : Bool} {answer : DecoderAnswer}
    (hs : s.sdc.state = .finishing job result report) (ha : s.sdc.answer = some answer) :
    exec .finishAnswer s = .next (s.setSdc (s.sdc.finished job result report answer)) := by
  simp only [exec, execFinishAnswer, hs, ha]

/-- The queue's answer to an UNDECODED makes the decoder IDLE; a refused record's hold is dropped (R74, R75). -/
theorem exec_undecodedAnswer_due {s : State} {job : DecodeJob} {handle : Option Handle} {answer : DecoderAnswer}
    (hs : s.sdc.state = .reporting job handle) (ha : s.sdc.answer = some answer)
    (hk : answer = .admitted ∨ answer = .refused) :
    exec .undecodedAnswer s = .next (s.setSdc { s.sdc with
      state := .idle, answer := none
      hostDrops := if answer = .refused then s.sdc.hostDrops ++ handle.toList else s.sdc.hostDrops }) := by
  rcases hk with rfl | rfl
  · simp [exec, execUndecodedAnswer, hs, ha]
  · cases handle <;> simp [exec, execUndecodedAnswer, hs, ha]

/-- Settles O19, by the answer and the result. -/
theorem finishAnswerHandsOnOrDropsTheResult : Obligations.FinishAnswerHandsOnOrDropsTheResult := by
  unfold Obligations.FinishAnswerHandsOnOrDropsTheResult
  refine ⟨fun s job result report answer k hs ha hk => ?finish, fun s job handle answer hs ha hk =>
    exec_undecodedAnswer_due hs ha hk⟩
  case finish =>
    subst hk
    rw [exec_finishAnswer_due hs ha]
    refine ⟨fun stale => ?_, fun freed p bits payload toggle full => ?_, fun freed p repeated => ?_,
      fun reason handle undecodable kept => ?_⟩
    · rw [stale, Decoder.finished_stale]
    · rw [freed, full, Decoder.finished_full]
    · rw [freed, repeated, Decoder.finished_repeated]
    · rw [undecodable, Decoder.finished_undecodable reason kept]

end Sys2Proof.Machine
end

section
/-! Reading a burst (R57 to R67): the choice among profiles, and the attempts under one. -/

namespace Sys2Proof.Machine

/-! ## The choice among profiles (R67) -/

section Choice

variable {profiles : Vector Profile 8} {ds : List Nat}

theorem mem_profilesOf {set : Byte} {i : ProfileNo} : i ∈ profilesOf set ↔ set.getLsbD i.val = true := by
  simp [profilesOf, List.mem_finRange]

/-- The profiles of a set in ascending number, cut at one of them. -/
theorem profilesOf_split {set : Byte} {i : ProfileNo} (hi : set.getLsbD i.val = true) :
    ∃ below above, profilesOf set = below ++ i :: above
      ∧ (∀ j ∈ below, set.getLsbD j.val = true ∧ j < i) ∧ ∀ j ∈ above, set.getLsbD j.val = true := by
  obtain ⟨below, above, split⟩ := List.append_of_mem (mem_profilesOf.mpr hi)
  have ascending : (below ++ i :: above).Pairwise (· < ·) := split ▸ (List.pairwise_lt_finRange 8).filter _
  have named (j) (hj : j ∈ below ++ i :: above) : set.getLsbD j.val = true := mem_profilesOf.mp (split ▸ hj)
  refine ⟨below, above, split, fun j hj => ⟨named j (List.mem_append_left _ hj), ?_⟩,
    fun j hj => named j (List.mem_append_right _ (List.mem_cons_of_mem _ hj))⟩
  exact (List.pairwise_append.mp ascending).2.2 j hj i List.mem_cons_self

/-- Profiles whose attempts fail only change what the deepest failure so far is. -/
theorem tryProfiles_failing {failing rest : List ProfileNo} {best : Option (FailReason × Nat)}
    (hf : ∀ j ∈ failing, ∃ r d, (profiles[j.val]).attempt ds = .fail r d) :
    ∃ best', tryProfiles profiles ds (failing ++ rest) best = tryProfiles profiles ds rest best' := by
  induction failing generalizing best with
  | nil => exact ⟨best, rfl⟩
  | cons j failing ih =>
    obtain ⟨r, d, hj⟩ := hf j List.mem_cons_self
    rw [List.cons_append, tryProfiles]
    simp only [hj]
    exact ih fun k hk => hf k (List.mem_cons_of_mem _ hk)

/-- A failure that no later attempt goes beyond is the reason. -/
theorem tryProfiles_deepest {rest : List ProfileNo} {r : FailReason} {d : Nat}
    (hf : ∀ j ∈ rest, ∃ r' d', (profiles[j.val]).attempt ds = .fail r' d' ∧ d' ≤ d) :
    tryProfiles profiles ds rest (some (r, d)) = .undecodable r := by
  induction rest with
  | nil => rfl
  | cons j rest ih =>
    obtain ⟨r', d', hj, notDeeper⟩ := hf j List.mem_cons_self
    rw [tryProfiles]
    simp only [hj, if_neg (Nat.not_lt.mpr notDeeper)]
    exact ih fun k hk => hf k (List.mem_cons_of_mem _ hk)

/-- A failure deeper than all before it, which no later attempt goes beyond, is the reason. -/
theorem tryProfiles_deepest_after {below above : List ProfileNo} {i : ProfileNo} {r : FailReason} {d : Nat}
    {best : Option (FailReason × Nat)} (hi : (profiles[i.val]).attempt ds = .fail r d) (hbest : ∀ x ∈ best, x.2 < d)
    (hbelow : ∀ j ∈ below, ∃ r' d', (profiles[j.val]).attempt ds = .fail r' d' ∧ d' < d)
    (habove : ∀ j ∈ above, ∃ r' d', (profiles[j.val]).attempt ds = .fail r' d' ∧ d' ≤ d) :
    tryProfiles profiles ds (below ++ i :: above) best = .undecodable r := by
  induction below generalizing best with
  | nil =>
    rw [List.nil_append, tryProfiles]
    cases best with
    | none =>
      simp only [hi]
      exact tryProfiles_deepest habove
    | some x =>
      simp only [hi, if_pos (hbest x rfl)]
      exact tryProfiles_deepest habove
  | cons j below ih =>
    obtain ⟨r', d', hj, shallower⟩ := hbelow j List.mem_cons_self
    rw [List.cons_append, tryProfiles]
    simp only [hj]
    refine ih (fun x hx => ?_) fun k hk => hbelow k (List.mem_cons_of_mem _ hk)
    cases best with
    | none =>
      cases hx
      exact shallower
    | some y =>
      have := hbest y rfl
      dsimp only at hx
      split at hx <;> cases hx <;> assumption

end Choice

/-! ## DECODE_END (R67, R70) -/

/-- The disposition of a finish: RETAIN for an undecodable burst whose channel retains those (R70). -/
def DecodeResult.disposition (result : DecodeResult) (retain : Bool) : Disposition :=
  match result with
  | .undecodable _ => if retain then .retain else .free
  | .full _ _ _ _ | .repeated _ => .free

theorem DecodeResult.disposition_eq_retain_iff {result : DecodeResult} {retain : Bool} :
    result.disposition retain = .retain ↔ (∃ reason, result = .undecodable reason) ∧ retain = true := by
  cases result <;> cases retain <;> simp [DecodeResult.disposition]

theorem exec_decodeEnd_due {s : State} {job : DecodeJob} (hs : s.sdc.state = .decoding job) {result : DecodeResult}
    (hr : result = decodeBurst s.sdc.profiles job.profileSet
      ((List.range job.count).map fun p => (s.pst.elementAt (s.pst.descriptor job.handle) p).toNat)) :
    exec .decodeEnd s = .next (s.setSdc { s.sdc with
      state := .finishing job result (s.lcu job.channel).settings.reportUndecoded
      request := some (.finish job.handle (result.disposition (s.lcu job.channel).settings.retainUndecoded)) }) := by
  have elements : (s.pst.elements { s.pst.descriptor job.handle with count := job.count }).map BitVec.toNat =
      (List.range job.count).map fun p => (s.pst.elementAt (s.pst.descriptor job.handle) p).toNat :=
    List.map_map
  subst hr
  simp only [exec, execDecodeEnd, hs, elements]
  rfl

/-! ## The frame of an attempt (R57, R58) -/

section Attempt

variable {p : Profile} {ds : List Nat}

/-- The distance of a duration from a nominal, whichever is the larger. -/
theorem Profile.near_iff (p : Profile) (d n : Nat) : p.near d n = true ↔ (d - n + (n - d)) * 32 ≤ n * p.tolerance := by
  have distance : max d n - min d n = d - n + (n - d) := by omega
  rw [Profile.near, distance, decide_eq_true_iff]

theorem Profile.leaderMatches_iff : p.leaderMatches ds = true ↔ ∃ l d0 d1 rest, p.leader = some l ∧ ds = d0 :: d1 :: rest
    ∧ p.near d0 l.mark.toNat = true ∧ p.near d1 l.space.toNat = true := by
  unfold Profile.leaderMatches
  split
  · next l d0 d1 rest hl => simp [hl]
  · next no =>
    simp only [Bool.false_eq_true, false_iff]
    rintro ⟨l, d0, d1, rest, hl, rfl, _⟩
    exact no l d0 d1 rest hl rfl

theorem Profile.repeatMatches_iff : p.repeatMatches ds = true ↔ ∃ l d0 d1 d2, p.repeatLeader = some l ∧ ds = [d0, d1, d2]
    ∧ p.near d0 l.mark.toNat = true ∧ p.near d1 l.space.toNat = true ∧ p.near d2 p.unit1.toNat = true := by
  unfold Profile.repeatMatches
  split
  · next l d0 d1 d2 hl => simp [hl, Profile.trailer, and_assoc]
  · next no =>
    simp only [Bool.false_eq_true, false_iff]
    rintro ⟨l, d0, d1, d2, hl, rfl, _⟩
    exact no l d0 d1 d2 hl rfl

theorem Profile.attempt_repeated (hl : p.leaderMatches ds = false) (hr : p.repeatMatches ds = true) :
    p.attempt ds = .repeated := by
  simp [Profile.attempt, hl, hr]

theorem Profile.attempt_leader (hl : p.leaderMatches ds = false) (hr : p.repeatMatches ds = false)
    (h : p.leader.isSome = true) : p.attempt ds = .fail .leader 0 := by
  simp [Profile.attempt, hl, hr, h]

/-- The data step begins behind the leader, or at the first element of a profile without one (R58). -/
theorem Profile.attempt_data {start : Nat} (h : p.leaderMatches ds = true ∧ start = 2
      ∨ p.leaderMatches ds = false ∧ p.repeatMatches ds = false ∧ p.leader = none ∧ start = 0) :
    p.attempt ds = p.lengthTest ds.length (p.dataStep (ds.drop start) start) := by
  rcases h with ⟨hl, rfl⟩ | ⟨hl, hr, none, rfl⟩
  · simp [Profile.attempt, hl]
  · simp [Profile.attempt, hl, hr, none]

/-- Where the data step begins, the elements before it are there. -/
theorem Profile.start_le_length {start : Nat} (h : p.leaderMatches ds = true ∧ start = 2
      ∨ p.leaderMatches ds = false ∧ p.repeatMatches ds = false ∧ p.leader = none ∧ start = 0) :
    start ≤ ds.length ∧ start % 2 = 0 := by
  rcases h with ⟨hl, rfl⟩ | ⟨_, _, _, rfl⟩
  · obtain ⟨l, d0, d1, rest, _, rfl, _⟩ := Profile.leaderMatches_iff.mp hl
    simp
  · simp

end Attempt

/-! ## The DISTANCE data step (R59) -/

/-- Elements in pairs, the first pair in front. -/
theorem pairs_cons_append (x : Nat × Nat) (pairs : List (Nat × Nat)) (rest : List Nat) :
    ((x :: pairs).flatMap fun y => [y.1, y.2]) ++ rest = x.1 :: x.2 :: ((pairs.flatMap fun y => [y.1, y.2]) ++ rest) := rfl

section Distance

variable {p : Profile}

/-- A mark and a space that read as a bit (R59). -/
def Profile.readsDistance (p : Profile) (x : Nat × Nat) (b : Bool) : Prop :=
  p.near x.1 p.unit1.toNat = true ∧ p.near x.2 (if b then p.unit3 else p.unit2).toNat = true
    ∧ (b = true → p.near x.2 p.unit2.toNat = false)

theorem Profile.distanceStep_pairs {pairs : List (Nat × Nat)} {got : List Bool}
    (hr : List.Forall₂ p.readsDistance pairs got) {rest : List Nat} {position : Nat} {before : List Bool}
    (hn : before.length + got.length ≤ p.maxBits) :
    p.distanceStep ((pairs.flatMap fun x => [x.1, x.2]) ++ rest) position before =
      p.distanceStep rest (position + 2 * pairs.length) (before ++ got) := by
  induction hr generalizing position before with
  | nil => simp
  | @cons x b pairs got hx _ ih =>
    obtain ⟨mark, space, notZero⟩ := hx
    rw [List.length_cons] at hn
    have room : ¬ p.maxBits ≤ before.length := by omega
    have next := ih (position := position + 2) (before := before ++ [b]) (by simp; omega)
    have count : position + 2 + 2 * pairs.length = position + 2 * (pairs.length + 1) := by omega
    rw [count, List.append_assoc, List.singleton_append] at next
    rw [pairs_cons_append, List.length_cons, ← next, Profile.distanceStep]
    cases b with
    | false => simp [mark, room, show p.near x.2 p.unit2.toNat = true from space]
    | true => simp [mark, room, notZero rfl, show p.near x.2 p.unit3.toNat = true from space]

variable {position : Nat} {got : List Bool} {d d' : Nat} {more : List Nat}

theorem Profile.distanceStep_end (hd : p.near d p.unit1.toNat = true) : p.distanceStep [d] position got = .bits got := by
  simp [Profile.distanceStep, hd]

theorem Profile.distanceStep_mark (hd : p.near d p.unit1.toNat = false) :
    p.distanceStep (d :: more) position got = .fail .symbol position := by
  cases more <;> simp [Profile.distanceStep, hd]

theorem Profile.distanceStep_trailing (hd : p.near d p.unit1.toNat = true) (hn : got.length = p.maxBits) :
    p.distanceStep (d :: d' :: more) position got = .fail .trailing (position + 1) := by
  simp [Profile.distanceStep, hd, hn]

theorem Profile.distanceStep_space (hd : p.near d p.unit1.toNat = true) (hn : got.length < p.maxBits)
    (h2 : p.near d' p.unit2.toNat = false) (h3 : p.near d' p.unit3.toNat = false) :
    p.distanceStep (d :: d' :: more) position got = .fail .symbol (position + 1) := by
  simp [Profile.distanceStep, hd, Nat.not_le.mpr hn, h2, h3]

end Distance

/-! ## The WIDTH data step (R60) -/

section Width

variable {p : Profile}

theorem Profile.widthBit_eq_some_iff {d : Nat} {b : Bool} : p.widthBit d = some b ↔
    p.near d (if b then p.unit2 else p.unit1).toNat = true ∧ (b = true → p.near d p.unit1.toNat = false) := by
  unfold Profile.widthBit
  cases h1 : p.near d p.unit1.toNat <;> cases h2 : p.near d p.unit2.toNat <;> cases b <;> simp [h1, h2]

theorem Profile.widthStep_pairs {pairs : List (Nat × Nat)} {got : List Bool}
    (hr : List.Forall₂ (fun x b => p.widthBit x.1 = some b ∧ p.near x.2 p.unit3.toNat = true) pairs got) {rest : List Nat}
    {position : Nat} {before : List Bool} :
    p.widthStep ((pairs.flatMap fun x => [x.1, x.2]) ++ rest) position before =
      p.widthStep rest (position + 2 * pairs.length) (before ++ got) := by
  induction hr generalizing position before with
  | nil => simp
  | @cons x b pairs got hx _ ih =>
    obtain ⟨mark, space⟩ := hx
    have next := ih (position := position + 2) (before := before ++ [b])
    have count : position + 2 + 2 * pairs.length = position + 2 * (pairs.length + 1) := by omega
    rw [count, List.append_assoc, List.singleton_append] at next
    rw [pairs_cons_append, List.length_cons, ← next, Profile.widthStep]
    simp [mark, space]

variable {position : Nat} {got : List Bool} {d d' : Nat} {b : Bool} {more : List Nat}

theorem Profile.widthStep_end (hd : p.widthBit d = some b) : p.widthStep [d] position got = .bits (got ++ [b]) := by
  simp [Profile.widthStep, hd]

theorem Profile.widthStep_mark (hd : p.widthBit d = none) :
    p.widthStep (d :: more) position got = .fail .symbol position := by
  cases more <;> simp [Profile.widthStep, hd]

theorem Profile.widthStep_space (hd : p.widthBit d = some b) (h3 : p.near d' p.unit3.toNat = false) :
    p.widthStep (d :: d' :: more) position got = .fail .symbol (position + 1) := by
  simp [Profile.widthStep, hd, h3]

end Width

/-! ## The BIPHASE data step (R61, R62) -/

/-- A sequence of halves, each with its level and the position of its element, joins the cells (R62). -/
def feedHalves (got : List Bool) (waiting : Option PendingHalf) : List (Bool × Nat) → CellResult
  | [] => .ok got waiting
  | x :: rest =>
    match feedHalf got waiting x.1 x.2 with
    | .ok g w => feedHalves g w rest
    | .fail depth => .fail depth

/-- The halves of elements of given widths, from a position on (R61): even positions are marks. -/
def halvesFrom (position : Nat) (widths : List Nat) : List (Bool × Nat) :=
  (widths.zipIdx position).flatMap fun x => List.replicate x.1 (x.2 % 2 == 0, x.2)

theorem halvesFrom_cons (position w : Nat) (widths : List Nat) : halvesFrom position (w :: widths) =
    List.replicate w (position % 2 == 0, position) ++ halvesFrom (position + 1) widths := by
  simp [halvesFrom]

section Biphase

variable {p : Profile}

/-- An element of one or of two halves (R61). -/
def Profile.readsHalves (p : Profile) (d w : Nat) : Prop :=
  w = 1 ∧ p.near d p.unit1.toNat = true
    ∨ w = 2 ∧ p.near d p.unit1.toNat = false ∧ p.near d (2 * p.unit1.toNat) = true

/-- The data step feeds the elements' halves. -/
theorem Profile.biphaseStep_halves {read widths : List Nat} (hr : List.Forall₂ p.readsHalves read widths) {rest : List Nat}
    {position : Nat} {got : List Bool} {waiting : Option PendingHalf} :
    p.biphaseStep (read ++ rest) position got waiting =
      match feedHalves got waiting (halvesFrom position widths) with
      | .ok g w => p.biphaseStep rest (position + read.length) g w
      | .fail depth => .fail .cell depth := by
  induction hr generalizing position got waiting with
  | nil => rfl
  | @cons d w read widths hd _ ih =>
    have count : position + (read.length + 1) = position + 1 + read.length := by omega
    rw [List.cons_append, halvesFrom_cons, List.length_cons, count, Profile.biphaseStep]
    rcases hd with ⟨rfl, near⟩ | ⟨rfl, short, near⟩
    · simp only [near, if_true, List.replicate_one, List.singleton_append, feedHalves]
      cases feedHalf got waiting (position % 2 == 0) position with
      | ok g w => exact ih
      | fail depth => rfl
    · simp only [short, near, if_true, Bool.false_eq_true, if_false, List.replicate_succ, List.replicate_zero,
        List.cons_append, List.nil_append, feedHalves]
      cases feedHalf got waiting (position % 2 == 0) position with
      | fail depth => rfl
      | ok g w =>
        dsimp only
        cases feedHalf g w (position % 2 == 0) position with
        | fail depth => rfl
        | ok g' w' => exact ih

theorem Profile.biphaseStep_symbol {d : Nat} {more : List Nat} {position : Nat} {got : List Bool}
    {waiting : Option PendingHalf} (h1 : p.near d p.unit1.toNat = false) (h2 : p.near d (2 * p.unit1.toNat) = false) :
    p.biphaseStep (d :: more) position got waiting = .fail .symbol position := by
  simp [Profile.biphaseStep, h1, h2]

/-- A cell of two halves (R62). -/
theorem feedHalves_cell (got : List Bool) (x y : Bool × Nat) (rest : List (Bool × Nat)) :
    feedHalves got none (x :: y :: rest) =
      if x.1 = y.1 then .fail x.2 else feedHalves (got ++ [x.1]) none rest := by
  by_cases h : x.1 = y.1 <;> simp [feedHalves, feedHalf, h]

/-- The first cell of like halves fails at its first half's element (R62). -/
theorem feedHalves_like {n : Nat} {halves : List (Bool × Nat)} {got : List Bool} {x y : Bool × Nat}
    (hx : halves[2 * n]? = some x) (hy : halves[2 * n + 1]? = some y) (like : x.1 = y.1)
    (first : ∀ m < n, ∀ u v, halves[2 * m]? = some u → halves[2 * m + 1]? = some v → u.1 ≠ v.1) :
    feedHalves got none halves = .fail x.2 := by
  induction n generalizing halves got with
  | zero =>
    match halves, hx, hy with
    | u :: v :: rest, hx, hy =>
      cases hx
      cases hy
      rw [feedHalves_cell, if_pos like]
  | succ n ih =>
    match halves, hx, hy with
    | u :: v :: rest, hx, hy =>
      rw [feedHalves_cell, if_neg (first 0 (by omega) u v rfl rfl)]
      exact ih hx hy fun m hm => first (m + 1) (by omega)

/-- Where every cell has unlike halves, each gives its first half as a bit, and a last half without a partner waits (R62). -/
theorem feedHalves_unlike {halves : List (Bool × Nat)}
    (unlike : ∀ n x y, halves[2 * n]? = some x → halves[2 * n + 1]? = some y → x.1 ≠ y.1) (got : List Bool) :
    ∃ cells waiting, feedHalves got none halves = .ok (got ++ cells) waiting
      ∧ (waiting = none ∧ halves.length = 2 * cells.length
          ∨ ∃ x, halves.getLast? = some x ∧ waiting = some ⟨x.1, x.2⟩ ∧ halves.length = 2 * cells.length + 1)
      ∧ ∀ n x, n < cells.length → halves[2 * n]? = some x → cells[n]? = some x.1 := by
  match halves, unlike with
  | [], _ => exact ⟨[], none, by simp [feedHalves], .inl ⟨rfl, rfl⟩, fun n x hn => absurd hn (Nat.not_lt_zero n)⟩
  | [x], _ =>
    exact ⟨[], some ⟨x.1, x.2⟩, by simp [feedHalves, feedHalf], .inr ⟨x, rfl, rfl, rfl⟩,
      fun n x hn => absurd hn (Nat.not_lt_zero n)⟩
  | u :: v :: rest, unlike =>
    obtain ⟨cells, waiting, fed, last, bits⟩ :=
      feedHalves_unlike (halves := rest) (fun n => unlike (n + 1)) (got ++ [u.1])
    refine ⟨u.1 :: cells, waiting, ?fed, ?last, ?bits⟩
    case fed =>
      rw [feedHalves_cell, if_neg (unlike 0 u v rfl rfl), fed, List.append_assoc, List.singleton_append]
    case last =>
      rcases last with ⟨rfl, even⟩ | ⟨x, hx, rfl, odd⟩
      · exact .inl ⟨rfl, by simp only [List.length_cons]; omega⟩
      · refine .inr ⟨x, ?_, rfl, by simp only [List.length_cons]; omega⟩
        rw [List.getLast?_cons_cons, List.getLast?_cons, hx]
        rfl
    case bits =>
      intro n x hn hx
      cases n with
      | zero =>
        cases hx
        rfl
      | succ n => exact bits n x (by simpa using hn) hx

/-- The last half is of the last element (R61). -/
theorem getLast?_halvesFrom {widths : List Nat} (hw : ∀ w ∈ widths, 0 < w) (position : Nat) {x : Bool × Nat}
    (hx : (halvesFrom position widths).getLast? = some x) :
    x.2 + 1 = position + widths.length ∧ x.1 = (x.2 % 2 == 0) := by
  induction widths generalizing position with
  | nil => cases hx
  | cons w widths ih =>
    rw [halvesFrom_cons, List.getLast?_append] at hx
    cases hl : (halvesFrom (position + 1) widths).getLast? with
    | some y =>
      rw [hl, Option.some_or] at hx
      cases hx
      obtain ⟨at_end, level⟩ := ih (fun w hw' => hw w (List.mem_cons_of_mem _ hw')) (position + 1) hl
      exact ⟨by simp only [List.length_cons]; omega, level⟩
    | none =>
      have only : widths = [] := by
        cases widths with
        | nil => rfl
        | cons v widths =>
          have := hw v (by simp)
          rw [halvesFrom_cons] at hl
          simp at hl
          omega
      rw [hl, Option.none_or] at hx
      subst only
      obtain rfl : x = (position % 2 == 0, position) :=
        List.eq_of_mem_replicate (List.mem_of_getLast? hx)
      exact ⟨rfl, rfl⟩

theorem Profile.readsHalves_pos {read widths : List Nat} (hr : List.Forall₂ p.readsHalves read widths) :
    ∀ w ∈ widths, 0 < w := by
  induction hr with
  | nil => simp
  | cons hd _ ih =>
    intro w hw
    rcases List.mem_cons.mp hw with rfl | hw
    · rcases hd with ⟨rfl, _⟩ | ⟨rfl, _⟩ <;> decide
    · exact ih w hw

/-- The last element of a burst of an odd length is a mark, so that a last half without a partner reads as a 1; the bits are the
cells' first halves (R62). -/
theorem Profile.biphaseStep_end {read widths : List Nat} {start : Nat} (hr : List.Forall₂ p.readsHalves read widths)
    (hodd : (start + read.length) % 2 = 1)
    (unlike : ∀ n x y, (halvesFrom start widths)[2 * n]? = some x → (halvesFrom start widths)[2 * n + 1]? = some y →
      x.1 ≠ y.1)
    {got : List Bool} (hlength : got.length = ((halvesFrom start widths).length + 1) / 2)
    (hgot : ∀ n x, (halvesFrom start widths)[2 * n]? = some x → got[n]? = some x.1) :
    p.biphaseStep read start [] none = .bits got := by
  have step := Profile.biphaseStep_halves hr (rest := []) (position := start) (got := []) (waiting := none)
  obtain ⟨cells, waiting, fed, last, bits⟩ := feedHalves_unlike unlike []
  rw [List.append_nil, fed, List.nil_append] at step
  have same (n) (hn : n < cells.length) : got[n]? = cells[n]? := by
    have inside : 2 * n < (halvesFrom start widths).length := by
      rcases last with ⟨_, length⟩ | ⟨_, _, _, length⟩ <;> omega
    have hx := List.getElem?_eq_getElem inside
    rw [hgot n _ hx, bits n _ hn hx]
  rcases last with ⟨rfl, even⟩ | ⟨x, hx, rfl, odd⟩
  · have equal : got = cells := List.ext_getElem? fun n => by
      by_cases hn : n < cells.length
      · exact same n hn
      · rw [List.getElem?_eq_none (by omega), List.getElem?_eq_none (by omega)]
    rw [step, equal]
    rfl
  · obtain ⟨at_end, level⟩ := getLast?_halvesFrom (Profile.readsHalves_pos hr) start hx
    have mark : x.1 = true := by
      have := hr.length_eq
      rw [level, beq_iff_eq]
      omega
    have equal : got = cells ++ [true] := List.ext_getElem? fun n => by
      rcases Nat.lt_trichotomy n cells.length with hn | rfl | hn
      · rw [same n hn, List.getElem?_append_left hn]
      · rw [List.getLast?_eq_getElem?, odd, Nat.add_sub_cancel] at hx
        rw [hgot _ x hx, mark, List.getElem?_concat_length]
      · rw [List.getElem?_eq_none (by omega), List.getElem?_eq_none (by simp; omega)]
    rw [step, equal]
    simp [Profile.biphaseStep, feedHalf, mark]

end Biphase

/-- Settles O18: the choice by the deepest failure, and an attempt by its frame and the data step of its encoding. -/
theorem lowestReadingProfileWins : Obligations.LowestReadingProfileWins := by
  unfold Obligations.LowestReadingProfileWins
  refine ⟨fun profiles set ds => ⟨fun i hi hbelow => ?lowest, fun i r d hi hfail hall => ?deepest, fun empty => ?empty⟩,
    fun s job hs => ?decodeEnd,
    fun p ds => ⟨p.near_iff, Profile.leaderMatches_iff, Profile.repeatMatches_iff, Profile.attempt_repeated,
      Profile.attempt_leader, fun start ended hstart hended => ⟨?distance, ?width, ?biphase⟩⟩⟩
  case lowest =>
    obtain ⟨below, above, split, named, _⟩ := profilesOf_split hi
    obtain ⟨best, rest⟩ := tryProfiles_failing (rest := i :: above) (best := none)
      fun j hj => hbelow j (named j hj).2 (named j hj).1
    constructor
    · intro got full
      rw [decodeBurst, split, rest, tryProfiles]
      simp only [full]
    · intro repeated
      rw [decodeBurst, split, rest, tryProfiles]
      simp only [repeated]
  case deepest =>
    obtain ⟨below, above, split, lower, named⟩ := profilesOf_split hi
    rw [decodeBurst, split]
    refine tryProfiles_deepest_after hfail nofun (fun j hj => ?_) fun j hj => ?_
    · obtain ⟨r', d', fail, _, shallower⟩ := hall j (lower j hj).1
      exact ⟨r', d', fail, shallower (lower j hj).2⟩
    · obtain ⟨r', d', fail, notDeeper, _⟩ := hall j (named j hj)
      exact ⟨r', d', fail, notDeeper⟩
  case empty =>
    have none : profilesOf set = [] := List.eq_nil_iff_forall_not_mem.mpr fun i hi => by
      simp [mem_profilesOf, empty] at hi
    rw [decodeBurst, none]
    rfl
  case decodeEnd =>
    exact ⟨_, _, exec_decodeEnd_due hs rfl, rfl, DecodeResult.disposition_eq_retain_iff⟩
  all_goals
    have attempt := Profile.attempt_data hstart
    have ended_eq (got) : ended got = p.lengthTest ds.length (.bits got) := hended got
    intro encoding
  case distance =>
    intro pairs got rest hdrop hn hreads
    have step := Profile.distanceStep_pairs (p := p) hreads (rest := rest) (position := start) (before := [])
      (by simpa using hn)
    rw [attempt, Profile.dataStep, encoding, hdrop, ended_eq]
    simp only [step, List.nil_append]
    refine ⟨fun d hrest hd => ?_, fun d more hrest hd => ?_, fun d d' more hrest hd => ⟨fun hn => ?_, fun hn h2 h3 => ?_⟩⟩
    · rw [hrest, Profile.distanceStep_end hd]
    · rw [hrest, Profile.distanceStep_mark hd]
      rfl
    · rw [hrest, Profile.distanceStep_trailing hd hn]
      rfl
    · rw [hrest, Profile.distanceStep_space hd hn h2 h3]
      rfl
  case width =>
    intro pairs got rest reads hreads hdrop hpairs
    have bit (d b) : reads d b ↔ p.widthBit d = some b := (hreads d b).trans Profile.widthBit_eq_some_iff.symm
    have step := Profile.widthStep_pairs (p := p)
      (hpairs.imp fun x b ⟨mark, space⟩ => ⟨(bit x.1 b).mp mark, space⟩) (rest := rest) (position := start) (before := [])
    rw [attempt, Profile.dataStep, encoding, hdrop]
    simp only [step, List.nil_append, ended_eq]
    refine ⟨fun d b hrest hd => ?_, fun d more hrest hd => ?_, fun d b d' more hrest hd h3 => ?_⟩
    · rw [hrest, Profile.widthStep_end ((bit d b).mp hd)]
    · have unread : p.widthBit d = none := Option.eq_none_iff_forall_ne_some.mpr fun b hb => hd b ((bit d b).mpr hb)
      rw [hrest, Profile.widthStep_mark unread]
      rfl
    · rw [hrest, Profile.widthStep_space ((bit d b).mp hd) h3]
      rfl
  case biphase =>
    intro read rest widths halves hdrop hreads hhalves
    obtain rfl : halves = halvesFrom start widths := hhalves
    have step := Profile.biphaseStep_halves (p := p) hreads (rest := rest) (position := start) (got := []) (waiting := none)
    rw [attempt, Profile.dataStep, encoding, hdrop]
    refine ⟨fun n x y hx hy like first => ?_, fun unlike => ⟨fun d more hrest h1 h2 => ?_,
      fun got hrest hodd hlength hgot => ?_⟩⟩
    · simp only [step, feedHalves_like hx hy like first]
      rfl
    · obtain ⟨cells, waiting, fed, _⟩ := feedHalves_unlike unlike []
      subst hrest
      simp only [step, fed, Profile.biphaseStep_symbol h1 h2]
      rfl
    · obtain ⟨inside, _⟩ := Profile.start_le_length hstart
      have length : ds.length - start = read.length := by
        rw [← List.length_drop, hdrop, hrest, List.append_nil]
      simp only [hrest, List.append_nil, Profile.biphaseStep_end hreads (by omega) unlike hlength hgot, ended_eq]

end Sys2Proof.Machine
end

section
/-! A DISTANCE or WIDTH frame reads back as the word that was sent (R58 to R65, R174). -/

namespace Sys2Proof.Machine

/-! ## The payload and its toggle bit (R64, R65, R174) -/

theorem getLsbD_clearBit (x : Payload) (t : Nat) {n : Nat} (hn : n < 64) :
    (clearBit x t).getLsbD n = (x.getLsbD n && !decide (n = t)) := by
  simp [clearBit, hn, eq_comm]

theorem getLsbD_setToggleBit (x : Payload) (t : Nat) (v : Bool) {n : Nat} (hn : n < 64) :
    (setToggleBit x t v).getLsbD n = if n = t then v else x.getLsbD n := by
  by_cases h : n = t
  · subst h
    cases v <;> simp [setToggleBit, hn]
  · cases v <;> simp [setToggleBit, hn, h]

theorem Profile.getLsbD_withoutToggle (p : Profile) (payload : Payload) {n : Nat} (hn : n < 64) :
    (p.withoutToggle payload).getLsbD n = (payload.getLsbD n && p.toggle != some n) := by
  unfold Profile.withoutToggle
  cases p.toggle with
  | none => simp
  | some t =>
    have same : (some t != some n) = !decide (n = t) := by
      by_cases h : n = t
      · simp [h]
      · simp [h, Ne.symm h]
    rw [getLsbD_clearBit payload t hn, same]

/-- The payload that is sent: its toggle bit is the engine's toggle state (R174). -/
def Profile.sentPayload (p : Profile) (payload : Payload) (toggle : Bool) : Payload :=
  match p.toggle with
  | some t => setToggleBit payload t toggle
  | none => payload

section Sent

variable {p : Profile} {bits : Nat} {payload : Payload} {toggle : Bool}

/-- Only the toggle bit tells the payload sent from the payload (R174). -/
theorem Profile.withoutToggle_sentPayload :
    p.withoutToggle (p.sentPayload payload toggle) = p.withoutToggle payload := by
  refine BitVec.eq_of_getLsbD_eq fun n hn => ?_
  rw [p.getLsbD_withoutToggle _ hn, p.getLsbD_withoutToggle _ hn]
  unfold Profile.sentPayload
  cases p.toggle with
  | none => rfl
  | some t =>
    rw [getLsbD_setToggleBit payload t toggle hn]
    by_cases h : n = t <;> simp [h]

section Range

variable (ht : ∀ t, p.toggle = some t → t < bits)
include ht

theorem Profile.toggleOf_sentPayload (hb : bits ≤ 64) : p.toggleOf (p.sentPayload payload toggle) = p.toggle.map fun _ => toggle := by
  unfold Profile.toggleOf Profile.sentPayload
  cases h : p.toggle with
  | none => rfl
  | some t =>
    have inside : t < 64 := Nat.lt_of_lt_of_le (ht t h) hb
    simp [getLsbD_setToggleBit payload t toggle inside]

/-- The toggle bit lies within the word, so the payload sent has no bit outside it either. -/
theorem Profile.toNat_sentPayload (h0 : ∀ n, bits ≤ n → payload.getLsbD n = false) :
    (p.sentPayload payload toggle).toNat < 2 ^ bits := by
  refine of_decide_eq_true (zeroAbove_iff.mpr fun n hn => ?_)
  by_cases hw : n < 64
  · unfold Profile.sentPayload
    cases h : p.toggle with
    | none => exact h0 n hn
    | some t =>
      have := ht t h
      simp only [getLsbD_setToggleBit payload t toggle hw]
      rw [if_neg (by omega), h0 n hn]
  · exact BitVec.getLsbD_of_ge _ _ (Nat.not_lt.mp hw)

end Range

end Sent

/-! ## The bits in sending order (R64, R174) -/

theorem bitsValue_testBits (n m : Nat) : bitsValue ((List.range n).map m.testBit) = m % 2 ^ n := by
  induction n generalizing m with
  | zero => simp [bitsValue, Nat.mod_one]
  | succ n ih =>
    have halved : m.testBit ∘ Nat.succ = (m / 2).testBit := funext fun i => Nat.testBit_succ m i
    rw [List.range_succ_eq_map, List.map_cons, List.map_map, halved, bitsValue, ih, Nat.testBit_zero, pow_succ',
      Nat.mod_mul]
    rcases Nat.mod_two_eq_zero_or_one m with h | h <;> simp [h]

@[simp] theorem length_sendingBits (order : BitOrder) (bits : Nat) (x : Payload) :
    (sendingBits order bits x).length = bits := by
  cases order <;> simp [sendingBits]

/-- A word within its bit count is the payload of its bits (R64, R174). -/
theorem payloadOfBits_sendingBits (order : BitOrder) {bits : Nat} {x : Payload} (hx : x.toNat < 2 ^ bits) :
    payloadOfBits order (sendingBits order bits x) = x := by
  have value : bitsValue ((List.range bits).map fun i => x.getLsbD i) = x.toNat :=
    (bitsValue_testBits bits x.toNat).trans (Nat.mod_eq_of_lt hx)
  cases order <;> simp [payloadOfBits, sendingBits, value]

/-- The decode result of the bits that were sent (R64, R65, R174). -/
theorem Profile.fullResult_sent {p : Profile} {bits : Nat} {payload : Payload} (toggle : Bool) (i : ProfileNo)
    (hb : bits ≤ 64) (ht : ∀ t, p.toggle = some t → t < bits) (h0 : ∀ n, bits ≤ n → payload.getLsbD n = false) :
    p.fullResult i (sendingBits p.order bits (p.sentPayload payload toggle)) =
      .full i bits (p.withoutToggle payload) (p.toggle.map fun _ => toggle) := by
  simp only [Profile.fullResult, length_sendingBits, payloadOfBits_sendingBits p.order (Profile.toNat_sentPayload ht h0),
    Profile.withoutToggle_sentPayload, Profile.toggleOf_sentPayload ht hb]

/-! ## Nominals that read as themselves (00_scope.md, Tolerance and separability) -/

section Nominals

variable {p : Profile}

@[simp] theorem Profile.near_self (p : Profile) (n : Nat) : p.near n n = true := by
  simp [Profile.near]

/-- Of two separable nominals, neither reads as the other. -/
theorem Profile.near_separable {x y : Half} (h : separable p.tolerance x y = true) :
    p.near y.toNat x.toNat = false := by
  rw [← Bool.not_eq_true, Profile.near_iff]
  rcases Nat.le_total x.toNat y.toNat with hxy | hxy
  · rw [separable_iff_of_le hxy, Nat.mul_add, Nat.mul_sub] at h
    omega
  · rw [← separable_comm, separable_iff_of_le hxy, Nat.mul_add, Nat.mul_sub] at h
    omega

/-- The check of the encoding's own fields is one of the timing checks (R52). -/
theorem Profile.encodingCheck_of_timingValid (h : p.timingValid = true) : p.encodingCheck = true := by
  rw [p.timingValid_eq, Bool.and_eq_true, Bool.and_eq_true] at h
  exact h.1.2

theorem Profile.separable_distance (he : p.encoding = .distance) (h : p.timingValid = true) :
    separable p.tolerance p.unit2 p.unit3 = true := by
  have check := Profile.encodingCheck_of_timingValid h
  rwa [Profile.encodingCheck, he] at check

theorem Profile.separable_width (he : p.encoding = .width) (h : p.timingValid = true) :
    separable p.tolerance p.unit1 p.unit2 = true := by
  have check := Profile.encodingCheck_of_timingValid h
  rwa [Profile.encodingCheck, he] at check

end Nominals

/-! ## The frame behind its leader (R58, R174) -/

/-- Where the data step of a frame begins: behind the leader, or at the first element. -/
def Profile.dataStart (p : Profile) : Nat := if p.leader.isSome then 2 else 0

section Frame

variable {p : Profile} {data : List Nat}

/-- The attempt on a frame reads its leader and comes to the data, unless it has none and could be a repeat frame. -/
theorem Profile.attempt_frame (hr : p.leader.isSome = true ∨ p.repeatLeader = none) :
    p.attempt ((leaderElements p.leader).map Element.duration ++ data) =
      p.lengthTest (p.dataStart + data.length) (p.dataStep data p.dataStart) := by
  cases hl : p.leader with
  | some l =>
    have start : p.dataStart = 2 := by simp [Profile.dataStart, hl]
    have matched : p.leaderMatches ((leaderElements (some l)).map Element.duration ++ data) = true := by
      simp [Profile.leaderMatches, hl, leaderElements, markOf, spaceOf]
    rw [Profile.attempt_data (.inl ⟨matched, rfl⟩), start]
    simp [leaderElements, show 1 + (data.length + 1) = data.length + 2 by omega, Nat.add_comm]
  | none =>
    have start : p.dataStart = 0 := by simp [Profile.dataStart, hl]
    have unled : p.leaderMatches data = false := by simp [Profile.leaderMatches, hl]
    have notRepeat : p.repeatMatches data = false := by
      have : p.repeatLeader = none := by simpa [hl] using hr
      simp [Profile.repeatMatches, this]
    rw [start]
    simp only [leaderElements, List.map_nil, List.nil_append]
    rw [Profile.attempt_data (.inr ⟨unled, notRepeat, hl, rfl⟩)]
    simp

/-- Data that reads as a word within the bit counts makes the attempt FULL (R63). -/
theorem Profile.attempt_full {got : List Bool} (hr : p.leader.isSome = true ∨ p.repeatLeader = none)
    (hd : p.dataStep data p.dataStart = .bits got) (hmin : p.minBits ≤ got.length) (hmax : got.length ≤ p.maxBits) :
    p.attempt ((leaderElements p.leader).map Element.duration ++ data) = .full got := by
  rw [Profile.attempt_frame hr, hd, Profile.lengthTest, if_pos ⟨hmin, hmax⟩]

end Frame

/-! ## DISTANCE and WIDTH data (R59, R60, R174) -/

section Data

variable {p : Profile}

/-- Each bit of a DISTANCE frame is a pair, and the trailing mark follows (R174). -/
theorem Profile.durations_distanceElements (sent : List Bool) : (p.distanceElements sent).map Element.duration =
    ((sent.map fun b => (p.unit1.toNat, (if b then p.unit3 else p.unit2).toNat)).flatMap fun x => [x.1, x.2])
      ++ [p.unit1.toNat] := by
  induction sent with
  | nil => rfl
  | cons b sent ih =>
    rw [Profile.distanceElements, List.map_cons, List.map_cons, ih, List.map_cons, pairs_cons_append]
    rfl

theorem Profile.distanceStep_sent (hs : separable p.tolerance p.unit2 p.unit3 = true) {sent : List Bool}
    (hn : sent.length ≤ p.maxBits) (position : Nat) :
    p.distanceStep ((p.distanceElements sent).map Element.duration) position [] = .bits sent := by
  have reads : List.Forall₂ p.readsDistance (sent.map fun b => (p.unit1.toNat, (if b then p.unit3 else p.unit2).toNat))
      sent := by
    rw [List.forall₂_map_left_iff, List.forall₂_same]
    refine fun b _ => ⟨p.near_self _, p.near_self _, fun one => ?_⟩
    rw [one]
    exact Profile.near_separable hs
  rw [p.durations_distanceElements, Profile.distanceStep_pairs reads (by simpa using hn),
    Profile.distanceStep_end (p.near_self _), List.nil_append]

/-- Each bit of a WIDTH frame but the last is a pair; the last has no space (R174). -/
theorem Profile.durations_widthElements (sent : List Bool) (last : Bool) :
    (p.widthElements (sent ++ [last])).map Element.duration =
      ((sent.map fun b => ((if b then p.unit2 else p.unit1).toNat, p.unit3.toNat)).flatMap fun x => [x.1, x.2])
        ++ [(if last then p.unit2 else p.unit1).toNat] := by
  induction sent with
  | nil => rfl
  | cons b sent ih =>
    rw [List.map_cons, pairs_cons_append, ← ih]
    cases sent <;> rfl

theorem Profile.widthBit_sent (hs : separable p.tolerance p.unit1 p.unit2 = true) (b : Bool) :
    p.widthBit (if b then p.unit2 else p.unit1).toNat = some b := by
  rw [Profile.widthBit_eq_some_iff]
  refine ⟨p.near_self _, fun one => ?_⟩
  rw [one]
  exact Profile.near_separable hs

theorem Profile.widthStep_sent (hs : separable p.tolerance p.unit1 p.unit2 = true) {sent : List Bool} (hn : sent ≠ [])
    (position : Nat) : p.widthStep ((p.widthElements sent).map Element.duration) position [] = .bits sent := by
  obtain ⟨first, last, rfl⟩ : ∃ first last, sent = first ++ [last] :=
    ⟨_, _, (List.dropLast_append_getLast hn).symm⟩
  have reads : List.Forall₂ (fun x b => p.widthBit x.1 = some b ∧ p.near x.2 p.unit3.toNat = true)
      (first.map fun b => ((if b then p.unit2 else p.unit1).toNat, p.unit3.toNat)) first := by
    rw [List.forall₂_map_left_iff, List.forall₂_same]
    exact fun b _ => ⟨Profile.widthBit_sent hs b, p.near_self _⟩
  rw [p.durations_widthElements, Profile.widthStep_pairs reads, Profile.widthStep_end (Profile.widthBit_sent hs last),
    List.nil_append]

/-- A frame of pairs: the leader and the data of its encoding (R174). -/
theorem Profile.dataStep_fullFrame {bits : Nat} {payload : Payload} {toggle : Bool} (he : p.encoding ≠ .biphase)
    (hv : p.timingValid = true) (h1 : 1 ≤ bits) (hmax : bits ≤ p.maxBits) :
    ∃ data, (p.fullFrame bits payload toggle).map Element.duration =
        (leaderElements p.leader).map Element.duration ++ data
      ∧ p.dataStep data p.dataStart = .bits (sendingBits p.order bits (p.sentPayload payload toggle)) := by
  have frame : p.fullFrame bits payload toggle = (match p.encoding with
      | .distance => leaderElements p.leader
          ++ p.distanceElements (sendingBits p.order bits (p.sentPayload payload toggle))
      | .width => leaderElements p.leader ++ p.widthElements (sendingBits p.order bits (p.sentPayload payload toggle))
      | .biphase => dropFinalRest (mergeLevels (leaderElements p.leader
          ++ p.biphaseHalves (sendingBits p.order bits (p.sentPayload payload toggle))))) := rfl
  cases hc : p.encoding with
  | biphase => exact absurd hc he
  | distance =>
    refine ⟨_, by rw [frame, hc, List.map_append], ?_⟩
    rw [Profile.dataStep, hc]
    exact Profile.distanceStep_sent (Profile.separable_distance hc hv) (by simpa using hmax) _
  | width =>
    refine ⟨_, by rw [frame, hc, List.map_append], ?_⟩
    rw [Profile.dataStep, hc]
    exact Profile.widthStep_sent (Profile.separable_width hc hv)
      (List.ne_nil_of_length_pos (by rw [length_sendingBits]; exact h1)) _

end Data

/-- Settles O20: the data step reads the bits that were sent, and they make up the word. -/
theorem sentFrameDecodesToItsWord : Obligations.SentFrameDecodesToItsWord := by
  unfold Obligations.SentFrameDecodesToItsWord
  refine ⟨fun p payload n hn => p.getLsbD_withoutToggle payload hn,
    fun p i bits payload toggle he hv h1 hb hmin hmax h0 ht hr => ?_⟩
  obtain ⟨data, frame, read⟩ := Profile.dataStep_fullFrame (payload := payload) (toggle := toggle) he hv h1 hmax
  refine ⟨sendingBits p.order bits (p.sentPayload payload toggle), ?_, Profile.fullResult_sent toggle i hb ht h0⟩
  rw [frame, Profile.attempt_full hr read (by simpa using hmin) (by simpa using hmax)]

end Sys2Proof.Machine
end

section
/-! A BIPHASE frame whose first sent bit is 1 reads back as the word that was sent (R61, R62, R175). -/

namespace Sys2Proof.Machine

/-! ## Runs of one level (R175) -/

/-- The lengths of the runs of equal levels. -/
def runs : List Bool → List Nat
  | [] => []
  | [_] => [1]
  | x :: y :: rest =>
    match runs (y :: rest) with
    | [] => [1]
    | w :: ws => if x = y then (w + 1) :: ws else 1 :: w :: ws

theorem runs_ne_nil (x : Bool) (rest : List Bool) : ∃ w ws, runs (x :: rest) = w :: ws := by
  cases rest with
  | nil => exact ⟨_, _, rfl⟩
  | cons y rest =>
    rw [runs]
    cases runs (y :: rest) with
    | nil => exact ⟨_, _, rfl⟩
    | cons w ws =>
      by_cases h : x = y
      · exact ⟨w + 1, ws, by simp [h]⟩
      · exact ⟨1, w :: ws, by simp [h]⟩

theorem runs_cons_same {x : Bool} {rest : List Bool} {w : Nat} {ws : List Nat} (h : runs (x :: rest) = w :: ws) :
    runs (x :: x :: rest) = (w + 1) :: ws := by
  simp [runs, h]

theorem runs_cons_other {x y : Bool} {rest : List Bool} (h : x ≠ y) : runs (x :: y :: rest) = 1 :: runs (y :: rest) := by
  obtain ⟨w, ws, hw⟩ := runs_ne_nil y rest
  simp [runs, hw, h]

/-- The halves of the runs have the levels again, where the levels begin as the position says (R61). -/
theorem map_fst_halvesFrom_runs (levels : List Bool) (position : Nat)
    (h : ∀ x ∈ levels.head?, x = (position % 2 == 0)) : (halvesFrom position (runs levels)).map Prod.fst = levels := by
  match levels, h with
  | [], _ => rfl
  | [x], h => simp [runs, h x rfl, halvesFrom]
  | x :: y :: rest, h =>
    by_cases same : x = y
    · subst same
      obtain ⟨w, ws, hw⟩ := runs_ne_nil x rest
      have ih := map_fst_halvesFrom_runs (x :: rest) position h
      rw [hw, halvesFrom_cons, List.map_append] at ih
      rw [runs_cons_same hw, halvesFrom_cons, List.replicate_succ, List.cons_append, List.map_cons, List.map_append, ih,
        h x rfl]
    · have other : y = ((position + 1) % 2 == 0) := by
        have first := h x rfl
        have parity : ((position + 1) % 2 == 0) = !(position % 2 == 0) := by
          rcases Nat.mod_two_eq_zero_or_one position with h | h <;> simp [Nat.add_mod, h]
        rw [parity, ← first]
        revert same
        cases x <;> cases y <;> decide
      have ih := map_fst_halvesFrom_runs (y :: rest) (position + 1) fun z hz => by cases hz; exact other
      rw [runs_cons_other same, halvesFrom_cons, List.replicate_one, List.singleton_append, List.map_cons, ih, h x rfl]

/-- In a sequence of cells of unlike halves no run is longer than 2 (R62). -/
theorem runs_le_two {levels : List Bool}
    (h : ∀ n a b c, levels[n]? = some a → levels[n + 1]? = some b → levels[n + 2]? = some c → a = b → b ≠ c) :
    ∀ w ∈ runs levels, w = 1 ∨ w = 2 := by
  match levels, h with
  | [], _ => simp [runs]
  | [x], _ => simp [runs]
  | [x, y], _ => cases x <;> cases y <;> simp [runs]
  | x :: y :: z :: rest, h =>
    have ih := runs_le_two (levels := y :: z :: rest) fun n => h (n + 1)
    by_cases same : x = y
    · subst same
      have other : x ≠ z := h 0 x x z rfl rfl rfl rfl
      rw [runs_cons_same (runs_cons_other other)]
      rw [runs_cons_other other] at ih
      intro w hw
      rcases List.mem_cons.mp hw with rfl | hw
      · exact .inr rfl
      · exact ih w (List.mem_cons_of_mem _ hw)
    · rw [runs_cons_other same]
      intro w hw
      rcases List.mem_cons.mp hw with rfl | hw
      · exact .inl rfl
      · exact ih w hw

/-! ## The merge of adjacent elements (R175) -/

/-- A half of a BIPHASE frame. -/
def halfElement (unit : Half) (level : Bool) : Element := if level then markOf unit else spaceOf unit

@[simp] theorem mark_halfElement (unit : Half) (level : Bool) : (halfElement unit level).mark = level := by
  cases level <;> rfl

@[simp] theorem duration_halfElement (unit : Half) (level : Bool) : (halfElement unit level).duration = unit.toNat := by
  cases level <;> rfl

/-- The element in front keeps its level. -/
theorem mergeLevels_cons (x : Element) (rest : List Element) :
    ∃ y ys, mergeLevels (x :: rest) = y :: ys ∧ y.mark = x.mark := by
  rw [mergeLevels]
  cases mergeLevels rest with
  | nil => exact ⟨x, [], rfl, rfl⟩
  | cons y ys =>
    by_cases h : x.mark = y.mark
    · exact ⟨_, ys, if_pos h, rfl⟩
    · exact ⟨x, y :: ys, if_neg h, rfl⟩

/-- Elements of another level are not merged (R175). -/
theorem mergeLevels_cons_other {x y : Element} {rest : List Element} (h : x.mark ≠ y.mark) :
    mergeLevels (x :: y :: rest) = x :: mergeLevels (y :: rest) := by
  obtain ⟨z, zs, merged, level⟩ := mergeLevels_cons y rest
  rw [mergeLevels, merged]
  simp [level, h]

/-- Merged halves are as long as their runs (R175). -/
theorem durations_mergeLevels_halves (unit : Half) (levels : List Bool) :
    (mergeLevels (levels.map (halfElement unit))).map Element.duration = (runs levels).map (· * unit.toNat) := by
  match levels with
  | [] => rfl
  | [x] => simp [mergeLevels, runs]
  | x :: y :: rest =>
    have ih := durations_mergeLevels_halves unit (y :: rest)
    by_cases same : x = y
    · subst same
      obtain ⟨w, ws, hw⟩ := runs_ne_nil x rest
      obtain ⟨e, es, merged, level⟩ := mergeLevels_cons (halfElement unit x) (rest.map (halfElement unit))
      rw [List.map_cons, merged, hw, List.map_cons, List.map_cons] at ih
      obtain ⟨first, others⟩ := List.cons.inj ih
      rw [runs_cons_same hw, List.map_cons, List.map_cons, mergeLevels, merged]
      simp only [level, mark_halfElement, if_true, List.map_cons, others, duration_halfElement, first]
      rw [Nat.add_mul, Nat.one_mul, Nat.add_comm]
    · rw [List.map_cons] at ih
      rw [runs_cons_other same, List.map_cons, List.map_cons, mergeLevels_cons_other (by simpa using same), List.map_cons,
        ih, duration_halfElement, List.map_cons, Nat.one_mul]

/-- The element at the end keeps its level. -/
theorem mergeLevels_concat (first : List Element) (x : Element) :
    ∃ ys y, mergeLevels (first ++ [x]) = ys ++ [y] ∧ y.mark = x.mark := by
  induction first with
  | nil => exact ⟨[], x, rfl, rfl⟩
  | cons z first ih =>
    obtain ⟨ys, y, merged, level⟩ := ih
    rw [List.cons_append, mergeLevels, merged]
    cases ys with
    | nil =>
      by_cases h : z.mark = y.mark
      · exact ⟨[], _, if_pos h, h.trans level⟩
      · exact ⟨[z], y, if_neg h, level⟩
    | cons w ys =>
      by_cases h : z.mark = w.mark
      · exact ⟨_ :: ys, y, if_pos h, level⟩
      · exact ⟨z :: w :: ys, y, if_neg h, level⟩

/-- A last element of another level is not merged (R175). -/
theorem mergeLevels_concat_other {first : List Element} {x y : Element} (h : x.mark ≠ y.mark) :
    mergeLevels (first ++ [x] ++ [y]) = mergeLevels (first ++ [x]) ++ [y] := by
  induction first with
  | nil => simp [mergeLevels, h]
  | cons z first ih =>
    obtain ⟨ys, w, merged, _⟩ := mergeLevels_concat first x
    rw [List.cons_append, List.cons_append, mergeLevels, ih, mergeLevels, merged]
    cases ys with
    | nil => by_cases hz : z.mark = w.mark <;> simp [hz]
    | cons v ys => by_cases hz : z.mark = v.mark <;> simp [hz]

/-- A rest at the end of a frame is not emitted (R175). -/
theorem dropFinalRest_concat (first : List Element) (x : Element) :
    dropFinalRest (first ++ [x]) = if x.mark then first ++ [x] else first := by
  induction first with
  | nil => rfl
  | cons z first ih =>
    have more : dropFinalRest (z :: (first ++ [x])) = z :: dropFinalRest (first ++ [x]) := by
      cases first <;> rfl
    rw [List.cons_append, more, ih]
    by_cases h : x.mark <;> simp [h]

/-- A leader stays as it is in front of a mark (R175). -/
theorem mergeLevels_leader (leader : Option MarkSpace) {x : Element} (rest : List Element) (h : x.mark = true) :
    mergeLevels (leaderElements leader ++ x :: rest) = leaderElements leader ++ mergeLevels (x :: rest) := by
  cases leader with
  | none => rfl
  | some l =>
    have space : (spaceOf l.space).mark ≠ x.mark := by simp [spaceOf, h]
    have mark : (markOf l.mark).mark ≠ (spaceOf l.space).mark := by simp [markOf, spaceOf]
    simp only [leaderElements, List.cons_append, List.nil_append]
    rw [mergeLevels_cons_other mark, mergeLevels_cons_other space]

/-! ## The levels of a frame (R175) -/

/-- The levels of the cells of bits: mark then rest for a 1, rest then mark for a 0. -/
def cellLevels (sent : List Bool) : List Bool := sent.flatMap fun b => [b, !b]

theorem biphaseHalves_eq (p : Profile) (sent : List Bool) :
    p.biphaseHalves sent = (cellLevels sent).map (halfElement p.unit1) := by
  induction sent with
  | nil => rfl
  | cons b sent ih => cases b <;> simp [Profile.biphaseHalves, ih, cellLevels, halfElement]

theorem cellLevels_first (sent : List Bool) (n : Nat) : (cellLevels sent)[2 * n]? = sent[n]? := by
  induction sent generalizing n with
  | nil => rfl
  | cons b sent ih =>
    cases n with
    | zero => rfl
    | succ n => exact ih n

theorem cellLevels_second (sent : List Bool) (n : Nat) : (cellLevels sent)[2 * n + 1]? = sent[n]?.map (! ·) := by
  induction sent generalizing n with
  | nil => rfl
  | cons b sent ih =>
    cases n with
    | zero => rfl
    | succ n => exact ih n

/-- Of the levels, all but a rest at the end are emitted (R175). -/
def emittedLevels (first : List Bool) (last : Bool) : List Bool :=
  cellLevels first ++ if last then [true] else [false, true]

section Emitted

variable {first : List Bool} {last : Bool}

theorem emittedLevels_append : emittedLevels first last ++ (if last then [false] else []) = cellLevels (first ++ [last]) := by
  cases last <;> simp [emittedLevels, cellLevels]

/-- The last element that is emitted is a mark. -/
theorem emittedLevels_concat : ∃ front, emittedLevels first last = front ++ [true] := by
  cases last
  · exact ⟨cellLevels first ++ [false], by simp [emittedLevels]⟩
  · exact ⟨cellLevels first, rfl⟩

theorem length_emittedLevels : ((emittedLevels first last).length + 1) / 2 = (first ++ [last]).length := by
  have cells : (cellLevels first).length = 2 * first.length := by
    simp [cellLevels, Nat.mul_comm]
  cases last <;> simp [emittedLevels, cells] <;> omega

/-- An emitted level is one of the cells'. -/
theorem cellLevels_of_emitted {n : Nat} {x : Bool} (h : (emittedLevels first last)[n]? = some x) :
    (cellLevels (first ++ [last]))[n]? = some x := by
  obtain ⟨inside, _⟩ := List.getElem?_eq_some_iff.mp h
  rw [← emittedLevels_append, List.getElem?_append_left inside, h]

/-- The halves of an emitted cell are unlike. -/
theorem emittedLevels_unlike {n : Nat} {x y : Bool} (hx : (emittedLevels first last)[2 * n]? = some x)
    (hy : (emittedLevels first last)[2 * n + 1]? = some y) : x ≠ y := by
  have hx := cellLevels_of_emitted hx
  have hy := cellLevels_of_emitted hy
  rw [cellLevels_first] at hx
  rw [cellLevels_second, hx] at hy
  cases hy
  cases x <;> decide

/-- Of three levels in a row, two are of one cell. -/
theorem emittedLevels_notThree (n : Nat) (a b c : Bool) (ha : (emittedLevels first last)[n]? = some a)
    (hb : (emittedLevels first last)[n + 1]? = some b) (hc : (emittedLevels first last)[n + 2]? = some c) (hab : a = b) :
    b ≠ c := by
  rcases Nat.even_or_odd' n with ⟨k, rfl | rfl⟩
  · exact absurd hab (emittedLevels_unlike ha hb)
  · exact emittedLevels_unlike (n := k + 1) hb hc

end Emitted

/-- The durations of a BIPHASE frame: the leader's, and one for each run of the emitted levels (R175). -/
theorem Profile.durations_biphaseFrame (p : Profile) {first : List Bool} {last : Bool}
    (h : (first ++ [last]).head? = some true) :
    (dropFinalRest (mergeLevels (leaderElements p.leader ++ p.biphaseHalves (first ++ [last])))).map Element.duration =
      (leaderElements p.leader).map Element.duration ++ (runs (emittedLevels first last)).map (· * p.unit1.toNat) := by
  obtain ⟨others, sent⟩ : ∃ others, first ++ [last] = true :: others := List.head?_eq_some_iff.mp h
  obtain ⟨front, emitted⟩ := emittedLevels_concat (first := first) (last := last)
  obtain ⟨ys, y, merged, mark⟩ := mergeLevels_concat (front.map (halfElement p.unit1)) (halfElement p.unit1 true)
  have kept : mergeLevels ((emittedLevels first last).map (halfElement p.unit1)) = ys ++ [y] := by
    rw [emitted, List.map_append]
    exact merged
  have dropped : dropFinalRest (leaderElements p.leader ++ mergeLevels (p.biphaseHalves (first ++ [last]))) =
      leaderElements p.leader ++ (ys ++ [y]) := by
    rw [biphaseHalves_eq, ← emittedLevels_append]
    cases last with
    | false => rw [if_neg (by decide), List.append_nil, kept, ← List.append_assoc, dropFinalRest_concat,
        if_pos (mark.trans (mark_halfElement ..))]
    | true =>
      have rest : (halfElement p.unit1 true).mark ≠ (halfElement p.unit1 false).mark := by simp
      rw [if_pos rfl, List.map_append, emitted, List.map_append]
      simp only [List.map_cons, List.map_nil]
      rw [mergeLevels_concat_other rest, merged, ← List.append_assoc, dropFinalRest_concat, if_neg (by simp)]
  have led : mergeLevels (leaderElements p.leader ++ p.biphaseHalves (first ++ [last])) =
      leaderElements p.leader ++ mergeLevels (p.biphaseHalves (first ++ [last])) := by
    rw [biphaseHalves_eq, sent]
    exact mergeLevels_leader p.leader _ rfl
  rw [led, dropped, ← kept, List.map_append, durations_mergeLevels_halves]

/-! ## Reading the frame (R61, R62) -/

/-- Under the timing checks of BIPHASE two halves do not read as one (R52, R61). -/
theorem Profile.readsHalves_unit {p : Profile} (he : p.encoding = .biphase) (hv : p.timingValid = true) {w : Nat}
    (hw : w = 1 ∨ w = 2) : p.readsHalves (w * p.unit1.toNat) w := by
  have narrow : p.tolerance ≤ 10 := by
    have check := Profile.encodingCheck_of_timingValid hv
    rw [Profile.encodingCheck, he] at check
    exact of_decide_eq_true check
  have wide : 50 ≤ p.unit1.toNat := by
    have used : p.unit1 ∈ p.usedNominals := (p.mem_usedNominals _).mpr (.inr (.inr (.inl rfl)))
    rw [p.timingValid_eq, Bool.and_eq_true, Bool.and_eq_true, List.all_eq_true] at hv
    have := hv.1.1 _ used
    rw [← Bool.not_eq_false, nominalInRange_eq_false_iff] at this
    omega
  rcases hw with rfl | rfl
  · exact .inl ⟨rfl, by simp⟩
  · refine .inr ⟨rfl, ?_, by simp⟩
    rw [← Bool.not_eq_true, Profile.near_iff]
    have : p.unit1.toNat * p.tolerance ≤ p.unit1.toNat * 10 := Nat.mul_le_mul_left _ narrow
    omega

theorem Profile.biphaseStep_sent {p : Profile} (he : p.encoding = .biphase) (hv : p.timingValid = true) {first : List Bool}
    {last : Bool} (h : (first ++ [last]).head? = some true) {start : Nat} (hs : start % 2 = 0) :
    p.biphaseStep ((runs (emittedLevels first last)).map (· * p.unit1.toNat)) start [] none = .bits (first ++ [last]) := by
  have reads : List.Forall₂ p.readsHalves ((runs (emittedLevels first last)).map (· * p.unit1.toNat))
      (runs (emittedLevels first last)) := by
    rw [List.forall₂_map_left_iff, List.forall₂_same]
    exact fun w hw => Profile.readsHalves_unit he hv (runs_le_two emittedLevels_notThree w hw)
  have begins : ∀ x ∈ (emittedLevels first last).head?, x = (start % 2 == 0) := by
    intro x hx
    have first_level := cellLevels_of_emitted (n := 2 * 0) (List.head?_eq_getElem? ▸ hx)
    rw [cellLevels_first, ← List.head?_eq_getElem?, h] at first_level
    cases first_level
    simp [hs]
  have levels := map_fst_halvesFrom_runs (emittedLevels first last) start begins
  have level {n : Nat} {x : Bool × Nat} (hx : (halvesFrom start (runs (emittedLevels first last)))[n]? = some x) :
      (emittedLevels first last)[n]? = some x.1 := by
    rw [← levels, List.getElem?_map, hx]
    rfl
  refine Profile.biphaseStep_end reads ?odd (fun n x y hx hy => emittedLevels_unlike (level hx) (level hy)) ?length
    fun n x hx => ?bit
  case odd =>
    obtain ⟨front, emitted⟩ := emittedLevels_concat (first := first) (last := last)
    have ends : (halvesFrom start (runs (emittedLevels first last))).getLast?.map Prod.fst = some true := by
      rw [← List.getLast?_map, levels, emitted, List.getLast?_concat]
    obtain ⟨x, hx, mark⟩ := Option.map_eq_some_iff.mp ends
    obtain ⟨at_end, parity⟩ := getLast?_halvesFrom (Profile.readsHalves_pos reads) start hx
    rw [mark, eq_comm, beq_iff_eq] at parity
    rw [List.length_map]
    omega
  case length => rw [← List.length_map (f := Prod.fst), levels, length_emittedLevels]
  case bit => rw [← cellLevels_first, cellLevels_of_emitted (level hx)]

/-- Settles O21: the runs of the emitted levels are read as the halves they were made of, and the bits make up the word. -/
theorem sentBiphaseFrameDecodesToItsWord : Obligations.SentBiphaseFrameDecodesToItsWord := by
  unfold Obligations.SentBiphaseFrameDecodesToItsWord
  intro p i bits payload toggle he hv h1 hb hmin hmax h0 ht hr hfirst
  have length : (sendingBits p.order bits (p.sentPayload payload toggle)).length = bits := length_sendingBits ..
  have begins : (sendingBits p.order bits (p.sentPayload payload toggle)).head? = some true := hfirst
  have frame : p.fullFrame bits payload toggle = dropFinalRest (mergeLevels (leaderElements p.leader
      ++ p.biphaseHalves (sendingBits p.order bits (p.sentPayload payload toggle)))) := by
    rw [Profile.fullFrame, he]
    rfl
  refine ⟨sendingBits p.order bits (p.sentPayload payload toggle), ?_, Profile.fullResult_sent toggle i hb ht h0⟩
  have nonempty := List.ne_nil_of_length_pos (length.symm ▸ h1)
  rw [frame]
  obtain ⟨first, last, sent⟩ : ∃ first last, sendingBits p.order bits (p.sentPayload payload toggle) = first ++ [last] :=
    ⟨_, _, (List.dropLast_append_getLast nonempty).symm⟩
  rw [sent] at begins length ⊢
  have even : p.dataStart % 2 = 0 := by
    unfold Profile.dataStart
    split <;> rfl
  have read : p.dataStep ((runs (emittedLevels first last)).map (· * p.unit1.toNat)) p.dataStart =
      .bits (first ++ [last]) := by
    rw [Profile.dataStep, he]
    exact Profile.biphaseStep_sent he hv begins even
  rw [p.durations_biphaseFrame begins, Profile.attempt_full (.inr hr) read (by omega) (by omega)]

end Sys2Proof.Machine
end

section
/-! Key records: their removal, what a frame brings, the answer to a PRESS and the expiry (R86 to R88, R105 to R121), and the
commands that change entries (R82 to R88). -/

namespace Sys2Proof.Machine

/-! ## The removal of records (R115, R116) -/

section Remove

variable {m : MatchUnit} {c : Channel} {reason : ReleaseReason} {stamp : Time}

theorem MatchUnit.removeKey_none (hk : m.key c = none) : m.removeKey c reason stamp = m := by
  simp only [MatchUnit.removeKey, hk]

theorem MatchUnit.removeKey_some {r : KeyRecord} (hk : m.key c = some r) : m.removeKey c reason stamp =
    { m.setKey c none with
      toQueue := if r.reported then m.toQueue.push (r.release c reason stamp) else m.toQueue } := by
  simp only [MatchUnit.removeKey, hk]
  cases r.reported <;> rfl

theorem MatchUnit.setCounter_self (m : MatchUnit) (c : Channel) : m.setCounter c (m.counter c) = m := by
  simp [MatchUnit.setCounter, MatchUnit.counter]

/-- A record that ends by a frame or by its deadline: counted as unconfirmed where it was PENDING, and released where its PRESS
was admitted (R115, R125). -/
theorem MatchUnit.removeKey_countUnconfirmed {r : KeyRecord} {k : MatchCounters} (hk : m.key c = some r)
    (hc : k = m.counter c) : (m.countUnconfirmed c).removeKey c reason stamp =
      { (m.setCounter c { k with
          unconfirmed := if r.state = .pending then bump k.unconfirmed else k.unconfirmed }).setKey c none with
        toQueue := if r.reported then m.toQueue.push (r.release c reason stamp) else m.toQueue } := by
  have counted : m.countUnconfirmed c = m.setCounter c { k with
      unconfirmed := if r.state = .pending then bump k.unconfirmed else k.unconfirmed } := by
    subst hc
    simp only [MatchUnit.countUnconfirmed, hk]
    by_cases hs : r.state = .pending
    · rw [if_pos hs, if_pos hs]
      rfl
    · rw [if_neg hs, if_neg hs]
      exact (m.setCounter_self c).symm
  rw [counted, MatchUnit.removeKey_some (by rw [MatchUnit.key_setCounter, hk])]
  rfl

/-- The channel's record is removed where it is marked. -/
def MatchUnit.removeMarked (m : MatchUnit) (marked : Channel → KeyRecord → Bool) (reason : ReleaseReason) (stamp : Time)
    (c : Channel) : MatchUnit :=
  if (m.key c).any (marked c) then m.removeKey c reason stamp else m

/-- The RELEASE of the channel's record, where it is marked and its PRESS was admitted (R115). -/
def MatchUnit.markedRelease (m : MatchUnit) (marked : Channel → KeyRecord → Bool) (reason : ReleaseReason) (stamp : Time)
    (c : Channel) : Option Append :=
  (m.key c).bind fun r => if marked c r = true ∧ r.reported = true then some (r.release c reason stamp) else none

variable {marked : Channel → KeyRecord → Bool}

theorem MatchUnit.key_removeKey (d : Channel) :
    (m.removeKey c reason stamp).key d = if d = c then none else m.key d := by
  cases hk : m.key c with
  | none =>
    rw [MatchUnit.removeKey_none hk]
    by_cases hd : d = c
    · rw [if_pos hd, hd, hk]
    · rw [if_neg hd]
  | some r =>
    rw [MatchUnit.removeKey_some hk]
    exact m.key_setKey c d none

theorem MatchUnit.key_removeMarked (d : Channel) : (m.removeMarked marked reason stamp c).key d =
    if d = c ∧ (m.key d).any (marked d) then none else m.key d := by
  unfold MatchUnit.removeMarked
  by_cases hm : (m.key c).any (marked c) = true
  · rw [if_pos hm, MatchUnit.key_removeKey]
    by_cases hd : d = c
    · subst hd
      simp [hm]
    · simp [hd]
  · rw [if_neg hm, if_neg]
    rintro ⟨rfl, h⟩
    exact hm h

/-- A removal changes the records and the path to the queue alone, which the RELEASE joins. -/
theorem MatchUnit.removeMarked_eq : ∃ keys, m.removeMarked marked reason stamp c =
    { m with
      keys := keys
      toQueue := { m.toQueue with
        msgs := m.toQueue.msgs ++ (m.markedRelease marked reason stamp c).toList } } := by
  unfold MatchUnit.removeMarked MatchUnit.markedRelease
  cases hk : m.key c with
  | none => exact ⟨m.keys, by simp⟩
  | some r =>
    by_cases hm : marked c r = true
    · rw [if_pos (by simpa using hm), MatchUnit.removeKey_some hk]
      refine ⟨(m.setKey c none).keys, ?_⟩
      cases hr : r.reported <;> simp [hm, hr, MatchUnit.setKey, Mailbox.push]
    · rw [if_neg (by simpa using hm)]
      exact ⟨m.keys, by simp [hm]⟩

/-! Over a list of channels, each once. -/

variable {l : List Channel}

theorem MatchUnit.key_removeList (hn : l.Nodup) (d : Channel) :
    (l.foldl (·.removeMarked marked reason stamp ·) m).key d =
      if d ∈ l ∧ (m.key d).any (marked d) then none else m.key d := by
  induction l generalizing m with
  | nil => simp
  | cons c rest ih =>
    obtain ⟨once, hn⟩ := List.nodup_cons.mp hn
    rw [List.foldl_cons, ih hn, MatchUnit.key_removeMarked]
    by_cases hd : d = c
    · subst hd
      simp [once]
    · simp [hd]

theorem MatchUnit.markedRelease_removeMarked {d : Channel} (hd : d ≠ c) :
    (m.removeMarked marked reason stamp c).markedRelease marked reason stamp d = m.markedRelease marked reason stamp d := by
  unfold MatchUnit.markedRelease
  rw [MatchUnit.key_removeMarked, if_neg fun h => hd h.1]

theorem MatchUnit.removeList_eq (hn : l.Nodup) : ∃ keys, l.foldl (·.removeMarked marked reason stamp ·) m =
    { m with
      keys := keys
      toQueue := { m.toQueue with
        msgs := m.toQueue.msgs ++ l.filterMap (m.markedRelease marked reason stamp) } } := by
  induction l generalizing m with
  | nil => exact ⟨m.keys, by simp⟩
  | cons c rest ih =>
    obtain ⟨once, hn⟩ := List.nodup_cons.mp hn
    have others : rest.filterMap ((m.removeMarked marked reason stamp c).markedRelease marked reason stamp) =
        rest.filterMap (m.markedRelease marked reason stamp) :=
      List.filterMap_congr fun d hd => MatchUnit.markedRelease_removeMarked fun e => once (e ▸ hd)
    have split : (c :: rest).filterMap (m.markedRelease marked reason stamp) =
        (m.markedRelease marked reason stamp c).toList ++ rest.filterMap (m.markedRelease marked reason stamp) := by
      rw [List.filterMap_cons]
      cases m.markedRelease marked reason stamp c <;> rfl
    obtain ⟨_, first⟩ := MatchUnit.removeMarked_eq (m := m) (c := c) (marked := marked) (reason := reason) (stamp := stamp)
    obtain ⟨keys, removed⟩ := ih (m := m.removeMarked marked reason stamp c) hn
    refine ⟨keys, ?_⟩
    rw [List.foldl_cons, removed, others, split, first, ← List.append_assoc]

end Remove

theorem nodup_allChannels : allChannels.Nodup := by decide

section Sweeps

variable (m : MatchUnit)

/-- A change of an entry removes the records that refer to it (R86). -/
theorem MatchUnit.entryChanged_eq_removeList (i : EntryNo) (stamp : Time) : m.entryChanged i stamp =
    allChannels.foldl (·.removeMarked (fun _ r => r.entry == i) .entryChanged stamp ·) m := by
  unfold MatchUnit.entryChanged
  congr 1
  funext m c
  unfold MatchUnit.removeIfEntry MatchUnit.removeMarked
  cases m.key c <;> simp

/-- A change of the whole table removes every record (R88). -/
theorem MatchUnit.tableCleared_eq_removeList (stamp : Time) : m.tableCleared stamp =
    allChannels.foldl (·.removeMarked (fun _ _ => true) .entryChanged stamp ·) m := by
  unfold MatchUnit.tableCleared
  congr 1
  funext m c
  unfold MatchUnit.removeMarked
  cases hk : m.key c with
  | none => simp [MatchUnit.removeKey_none hk]
  | some r => simp

/-- Group exclusivity removes the records of the group on the other channels (R119). -/
theorem MatchUnit.excludeGroup_eq_removeList (c : Channel) {g : Nat} (now : Time) (hg : g ≠ 0) : m.excludeGroup c g now =
    allChannels.foldl (·.removeMarked (fun d r => d != c && r.group == g) .group now ·) m := by
  rw [MatchUnit.excludeGroup, if_neg hg]
  congr 1
  funext m d
  unfold MatchUnit.excludeOne MatchUnit.removeMarked
  by_cases hd : d = c
  · cases m.key d <;> simp [hd]
  · cases m.key d <;> simp [hd]

end Sweeps

/-- Settles O26, as a removal of the records of the group on the other channels. -/
theorem groupKeepsOneRecord : Obligations.GroupKeepsOneRecord := by
  unfold Obligations.GroupKeepsOneRecord
  refine fun m c g now => ⟨by simp [MatchUnit.excludeGroup], fun hg => ?_⟩
  obtain ⟨_, removed⟩ := MatchUnit.removeList_eq (m := m) (marked := fun d r => d != c && r.group == g) (reason := .group)
    (stamp := now) nodup_allChannels
  have keys := MatchUnit.key_removeList (m := m) (marked := fun d r => d != c && r.group == g) (reason := .group)
    (stamp := now) nodup_allChannels
  rw [← m.excludeGroup_eq_removeList c now hg] at removed keys
  refine ⟨fun d => ?key, ?frame, by rw [removed], ?messages⟩
  case key =>
    rw [keys d]
    by_cases hd : d = c
    · cases m.key d <;> simp [hd]
    · cases m.key d <;> simp [hd, mem_allChannels]
  case frame =>
    rw [removed]
  case messages =>
    rw [removed]
    refine congrArg (m.toQueue.msgs ++ ·) (List.filterMap_congr fun d _ => ?_)
    unfold MatchUnit.markedRelease
    by_cases hd : d = c
    · cases m.key d <;> simp [hd]
    · cases m.key d <;> simp [hd, KeyRecord.release]

/-! ## The commands that change entries (R82 to R88) -/

/-- A byte that holds an entry's number names the entry (R199). -/
theorem entryOf_eq_some {b : Byte} {i : EntryNo} (h : b.toNat = i.val) : entryOf b = some i := by
  unfold entryOf
  exact dite_fin_eq_some_iff.mpr h.symm

/-- The Match Unit takes its part of a command while it waits for no answer and no earlier tick waits (R113, log 25). -/
theorem State.matchPart_due {s : State} {f : InFlight} (act : State) (hp : .mu ∈ f.parts) (hr : s.matchReady = true) :
    s.matchPart f act = act := if_pos ⟨hp, hr⟩

section Commit

variable {m : MatchUnit} {i : EntryNo} {x : EntryFields} {d : Decoder} {now : Time} {e : Entry} {p : Profile}

theorem MatchUnit.commitEntry_unspelled (hx : entryOfFields x = none) :
    m.commitEntry i x d.profiles now = .error .badArg := by
  simp only [MatchUnit.commitEntry, hx]

variable (hx : entryOfFields x = some e) (hp : p = d.profile e.profile)
include hx hp

theorem MatchUnit.commitEntry_profileEmpty (hv : p.valid = false) :
    m.commitEntry i x d.profiles now = .error .profileEmpty := by
  have empty : d.profiles[e.profile.val].valid = false := by
    rw [hp] at hv
    exact hv
  simp [MatchUnit.commitEntry, hx, empty]

/-- The profile check and the consistency checks of a commit under a VALID profile (R84, R85). -/
theorem MatchUnit.commitEntry_valid (hv : p.valid = true) : m.commitEntry i x d.profiles now =
    if p.minBits ≤ e.bits ∧ e.bits ≤ p.maxBits ∧ ∀ t, p.toggle = some t → e.careMask.getLsbD t = false then
      .ok ((m.setEntry i e).entryChanged i now)
    else .error .badArg := by
  have profile : d.profiles[e.profile.val] = p := hp.symm
  have toggle : p.toggle.all (fun t => !e.careMask.getLsbD t) = true ↔
      ∀ t, p.toggle = some t → e.careMask.getLsbD t = false := by
    cases p.toggle <;> simp
  simp only [MatchUnit.commitEntry, hx, profile, hv, if_true, toggle]

theorem MatchUnit.commitEntry_inconsistent (hv : p.valid = true)
    (hc : e.bits < p.minBits ∨ p.maxBits < e.bits ∨ ∃ t, p.toggle = some t ∧ e.careMask.getLsbD t = true) :
    m.commitEntry i x d.profiles now = .error .badArg := by
  rw [MatchUnit.commitEntry_valid hx hp hv, if_neg]
  rintro ⟨least, greatest, toggle⟩
  rcases hc with h | h | ⟨t, ht, masked⟩
  · omega
  · omega
  · rw [toggle t ht] at masked
    cases masked

end Commit

section Commands

variable {s : State} {f : InFlight} (hf : s.bcu.inFlight = some f) (hp : .mu ∈ f.parts) (hr : s.matchReady = true)
include hf hp hr

theorem exec_entryCommit_due {i : EntryNo} {r : Vector Byte 25} (hi : f.args.arg0.toNat = i.val)
    (hcmd : f.cmd = some .entryCommit) (hst : f.staging = .entry r) :
    exec (.entryCommit .take) s =
      .next (s.commitAnswer (s.mu.commitEntry i (entryFields r) s.sdc.profiles s.now)) := by
  have harg := entryOf_eq_some hi
  simp only [exec, execEntryCommit]
  rw [State.takeCommand_owner _ hf hcmd (by simp [argumentsNameParts, harg])]
  simp only [harg, hst, State.matchPart_due _ hp hr]

theorem exec_entryClear_due {i : EntryNo} (hi : f.args.arg0.toNat = i.val) (hcmd : f.cmd = some .entryClear) :
    exec (.entryClear .take) s = .next ((s.setMu (s.mu.clearEntry i s.now)).answerPart .mu {}) := by
  have harg := entryOf_eq_some hi
  simp only [exec, execEntryClear]
  rw [State.takeCommand_owner _ hf hcmd (by simp [argumentsNameParts, harg])]
  simp only [harg, State.matchPart_due _ hp hr]

theorem exec_tableClear_due (hcmd : f.cmd = some .tableClear) :
    exec (.tableClear .take) s = .next ((s.setMu (s.mu.clearTable s.now)).answerPart .mu {}) := by
  simp only [exec, execTableClear]
  rw [State.takeCommand_owner _ hf hcmd rfl, State.matchPart_due _ hp hr]

end Commands

/-- Settles O23: the checks of the commit in their order, and the records that a change removes. -/
theorem entryCommandsCheckAndWrite : Obligations.EntryCommandsCheckAndWrite := by
  unfold Obligations.EntryCommandsCheckAndWrite
  refine ⟨fun m i now => ⟨_, rfl, ?changed⟩, fun s f hf hp ha ht => ⟨fun i r hi hcmd hst => ?commit,
    fun i hi hcmd => ?clear, fun hcmd => ?table⟩⟩
  case changed =>
    obtain ⟨_, removed⟩ := MatchUnit.removeList_eq (m := m) (marked := fun _ r => r.entry == i) (reason := .entryChanged)
      (stamp := now) nodup_allChannels
    have keys := MatchUnit.key_removeList (m := m) (marked := fun _ r => r.entry == i) (reason := .entryChanged)
      (stamp := now) nodup_allChannels
    rw [← m.entryChanged_eq_removeList i now] at removed keys
    refine ⟨by rw [removed], fun c => by simpa [mem_allChannels] using keys c, ?_⟩
    rw [removed]
    refine congrArg (fun sent => ({ m.toQueue with msgs := m.toQueue.msgs ++ sent } : Mailbox Append))
      (List.filterMap_congr fun c _ => ?_)
    simp [MatchUnit.markedRelease, KeyRecord.release]
  case commit =>
    have ready := (s.matchReady_iff).mpr ⟨ha, ht⟩
    rw [exec_entryCommit_due hf hp ready hi hcmd hst]
    refine ⟨fun hx => ?_, fun e p hx hprofile => ⟨fun hv => ?_, fun hv hc => ?_, fun hv hmin hmax htoggle => ?_⟩⟩
    · rw [MatchUnit.commitEntry_unspelled hx]
      rfl
    · rw [MatchUnit.commitEntry_profileEmpty hx hprofile hv]
      rfl
    · rw [MatchUnit.commitEntry_inconsistent hx hprofile hv hc]
      rfl
    · rw [MatchUnit.commitEntry_valid hx hprofile hv, if_pos ⟨hmin, hmax, htoggle⟩]
      rfl
  case clear =>
    have ready := (s.matchReady_iff).mpr ⟨ha, ht⟩
    rw [exec_entryClear_due hf hp ready hi hcmd, MatchUnit.clearEntry]
    exact ⟨fun hv => by rw [if_pos hv], fun hv => by rw [if_neg (by simp [hv]), State.setMu_self]⟩
  case table =>
    have ready := (s.matchReady_iff).mpr ⟨ha, ht⟩
    obtain ⟨_, removed⟩ := MatchUnit.removeList_eq (m := { s.mu with table := Vector.replicate 128 .cleared })
      (marked := fun _ _ => true) (reason := .entryChanged) (stamp := s.now) nodup_allChannels
    have keys := MatchUnit.key_removeList (m := { s.mu with table := Vector.replicate 128 .cleared })
      (marked := fun _ _ => true) (reason := .entryChanged) (stamp := s.now) nodup_allChannels
    rw [← MatchUnit.tableCleared_eq_removeList] at removed keys
    refine ⟨s.mu.clearTable s.now, exec_tableClear_due hf hp ready hcmd, ?_, s.mu.entry_clearTable s.now, fun c => ?_, ?_⟩
    · rw [MatchUnit.clearTable, removed]
    · rw [MatchUnit.clearTable, keys c]
      cases hk : ({ s.mu with table := Vector.replicate 128 .cleared } : MatchUnit).key c <;> simp [mem_allChannels]
    · rw [MatchUnit.clearTable, removed]
      refine congrArg (fun sent => ({ s.mu.toQueue with msgs := s.mu.toQueue.msgs ++ sent } : Mailbox Append))
        (List.filterMap_congr fun c _ => ?_)
      simp only [MatchUnit.markedRelease, true_and]
      rfl

/-! ## What a frame brings (R105 to R107, R117, R118) -/

section Created

variable {m : MatchUnit} {c : Channel} {i : EntryNo} {f : FrameArrival}

/-- The record of a frame of an EDGE entry (R106). -/
def KeyRecord.pendingOf (i : EntryNo) (e : Entry) (f : FrameArrival) : KeyRecord :=
  { entry := i, keyId := e.keyId, group := e.group, mode := e.mode, confirm := e.confirm, holdInterval := e.holdInterval
    state := .pending, confirmations := 1, repeats := 0, toggle := f.toggle, ambiguous := f.ambiguous, reported := false
    created := f.stamp, heldMs := 0, deadline := f.deadline }

theorem KeyRecord.create_every {e : Entry} (he : e.mode = .every) :
    KeyRecord.create i e f = { KeyRecord.pendingOf i e f with state := .tracking } := by
  simp only [KeyRecord.create, KeyRecord.pendingOf, he]

theorem KeyRecord.create_edge {e : Entry} (he : e.mode = .edge) : KeyRecord.create i e f = KeyRecord.pendingOf i e f := by
  simp only [KeyRecord.create, KeyRecord.pendingOf, he]

theorem MatchUnit.winningFrame_free (hk : m.key c = none) : m.winningFrame c i f = m.createKey c i (m.entry i) f := by
  simp only [MatchUnit.winningFrame, hk]

variable {r : KeyRecord} (hr : r = KeyRecord.pendingOf i (m.entry i) f)
include hr

/-- An EVERY entry's frame gives a TRACKING record and a KEY (R107). -/
theorem MatchUnit.createKey_every (he : (m.entry i).mode = .every) (hf : f.kind = .full) :
    m.createKey c i (m.entry i) f =
      { (m.setKey c (some { r with state := .tracking })).excludeGroup c r.group f.now with
        toQueue := ((m.setKey c (some { r with state := .tracking })).excludeGroup c r.group f.now).toQueue.push
          { source := channelByte c, stamp := f.stamp, body := .key i r.keyId 0 .full f.ambiguous f.toggle } } := by
  subst hr
  simp only [MatchUnit.createKey, KeyRecord.create_every he, he, MatchUnit.send, KeyRecord.keyAppend, hf]
  rfl

/-- An EDGE entry's frame gives a PENDING record where its confirm count asks for more (R106). -/
theorem MatchUnit.createKey_pending (he : (m.entry i).mode = .edge) (hn : 1 < (m.entry i).confirm) :
    m.createKey c i (m.entry i) f = m.setKey c (some r) := by
  subst hr
  simp only [MatchUnit.createKey, KeyRecord.create_edge he, he, MatchUnit.confirm]
  exact if_neg (Nat.not_le.mpr hn)

/-- With a confirm count of 1 the record is PRESSED at once, and its PRESS is sent (R106, R109). -/
theorem MatchUnit.createKey_pressed (he : (m.entry i).mode = .edge) (hn : (m.entry i).confirm ≤ 1) :
    m.createKey c i (m.entry i) f =
      { (m.setKey c (some { r with state := .pressed })).excludeGroup c r.group f.now with
        toQueue := ((m.setKey c (some { r with state := .pressed })).excludeGroup c r.group f.now).toQueue.push
          { source := channelByte c, stamp := f.stamp, body := .press i r.keyId f.ambiguous f.toggle }
        awaiting := some c } := by
  subst hr
  simp only [MatchUnit.createKey, KeyRecord.create_edge he, he, MatchUnit.confirm]
  exact if_pos hn

end Created

/-- A frame of another entry, or of another toggle, ends the old record (R117, R118). -/
theorem MatchUnit.winningFrame_replaces {m : MatchUnit} {c : Channel} {i : EntryNo} {f : FrameArrival} {r : KeyRecord}
    (hk : m.key c = some r) (hd : r.entry ≠ i ∨ r.toggle ≠ f.toggle) : m.winningFrame c i f =
      ((m.countUnconfirmed c).removeKey c (if r.entry = i then .retrigger else .superseded) f.stamp).createKey c i
        (m.entry i) f := by
  by_cases he : r.entry = i
  · have ht : r.toggle ≠ f.toggle := hd.resolve_left (not_not_intro he)
    simp only [MatchUnit.winningFrame, hk, if_pos he, if_neg ht]
  · simp only [MatchUnit.winningFrame, hk, if_neg he]

/-- Settles O24, by the entry's mode and confirm count; the old record goes first. -/
theorem frameCreatesOrReplacesTheRecord : Obligations.FrameCreatesOrReplacesTheRecord := by
  unfold Obligations.FrameCreatesOrReplacesTheRecord
  refine ⟨fun m c i f r hk hf hr => ?created, fun m c i f r k hk hd hc => ?replaced⟩
  case created =>
    rw [MatchUnit.winningFrame_free hk]
    exact ⟨fun he => MatchUnit.createKey_every hr he hf, fun he hn => MatchUnit.createKey_pending hr he hn,
      fun he hn => MatchUnit.createKey_pressed hr he hn⟩
  case replaced =>
    rw [MatchUnit.winningFrame_replaces hk hd, MatchUnit.removeKey_countUnconfirmed hk hc]
    refine (MatchUnit.winningFrame_free ?_).symm
    exact MatchUnit.key_setKey_self (m.setCounter c _) c none

/-! ## The answer to a PRESS and the expiry (R113, R115, R121) -/

section Ends

variable {s : State} {c : Channel} {r : KeyRecord} (hk : s.mu.key c = some r)
include hk

theorem exec_pressAnswer_admitted (hw : s.mu.awaiting = some c) (ha : s.mu.answer = some true) :
    exec .pressAnswer s = .next (s.setMu
      { s.mu.setKey c (some { r with reported := true }) with awaiting := none, answer := none }) := by
  have kept : ({ s.mu with awaiting := none, answer := none } : MatchUnit).key c = some r := hk
  simp only [exec, execPressAnswer, hw, ha, MatchUnit.pressAnswered, if_true, kept]
  rfl

omit hk in
theorem exec_pressAnswer_refused {k : MatchCounters} (hc : k = s.mu.counter c) (hw : s.mu.awaiting = some c)
    (ha : s.mu.answer = some false) :
    exec .pressAnswer s = .next (s.setMu
      { s.mu.setCounter c { k with unreportedPresses := bump k.unreportedPresses } with
        awaiting := none, answer := none }) := by
  subst hc
  simp only [exec, execPressAnswer, hw, ha]
  rfl

theorem exec_expiry_due (hr : s.matchReady = true) (hd : (s.now - r.deadline).toNat < 2 ^ 31) :
    exec (.expiry c) s = .next (s.setMu ((s.mu.countUnconfirmed c).removeKey c .timeout r.deadline)) := by
  have due : reached r.deadline s.now = true := decide_eq_true hd
  simp only [exec, execExpiry, hk, hr, due, Bool.and_self, if_true]
  rfl

end Ends

/-- The held time in milliseconds (R115). -/
theorem KeyRecord.toNat_heldTime {r : KeyRecord} (stamp : Time) (h : r.heldMs ≠ 65535#16) :
    (r.heldTime stamp).toNat = min 65535 ((stamp - r.created).toNat / 1000) := by
  have fits : min ((stamp - r.created).toNat / 1000) 65535 < 2 ^ 16 := by omega
  rw [KeyRecord.heldTime, if_neg h, clipDuration, elapsed, BitVec.toNat_ofNat, Nat.mod_eq_of_lt fits, min_comm]

/-- Settles O28, by the answer; an expiry removes the record as any other end does. -/
theorem pressAnswerAndExpiryEndTheWait : Obligations.PressAnswerAndExpiryEndTheWait := by
  unfold Obligations.PressAnswerAndExpiryEndTheWait
  refine ⟨fun s c r k hk hc => ⟨fun hw => ⟨exec_pressAnswer_admitted hk hw, exec_pressAnswer_refused hc hw⟩,
    fun ha ht hd => ?expiry⟩, fun r stamp => ⟨r.toNat_heldTime stamp, fun h => ?full⟩⟩
  case expiry =>
    rw [exec_expiry_due hk (s.matchReady_iff.mpr ⟨ha, ht⟩) hd, MatchUnit.removeKey_countUnconfirmed hk hc]
    rfl
  case full => rw [KeyRecord.heldTime, if_pos h, h]

end Sys2Proof.Machine
end

section
/-! The learning session (R129 to R145), and the event window (R156, R196). -/

namespace Sys2Proof.Machine

/-! ## The session's commands (R131 to R141) -/

theorem LearnSession.active_iff (x : LearnSession) : x.active = true ↔ x.state = .listening ∨ x.state = .confirming := by
  simp [LearnSession.active]

section Checks

variable {s : State} {c : Channel} {k t : Byte}

theorem State.checkLearnStart_badArg (h : k.toNat < 2 ∨ 4 < k.toNat ∨ t.toNat < 1 ∨ 60 < t.toNat) :
    s.checkLearnStart c k t = some .badArg := if_pos h

variable (h : ¬ (k.toNat < 2 ∨ 4 < k.toNat ∨ t.toNat < 1 ∨ 60 < t.toNat))
include h

theorem State.checkLearnStart_disabled (hd : (s.lcu c).capture = .disabled) :
    s.checkLearnStart c k t = some .channelDisabled := by
  rw [State.checkLearnStart, if_neg h, if_pos hd]

theorem State.checkLearnStart_running (hd : (s.lcu c).capture ≠ .disabled) (ha : s.mu.learn.active = true) :
    s.checkLearnStart c k t = some .learnState := by
  rw [State.checkLearnStart, if_neg h, if_neg hd, if_pos ha]

theorem State.checkLearnStart_accepted (hd : (s.lcu c).capture ≠ .disabled) (ha : s.mu.learn.active = false) :
    s.checkLearnStart c k t = none := by
  rw [State.checkLearnStart, if_neg h, if_neg hd, if_neg (by simp [ha])]

end Checks

/-- A channel's record is removed, whether there is one or not (R115). -/
theorem MatchUnit.removeKey_eq (m : MatchUnit) (c : Channel) (reason : ReleaseReason) (stamp : Time) :
    m.removeKey c reason stamp =
      { m.setKey c none with
        toQueue := match (m.key c).filter KeyRecord.reported with
          | some r => m.toQueue.push (r.release c reason stamp)
          | none => m.toQueue } := by
  cases hk : m.key c with
  | none =>
    have same : m.setKey c none = m := by simp [← hk, MatchUnit.setKey, MatchUnit.key]
    rw [MatchUnit.removeKey_none hk, same]
    rfl
  | some r =>
    rw [MatchUnit.removeKey_some hk]
    cases hr : r.reported <;> simp [Option.filter, hr]

section Commands

variable {s : State} {f : InFlight} (hf : s.bcu.inFlight = some f) (hp : .mu ∈ f.parts) (hr : s.matchReady = true)
include hf hp hr

theorem exec_learnStart_refused {c : Channel} {e : CmdError} (hcmd : f.cmd = some .learnStart)
    (hc : f.args.arg0.toNat = c.val) (he : s.checkLearnStart c f.args.arg2 f.args.arg3 = some e) :
    exec (.learnStart .take) s = .next (s.answerPart .mu { error := some e }) := by
  have harg := channelOf_eq_some hc
  simp only [exec, execLearnStart]
  rw [State.takeCommand_owner _ hf hcmd (by simp [argumentsNameParts, harg])]
  simp only [harg, State.matchPart_due _ hp hr, he]

theorem exec_learnStart_accepted {c : Channel} (hcmd : f.cmd = some .learnStart) (hc : f.args.arg0.toNat = c.val)
    (he : s.checkLearnStart c f.args.arg2 f.args.arg3 = none) :
    exec (.learnStart .take) s =
      .next ((s.setMu (s.mu.startLearn c f.args.arg2.toNat f.args.arg3.toNat s.now)).answerPart .mu {}) := by
  have harg := channelOf_eq_some hc
  simp only [exec, execLearnStart]
  rw [State.takeCommand_owner _ hf hcmd (by simp [argumentsNameParts, harg])]
  simp only [harg, State.matchPart_due _ hp hr, he]

theorem exec_learnAbort_due (hcmd : f.cmd = some .learnAbort) : exec (.learnAbort .take) s =
    .next (if s.mu.learn.state = .idle then s.answerPart .mu { error := some .learnState }
      else (s.setMu s.mu.endLearn).answerPart .mu {}) := by
  simp only [exec, execLearnAbort]
  rw [State.takeCommand_owner _ hf hcmd rfl, State.matchPart_due _ hp hr]

theorem exec_learnDiscard_due (hcmd : f.cmd = some .learnDiscard) : exec (.learnDiscard .take) s =
    .next (if s.mu.learn.state = .done then (s.setMu s.mu.endLearn).answerPart .mu {}
      else s.answerPart .mu { error := some .learnState }) := by
  simp only [exec, execLearnDiscard]
  rw [State.takeCommand_owner _ hf hcmd rfl, State.matchPart_due _ hp hr]

theorem exec_learnCommit_due {i : EntryNo} {r : Vector Byte 25} (hcmd : f.cmd = some .learnCommit)
    (hi : f.args.arg0.toNat = i.val) (hst : f.staging = .entry r) :
    exec (.learnCommit .take) s =
      .next (s.commitAnswer (s.mu.commitResult i (entryFields r) s.sdc.profiles s.now)) := by
  have harg := entryOf_eq_some hi
  simp only [exec, execLearnCommit]
  rw [State.takeCommand_owner _ hf hcmd (by simp [argumentsNameParts, harg])]
  simp only [harg, hst, State.matchPart_due _ hp hr]

end Commands

section Result

variable {m : MatchUnit} {i : EntryNo} {staged : EntryFields} {profiles : Vector Profile 8} {now : Time}

theorem MatchUnit.commitResult_notDone (h : m.learn.state ≠ .done) :
    m.commitResult i staged profiles now = .error .learnState := by
  unfold MatchUnit.commitResult
  split
  · next done _ => exact absurd done h
  · rfl

variable {x : LearnResult} (hs : m.learn.state = .done) (hx : m.learn.result = some x)
include hs hx

theorem MatchUnit.commitResult_refused {e : CmdError}
    (he : m.commitEntry i (x.entryFields staged) profiles now = .error e) :
    m.commitResult i staged profiles now = .error e := by
  simp only [MatchUnit.commitResult, hs, hx, he]

/-- An accepted commit ends the session (R141). -/
theorem MatchUnit.commitResult_accepted {a : MatchUnit}
    (ha : m.commitEntry i (x.entryFields staged) profiles now = .ok a) :
    m.commitResult i staged profiles now = .ok a.endLearn := by
  simp only [MatchUnit.commitResult, hs, hx, ha]

end Result

/-- Settles O29, by the checks of the start and by the session's state. -/
theorem learnCommandsRunTheSession : Obligations.LearnCommandsRunTheSession := by
  unfold Obligations.LearnCommandsRunTheSession
  refine ⟨LearnSession.active_iff, fun s f c k t hf hcmd hc hk ht hp ha hm => ?start,
    fun s f hf hp ha hm => ⟨fun hcmd => ?abort, fun hcmd => ?discard, fun i r hcmd hi hst => ?commit⟩⟩
  case start =>
    have ready := (s.matchReady_iff).mpr ⟨ha, hm⟩
    subst hk ht
    refine ⟨fun out => ?_, fun h2 h4 h1 h60 => ?_⟩
    · exact exec_learnStart_refused hf hp ready hcmd hc (State.checkLearnStart_badArg out)
    · have within : ¬ (f.args.arg2.toNat < 2 ∨ 4 < f.args.arg2.toNat ∨ f.args.arg3.toNat < 1 ∨ 60 < f.args.arg3.toNat) := by
        omega
      refine ⟨fun hd => exec_learnStart_refused hf hp ready hcmd hc (State.checkLearnStart_disabled within hd),
        fun hd => ⟨fun running =>
          exec_learnStart_refused hf hp ready hcmd hc (State.checkLearnStart_running within hd running), fun free => ?_⟩⟩
      rw [exec_learnStart_accepted hf hp ready hcmd hc (State.checkLearnStart_accepted within hd free),
        MatchUnit.startLearn, MatchUnit.removeKey_eq]
      rfl
  case abort =>
    rw [exec_learnAbort_due hf hp ((s.matchReady_iff).mpr ⟨ha, hm⟩) hcmd]
    exact ⟨fun idle => by rw [if_pos idle], fun running => by rw [if_neg running]; rfl⟩
  case discard =>
    rw [exec_learnDiscard_due hf hp ((s.matchReady_iff).mpr ⟨ha, hm⟩) hcmd]
    exact ⟨fun undone => by rw [if_neg undone], fun done => by rw [if_pos done]; rfl⟩
  case commit =>
    rw [exec_learnCommit_due hf hp ((s.matchReady_iff).mpr ⟨ha, hm⟩) hcmd hi hst]
    refine ⟨fun undone => by rw [MatchUnit.commitResult_notDone undone]; rfl, fun x fields hs hx hfields => ?_⟩
    subst hfields
    exact ⟨fun e he => by rw [MatchUnit.commitResult_refused hs hx he]; rfl,
      fun m hm => by rw [MatchUnit.commitResult_accepted hs hx hm]; rfl⟩

/-! ## The words of a session (R133 to R136) -/

/-- With nothing in the way the message is the oldest that the decoder has sent. -/
theorem State.matchMessage_eq_head {s : State} (hp : s.resetParts = []) (hr : s.matchReady = true) :
    s.matchMessage = s.sdc.toMatch.msgs.head? := by
  simp [State.matchMessage, hr, State.resetBetween, hp]

section Words

variable {m : MatchUnit} {w : CodeWord} {toggle : Option Nat} {x : Candidate}
  (hx : x = { profile := w.profile, bits := w.bits, payload := w.payload })

/-- Fitting looks at a word's channel, profile, bit count and payload alone (R92). -/
theorem MatchUnit.fitting_congr {v : CodeWord} (hc : v.channel = w.channel) (hp : v.profile = w.profile)
    (hb : v.bits = w.bits) (hd : v.payload = w.payload) : m.fitting v = m.fitting w := by
  simp only [MatchUnit.fitting, Entry.fits, hc, hp, hb, hd]

include hx

theorem MatchUnit.learnWord_first (hc : m.learn.candidate = none) : m.learnWord w toggle =
    { m with learn := { m.learn with candidate := some x, matchCount := 1, state := .confirming } } := by
  subst hx
  simp only [MatchUnit.learnWord, hc]

theorem MatchUnit.learnWord_equal (hc : m.learn.candidate = some x) (hn : m.learn.matchCount + 1 < m.learn.k) :
    m.learnWord w toggle = { m with learn := { m.learn with matchCount := m.learn.matchCount + 1 } } := by
  subst hx
  simp only [MatchUnit.learnWord, hc, if_true, if_neg (Nat.not_le.mpr hn)]

/-- The k-th equal word ends the session with its result (R135). -/
theorem MatchUnit.learnWord_last {existing : Option EntryNo} (hc : m.learn.candidate = some x)
    (hn : m.learn.k ≤ m.learn.matchCount + 1) (hch : m.learn.channel = w.channel)
    (he : existing = (m.fitting w).head?) : m.learnWord w toggle =
      { m with
        learn := { m.learn with
          state := .done, matchCount := m.learn.matchCount + 1, expiredAt := none
          result := some { channel := w.channel, profile := w.profile, bits := w.bits, payload := w.payload
                           mask := suggestedMask w.bits toggle, existing := existing } }
        divert := none
        toQueue := m.toQueue.push
          { source := channelByte w.channel, stamp := w.stamp
            body := .learnDone w.profile w.bits w.payload existing } } := by
  have probed : m.fitting { channel := w.channel, profile := w.profile, bits := w.bits, payload := w.payload
                            toggle := none, stamp := w.stamp } = m.fitting w :=
    MatchUnit.fitting_congr rfl rfl rfl rfl
  subst hx he
  simp only [MatchUnit.learnWord, hc, if_true, if_pos hn, MatchUnit.learnDone, MatchUnit.send, hch, probed]

section Different

variable {y : Candidate} (hc : m.learn.candidate = some y) (hd : x ≠ y)
include hc hd

theorem MatchUnit.learnWord_different (hn : m.learn.mismatches + 1 < 3) : m.learnWord w toggle =
    { m with learn := { m.learn with
      candidate := some x, matchCount := 1, mismatches := m.learn.mismatches + 1 } } := by
  subst hx
  simp only [MatchUnit.learnWord, hc, if_neg hd]
  exact if_neg (Nat.not_le.mpr hn)

theorem MatchUnit.learnWord_mismatch (hn : 3 ≤ m.learn.mismatches + 1) : m.learnWord w toggle =
    { m with
      learn := .idle, divert := none
      toQueue := m.toQueue.push
        { source := channelByte m.learn.channel, stamp := w.stamp, body := .learnFail .mismatch } } := by
  subst hx
  simp only [MatchUnit.learnWord, hc, if_neg hd]
  exact if_pos hn

end Different

end Words

/-- A word on the diverted channel goes to the session, with the toggle position of the candidate's profile (R133, R135). -/
theorem exec_codeWord_diverted {s : State} {w : CodeWord} {done : Decoder} (hw : s.matchMessage = some (.word w))
    (hd : s.mu.divert = some w.channel) (he : s.sdc.toMatch.early = 0)
    (hdone : done = { s.sdc with toMatch := s.sdc.toMatch.pop, state := .idle }) :
    exec .codeWord s = .next ((s.setMu (s.mu.learnWord w
      ((s.mu.learn.candidate.map fun x => (s.sdc.profile x.profile).toggle).join))).setSdc done) := by
  have handed : s.sdc.handedOn = done := by
    rw [hdone, Decoder.handedOn, if_pos he]
  simp only [exec, execCodeWord, hw, if_pos hd, handed]

/-! ## The time of a session (R115, R137) -/

theorem exec_millisecondTick_due {s : State} {moment : Time} {rest : List Time} (h : s.tb.msTicks = moment :: rest) :
    exec .millisecondTick s =
      .next { s with tb := { s.tb with msTicks := rest }, mu := (s.mu.tickLearn moment).tickHeld } := by
  simp only [exec, execMillisecondTick, h]

theorem MatchUnit.key_tickHeld (m : MatchUnit) (c : Channel) :
    m.tickHeld.key c = (m.key c).map fun r => { r with heldMs := bump r.heldMs } := by
  simp [MatchUnit.tickHeld, MatchUnit.key]

section Tick

variable {m : MatchUnit} {moment : Time}

/-- A tick changes the session alone (R137). -/
theorem MatchUnit.tickLearn_eq : m.tickLearn moment = { m with learn := (m.tickLearn moment).learn } := by
  unfold MatchUnit.tickLearn
  split <;> rfl

theorem MatchUnit.learn_tickLearn_running (ha : m.learn.active = true) (hn : 1 < m.learn.remaining) :
    (m.tickLearn moment).learn = { m.learn with remaining := m.learn.remaining - 1 } := by
  have running : 0 < m.learn.remaining := by omega
  have notLast : m.learn.remaining ≠ 1 := by omega
  simp [MatchUnit.tickLearn, ha, running, notLast]

theorem MatchUnit.learn_tickLearn_last (ha : m.learn.active = true) (hn : m.learn.remaining = 1) :
    (m.tickLearn moment).learn = { m.learn with remaining := 0, expiredAt := some moment } := by
  simp [MatchUnit.tickLearn, ha, hn]

theorem MatchUnit.learn_tickLearn_stopped (h : m.learn.active = false ∨ m.learn.remaining = 0) :
    (m.tickLearn moment).learn = m.learn := by
  rcases h with h | h <;> simp [MatchUnit.tickLearn, h]

end Tick

theorem exec_learnTimeout_due {s : State} {moment : Time} (he : s.mu.learn.expiredAt = some moment)
    (ha : s.mu.learn.active = true) (hr : s.matchReady = true) :
    exec .learnTimeout s = .next (s.setMu (s.mu.failLearn .timeout moment)) := by
  simp only [exec, execLearnTimeout, he, ha, hr, Bool.and_self, if_true]

/-! ## The suggested mask (R135) -/

theorem getLsbD_suggestedMask {bits n : Nat} {toggle : Option Nat} (hb : bits ≤ 64) :
    (suggestedMask bits toggle).getLsbD n = true ↔ n < bits ∧ toggle ≠ some n := by
  by_cases hn : n < 64
  · have ones : (BitVec.ofNat 64 (2 ^ bits - 1)).getLsbD n = decide (n < bits) := by
      rw [BitVec.getLsbD_ofNat, Nat.testBit_two_pow_sub_one, decide_eq_true hn, Bool.true_and]
    unfold suggestedMask
    cases toggle with
    | none => simp [ones]
    | some t =>
      change (clearBit (BitVec.ofNat 64 (2 ^ bits - 1)) t).getLsbD n = true ↔ _
      rw [getLsbD_clearBit _ t hn, ones]
      simp [@eq_comm Nat t n]
  · have above : (suggestedMask bits toggle).getLsbD n = false := BitVec.getLsbD_of_ge _ _ (Nat.not_lt.mp hn)
    rw [above]
    simp only [Bool.false_eq_true, false_iff]
    rintro ⟨inside, _⟩
    omega

/-- Settles O30, by the candidate that the word meets, and by the time that is left at a tick. -/
theorem learningCountsMatchesAndTime : Obligations.LearningCountsMatchesAndTime := by
  unfold Obligations.LearningCountsMatchesAndTime
  refine ⟨fun s hf ha hm => State.matchMessage_eq_head (State.resetParts_eq_nil hf) (s.matchReady_iff.mpr ⟨ha, hm⟩),
    fun s w x done hw hd he hx hdone => ?words,
    fun s => ⟨fun moment rest h => ?tick, fun moment he ha hp hm => ?timeout⟩,
    fun bits n toggle hb => getLsbD_suggestedMask hb⟩
  case words =>
    rw [exec_codeWord_diverted hw hd he hdone]
    refine ⟨fun hc => ?_, fun hc hn => ?_, fun existing hc hn hch hex => ?_,
      fun y hc hdiff => ⟨fun hn => ?_, fun hn => ?_⟩⟩
    · rw [MatchUnit.learnWord_first hx hc]
    · rw [MatchUnit.learnWord_equal hx hc hn]
    · have profile : x.profile = w.profile := by rw [hx]
      rw [MatchUnit.learnWord_last hx hc hn hch hex, hc]
      simp only [Option.map_some, Option.join_some, profile]
    · rw [MatchUnit.learnWord_different hx hc hdiff hn]
    · rw [MatchUnit.learnWord_mismatch hx hc hdiff hn]
  case tick =>
    have ticked := MatchUnit.tickLearn_eq (m := s.mu) (moment := moment)
    refine ⟨_, exec_millisecondTick_due h, ?_, fun c => ?_, MatchUnit.learn_tickLearn_running,
      MatchUnit.learn_tickLearn_last, MatchUnit.learn_tickLearn_stopped⟩
    · dsimp only
      rw [ticked]
      rfl
    · dsimp only
      rw [MatchUnit.key_tickHeld, ticked]
      rfl
  case timeout =>
    rw [exec_learnTimeout_due he ha (s.matchReady_iff.mpr ⟨hp, hm⟩)]
    rfl

/-! ## The event window (R156, R196) -/

theorem State.readRegister_eventWindow (s : State) {i : Nat} (hi : i < 20) :
    s.readRegister (BitVec.ofNat 6 (0x10 + i)) = s.evq.windowByte i := by
  interval_cases i <;> rfl

theorem EventQueue.windowByte_nil {q : EventQueue} (h : q.records = []) (i : Nat) : q.windowByte i = 0 := by
  simp only [EventQueue.windowByte, h]

theorem EventQueue.windowByte_cons {q : EventQueue} {x : EventRecord} {rest : List EventRecord} (h : q.records = x :: rest)
    (i : Nat) : q.windowByte i = (x.bytes[i]?).getD 0 := by
  simp only [EventQueue.windowByte, h]

/-- The byte that a register of the window shows of the head record. -/
theorem State.readRegister_head {s : State} {x : EventRecord} {rest : List EventRecord} (h : s.evq.records = x :: rest)
    {i : Nat} (hi : i < 20) : s.readRegister (BitVec.ofNat 6 (0x10 + i)) = (x.bytes[i]?).getD 0 := by
  rw [s.readRegister_eventWindow hi, EventQueue.windowByte_cons h]

/-- The presence byte and the body of a record, as the window shows them. -/
def EventBody.shown (b : EventBody) : List Byte := (List.range 12).map fun n => ((b.presence :: b.bytes)[n]?).getD 0

theorem State.readRegister_body {s : State} {x : EventRecord} {rest : List EventRecord} (h : s.evq.records = x :: rest) :
    (List.range 12).map (fun n => s.readRegister (BitVec.ofNat 6 (0x18 + n))) = x.body.shown := by
  refine List.map_congr_left fun n hn => ?_
  have inside : 8 + n < 20 := by
    have := List.mem_range.mp hn
    omega
  have address : 0x18 + n = 0x10 + (8 + n) := by omega
  rw [address, State.readRegister_head h inside, Nat.add_comm 8 n]
  rfl

/-- A 16-bit word is its two bytes. -/
theorem halfBytes_append (w : Half) : byteOf w 1 ++ byteOf w 0 = w := by
  refine BitVec.eq_of_getElem_eq fun i hi => ?_
  simp only [byteOf, BitVec.getElem_append, BitVec.getElem_extractLsb']
  grind

/-- Settles O33, kind by kind. -/
theorem eventWindowShowsTheHead : Obligations.EventWindowShowsTheHead := by
  unfold Obligations.EventWindowShowsTheHead
  refine fun s => ⟨fun empty a low high => ?empty, fun x rest h => ?head⟩
  case empty =>
    obtain ⟨i, inside, rfl⟩ : ∃ i < 20, a = BitVec.ofNat 6 (0x10 + i) :=
      ⟨a.toNat - 0x10, by omega, by rw [Nat.add_sub_cancel' low, BitVec.ofNat_toNat, BitVec.setWidth_eq]⟩
    rw [s.readRegister_eventWindow inside, EventQueue.windowByte_nil empty]
  case head =>
    have field {i : Nat} (hi : i < 20) := State.readRegister_head h hi
    refine ⟨?seq, field (i := 3) (by decide), ?stamp, fun kind body hkind hbody => ?body⟩
    case seq =>
      have low : s.readRegister 0x10#6 = byteOf x.seq 0 := field (i := 0) (by decide)
      have high : s.readRegister 0x11#6 = byteOf x.seq 1 := field (i := 1) (by decide)
      rw [low, high, halfBytes_append]
    case stamp =>
      have byte0 : s.readRegister 0x14#6 = byteOf x.stamp 0 := field (i := 4) (by decide)
      have byte1 : s.readRegister 0x15#6 = byteOf x.stamp 1 := field (i := 5) (by decide)
      have byte2 : s.readRegister 0x16#6 = byteOf x.stamp 2 := field (i := 6) (by decide)
      have byte3 : s.readRegister 0x17#6 = byteOf x.stamp 3 := field (i := 7) (by decide)
      rw [byte0, byte1, byte2, byte3, bytes_append]
    case body =>
      obtain rfl : kind = x.body.kind := hkind.trans (field (i := 2) (by decide))
      obtain rfl : body = x.body.shown := hbody.trans (State.readRegister_body h)
      refine ⟨fun entry keyId ambiguous toggle hb => ?_, fun entry keyId repeats hb => ?_,
        fun entry keyId repeats reason held hb => ?_, fun entry keyId repeats frame ambiguous toggle hb => ?_,
        fun profile bits payload toggle hb => ?_, fun count reason handle hb => ?_, fun hb => ?_,
        fun profile bits payload existing hb => ?_, fun reason hb => ?_, fun tag frames hb => ?_,
        fun tag frames reason hb => ?_, fun lost hb => ?_⟩ <;> rw [hb]
      · exact ⟨rfl, by rcases toggle with _ | _ | _ <;> rfl⟩
      · exact ⟨rfl, rfl⟩
      · exact ⟨rfl, by cases reason <;> rfl⟩
      · exact ⟨rfl, by rcases toggle with _ | _ | _ <;> cases frame <;> rfl⟩
      · exact ⟨rfl, by rcases toggle with _ | _ | _ <;> rfl⟩
      · exact ⟨rfl, by cases handle <;> cases reason <;> rfl⟩
      · exact ⟨rfl, rfl⟩
      · exact ⟨rfl, by cases existing <;> rfl⟩
      · exact ⟨rfl, by cases reason <;> rfl⟩
      · exact ⟨rfl, rfl⟩
      · exact ⟨rfl, by cases reason <;> rfl⟩
      · exact ⟨rfl, rfl⟩

end Sys2Proof.Machine
end


section
/-! The life of a transmit request at its two ends: the activation with its source snapshot (R171 to R173, R181) and the end of
the tail (R182); and the pin of an engine (R178). -/

namespace Sys2Proof.Machine

/-! ## The source snapshot (R172) -/

theorem frameSnapshot_of_stands {p : Profile} {bits : Nat} (payload : Payload)
    (h : p.valid = true ∧ p.minBits ≤ bits ∧ bits ≤ p.maxBits) :
    frameSnapshot p bits payload = some (.frame p bits payload) :=
  if_pos h

theorem frameSnapshot_of_gone {p : Profile} {bits : Nat} (payload : Payload)
    (h : p.valid = false ∨ bits < p.minBits ∨ p.maxBits < bits) : frameSnapshot p bits payload = none := by
  refine if_neg fun ⟨hvalid, hmin, hmax⟩ => ?_
  rcases h with h | h | h
  · exact absurd hvalid (by simp [h])
  · omega
  · omega

theorem TxSource.eq_entry_of_isEntry {x : TxSource} (h : x.isEntry = true) : ∃ i, x = .entry i := by
  cases x with
  | entry i => exact ⟨i, rfl⟩
  | word _ _ _ => cases h
  | burst _ => cases h

/-! ## Claims and drops, seen from the whole machine (R181, R182) -/

/-- An engine change followed by messages to the channels: the machine differs in the Transmit Engine and in those channels. -/
theorem State.sendClaims_setTxe (s : State) (x : Transmit) (o : Output) (set : BitVec 4) (msg : ClaimMsg) :
    ∃ t, (s.setTxe x).sendClaims o set msg = t ∧ t = ({ s with txe := t.txe, lcus := t.lcus } : State) ∧ t.txe = x
      ∧ ∀ c, t.lcu c = if set.getLsbD c.val then (s.lcu c).setClaims o ((s.lcu c).claimsOf o ++ [msg]) else s.lcu c := by
  obtain ⟨ls, h⟩ := (s.setTxe x).sendClaims_frame o set msg
  refine ⟨_, rfl, ?_, (s.setTxe x).txe_sendClaims o set msg, (s.setTxe x).lcu_sendClaims o set msg⟩
  rw [h]
  rfl

/-! ## The activation (R171 to R173) -/

section Activation

variable {s : State} {o : Output} {before after : List TxRequest} {r : TxRequest} (hidle : (s.txe.engine o).state = .idle)
  (hq : s.txe.queue = before ++ r :: after) (ho : r.output = o) (hb : ∀ x ∈ before, x.output ≠ o)
  (hwait : ∀ i, r.source = .entry i → s.mu.awaiting = none)
include hidle hq ho hb hwait

omit hidle hq ho hb in
theorem State.afterMatchRead_source (act : State) : s.afterMatchRead r.source.isEntry act = act := by
  refine State.afterMatchRead_due act fun h => ?_
  obtain ⟨i, hi⟩ := TxSource.eq_entry_of_isEntry h
  exact hwait i hi

/-- The request leaves the queue, and its end record is sent. -/
theorem exec_activation_gone (h : s.sourceSnapshot r.source = none) :
    exec (.activation o) s = .next ((s.setTxe { s.txe with queue := before ++ after }).activateGone o r) := by
  change execActivation o s = _
  simp only [execActivation, if_pos hidle, hq, takeRequestFor_append before after ho hb, State.afterMatchRead_source hwait, h]

/-- The request leaves the queue and becomes the active one. -/
theorem exec_activation_stands {x : TxSnapshot} (h : s.sourceSnapshot r.source = some x) :
    exec (.activation o) s = .next ((s.setTxe { s.txe with queue := before ++ after }).activateWith o r x) := by
  change execActivation o s = _
  simp only [execActivation, if_pos hidle, hq, takeRequestFor_append before after ho hb, State.afterMatchRead_source hwait, h]

end Activation

/-- Settles O35, by the snapshot of the request's source. -/
theorem activationBeginsTheFrameOrEndsGone : Obligations.ActivationBeginsTheFrameOrEndsGone := by
  unfold Obligations.ActivationBeginsTheFrameOrEndsGone
  refine ⟨fun s => ⟨fun p bits payload => ⟨frameSnapshot_of_stands payload, frameSnapshot_of_gone payload⟩,
    fun i => rfl, fun h => rfl⟩, fun s o before after r hidle hq ho hb hwait => ⟨fun hgone => ?gone, fun x hx => ?stands⟩⟩
  case gone => exact exec_activation_gone hidle hq ho hb hwait hgone
  case stands =>
    obtain ⟨t, ht, hframe, htxe, hlcu⟩ := s.sendClaims_setTxe
      { s.txe.setEngine o (Engine.beginFrame { (s.txe.engine o).activate with
          request := some r, snapshot := some x, toggle := x.nextToggle (s.txe.engine o).toggle } s.now true) with
        queue := before ++ after } o r.blankSet .claim
    refine ⟨t, x.nextToggle (s.txe.engine o).toggle, ?event, hframe, ?toggle, htxe, hlcu⟩
    case event =>
      rw [exec_activation_stands hidle hq ho hb hwait hx, ← ht]
      rfl
    case toggle => cases x <;> rfl

/-! ## The end of the tail (R182) -/

/-- TAIL_END of an engine whose blank tail is over. -/
theorem exec_tailEnd_due {s : State} {o : Output} {r : TxRequest} (hs : (s.txe.engine o).state = .tail)
    (hr : (s.txe.engine o).request = some r) (hd : r.blankTail.toNat * 100 ≤ elapsed (s.txe.engine o).tailStart s.now) :
    exec (.tailEnd o) s = .next (s.endTail o) := by
  change execTailEnd o s = _
  simp only [execTailEnd, hs, hr, if_pos hd]

/-- The engine whose request `r` has ended: IDLE at rest, with the end record sent (R182, R186). -/
def Engine.ended (e : Engine) (o : Output) (now : Time) (r : TxRequest) : Engine :=
  { e with
    state := .idle, request := none, snapshot := none, elements := []
    toQueue := e.toQueue.push (endRecord o now r.tag e.framesSent e.endKind) }

/-- The end of the tail changes the engine, the hold drops and, by the drops, the channels of the blank set. -/
theorem State.endTail_eq {s : State} {o : Output} {r : TxRequest} (hr : (s.txe.engine o).request = some r) :
    s.endTail o = (s.sendClaims o r.blankSet .drop).setTxe { s.txe.setEngine o ((s.txe.engine o).ended o s.now r) with
      holdDrops := s.txe.holdDrops ++ r.heldBurst.toList } := by
  simp only [State.endTail, hr]
  rfl

/-- Settles O37, by the equation of the end of the tail; record and hold drop by the end kind and the source. -/
theorem tailEndDropsClaimsAndReports : Obligations.TailEndDropsClaimsAndReports := by
  unfold Obligations.TailEndDropsClaimsAndReports
  intro s o r hs hr hd
  obtain ⟨ls, hls⟩ := s.sendClaims_frame o r.blankSet .drop
  have hend := State.endTail_eq hr
  refine ⟨s.endTail o, exec_tailEnd_due hs hr hd, ?frame, ?engine, fun c => ?channel⟩
  case frame =>
    rw [hend, hls]
    rfl
  case engine =>
    rw [hend]
    simp only [State.setTxe, Engine.ended, endRecord, TxRequest.heldBurst]
    cases (s.txe.engine o).endKind <;> cases r.source <;> rfl
  case channel =>
    rw [hend]
    exact s.lcu_sendClaims o r.blankSet .drop c

/-! ## The transmit pin (R178) -/

theorem Engine.pin_of_not_frame {e : Engine} (h : e.state ≠ .frame) (now : Time) (unit : Nat) : e.pin now unit = false := by
  unfold Engine.pin
  split
  · next hs _ _ => exact absurd hs h
  · rfl

theorem Duty.activeUnits_eq (d : Duty) (n : Nat) :
    d.activeUnits n = n / (match d with
      | .quarter => 4
      | .third => 3
      | .half => 2) := by
  cases d <;> rfl

section Frame

variable {e : Engine} {r : TxRequest} {x : Element} {rest : List Element} (hs : e.state = .frame) (hr : e.request = some r)
  (hx : e.elements = x :: rest)
include hs hr hx

theorem Engine.pin_frame (now : Time) (unit : Nat) :
    e.pin now unit = (x.mark && decide (elapsed e.elementStart now < x.duration)
      && (r.carrier == 0
        || decide ((elapsed e.elementStart now * 8 + unit) % r.carrier.toNat < r.duty.activeUnits r.carrier.toNat))) := by
  simp only [Engine.pin, hs, hr, hx]

/-- The pin is at rest in a space and from the end of a mark's duration on. -/
theorem Engine.pin_rest {now : Time} (h : x.mark = false ∨ x.duration ≤ elapsed e.elementStart now) (unit : Nat) :
    e.pin now unit = false := by
  rw [Engine.pin_frame hs hr hx]
  rcases h with h | h
  · simp [h]
  · simp [Nat.not_lt.mpr h]

/-- Within a mark the pin follows the carrier, where there is one. -/
theorem Engine.pin_mark {now : Time} (hm : x.mark = true) (hd : elapsed e.elementStart now < x.duration) (unit : Nat) :
    e.pin now unit = (r.carrier == 0
      || decide ((elapsed e.elementStart now * 8 + unit) % r.carrier.toNat < r.duty.activeUnits r.carrier.toNat)) := by
  rw [Engine.pin_frame hs hr hx, hm, decide_eq_true hd, Bool.and_true, Bool.true_and]

end Frame

/-- Settles O38, by the engine's state and the element in progress. -/
theorem pinCarriesTheMark : Obligations.PinCarriesTheMark := by
  unfold Obligations.PinCarriesTheMark
  refine fun s o unit => ⟨fun h => Engine.pin_of_not_frame h _ _, fun r x rest us hs hr hx hus => ?_⟩
  subst hus
  refine ⟨fun h => Engine.pin_rest hs hr hx h unit, fun hm hd => ?mark⟩
  have hpin := Engine.pin_mark hs hr hx hm hd unit
  refine ⟨fun hc => ?steady, fun hc => ?carrier⟩
  case steady => rw [State.txPin, hpin, hc, beq_self_eq_true, Bool.true_or]
  case carrier =>
    rw [State.txPin, hpin, beq_false_of_ne hc, Bool.false_or, decide_eq_true_iff, Duty.activeUnits_eq]
    rfl

end Sys2Proof.Machine
end


section
/-! The elements of a frame, written out for each source and encoding (R174 to R177), and the events that end elements, frames
and gaps (R179, R180). -/

namespace Sys2Proof.Machine

/-! ## A replayed burst (R177) -/

theorem length_replayElements (ds : List Half) (mark : Bool) : (replayElements ds mark).length = ds.length := by
  induction ds generalizing mark with
  | nil => rfl
  | cons d ds ih => simp [replayElements, ih]

/-- Marks and spaces take turns, from the level of the first element on. -/
theorem getElem?_replayElements (ds : List Half) (mark : Bool) (n : Nat) :
    (replayElements ds mark)[n]? = ds[n]?.map fun d => { mark := (n % 2 == 0) == mark, duration := d.toNat } := by
  induction ds generalizing mark n with
  | nil => rfl
  | cons d ds ih =>
    cases n with
    | zero => simp [replayElements]
    | succ n =>
      have turn : ((n + 1) % 2 == 0) = !(n % 2 == 0) := by
        rcases Nat.mod_two_eq_zero_or_one n with h | h <;> simp [Nat.succ_mod_two_eq_zero_iff, h]
      rw [replayElements, List.getElem?_cons_succ, List.getElem?_cons_succ, ih, turn]
      cases mark <;> cases (n % 2 == 0) <;> rfl

/-! ## The bits in sending order (R174) -/

theorem Profile.getLsbD_sentPayload (p : Profile) (payload : Payload) (toggle : Bool) (place : Nat) :
    (p.sentPayload payload toggle).getLsbD place =
      if p.toggle = some place ∧ place < 64 then toggle else payload.getLsbD place := by
  by_cases hn : place < 64
  · unfold Profile.sentPayload
    cases p.toggle with
    | none => simp
    | some t =>
      rw [getLsbD_setToggleBit payload t toggle hn]
      simp [hn, @eq_comm Nat place t]
  · rw [if_neg fun h => hn h.2, BitVec.getLsbD_of_ge _ _ (Nat.not_lt.mp hn), BitVec.getLsbD_of_ge _ _ (Nat.not_lt.mp hn)]

/-- The place in the payload of the bit that is sent `n`-th. -/
def BitOrder.place (order : BitOrder) (bits n : Nat) : Nat :=
  match order with
  | .lsbFirst => n
  | .msbFirst => bits - 1 - n

theorem getElem?_sendingBits (order : BitOrder) {bits n : Nat} (x : Payload) (hn : n < bits) :
    (sendingBits order bits x)[n]? = some (x.getLsbD (order.place bits n)) := by
  cases order with
  | lsbFirst => simp [sendingBits, BitOrder.place, hn]
  | msbFirst => simp [sendingBits, BitOrder.place, hn]

/-- A list with the bits of the payload at their places is the list of the bits as they are sent. -/
theorem Profile.sendingBits_eq {p : Profile} {bits : Nat} {payload : Payload} {toggle : Bool} {sent : List Bool}
    (hlen : sent.length = bits) (h : ∀ n, n < bits → ∀ place, place = p.order.place bits n →
      sent[n]? = some (if p.toggle = some place ∧ place < 64 then toggle else payload.getLsbD place)) :
    sendingBits p.order bits (p.sentPayload payload toggle) = sent := by
  refine List.ext_getElem? fun n => ?_
  by_cases hn : n < bits
  · rw [getElem?_sendingBits _ _ hn, h n hn _ rfl, p.getLsbD_sentPayload]
  · rw [List.getElem?_eq_none (by simpa using hn), List.getElem?_eq_none (by omega)]

/-! ## The elements of the bits (R174) -/

theorem Profile.distanceElements_eq (p : Profile) (sent : List Bool) : p.distanceElements sent =
    (sent.flatMap fun b => [markOf p.unit1, spaceOf (if b then p.unit3 else p.unit2)]) ++ [markOf p.unit1] := by
  induction sent with
  | nil => rfl
  | cons b sent ih => simp [Profile.distanceElements, ih]

theorem spaceOf_ite (b : Bool) (x y : Half) :
    spaceOf (if b then x else y) = { mark := false, duration := if b then x.toNat else y.toNat } := by
  cases b <;> rfl

theorem markOf_ite (b : Bool) (x y : Half) :
    markOf (if b then x else y) = { mark := true, duration := if b then x.toNat else y.toNat } := by
  cases b <;> rfl

theorem Profile.widthElements_eq (p : Profile) (sent : List Bool) : p.widthElements sent =
    (sent.flatMap fun b => [markOf (if b then p.unit2 else p.unit1), spaceOf p.unit3]).dropLast := by
  match sent with
  | [] => rfl
  | [b] => rfl
  | b :: b' :: rest =>
    rw [Profile.widthElements, p.widthElements_eq (b' :: rest)]
    rfl

/-! ## Runs of one level (R175) -/

/-- The element of a run of halves. -/
def runElement (unit : Half) (r : Bool × Nat) : Element := { mark := r.1, duration := r.2 * unit.toNat }

/-- The levels of runs, half by half. -/
def runLevels (rs : List (Bool × Nat)) : List Bool := rs.flatMap fun r => List.replicate r.2 r.1

/-- Halves of one level join what follows, as long as it begins with the other level. -/
theorem mergeLevels_replicate (unit : Half) (level : Bool) (w : Nat) {halves : List Element}
    (h : ∀ y ∈ (mergeLevels halves).head?, y.mark ≠ level) :
    mergeLevels (List.replicate (w + 1) (halfElement unit level) ++ halves) =
      runElement unit (level, w + 1) :: mergeLevels halves := by
  induction w with
  | zero =>
    rw [List.replicate_one, List.singleton_append, mergeLevels]
    cases hm : mergeLevels halves with
    | nil => cases level <;> simp [runElement, halfElement, markOf, spaceOf]
    | cons y ys =>
      have hy : (halfElement unit level).mark ≠ y.mark := by simpa using (h y (by rw [hm]; rfl)).symm
      simp only [if_neg hy]
      cases level <;> simp [runElement, halfElement, markOf, spaceOf]
  | succ w ih =>
    rw [List.replicate_succ, List.cons_append, mergeLevels, ih]
    simp only [mark_halfElement, runElement, if_true, duration_halfElement]
    congr 1
    rw [Element.mk.injEq]
    exact ⟨rfl, by rw [Nat.add_mul (w + 1), Nat.one_mul, Nat.add_comm]⟩

/-- Runs of unlike levels merge into one element each (R175). -/
theorem mergeLevels_runLevels (unit : Half) {rs : List (Bool × Nat)} (hpos : ∀ r ∈ rs, 1 ≤ r.2)
    (hne : ∀ n x y, rs[n]? = some x → rs[n + 1]? = some y → x.1 ≠ y.1) :
    mergeLevels ((runLevels rs).map (halfElement unit)) = rs.map (runElement unit) := by
  induction rs with
  | nil => rfl
  | cons r rs ih =>
    obtain ⟨level, width⟩ := r
    obtain ⟨w, rfl⟩ : ∃ w, width = w + 1 := ⟨width - 1, (Nat.sub_add_cancel (hpos (level, width) (by simp))).symm⟩
    have tail := ih (fun r hr => hpos r (by simp [hr])) fun n => hne (n + 1)
    have other : ∀ y ∈ (mergeLevels ((runLevels rs).map (halfElement unit))).head?, y.mark ≠ level := by
      rw [tail, List.head?_map]
      intro y hy
      obtain ⟨x, hx, rfl⟩ := Option.map_eq_some_iff.mp hy
      exact (hne 0 (level, w + 1) x rfl (by rw [List.getElem?_cons_succ, ← List.head?_eq_getElem?, hx])).symm
    have levels : (runLevels ((level, w + 1) :: rs)).map (halfElement unit) =
        List.replicate (w + 1) (halfElement unit level) ++ (runLevels rs).map (halfElement unit) := by
      simp [runLevels]
    rw [levels, mergeLevels_replicate unit level w other, tail, List.map_cons]

/-- The halves of a cell, by the bit. -/
theorem cellLevels_eq (sent : List Bool) :
    cellLevels sent = sent.flatMap fun b => if b then [true, false] else [false, true] :=
  congrArg (sent.flatMap ·) (funext fun b => by cases b <;> rfl)

/-- A rest at the end is looked for behind the last element only. -/
theorem dropFinalRest_append (front : List Element) {back : List Element} (h : back ≠ []) :
    dropFinalRest (front ++ back) = front ++ dropFinalRest back := by
  obtain ⟨first, x, rfl⟩ : ∃ first x, back = first ++ [x] := ⟨_, _, (List.dropLast_append_getLast h).symm⟩
  rw [← List.append_assoc, dropFinalRest_concat, dropFinalRest_concat]
  split
  · exact List.append_assoc ..
  · rfl

section Cells

variable {rs : List (Bool × Nat)} {sent : List Bool} (hpos : ∀ r ∈ rs, 1 ≤ r.2) (hcells : runLevels rs = cellLevels sent)
include hpos hcells

/-- The runs end in a rest exactly if the last bit sent is a 1. -/
theorem dropFinalRest_runs (unit : Half) : dropFinalRest (rs.map (runElement unit)) =
    (if sent.getLast? = some true then rs.dropLast else rs).map (runElement unit) := by
  rcases List.eq_nil_or_concat rs with rfl | ⟨front, r, rfl⟩
  · split <;> rfl
  · obtain ⟨w, hw⟩ : ∃ w, r.2 = w + 1 := ⟨r.2 - 1, (Nat.sub_add_cancel (hpos r (by simp))).symm⟩
    have ends : (cellLevels sent).getLast? = some r.1 := by
      rw [← hcells]
      simp [runLevels, hw, List.replicate_succ']
    have last : sent.getLast? = some (!r.1) := by
      rcases List.eq_nil_or_concat sent with rfl | ⟨first, b, rfl⟩
      · cases ends
      · have cell : cellLevels (first ++ [b]) = cellLevels first ++ [b] ++ [!b] := by simp [cellLevels]
        rw [List.concat_eq_append, cell, List.getLast?_concat, Option.some.injEq] at ends
        simp [← ends]
    rw [List.concat_eq_append, List.map_append, List.map_singleton, dropFinalRest_concat, last]
    cases hr : r.1 <;> simp [runElement, hr]

/-- Where the first bit sent is 0, the first run is the rest half of its cell, and its mark half follows. -/
theorem runs_of_first_zero (h0 : sent[0]? = some false) : ∃ r rest, rs = (false, 1) :: r :: rest := by
  obtain ⟨others, rfl⟩ : ∃ others, sent = false :: others := by
    cases sent with
    | nil => cases h0
    | cons b others => exact ⟨others, by simpa using h0⟩
  have begins : runLevels rs = false :: true :: cellLevels others := hcells
  match rs, hpos, begins with
  | (level, 0) :: _, hpos, _ => exact absurd (hpos (level, 0) (by simp)) (by simp)
  | (level, w + 2) :: rest, _, begins =>
    simp only [runLevels, List.flatMap_cons, List.replicate_succ, List.cons_append, List.cons.injEq] at begins
    obtain ⟨low, high, _⟩ := begins
    exact absurd (low.symm.trans high) (by decide)
  | [(level, 1)], _, begins => simp [runLevels] at begins
  | (level, 1) :: r :: rest, _, begins =>
    simp only [runLevels, List.flatMap_cons, List.replicate_succ, List.cons_append, List.cons.injEq] at begins
    exact ⟨r, rest, by rw [begins.1]⟩

end Cells

/-! ## The full frame, by its encoding (R174, R175) -/

section Full

variable {p : Profile} {bits : Nat} {payload : Payload} {toggle : Bool} {sent : List Bool}
  (hsent : sendingBits p.order bits (p.sentPayload payload toggle) = sent)
include hsent

theorem Profile.fullFrame_distance (he : p.encoding = .distance) :
    p.fullFrame bits payload toggle = leaderElements p.leader ++ p.distanceElements sent := by
  rw [Profile.fullFrame, he, ← hsent]
  rfl

theorem Profile.fullFrame_width (he : p.encoding = .width) :
    p.fullFrame bits payload toggle = leaderElements p.leader ++ p.widthElements sent := by
  rw [Profile.fullFrame, he, ← hsent]
  rfl

theorem Profile.fullFrame_biphase (he : p.encoding = .biphase) : p.fullFrame bits payload toggle =
    dropFinalRest (mergeLevels (leaderElements p.leader ++ (cellLevels sent).map (halfElement p.unit1))) := by
  rw [Profile.fullFrame, he, ← biphaseHalves_eq, ← hsent]
  rfl

section Runs

variable (he : p.encoding = .biphase) {rs : List (Bool × Nat)} (hpos : ∀ r ∈ rs, 1 ≤ r.2)
  (hne : ∀ n x y, rs[n]? = some x → rs[n + 1]? = some y → x.1 ≠ y.1) (hcells : runLevels rs = cellLevels sent)
include he hpos hne hcells

/-- Behind a mark at its head the frame is the leader and its runs. -/
theorem Profile.fullFrame_first_one (h1 : sent[0]? = some true) : p.fullFrame bits payload toggle =
    leaderElements p.leader ++ dropFinalRest (rs.map (runElement p.unit1)) := by
  obtain ⟨others, rfl⟩ : ∃ others, sent = true :: others := by
    cases sent with
    | nil => cases h1
    | cons b others => exact ⟨others, by simpa using h1⟩
  have runs_ne : rs.map (runElement p.unit1) ≠ [] := by
    rintro h
    rw [List.map_eq_nil_iff] at h
    subst h
    cases hcells
  have head : (cellLevels (true :: others)).map (halfElement p.unit1) =
      halfElement p.unit1 true :: (false :: cellLevels others).map (halfElement p.unit1) := rfl
  rw [Profile.fullFrame_biphase hsent he, head, mergeLevels_leader _ _ (mark_halfElement ..), ← head, ← hcells,
    mergeLevels_runLevels p.unit1 hpos hne, dropFinalRest_append _ runs_ne]

theorem Profile.fullFrame_leaderless (hl : p.leader = none) :
    p.fullFrame bits payload toggle = dropFinalRest (rs.map (runElement p.unit1)) := by
  rw [Profile.fullFrame_biphase hsent he, hl, leaderElements, List.nil_append, ← hcells,
    mergeLevels_runLevels p.unit1 hpos hne]

/-- A rest half at its head is joined to the leader's space. -/
theorem Profile.fullFrame_joined {l : MarkSpace} (hl : p.leader = some l) {r : Bool × Nat} {rest : List (Bool × Nat)}
    (hrs : rs = (false, 1) :: r :: rest) : p.fullFrame bits payload toggle =
      [markOf l.mark, { mark := false, duration := l.space.toNat + p.unit1.toNat }]
        ++ dropFinalRest ((r :: rest).map (runElement p.unit1)) := by
  have joined : mergeLevels (spaceOf l.space :: (cellLevels sent).map (halfElement p.unit1)) =
      { mark := false, duration := l.space.toNat + p.unit1.toNat } :: (r :: rest).map (runElement p.unit1) := by
    rw [mergeLevels, ← hcells, mergeLevels_runLevels p.unit1 hpos hne, hrs]
    simp [runElement, spaceOf]
  have unlike : (markOf l.mark).mark ≠ (spaceOf l.space).mark := by simp [markOf, spaceOf]
  have ends : (r :: rest).map (runElement p.unit1) ≠ [] := by simp
  rw [Profile.fullFrame_biphase hsent he, hl, leaderElements, List.cons_append, List.singleton_append,
    mergeLevels_cons_other unlike, joined, ← dropFinalRest_append _ ends]
  rfl

end Runs

end Full

/-! ## The events of a frame (R179) -/

section Events

variable {s : State} {o : Output} {e : Engine} {x : Element} (he : e = s.txe.engine o)

section Frame

variable (hs : e.state = .frame) (hd : x.duration ≤ elapsed e.elementStart s.now)
include he hs hd

theorem exec_elementEnd_due {y : Element} {rest : List Element} (hx : e.elements = x :: y :: rest) :
    exec (.elementEnd o) s = .next (s.setEngine o { e with
      elements := y :: rest, elementStart := e.elementStart + BitVec.ofNat 32 x.duration }) := by
  subst he
  change execElementEnd o s = _
  simp only [execElementEnd, hs, hx, if_pos hd]

theorem exec_frameEnd_due (hx : e.elements = [x]) :
    exec (.frameEnd o) s = .next (s.endFrame o (e.elementStart + BitVec.ofNat 32 x.duration)) := by
  subst he
  change execFrameEnd o s = _
  simp only [execFrameEnd, hs, Engine.lastElement, hx, if_pos hd]

end Frame

/-- An engine whose frame has been sent to its end and counted (R179). -/
def Engine.frameSent (e : Engine) (moment : Time) : Engine :=
  { e with framesSent := bump e.framesSent, frameEnd := moment, elements := [] }

/-- A stop, or the frame that the mode ends with. -/
theorem Engine.noMoreFrames_of {r : TxRequest} (hr : e.request = some r)
    (h : e.stopRequested = true ∨ r.mode = .once ∧ e.framesSent = 1 ∨ r.mode = .count e.framesSent.toNat) :
    e.noMoreFrames = true := by
  rw [Engine.noMoreFrames, hr]
  rcases h with stop | ⟨once, one⟩ | count
  · simp [stop]
  · simp [once, one]
  · simp [count]

theorem Engine.moreFrames_of {r : TxRequest} (hr : e.request = some r) (hstop : e.stopRequested = false)
    (h : r.mode = .hold ∨ ∃ m, r.mode = .count m ∧ m ≠ e.framesSent.toNat) : e.noMoreFrames = false := by
  rw [Engine.noMoreFrames, hr, hstop]
  rcases h with hold | ⟨m, count, more⟩
  · simp [hold]
  · simp [count, more.symm]

/-- With a blank tail of 0 the tail ends as TAIL_END ends it (R182). -/
theorem State.enterTail_eq_tailEnd {r : TxRequest} (moment : Time) (hr : e.request = some r) (hb : r.blankTail = 0) :
    .next (s.enterTail o e moment) =
      exec (.tailEnd o) (s.setEngine o { e with state := .tail, tailStart := moment, elements := [] }) := by
  rw [State.enterTail_zero moment hr hb]
  refine (exec_tailEnd_zero ?_ rfl hb).symm
  exact hr

section Sent

variable {r : TxRequest} (hr : (s.txe.engine o).request = some r) (moment : Time)
include hr

theorem State.endFrame_last
    (h : (s.txe.engine o).stopRequested = true ∨ r.mode = .once ∧ bump (s.txe.engine o).framesSent = 1
      ∨ r.mode = .count (bump (s.txe.engine o).framesSent).toNat) :
    s.endFrame o moment = s.enterTail o ((s.txe.engine o).frameSent moment) moment :=
  if_pos (Engine.noMoreFrames_of (e := (s.txe.engine o).frameSent moment) hr h)

theorem State.endFrame_more (hstop : (s.txe.engine o).stopRequested = false)
    (h : r.mode = .hold ∨ ∃ m, r.mode = .count m ∧ m ≠ (bump (s.txe.engine o).framesSent).toNat) :
    s.endFrame o moment = s.setEngine o { (s.txe.engine o).frameSent moment with state := .gap } :=
  if_neg (Bool.eq_false_iff.mp (Engine.moreFrames_of (e := (s.txe.engine o).frameSent moment) hr hstop h))

end Sent

theorem exec_gapEnd_due (hs : (s.txe.engine o).state = .gap) {start : Time} {us : Nat}
    (hg : (s.txe.engine o).gapEnds = (start, us)) (hd : us ≤ elapsed start s.now) :
    exec (.gapEnd o) s = .next (s.setEngine o ((s.txe.engine o).beginFrame (start + BitVec.ofNat 32 us) false)) := by
  change execGapEnd o s = _
  simp only [execGapEnd, hg]
  exact if_pos ⟨hs, hd⟩

end Events

/-- The gap of a frame lasts to the frame period, where the frame was shorter, else for the default gap (R180). -/
theorem Engine.gapEnds_frame {e : Engine} {p : Profile} {bits : Nat} {payload : Payload} {start : Time} {us : Nat}
    (hx : e.snapshot = some (.frame p bits payload))
    (hshort : 0 < p.period → elapsed e.frameStart e.frameEnd < p.period * 1000 →
      start = e.frameStart ∧ us = p.period * 1000)
    (hlong : p.period = 0 ∨ p.period * 1000 ≤ elapsed e.frameStart e.frameEnd → start = e.frameEnd ∧ us = 10000) :
    e.gapEnds = (start, us) := by
  simp only [Engine.gapEnds, hx]
  by_cases h : 0 < p.period ∧ elapsed e.frameStart e.frameEnd < p.period * 1000
  · obtain ⟨rfl, rfl⟩ := hshort h.1 h.2
    exact if_pos h
  · obtain ⟨rfl, rfl⟩ := hlong (by omega)
    exact if_neg h

theorem Engine.gapEnds_burst {e : Engine} {ds : List Half} {r : TxRequest} (hx : e.snapshot = some (.burst ds))
    (hr : e.request = some r) : e.gapEnds = (e.frameEnd, r.rawGap.toNat * 1000) := by
  simp only [Engine.gapEnds, hx, hr]

/-- A frame that begins is synthesised from the engine's snapshot. -/
theorem Engine.beginFrame_eq {e : Engine} {x : TxSnapshot} (hx : e.snapshot = some x) (moment : Time) (first : Bool) :
    e.beginFrame moment first = { e with
      state := .frame, frameStart := moment, elementStart := moment, elements := x.frameElements first e.toggle } := by
  simp only [Engine.beginFrame, hx]

/-- Settles O36, event by event, and the frame by its source and encoding. -/
theorem frameEndsAndGapsRunTheRequest : Obligations.FrameEndsAndGapsRunTheRequest := by
  unfold Obligations.FrameEndsAndGapsRunTheRequest
  refine ⟨fun s o x r e n he hs hr hn hd => ⟨fun y rest hx => exec_elementEnd_due he hs hd hx, fun hx ended hended =>
      ⟨fun hlast u hu => ⟨fun hb => ?tail, fun hb => ?tailOver⟩, fun hstop hmore => ?gap⟩⟩,
    fun s o r x start us hs hr hx hgap hd => ?gapEnd,
    fun p bits payload first toggle x hx => ⟨fun h => ?full, fun l hf hl => ?repeats⟩,
    fun ds first toggle x hx => ?burst,
    fun p bits payload toggle lead sent hlead hlen hbits => ⟨fun he => ?distance, fun he => ?width,
      fun he rs body hpos hne hcells hbody => ?biphase⟩⟩
  case tail =>
    subst he hn hended hu
    rw [exec_frameEnd_due rfl hs hd hx, State.endFrame_last hr _ hlast]
    exact congrArg Host.Outcome.next (State.enterTail_lasting _ hr hb)
  case tailOver =>
    subst he hn hended hu
    rw [exec_frameEnd_due rfl hs hd hx, State.endFrame_last hr _ hlast]
    exact State.enterTail_eq_tailEnd _ hr hb
  case gap =>
    subst he hn hended
    rw [exec_frameEnd_due rfl hs hd hx, State.endFrame_more hr _ hstop hmore]
    rfl
  case gapEnd =>
    have ends : (s.txe.engine o).gapEnds = (start, us) := by
      cases x with
      | burst ds =>
        obtain ⟨rfl, rfl⟩ := hgap
        exact Engine.gapEnds_burst hx hr
      | frame p bits payload => exact Engine.gapEnds_frame hx hgap.1 hgap.2
    rw [exec_gapEnd_due hs ends hd, Engine.beginFrame_eq hx]
  case full =>
    subst hx
    rcases h with rfl | h
    · simp only [TxSnapshot.frameElements, if_true]
      split <;> rfl
    · simp only [TxSnapshot.frameElements, h]
  case repeats =>
    subst hx hf
    simp only [TxSnapshot.frameElements, hl]
    rfl
  case burst =>
    subst hx
    refine ⟨length_replayElements ds true, fun n d hd => ?_⟩
    simp [TxSnapshot.frameElements, getElem?_replayElements, hd]
  case distance =>
    rw [Profile.fullFrame_distance (Profile.sendingBits_eq hlen hbits) he, Profile.distanceElements_eq, hlead,
      ← List.append_assoc]
    simp only [spaceOf_ite]
    cases p.leader <;> rfl
  case width =>
    rw [Profile.fullFrame_width (Profile.sendingBits_eq hlen hbits) he, Profile.widthElements_eq, hlead]
    simp only [markOf_ite]
    cases p.leader <;> rfl
  case biphase =>
    have sending := Profile.sendingBits_eq hlen hbits
    have cells : runLevels rs = cellLevels sent := hcells.trans (cellLevels_eq sent).symm
    have ends : body = dropFinalRest (rs.map (runElement p.unit1)) :=
      hbody.trans (dropFinalRest_runs hpos cells p.unit1).symm
    refine ⟨fun h1 => ?one, fun h0 => ⟨fun hl => ?leaderless, fun l hl => ?joined⟩⟩
    case one =>
      rw [Profile.fullFrame_first_one sending he hpos hne cells h1, ← ends, hlead]
      cases p.leader <;> rfl
    case leaderless =>
      refine ⟨?_, by rw [Profile.fullFrame_leaderless sending he hpos hne cells hl, ends]⟩
      obtain ⟨r, rest, hrs⟩ := runs_of_first_zero hpos cells h0
      rw [ends, hrs]
      simp [dropFinalRest, runElement]
    case joined =>
      obtain ⟨r, rest, hrs⟩ := runs_of_first_zero hpos cells h0
      rw [Profile.fullFrame_joined sending he hpos hne cells hl hrs, ends, hrs]
      rfl

end Sys2Proof.Machine
end


section
/-! The command unit's own part of a command: the opcode write (R198, R202), the check of what the command names (R199), and the
completion with its outcome (R200, R201, R203). -/

namespace Sys2Proof.Machine

/-! ## The opcode write (R198, R202) -/

/-- The command in flight that an accepted opcode write begins. -/
def Bcu.accepted (b : Bcu) (opcode : Byte) : InFlight where
  cmd := Cmd.ofOpcode opcode
  args := b.args
  staging := (Cmd.ofOpcode opcode).elim .absent b.stagingFor
  parts := (Cmd.ofOpcode opcode).elim [] (commandParts · b.args)
  error := none
  result := 0
  copy := .absent

/-- An opcode write is accepted unless a command is BUSY. -/
theorem Bcu.writeOpcode_accepted {b : Bcu} (opcode : Byte) (h : b.cmdState ≠ .busy) : b.writeOpcode opcode = { b with
    opcode := opcode, collision := false, cmdDone := false, error := 0, result := 0, cmdState := .busy
    inFlight := some (b.accepted opcode) } := by
  unfold Bcu.writeOpcode Bcu.accepted
  rw [if_neg h]
  cases Cmd.ofOpcode opcode <;> rfl

section Accepted

variable {b : Bcu} {opcode : Byte} {cmd : Cmd} (h : Cmd.ofOpcode opcode = some cmd)
include h

theorem Bcu.staging_accepted : (b.accepted opcode).staging = b.stagingFor cmd := by
  simp [Bcu.accepted, h]

theorem Bcu.parts_accepted : (b.accepted opcode).parts = commandParts cmd b.args := by
  simp [Bcu.accepted, h]

end Accepted

/-- The write of an opcode's byte, whatever the opcode's row, is taken by the command unit. -/
theorem exec_opcodeWrite {opcode : Byte} {i : Instr} (h : i = .undefinedOpcode (.write opcode) ∨ (opcode, i) ∈
      [(0x01#8, Instr.channelSet .write), (0x02#8, .channelGet .write), (0x03#8, .channelEnable .write),
       (0x04#8, .channelDisable .write), (0x05#8, .channelFlush .write), (0x06#8, .countersClear .write),
       (0x07#8, .profileCommit .write), (0x08#8, .profileRead .write), (0x09#8, .profileClear .write),
       (0x0A#8, .entryCommit .write), (0x0B#8, .entryRead .write), (0x0C#8, .entryClear .write),
       (0x0D#8, .tableClear .write), (0x0E#8, .burstRelease .write), (0x0F#8, .learnStart .write),
       (0x10#8, .learnAbort .write), (0x11#8, .learnCommit .write), (0x12#8, .learnDiscard .write),
       (0x13#8, .txSubmit .write), (0x14#8, .txStop .write), (0x15#8, .txAbort .write), (0x16#8, .runReset)]) (s : State) :
    exec i s = .next (s.setBcu (s.bcu.writeOpcode opcode)) := by
  rcases h with rfl | h
  · rfl
  · generalize hrow : (opcode, i) = row at h
    fin_cases h <;> cases hrow <;> rfl

/-- A number's opcode byte names the command of the table (R200). -/
theorem Cmd.ofOpcode_of_toNat {b : Byte} {n : Nat} (h : b.toNat = n) : Cmd.ofOpcode b = Cmd.ofOpcode (BitVec.ofNat 8 n) := by
  rw [← h, BitVec.ofNat_toNat, BitVec.setWidth_eq]

/-- The parts of an accepted command whose opcode is among the given numbers. -/
theorem Bcu.parts_of_mem {b : Bcu} {opcode : Byte} {numbers : List Nat} {parts : List Part} (h : opcode.toNat ∈ numbers)
    (hp : ∀ n ∈ numbers, ∃ cmd, Cmd.ofOpcode (BitVec.ofNat 8 n) = some cmd ∧ commandParts cmd b.args = parts) :
    (b.accepted opcode).parts = parts := by
  obtain ⟨cmd, hcmd, rfl⟩ := hp _ h
  exact Bcu.parts_accepted ((Cmd.ofOpcode_of_toNat rfl).trans hcmd)

/-- Settles O40, by whether a command is BUSY; the parts by the table of the commands. -/
theorem opcodeWriteIsTakenOrCollides : Obligations.OpcodeWriteIsTakenOrCollides := by
  unfold Obligations.OpcodeWriteIsTakenOrCollides
  intro s opcode i hi
  rw [exec_opcodeWrite hi]
  refine ⟨fun h => by rw [Bcu.writeOpcode_busy opcode h], fun h => ⟨s.bcu.accepted opcode,
    by rw [Bcu.writeOpcode_accepted opcode h], rfl, rfl, rfl, ?set, ?profile, ?entry, ?transmit, fun c hc => ?channel,
    fun h => Bcu.parts_of_mem h ?sdc, fun h => Bcu.parts_of_mem h ?mu, fun h => ?pst, fun h => Bcu.parts_of_mem h ?txe,
    fun h => ?reset⟩⟩
  case set => rintro rfl; rfl
  case profile => rintro rfl; rfl
  case entry => rintro (rfl | rfl) <;> rfl
  case transmit => rintro rfl; rfl
  case channel =>
    have named : channelOf s.bcu.args.arg0 = some c := channelOf_eq_some hc
    refine ⟨fun h => Bcu.parts_of_mem h ?unit, fun h => Bcu.parts_of_mem h ?purge,
      fun h => Bcu.parts_of_mem (List.mem_singleton.mpr h) ?clear⟩
    all_goals
      intro n hn
      fin_cases hn <;> exact ⟨_, rfl, by simp [commandParts, named]⟩
  case pst => exact Bcu.parts_of_mem (List.mem_singleton.mpr h) (by simp [Cmd.ofOpcode, commandParts])
  case reset => exact Bcu.parts_of_mem (List.mem_singleton.mpr h) (by simp [Cmd.ofOpcode, commandParts])
  all_goals
    intro n hn
    fin_cases hn <;> exact ⟨_, rfl, rfl⟩

/-! ## The check of what a command names (R199) -/

theorem channelOf_eq_none {b : Byte} (h : 4 ≤ b.toNat) : channelOf b = none := dite_fin_eq_none_iff.mpr h

theorem profileOf_eq_none {b : Byte} (h : 8 ≤ b.toNat) : profileOf b = none := dite_fin_eq_none_iff.mpr h

theorem entryOf_eq_none {b : Byte} (h : 128 ≤ b.toNat) : entryOf b = none := dite_fin_eq_none_iff.mpr h

theorem handleOf_eq_none {b : Byte} (h : 16 ≤ b.toNat) : handleOf b = none := dite_fin_eq_none_iff.mpr h

theorem outputOf_eq_none {b : Byte} (h : 2 ≤ b.toNat) : outputOf b = none := dite_fin_eq_none_iff.mpr h

/-- The byte 0 and the bytes above 16h name no command. -/
theorem Cmd.ofOpcode_eq_none_iff (b : Byte) : Cmd.ofOpcode b = none ↔ b.toNat = 0 ∨ 0x16 < b.toNat := by
  unfold Cmd.ofOpcode
  split <;> grind

/-- The event takes a part of the command: its effect on any machine is that of the command in flight. -/
def takesPartOf (i : Instr) (cmd : Cmd) : Prop := ∀ s, ∃ owner, exec i s = .next (s.takeCommand cmd owner)

/-- A command whose arguments name nothing inside the part completes in the event that would take its part. -/
theorem exec_of_unnamed {s : State} {f : InFlight} {i : Instr} {cmd : Cmd} (hf : s.bcu.inFlight = some f)
    (hcmd : f.cmd = some cmd) (hi : takesPartOf i cmd) (ha : argumentsNameParts cmd f.args = false) :
    exec i s = .next (s.setBcu (s.bcu.complete (some .badArg) 0 .absent)) := by
  obtain ⟨owner, h⟩ := hi s
  have refused : f.refusal = some .badArg := by simp [InFlight.refusal, hcmd, ha]
  have taken : s.inFlightAs cmd = some f := by simp [State.inFlightAs, hf, Option.filter, hcmd]
  rw [h]
  simp only [State.takeCommand, taken, refused]

/-- What holds of every row of a table holds of the event and the command of one. -/
theorem row_refused {rows : List (Instr × Cmd)} {a : Args} {i : Instr} {cmd : Cmd} (hi : (i, cmd) ∈ rows)
    (takes : ∀ row ∈ rows, takesPartOf row.1 row.2) (unnamed : ∀ row ∈ rows, argumentsNameParts row.2 a = false) :
    takesPartOf i cmd ∧ argumentsNameParts cmd a = false := ⟨takes _ hi, unnamed _ hi⟩

/-- Settles O41: the check of the opcode, and of the arguments by the number that the command takes them for. -/
theorem refusedByTheCommandUnit : Obligations.RefusedByTheCommandUnit := by
  unfold Obligations.RefusedByTheCommandUnit
  refine ⟨⟨Cmd.ofOpcode_eq_none_iff, fun s f hf hcmd => ?opcode⟩, fun s f i cmd hf hcmd h => ?argument⟩
  case opcode =>
    change execUndefinedOpcode .check s = _
    simp only [execUndefinedOpcode, hf, hcmd]
    rfl
  case argument =>
    suffices h : takesPartOf i cmd ∧ argumentsNameParts cmd f.args = false from
      (exec_of_unnamed hf hcmd h.1 h.2).trans rfl
    rcases h with ⟨hn, hi⟩ | ⟨hn, hi⟩ | ⟨hn, hi⟩ | ⟨hn, rfl, rfl⟩ | ⟨hn, hi⟩ | ⟨hn, rfl, rfl⟩
    · exact row_refused hi (fun row h => by fin_cases h <;> exact fun s => ⟨_, rfl⟩) (by simp [argumentsNameParts, channelOf_eq_none hn])
    · exact row_refused hi (fun row h => by fin_cases h <;> exact fun s => ⟨_, rfl⟩) (by simp [argumentsNameParts, profileOf_eq_none hn])
    · exact row_refused hi (fun row h => by fin_cases h <;> exact fun s => ⟨_, rfl⟩) (by simp [argumentsNameParts, entryOf_eq_none hn])
    · exact ⟨fun s => ⟨_, rfl⟩, by simp [argumentsNameParts, handleOf_eq_none hn]⟩
    · exact row_refused hi (fun row h => by fin_cases h <;> exact fun s => ⟨_, rfl⟩) (by simp [argumentsNameParts, outputOf_eq_none hn])
    · exact ⟨fun s => ⟨_, rfl⟩, by simp [argumentsNameParts, Nat.not_le.mpr hn]⟩

end Sys2Proof.Machine
end


section
/-! The outcome of a command (R200, R201, R203): the answers of its owners, the completion, and the commands that read
settings, a profile or an entry. -/

namespace Sys2Proof.Machine

/-! ## An owner's answer (R200) -/

theorem State.answerPart_none {s : State} (h : s.bcu.inFlight = none) (p : Part) (a : PartAnswer) :
    s.answerPart p a = s := by
  simp [State.answerPart, Bcu.answerPart, h]

theorem State.answerPart_some {s : State} {f : InFlight} (h : s.bcu.inFlight = some f) (p : Part) (a : PartAnswer) :
    s.answerPart p a = s.setBcu { s.bcu with inFlight := some { f with
      parts := f.parts.erase p, error := f.error.or a.error, result := a.result, copy := a.copy } } := by
  rw [State.answerPart, Bcu.answerPart_some p a h]

/-! ## The completion (R200, R203) -/

section Completion

variable {s : State} {f : InFlight} (hf : s.bcu.inFlight = some f) (hr : f.refusal = none) (hp : f.parts = [])
include hf hr hp

theorem exec_commandCompletion_due :
    exec .commandCompletion s = .next (s.setBcu (s.bcu.complete f.error f.result f.copy)) := by
  change execCommandCompletion s = _
  simp only [execCommandCompletion, hf]
  exact if_pos ⟨hr, hp⟩

/-- A refused command leaves its code, and no copy. -/
theorem exec_commandCompletion_error {e : CmdError} (he : f.error = some e) (hc : f.copy = .absent) :
    exec .commandCompletion s = .next (s.setBcu { s.bcu with
      cmdState := .error, error := e.code, result := 0, cmdDone := true, inFlight := none }) := by
  rw [exec_commandCompletion_due hf hr hp, he, hc]
  rfl

/-- A command that no owner refused is DONE; its copy has landed. -/
theorem exec_commandCompletion_done (he : f.error = none) :
    exec .commandCompletion s = .next (s.setBcu { s.bcu.landCopy f.copy with
      cmdState := .done, error := 0, result := f.result, cmdDone := true, inFlight := none }) := by
  rw [exec_commandCompletion_due hf hr hp, he]
  rfl

end Completion

/-! ## The commands that read (R201) -/

section Reads

variable {s : State} {f : InFlight} (hf : s.bcu.inFlight = some f)
include hf

theorem exec_channelGet_due {c : Channel} (hcmd : f.cmd = some .channelGet) (hc : f.args.arg0.toNat = c.val)
    (hp : .lcu c ∈ f.parts) (hw : (s.lcu c).waiting = none) :
    exec (.channelGet .take) s =
      .next (s.answerPart (.lcu c) { copy := .channel (settingsBytes (s.lcu c).settings) }) :=
  congrArg Host.Outcome.next (State.takeCommand_lcuPart _ hf hcmd
    (by simp [argumentsNameParts, channelOf_eq_some hc]) (channelOf_eq_some hc) hp hw)

theorem exec_profileRead_due {p : ProfileNo} (hcmd : f.cmd = some .profileRead) (hi : f.args.arg0.toNat = p.val)
    (hp : .sdc ∈ f.parts) :
    exec (.profileRead .take) s =
      .next (s.answerPart .sdc { copy := .profile (profileBytes (s.sdc.profile p)) }) := by
  have named := profileOf_eq_some hi
  refine congrArg Host.Outcome.next ?_
  rw [State.takeCommand_owner _ hf hcmd (by simp [argumentsNameParts, named])]
  simp only [named]
  exact State.ownerPart_due _ hp

theorem exec_entryRead_due {i : EntryNo} (hcmd : f.cmd = some .entryRead) (hi : f.args.arg0.toNat = i.val)
    (hp : .mu ∈ f.parts) (hready : s.matchReady = true) :
    exec (.entryRead .take) s =
      .next (s.answerPart .mu { copy := .entry (entryBytes (s.mu.entry i)) }) := by
  have named := entryOf_eq_some hi
  refine congrArg Host.Outcome.next ?_
  rw [State.takeCommand_owner _ hf hcmd (by simp [argumentsNameParts, named])]
  simp only [named]
  exact State.matchPart_due _ hp hready

end Reads

/-- Settles O42, by the command in flight, its error and its copy. -/
theorem completionStoresTheOutcome : Obligations.CompletionStoresTheOutcome := by
  unfold Obligations.CompletionStoresTheOutcome
  refine ⟨fun s p a => ⟨fun h => State.answerPart_none h p a, fun f g hf hg => ?answer⟩,
    fun s f hf hr hp => ⟨fun e he hc code hcode => ?error, fun he => ?done⟩,
    fun s f hf => ⟨fun c hcmd hc hp hw => exec_channelGet_due hf hcmd hc hp hw,
      fun p hcmd hi hp => exec_profileRead_due hf hcmd hi hp,
      fun i hcmd hi hp ha hm => exec_entryRead_due hf hcmd hi hp (s.matchReady_iff.mpr ⟨ha, hm⟩)⟩⟩
  case answer =>
    rw [State.answerPart_some hf, hg]
    cases f.error <;> rfl
  case error =>
    have spelled : code = e.code := by
      rw [hcode]
      cases e <;> rfl
    rw [spelled, exec_commandCompletion_error hf hr hp he hc]
  case done =>
    rw [exec_commandCompletion_done hf hr hp he]
    refine ⟨fun hc => ?_, fun r hc => ?_, fun r hc => ?_, fun r hc => ?_⟩ <;> rw [hc] <;> rfl

end Sys2Proof.Machine
end

section
/-! CHANNEL_SET: the checks in their order, and the settings with the pending change that they may accept (R4). -/

namespace Sys2Proof.Machine

/-! ## The checks (R4) -/

/-- The ranges of the channel settings (R3, R4). -/
def Settings.InRange (x : Settings) : Prop :=
  1000 ≤ x.endGap.toNat ∧ 3 ≤ x.elementLimit.toNat ∧ x.elementLimit.toNat % 2 = 1 ∧ x.stuckLimit.toNat ≤ 60
    ∧ 8 ≤ x.holdWindow.toNat ∧ x.holdWindow.toNat ≤ 1020 ∧ x.holdWindow.toNat % 4 = 0
    ∧ (x.retainUndecoded = true → x.reportUndecoded = true)

theorem settingsInRange_iff (x : Settings) : settingsInRange x = true ↔ x.InRange := by
  have kept : (!x.retainUndecoded || x.reportUndecoded) = true ↔ (x.retainUndecoded = true → x.reportUndecoded = true) := by
    cases x.retainUndecoded <;> simp
  simp only [settingsInRange, Bool.and_eq_true, decide_eq_true_iff, beq_iff_eq, kept, Settings.InRange, and_assoc]

theorem profileSetValid_iff (d : Decoder) (set : Byte) : profileSetValid d.profiles set = true ↔
    ∀ p : ProfileNo, set.getLsbD p.val = true → (d.profile p).valid = true := by
  simp only [profileSetValid, List.all_eq_true, List.mem_finRange, true_implies, Bool.or_eq_true, Bool.not_eq_true',
    Decoder.profile]
  refine forall_congr' fun p => ?_
  cases set.getLsbD p.val <;> simp

section Checks

variable {l : Lcu} {x : Settings} {d : Decoder}

theorem Lcu.checkSettings_enabled (h : l.capture ≠ .disabled) :
    l.checkSettings x d.profiles = some .channelNotDisabled := if_pos h

theorem Lcu.checkSettings_disabled (h : l.capture = .disabled) : l.checkSettings x d.profiles =
    if !settingsInRange x then some .badArg
    else if !profileSetValid d.profiles x.profileSet then some .profileEmpty
    else none := if_neg (not_not.mpr h)

theorem Lcu.checkSettings_outOfRange (h : l.capture = .disabled) (hr : ¬ x.InRange) :
    l.checkSettings x d.profiles = some .badArg := by
  rw [← settingsInRange_iff, Bool.not_eq_true] at hr
  rw [Lcu.checkSettings_disabled h, hr]
  rfl

theorem Lcu.checkSettings_inRange (h : l.capture = .disabled) (hr : x.InRange) : l.checkSettings x d.profiles =
    if !profileSetValid d.profiles x.profileSet then some .profileEmpty else none := by
  rw [Lcu.checkSettings_disabled h, (settingsInRange_iff x).mpr hr]
  rfl

theorem Lcu.checkSettings_emptyProfile (h : l.capture = .disabled) (hr : x.InRange)
    (hp : ∃ p : ProfileNo, x.profileSet.getLsbD p.val = true ∧ (d.profile p).valid = false) :
    l.checkSettings x d.profiles = some .profileEmpty := by
  have invalid : profileSetValid d.profiles x.profileSet = false := by
    obtain ⟨p, hp, hv⟩ := hp
    rw [← Bool.not_eq_true, profileSetValid_iff]
    exact fun all => absurd (all p hp) (by simp [hv])
  rw [Lcu.checkSettings_inRange h hr, invalid]
  rfl

theorem Lcu.checkSettings_passed (h : l.capture = .disabled) (hr : x.InRange)
    (hp : ∀ p : ProfileNo, x.profileSet.getLsbD p.val = true → (d.profile p).valid = true) :
    l.checkSettings x d.profiles = none := by
  rw [Lcu.checkSettings_inRange h hr, (profileSetValid_iff d x.profileSet).mpr hp]
  rfl

end Checks

/-! ## The new settings (R4, R6) -/

section Apply

variable {l : Lcu} {x : Settings} {now : Time}

theorem Lcu.applySettings_kept (h : ∀ edge, l.change = some edge → l.persistedFor edge now < x.glitchMin.toNat) :
    l.applySettings x now = { l with settings := x }.settle := by
  unfold Lcu.applySettings
  cases hc : l.change with
  | none => rfl
  | some edge => exact if_neg (Nat.not_le.mpr (h edge hc))

theorem Lcu.applySettings_accepted {edge : Time} (hc : l.change = some edge)
    (h : x.glitchMin.toNat ≤ l.persistedFor edge now) :
    l.applySettings x now = { l with settings := x, level := !l.level, change := none }.settle := by
  simp only [Lcu.applySettings, hc]
  exact if_pos h

end Apply

/-! ## The event -/

section Due

variable {s : State} {f : InFlight} {c : Channel} {r : Vector Byte 10} (hf : s.bcu.inFlight = some f)
  (hcmd : f.cmd = some .channelSet) (hc : f.args.arg0.toNat = c.val) (hp : .lcu c ∈ f.parts)
  (hw : (s.lcu c).waiting = none) (hst : f.staging = .channel r)
include hf hcmd hc hp hw hst

theorem exec_channelSet_refused {e : CmdError} (h : (s.lcu c).checkSettings (settingsOfBytes r) s.sdc.profiles = some e) :
    exec (.channelSet .take) s = .next (s.answerPart (.lcu c) { error := some e }) := by
  have named := channelOf_eq_some hc
  refine congrArg Host.Outcome.next ?_
  rw [State.takeCommand_lcuPart _ hf hcmd (by simp [argumentsNameParts, named]) named hp hw]
  simp only [hst, h]

theorem exec_channelSet_passed (h : (s.lcu c).checkSettings (settingsOfBytes r) s.sdc.profiles = none) :
    exec (.channelSet .take) s =
      .next ((s.setLcu c ((s.lcu c).applySettings (settingsOfBytes r) s.now)).answerPart (.lcu c) {}) := by
  have named := channelOf_eq_some hc
  refine congrArg Host.Outcome.next ?_
  rw [State.takeCommand_lcuPart _ hf hcmd (by simp [argumentsNameParts, named]) named hp hw]
  simp only [hst, h]

end Due

/-- Settles O43, by the first check that fails; the settings by whether a pending change has persisted. -/
theorem channelSetChecksAndReplaces : Obligations.ChannelSetChecksAndReplaces := by
  unfold Obligations.ChannelSetChecksAndReplaces
  intro s f c r x inRange hf hcmd hc hp hw hst hx hrange
  have range : inRange ↔ x.InRange := hrange
  subst hx
  refine ⟨fun h => ?enabled, fun h hr => ?range, fun h hr he => ?empty, fun h hr hv persisted hpers => ?passed, ?settled⟩
  case enabled => exact exec_channelSet_refused hf hcmd hc hp hw hst (Lcu.checkSettings_enabled h)
  case range =>
    rw [range] at hr
    exact exec_channelSet_refused hf hcmd hc hp hw hst (Lcu.checkSettings_outOfRange h hr)
  case empty =>
    exact exec_channelSet_refused hf hcmd hc hp hw hst (Lcu.checkSettings_emptyProfile h (range.mp hr) he)
  case passed =>
    have since : persisted = fun edge => (s.lcu c).persistedFor edge s.now := funext fun edge => by
      rw [hpers, Lcu.persistedFor]
      cases (s.lcu c).samples <;> rfl
    subst since
    rw [exec_channelSet_passed hf hcmd hc hp hw hst (Lcu.checkSettings_passed h (range.mp hr) hv)]
    exact ⟨fun short => by rw [Lcu.applySettings_kept short],
      fun edge hchange long => by rw [Lcu.applySettings_accepted hchange long]⟩
  case settled =>
    rintro ⟨⟩ rfl
    rfl

end Sys2Proof.Machine
end


section
/-! The staging records, as a command reads them and as a copy writes them (R194). -/

namespace Sys2Proof.Machine

/-! ## Words, codes and flags as bytes (00_scope.md, R194) -/

@[simp] theorem half_byteOf (w : Half) : half (byteOf w 0) (byteOf w 1) = w := halfBytes_append w

/-- A payload is its eight bytes, the low one first. -/
@[simp] theorem payloadOf_byteOf (x : Payload) : payloadOf (byteOf x 0) (byteOf x 1) (byteOf x 2) (byteOf x 3) (byteOf x 4)
    (byteOf x 5) (byteOf x 6) (byteOf x 7) = x := by
  refine BitVec.eq_of_getElem_eq fun i hi => ?_
  unfold payloadOf byteOf
  grind

@[simp] theorem encodingOf_encodingByte (e : Encoding) : encodingOf (encodingByte e) = some e := by
  cases e <;> rfl

@[simp] theorem bitOrderOf_bitOrderByte (o : BitOrder) : bitOrderOf (bitOrderByte o) = some o := by
  cases o <;> rfl

@[simp] theorem eventModeOf_eventModeByte (m : EventMode) : eventModeOf (eventModeByte m) = some m := by
  cases m <;> rfl

theorem eq_encodingByte {b : Byte} {e : Encoding} (h : encodingOf b = some e) : b = encodingByte e := by
  unfold encodingOf at h
  split at h <;> cases h <;> exact BitVec.eq_of_toNat_eq ‹_›

theorem eq_bitOrderByte {b : Byte} {o : BitOrder} (h : bitOrderOf b = some o) : b = bitOrderByte o := by
  unfold bitOrderOf at h
  split at h <;> cases h <;> exact BitVec.eq_of_toNat_eq ‹_›

theorem eq_eventModeByte {b : Byte} {m : EventMode} (h : eventModeOf b = some m) : b = eventModeByte m := by
  unfold eventModeOf at h
  split at h <;> cases h <;> exact BitVec.eq_of_toNat_eq ‹_›

/-- Four flags in one byte are its four low bits. -/
theorem natByte_flags (a b c d : Bool) :
    natByte (a.toNat + 2 * b.toNat + 4 * c.toNat + 8 * d.toNat) =
        (if a then 1 else 0) + (if b then 2 else 0) + (if c then 4 else 0) + (if d then 8 else 0)
      ∧ (natByte (a.toNat + 2 * b.toNat + 4 * c.toNat + 8 * d.toNat)).getLsbD 0 = a
      ∧ (natByte (a.toNat + 2 * b.toNat + 4 * c.toNat + 8 * d.toNat)).getLsbD 1 = b
      ∧ (natByte (a.toNat + 2 * b.toNat + 4 * c.toNat + 8 * d.toNat)).getLsbD 2 = c
      ∧ (natByte (a.toNat + 2 * b.toNat + 4 * c.toNat + 8 * d.toNat)).getLsbD 3 = d := by
  revert a b c d
  decide

/-- Three presence flags in one byte are its three low bits. -/
theorem natByte_presence (a b c : Bool) :
    natByte (a.toNat + 2 * b.toNat + 4 * c.toNat) =
        (if a then 1 else 0) + (if b then 2 else 0) + (if c then 4 else 0)
      ∧ (natByte (a.toNat + 2 * b.toNat + 4 * c.toNat)).getLsbD 0 = a
      ∧ (natByte (a.toNat + 2 * b.toNat + 4 * c.toNat)).getLsbD 1 = b
      ∧ (natByte (a.toNat + 2 * b.toNat + 4 * c.toNat)).getLsbD 2 = c := by
  revert a b c
  decide

/-! ## The channel record -/

theorem settingsBytes_eq (x : Settings) : settingsBytes x =
    #v[if x.polarity = .activeHigh then 1 else 0, x.glitchMin, x.endGap.extractLsb' 0 8, x.endGap.extractLsb' 8 8,
       x.elementLimit, x.stuckLimit, x.profileSet, x.holdWindow.extractLsb' 0 8, x.holdWindow.extractLsb' 8 8,
       (if x.reportUnknown then 1 else 0) + (if x.reportUndecoded then 2 else 0) + (if x.retainUndecoded then 4 else 0)
         + if x.reportStuck then 8 else 0] := by
  have flags := (natByte_flags x.reportUnknown x.reportUndecoded x.retainUndecoded x.reportStuck).1
  unfold settingsBytes settingsFlags
  rw [flags]
  cases x.polarity <;> rfl

theorem settingsOfBytes_settingsBytes (x : Settings) : settingsOfBytes (settingsBytes x) = x := by
  obtain ⟨_, unknown, undecoded, retain, stuck⟩ :=
    natByte_flags x.reportUnknown x.reportUndecoded x.retainUndecoded x.reportStuck
  have polarity : (if (settingsBytes x)[0].getLsbD 0 then Polarity.activeHigh else .activeLow) = x.polarity := by
    cases hp : x.polarity <;> simp [settingsBytes, hp]
  calc settingsOfBytes (settingsBytes x)
    _ = { polarity := if (settingsBytes x)[0].getLsbD 0 then .activeHigh else .activeLow
          glitchMin := x.glitchMin, endGap := half (byteOf x.endGap 0) (byteOf x.endGap 1)
          elementLimit := x.elementLimit, stuckLimit := x.stuckLimit, profileSet := x.profileSet
          holdWindow := half (byteOf x.holdWindow 0) (byteOf x.holdWindow 1)
          reportUnknown := (settingsFlags x).getLsbD 0, reportUndecoded := (settingsFlags x).getLsbD 1
          retainUndecoded := (settingsFlags x).getLsbD 2, reportStuck := (settingsFlags x).getLsbD 3 } := rfl
    _ = x := by
      rw [polarity, half_byteOf, half_byteOf, settingsFlags, unknown, undecoded, retain, stuck]

/-! ## The profile record -/

/-- A leader that may be absent, as the record holds it. -/
theorem leaderWord_eq (l : Option MarkSpace) :
    leaderWord l true = (l.getD ⟨0, 0⟩).mark ∧ leaderWord l false = (l.getD ⟨0, 0⟩).space := by
  cases l <;> exact ⟨rfl, rfl⟩

theorem profileBytes_eq (p : Profile) {leader repeats : MarkSpace} (hl : leader = p.leader.getD ⟨0, 0⟩)
    (hr : repeats = p.repeatLeader.getD ⟨0, 0⟩) : profileBytes p =
      #v[if p.valid then 1 else 0, encodingByte p.encoding, BitVec.ofNat 8 p.tolerance,
         (if p.leader.isSome then 1 else 0) + (if p.repeatLeader.isSome then 2 else 0) + (if p.toggle.isSome then 4 else 0),
         leader.mark.extractLsb' 0 8, leader.mark.extractLsb' 8 8, leader.space.extractLsb' 0 8, leader.space.extractLsb' 8 8,
         repeats.mark.extractLsb' 0 8, repeats.mark.extractLsb' 8 8,
         repeats.space.extractLsb' 0 8, repeats.space.extractLsb' 8 8,
         p.unit1.extractLsb' 0 8, p.unit1.extractLsb' 8 8, p.unit2.extractLsb' 0 8, p.unit2.extractLsb' 8 8,
         p.unit3.extractLsb' 0 8, p.unit3.extractLsb' 8 8, BitVec.ofNat 8 p.minBits, BitVec.ofNat 8 p.maxBits,
         bitOrderByte p.order, BitVec.ofNat 8 (p.toggle.getD 0), BitVec.ofNat 8 p.period] := by
  have flags := (natByte_presence p.leader.isSome p.repeatLeader.isSome p.toggle.isSome).1
  obtain ⟨leaderMark, leaderSpace⟩ := leaderWord_eq p.leader
  obtain ⟨repeatMark, repeatSpace⟩ := leaderWord_eq p.repeatLeader
  subst hl hr
  rw [← leaderMark, ← leaderSpace, ← repeatMark, ← repeatSpace, ← flags]
  rfl

/-- What the profile record spells, where its codes name an encoding and a bit order. -/
def spelledProfile (r : Vector Byte 23) (encoding : Encoding) (order : BitOrder) : Profile where
  valid := true
  encoding := encoding
  tolerance := r[2].toNat
  leader := if r[3].getLsbD 0 then some ⟨half r[4] r[5], half r[6] r[7]⟩ else none
  repeatLeader := if r[3].getLsbD 1 then some ⟨half r[8] r[9], half r[10] r[11]⟩ else none
  unit1 := half r[12] r[13]
  unit2 := if encoding == .biphase then 0 else half r[14] r[15]
  unit3 := if encoding == .biphase then 0 else half r[16] r[17]
  minBits := r[18].toNat
  maxBits := r[19].toNat
  order := order
  toggle := if r[3].getLsbD 2 then some r[21].toNat else none
  period := r[22].toNat

/-- The field checks of a profile record (R51). -/
def Profile.fieldCheck (p : Profile) : Bool :=
  decide (1 ≤ p.tolerance) && decide (p.tolerance ≤ 12)
    && decide (1 ≤ p.minBits) && decide (p.minBits ≤ 64) && decide (1 ≤ p.maxBits) && decide (p.maxBits ≤ 64)
    && decide (p.minBits ≤ p.maxBits)
    && !(p.repeatLeader.isSome && p.encoding == .biphase)
    && p.toggle.all (fun t => decide (t < p.minBits))

/-- The record that passes its checks makes the profile it spells. -/
theorem profileOfBytes_eq_some_iff (r : Vector Byte 23) (p : Profile) : profileOfBytes r = some p ↔
    encodingOf r[1] = some p.encoding ∧ bitOrderOf r[20] = some p.order ∧ p = spelledProfile r p.encoding p.order
      ∧ p.fieldCheck = true := by
  have spelled : profileOfBytes r = (match encodingOf r[1], bitOrderOf r[20] with
      | some encoding, some order =>
        if (spelledProfile r encoding order).fieldCheck then some (spelledProfile r encoding order) else none
      | _, _ => none) := rfl
  rw [spelled]
  constructor
  · intro h
    split at h
    · next encoding order he ho =>
      obtain ⟨check, hp⟩ := Option.ite_none_right_eq_some.mp h
      cases hp
      exact ⟨he, ho, rfl, check⟩
    · cases h
  · rintro ⟨he, ho, hp, check⟩
    rw [he, ho]
    simp only [← hp, check, if_true]

/-- A leader is what its words and its presence flag spell. -/
theorem leader_of_words (l : Option MarkSpace) :
    (if l.isSome then some (MarkSpace.mk (leaderWord l true) (leaderWord l false)) else none) = l := by
  cases l <;> rfl

/-- A number that may be absent is what its byte and its presence flag spell. -/
theorem number_of_byte {o : Option Nat} (h : ∀ t, o = some t → t < 256) :
    (if o.isSome then some (natByte (o.getD 0)).toNat else none) = o := by
  cases o with
  | none => rfl
  | some t => simp [toNat_natByte_of_lt (h t rfl)]

theorem ite_zero_eq_self {c : Bool} {x : Half} (h : c = true → x = 0) : (if c then 0 else x) = x := by
  cases c with
  | false => rfl
  | true => exact (h rfl).symm

/-- A profile that passes the field checks, spelled by its record. -/
theorem profileOfBytes_profileBytes {p : Profile} (hv : p.valid = true) (hc : p.fieldCheck = true) (hperiod : p.period < 256)
    (hb : p.encoding = .biphase → p.unit2 = 0 ∧ p.unit3 = 0) : profileOfBytes (profileBytes p) = some p := by
  obtain ⟨_, leaderFlag, repeatFlag, toggleFlag⟩ :=
    natByte_presence p.leader.isSome p.repeatLeader.isSome p.toggle.isSome
  have bounds := hc
  simp only [Profile.fieldCheck, Bool.and_eq_true, decide_eq_true_iff, Option.all_eq_true] at bounds
  obtain ⟨⟨⟨⟨⟨⟨⟨⟨_, tolerance⟩, _⟩, minBits⟩, _⟩, maxBits⟩, _⟩, _⟩, toggle⟩ := bounds
  refine (profileOfBytes_eq_some_iff _ p).mpr ⟨encodingOf_encodingByte _, bitOrderOf_bitOrderByte _, ?_, hc⟩
  have small : ∀ t, p.toggle = some t → t < 256 := fun t ht => by have := toggle t ht; omega
  have unit2 := ite_zero_eq_self fun h => (hb (beq_iff_eq.mp h)).1
  have unit3 := ite_zero_eq_self fun h => (hb (beq_iff_eq.mp h)).2
  symm
  calc spelledProfile (profileBytes p) p.encoding p.order
    _ = { p with
          valid := true, tolerance := (natByte p.tolerance).toNat
          leader := if (natByte (p.leader.isSome.toNat + 2 * p.repeatLeader.isSome.toNat
              + 4 * p.toggle.isSome.toNat)).getLsbD 0 then
            some ⟨half (byteOf (leaderWord p.leader true) 0) (byteOf (leaderWord p.leader true) 1),
              half (byteOf (leaderWord p.leader false) 0) (byteOf (leaderWord p.leader false) 1)⟩ else none
          repeatLeader := if (natByte (p.leader.isSome.toNat + 2 * p.repeatLeader.isSome.toNat
              + 4 * p.toggle.isSome.toNat)).getLsbD 1 then
            some ⟨half (byteOf (leaderWord p.repeatLeader true) 0) (byteOf (leaderWord p.repeatLeader true) 1),
              half (byteOf (leaderWord p.repeatLeader false) 0) (byteOf (leaderWord p.repeatLeader false) 1)⟩ else none
          unit1 := half (byteOf p.unit1 0) (byteOf p.unit1 1)
          unit2 := if p.encoding == .biphase then 0 else half (byteOf p.unit2 0) (byteOf p.unit2 1)
          unit3 := if p.encoding == .biphase then 0 else half (byteOf p.unit3 0) (byteOf p.unit3 1)
          minBits := (natByte p.minBits).toNat, maxBits := (natByte p.maxBits).toNat
          toggle := if (natByte (p.leader.isSome.toNat + 2 * p.repeatLeader.isSome.toNat
              + 4 * p.toggle.isSome.toNat)).getLsbD 2 then some (natByte (p.toggle.getD 0)).toNat else none
          period := (natByte p.period).toNat } := rfl
    _ = { p with valid := true } := by
      simp only [half_byteOf, leaderFlag, repeatFlag, toggleFlag, leader_of_words, number_of_byte small, unit2, unit3,
        toNat_natByte_of_lt (Nat.lt_of_le_of_lt tolerance (by decide : 12 < 256)),
        toNat_natByte_of_lt (Nat.lt_of_le_of_lt minBits (by decide : 64 < 256)),
        toNat_natByte_of_lt (Nat.lt_of_le_of_lt maxBits (by decide : 64 < 256)), toNat_natByte_of_lt hperiod]
    _ = p := by rw [← hv]

/-! ## The entry record -/

/-- The field checks of an entry but for the profile number and the event mode (R83). -/
def EntryFields.check (x : EntryFields) : Bool :=
  decide (1 ≤ x.bits) && decide (x.bits ≤ 64) && zeroAbove x.bits x.pattern && zeroAbove x.bits x.careMask
    && x.channels != 0 && decide (x.channels.toNat < 16) && decide (x.group.toNat ≤ 15)
    && decide (1 ≤ x.confirm.toNat) && decide (x.confirm.toNat ≤ 4)

/-- The VALID entry of fields whose codes name a profile and an event mode. -/
def EntryFields.entry (x : EntryFields) (profile : ProfileNo) (mode : EventMode) : Entry where
  valid := true
  profile := profile
  bits := x.bits
  pattern := x.pattern
  careMask := x.careMask
  keyId := x.keyId
  channels := x.channels.setWidth 4
  group := x.group.toNat
  mode := mode
  confirm := x.confirm.toNat
  holdInterval := x.hold.toNat

theorem entryOfFields_eq_some_iff (x : EntryFields) (e : Entry) : entryOfFields x = some e ↔
    x.profile = e.profile.val ∧ eventModeOf x.mode = some e.mode ∧ x.check = true ∧ e = x.entry e.profile e.mode := by
  unfold entryOfFields
  constructor
  · intro h
    split at h
    · next hp =>
      split at h
      · cases h
      · next mode hm =>
        obtain ⟨check, he⟩ := Option.ite_none_right_eq_some.mp h
        cases he
        exact ⟨rfl, hm, check, rfl⟩
    · cases h
  · rintro ⟨hp, hm, check, he⟩
    rw [dif_pos (hp ▸ e.profile.isLt), hm]
    refine (if_pos check).trans (congrArg some (Eq.trans ?_ he.symm))
    simp only [EntryFields.entry, hp, Fin.eta]

/-- The channels of a byte without other bits. -/
theorem setWidth_channels {b : Byte} (h : b.toNat < 16) : (b.setWidth 4).setWidth 8 = b := by
  refine BitVec.eq_of_toNat_eq ?_
  simp only [BitVec.toNat_setWidth]
  omega

theorem entryBytes_eq (e : Entry) : entryBytes e =
    #v[if e.valid then 1 else 0, BitVec.ofNat 8 e.profile.val, BitVec.ofNat 8 e.bits,
       e.pattern.extractLsb' (8 * 0) 8, e.pattern.extractLsb' (8 * 1) 8, e.pattern.extractLsb' (8 * 2) 8,
       e.pattern.extractLsb' (8 * 3) 8, e.pattern.extractLsb' (8 * 4) 8, e.pattern.extractLsb' (8 * 5) 8,
       e.pattern.extractLsb' (8 * 6) 8, e.pattern.extractLsb' (8 * 7) 8,
       e.careMask.extractLsb' (8 * 0) 8, e.careMask.extractLsb' (8 * 1) 8, e.careMask.extractLsb' (8 * 2) 8,
       e.careMask.extractLsb' (8 * 3) 8, e.careMask.extractLsb' (8 * 4) 8, e.careMask.extractLsb' (8 * 5) 8,
       e.careMask.extractLsb' (8 * 6) 8, e.careMask.extractLsb' (8 * 7) 8,
       e.keyId, e.channels.setWidth 8, BitVec.ofNat 8 e.group, eventModeByte e.mode, BitVec.ofNat 8 e.confirm,
       BitVec.ofNat 8 e.holdInterval] := rfl

/-- The fields that an entry's record spells. -/
theorem entryFields_entryBytes (e : Entry) : entryFields (entryBytes e) =
    { profile := e.profile.val, bits := (natByte e.bits).toNat, pattern := e.pattern, careMask := e.careMask
      keyId := e.keyId, channels := e.channels.setWidth 8, group := natByte e.group, mode := eventModeByte e.mode
      confirm := natByte e.confirm, hold := natByte e.holdInterval } := by
  have profile : (natByte e.profile.val).toNat = e.profile.val := toNat_natByte_of_lt (by omega)
  calc entryFields (entryBytes e)
    _ = { profile := (natByte e.profile.val).toNat, bits := (natByte e.bits).toNat
          pattern := payloadOf (byteOf e.pattern 0) (byteOf e.pattern 1) (byteOf e.pattern 2) (byteOf e.pattern 3)
            (byteOf e.pattern 4) (byteOf e.pattern 5) (byteOf e.pattern 6) (byteOf e.pattern 7)
          careMask := payloadOf (byteOf e.careMask 0) (byteOf e.careMask 1) (byteOf e.careMask 2) (byteOf e.careMask 3)
            (byteOf e.careMask 4) (byteOf e.careMask 5) (byteOf e.careMask 6) (byteOf e.careMask 7)
          keyId := e.keyId, channels := e.channels.setWidth 8, group := natByte e.group, mode := eventModeByte e.mode
          confirm := natByte e.confirm, hold := natByte e.holdInterval } := rfl
    _ = _ := by rw [payloadOf_byteOf, payloadOf_byteOf, profile]

/-- An entry that passes the field checks, spelled by its record. -/
theorem entryOfFields_entryBytes {e : Entry} (hv : e.valid = true) (h1 : 1 ≤ e.bits) (h64 : e.bits ≤ 64)
    (hp : ∀ n, e.bits ≤ n → e.pattern.getLsbD n = false) (hm : ∀ n, e.bits ≤ n → e.careMask.getLsbD n = false)
    (hch : e.channels ≠ 0) (hg : e.group ≤ 15) (hc1 : 1 ≤ e.confirm) (hc4 : e.confirm ≤ 4) (hh : e.holdInterval < 256) :
    entryOfFields (entryFields (entryBytes e)) = some e := by
  have bits : (natByte e.bits).toNat = e.bits := toNat_natByte_of_lt (by omega)
  have group : (natByte e.group).toNat = e.group := toNat_natByte_of_lt (by omega)
  have confirm : (natByte e.confirm).toNat = e.confirm := toNat_natByte_of_lt (by omega)
  have hold : (natByte e.holdInterval).toNat = e.holdInterval := toNat_natByte_of_lt hh
  have channels : (e.channels.setWidth 8).toNat = e.channels.toNat := by
    rw [BitVec.toNat_setWidth]
    omega
  have named : (e.channels.setWidth 8 : Byte) ≠ 0 := fun h => hch (BitVec.eq_of_toNat_eq (by
    rw [← channels, h]
    rfl))
  rw [entryFields_entryBytes, entryOfFields_eq_some_iff]
  refine ⟨rfl, eventModeOf_eventModeByte _, ?check, ?entry⟩
  case check =>
    have inside : e.channels.toNat < 16 := e.channels.isLt
    simp only [EntryFields.check, bits, zeroAbove_iff.mpr hp, zeroAbove_iff.mpr hm, group, confirm, channels, named,
      Bool.and_eq_true, decide_eq_true_iff, bne_iff_ne, ne_eq, not_false_iff, and_true]
    omega
  case entry =>
    have width : (e.channels.setWidth 8).setWidth 4 = e.channels := BitVec.eq_of_toNat_eq (by
      rw [BitVec.toNat_setWidth, channels]
      omega)
    simp only [EntryFields.entry, bits, group, confirm, hold, width]
    rw [← hv]

/-! ## The three layouts -/

/-- Settles O44, record by record; the codes of the profile and of the entry are bytes of their own. -/
theorem stagingRecordsReadBack : Obligations.StagingRecordsReadBack := by
  unfold Obligations.StagingRecordsReadBack
  refine ⟨fun r => rfl, settingsBytes_eq, fun r p h => ?profileRead, fun p leader repeats hl hr => ?profileWritten,
    fun r => rfl, fun x e h => ?entryRead, fun e byte hbyte => ?entryWritten, settingsOfBytes_settingsBytes,
    fun p hv hk1 hk12 hmin hrange hmax hperiod htoggle hb => ?profileBack,
    fun e hv h1 h64 hp hm hch hg hc1 hc4 hh => entryOfFields_entryBytes hv h1 h64 hp hm hch hg hc1 hc4 hh⟩
  case profileRead =>
    obtain ⟨he, ho, hp, _⟩ := (profileOfBytes_eq_some_iff r p).mp h
    rw [eq_encodingByte he, eq_bitOrderByte ho]
    generalize p.encoding = encoding at hp he ⊢
    generalize p.order = order at hp ho ⊢
    subst hp
    cases encoding <;> exact ⟨rfl, rfl, rfl, rfl, rfl, rfl, rfl, rfl, rfl, rfl, rfl, rfl, rfl⟩
  case profileWritten =>
    rw [profileBytes_eq p hl hr]
    cases p.toggle <;> rfl
  case entryRead =>
    obtain ⟨hp, hm, check, he⟩ := (entryOfFields_eq_some_iff x e).mp h
    simp only [EntryFields.check, Bool.and_eq_true, decide_eq_true_iff] at check
    obtain ⟨⟨⟨⟨_, channels⟩, _⟩, _⟩, _⟩ := check
    rw [eq_eventModeByte hm, hp]
    generalize e.profile = profile at he ⊢
    generalize e.mode = mode at he ⊢
    subst he
    exact ⟨rfl, rfl, rfl, rfl, rfl, rfl, setWidth_channels channels, rfl, rfl, rfl, rfl⟩
  case entryWritten =>
    simp only [hbyte]
    exact entryBytes_eq e
  case profileBack =>
    refine profileOfBytes_profileBytes hv ?_ hperiod fun h => (hb h).2
    have leader : (p.repeatLeader.isSome && p.encoding == .biphase) = false := by
      by_cases h : p.encoding = .biphase
      · simp [(hb h).1]
      · simp [h]
    have toggle : p.toggle.all (fun t => decide (t < p.minBits)) = true := by
      simpa [Option.all_eq_true] using htoggle
    simp only [Profile.fieldCheck, leader, toggle, Bool.and_eq_true, decide_eq_true_iff, Bool.not_false, and_true]
    omega

end Sys2Proof.Machine
end


section
/-! The parts of channel commands at the Match Unit, and COUNTERS_CLEAR at its three owners (R22, R76, R99, R123, R125,
R138). -/

namespace Sys2Proof.Machine

/-! ## The Match Unit's part of a flush or a disable (R123, R138) -/

/-- The removal of a channel's record, told by whether there is one (R115). -/
theorem MatchUnit.eq_removeKey {m n : MatchUnit} {c : Channel} {reason : ReleaseReason} {now : Time}
    (hnone : m.key c = none → n = m)
    (hsome : ∀ r, m.key c = some r → n = { m.setKey c none with
      toQueue := if r.reported then m.toQueue.push (r.release c reason now) else m.toQueue }) :
    n = m.removeKey c reason now := by
  cases hk : m.key c with
  | none => rw [hnone hk, MatchUnit.removeKey_none hk]
  | some r => rw [hsome r hk, MatchUnit.removeKey_some hk]

/-- The removal of a record leaves the session. -/
theorem MatchUnit.learn_removeKey (m : MatchUnit) (c : Channel) (reason : ReleaseReason) (now : Time) :
    (m.removeKey c reason now).learn = m.learn := by
  rw [MatchUnit.removeKey_eq]
  rfl

section Disable

variable {m : MatchUnit} {c : Channel} (now : Time)

theorem MatchUnit.disableChannel_elsewhere (h : m.learn.active = false ∨ m.learn.channel ≠ c) :
    m.disableChannel c now = m.removeKey c .disable now := by
  refine if_neg fun learns => ?_
  rw [MatchUnit.learn_removeKey, Bool.and_eq_true, beq_iff_eq] at learns
  exact h.elim (fun idle => by simp [idle] at learns) fun other => other learns.2

/-- A running session of the channel fails. -/
theorem MatchUnit.disableChannel_learning (ha : m.learn.active = true) (hc : m.learn.channel = c) :
    m.disableChannel c now = { m.removeKey c .disable now with
      learn := .idle, divert := none
      toQueue := (m.removeKey c .disable now).toQueue.push
        { source := channelByte c, stamp := now, body := .learnFail .channelOff } } := by
  have learns : ((m.removeKey c .disable now).learn.active && (m.removeKey c .disable now).learn.channel == c) = true := by
    rw [MatchUnit.learn_removeKey, ha, hc, beq_self_eq_true]
    rfl
  have fails : m.disableChannel c now = (m.removeKey c .disable now).failLearn .channelOff now := if_pos learns
  rw [fails, MatchUnit.failLearn, MatchUnit.learn_removeKey, hc]
  rfl

end Disable

section Due

variable {s : State} {f : InFlight} {c : Channel} (hf : s.bcu.inFlight = some f) (hc : channelOf f.args.arg0 = some c)
include hf hc

section Match

variable (hr : s.matchReady = true) (hp : Part.mu ∈ f.parts)
include hr hp

theorem exec_muChannelPart_flush (hcmd : f.cmd = some .channelFlush) :
    exec .muChannelPart s = .next ((s.setMu (s.mu.removeKey c .flush s.now)).answerPart .mu {}) := by
  change execMuChannelPart s = _
  simp only [execMuChannelPart, hf, hc, hcmd]
  exact if_pos ⟨hr, hp⟩

theorem exec_muChannelPart_disable (hcmd : f.cmd = some .channelDisable) :
    exec .muChannelPart s = .next ((s.setMu (s.mu.disableChannel c s.now)).answerPart .mu {}) := by
  change execMuChannelPart s = _
  simp only [execMuChannelPart, hf, hc, hcmd]
  exact if_pos ⟨hr, hp⟩

end Match

/-! ## The clear of the counters (R22, R76, R99, R125) -/

section Clear

variable (hcmd : f.cmd = some .countersClear)
include hcmd

theorem exec_countersClear_lcu (hp : Part.lcu c ∈ f.parts) (hw : (s.lcu c).waiting = none) :
    exec (.countersClear .lcu) s = .next ((s.setLcu c { s.lcu c with counters := .zero }).answerPart (.lcu c) {}) :=
  congrArg Host.Outcome.next (State.takeCommand_lcuPart _ hf hcmd (by simp [argumentsNameParts, hc]) hc hp hw)

theorem exec_countersClear_sdc (hp : Part.sdc ∈ f.parts) :
    exec (.countersClear .sdc) s = .next ((s.setSdc (s.sdc.setCounter c .zero)).answerPart .sdc {}) := by
  refine congrArg Host.Outcome.next ?_
  rw [State.takeCommand_owner _ hf hcmd (by simp [argumentsNameParts, hc])]
  simp only [hc]
  exact if_pos hp

theorem exec_countersClear_mu (hp : Part.mu ∈ f.parts) (hr : s.matchReady = true) :
    exec (.countersClear .mu) s = .next ((s.setMu (s.mu.setCounter c .zero)).answerPart .mu {}) := by
  refine congrArg Host.Outcome.next ?_
  rw [State.takeCommand_owner _ hf hcmd (by simp [argumentsNameParts, hc])]
  simp only [hc]
  exact if_pos ⟨hp, hr⟩

end Clear

end Due

/-- Settles O46, by the command in flight and, at a disable, by the running session. -/
theorem channelPartsAtTheOwners : Obligations.ChannelPartsAtTheOwners := by
  unfold Obligations.ChannelPartsAtTheOwners
  intro s f c hf harg ha hm
  have hc : channelOf f.args.arg0 = some c := channelOf_eq_some harg
  have ready : s.matchReady = true := s.matchReady_iff.mpr ⟨ha, hm⟩
  refine ⟨fun m reason hp hcmd hnone hsome => ⟨fun elsewhere => ?kept, fun disable active here => ?failed⟩,
    fun hcmd => ⟨fun hp hw => exec_countersClear_lcu hf hc hcmd hp hw, fun hp => exec_countersClear_sdc hf hc hcmd hp,
      fun hp => exec_countersClear_mu hf hc hcmd hp ready⟩⟩
  case kept =>
    obtain rfl := MatchUnit.eq_removeKey hnone hsome
    rcases hcmd with ⟨flush, rfl⟩ | ⟨disable, rfl⟩
    · exact exec_muChannelPart_flush hf hc ready hp flush
    · rw [exec_muChannelPart_disable hf hc ready hp disable, MatchUnit.disableChannel_elsewhere]
      exact elsewhere.resolve_left (by simp [disable])
  case failed =>
    obtain ⟨flush, _⟩ | ⟨_, rfl⟩ := hcmd
    · simp [disable] at flush
    · obtain rfl := MatchUnit.eq_removeKey hnone hsome
      rw [exec_muChannelPart_disable hf hc ready hp disable, MatchUnit.disableChannel_learning _ active here]

end Sys2Proof.Machine
end

section
/-! RUN_RESET: what its parts hold back on the paths between the blocks (R200, log 14), and what each part leaves of its block
(R25, R47, R79, R102, R165, R189). -/

namespace Sys2Proof.Machine

/-! ## What waits behind a part (log 14) -/

/-- The parts of the command in flight, where it is a RUN_RESET. -/
theorem State.resetParts_of_inFlight {s : State} {f : InFlight} (hf : s.bcu.inFlight = some f) :
    s.resetParts = if f.cmd = some .runReset then f.parts else [] := by
  by_cases h : f.cmd = some .runReset <;> simp [State.resetParts, State.inFlightAs, hf, Option.filter, h]

theorem State.resetParts_of_idle {s : State} (hf : s.bcu.inFlight = none) : s.resetParts = [] := by
  simp [State.resetParts, State.inFlightAs, hf]

theorem State.storeRequest_eq (s : State) (c : Channel) : s.storeRequest c =
    if .pst ∈ s.resetParts ∧ .lcu c ∉ s.resetParts ∧ (s.lcu c).toStore.early = 0 then none
    else (s.lcu c).toStore.msgs.head? := by
  by_cases h : s.resetBetween (.lcu c) .pst (s.lcu c).toStore.early = true
  · rw [if_pos (State.resetBetween_iff.mp h)]
    simp [State.storeRequest, State.storePathOpen, h]
  · rw [if_neg (mt State.resetBetween_iff.mpr h)]
    simp [State.storeRequest, State.storePathOpen, h]

theorem State.matchMessage_eq (s : State) : s.matchMessage =
    if (.mu ∈ s.resetParts ∧ .sdc ∉ s.resetParts ∧ s.sdc.toMatch.early = 0) ∨ s.mu.awaiting ≠ none
      ∨ s.tb.msTicks.any (fun m => m != s.now) = true then none
    else s.sdc.toMatch.msgs.head? := by
  have ready : s.mu.awaiting ≠ none ∨ s.tb.msTicks.any (fun m => m != s.now) = true ↔ ¬ s.matchReady = true := by
    rw [s.matchReady_iff, List.any_eq_true, not_and_or]
    simp
  by_cases hr : s.matchReady = true
  · by_cases h : s.resetBetween .sdc .mu s.sdc.toMatch.early = true
    · rw [if_pos (.inl (State.resetBetween_iff.mp h))]
      simp [State.matchMessage, h]
    · rw [if_neg (not_or.mpr ⟨mt State.resetBetween_iff.mpr h, fun waits => ready.mp waits hr⟩)]
      simp [State.matchMessage, h, hr]
  · rw [if_pos (.inr (ready.mpr hr))]
    simp [State.matchMessage, hr]

/-- Of the appends, only the Match Unit's wait behind a part. -/
theorem State.queuePathOpen_eq_false_iff (s : State) (x : Sender) : s.queuePathOpen x = false ↔
    x = .mu ∧ .evq ∈ s.resetParts ∧ .mu ∉ s.resetParts ∧ s.mu.toQueue.early = 0 := by
  cases x with
  | mu => simp [State.queuePathOpen, State.resetBetween_iff]
  | lcu c => simp [State.queuePathOpen]
  | sdc => simp [State.queuePathOpen]
  | txo o => simp [State.queuePathOpen]

/-! ## The parts, when they are due (R200) -/

theorem State.resetDue_iff (s : State) (p : Part) (before : List Part) :
    s.resetDue p before = true ↔ p ∈ s.resetParts ∧ ∀ q ∈ before, q ∉ s.resetParts := by
  simp [State.resetDue]

section Due

variable {s : State}

theorem exec_runResetTxe_due (h : .txe ∈ s.resetParts) : exec .runResetTxe s = .next ((s.setTxe
    { s.txe with engines := s.txe.engines.map Engine.runReset, queue := [] }).answerPart .txe {}) :=
  if_pos ((s.resetDue_iff _ _).mpr ⟨h, by simp⟩)

theorem exec_runResetLcu_due {c : Channel} (h : .lcu c ∈ s.resetParts) (hb : .txe ∉ s.resetParts)
    (hw : (s.lcu c).waiting = none) (hc : ∀ o, (s.lcu c).claimsOf o = []) :
    exec (.runResetLcu c) s = .next ((s.setLcu c ((s.lcu c).runReset s.now)).answerPart (.lcu c) {}) := by
  refine if_pos ⟨(s.resetDue_iff _ _).mpr ⟨h, by simpa using hb⟩, hw, ?_⟩
  rw [Vector.all_eq_true]
  intro o ho
  rw [List.isEmpty_iff]
  exact hc ⟨o, ho⟩

theorem exec_runResetPst_due (h : .pst ∈ s.resetParts) (hb : .txe ∉ s.resetParts) (hl : ∀ c, .lcu c ∉ s.resetParts)
    (he : ∀ c, (s.lcu c).toStore.early = 0) :
    exec .runResetPst s = .next ((((s.setPst { PulseStore.reset with slots := s.pst.slots }).setSdc
      { s.sdc with hostDrops := [] }).setTxe { s.txe with holdDrops := [] }).answerPart .pst {}) :=
  if_pos ⟨(s.resetDue_iff _ _).mpr ⟨h, by simp [hb, hl]⟩, by simp [allChannels, he]⟩

theorem exec_runResetSdc_due (h : .sdc ∈ s.resetParts) (hb : .pst ∉ s.resetParts) :
    exec .runResetSdc s = .next ((s.setSdc { s.sdc with
      state := .idle, request := none, answer := none, hostDrops := []
      toMatch := s.sdc.toMatch.markEarly, toQueue := s.sdc.toQueue.markEarly }).answerPart .sdc {}) :=
  if_pos ((s.resetDue_iff _ _).mpr ⟨h, by simpa using hb⟩)

theorem exec_runResetMu_due (h : .mu ∈ s.resetParts) (hb : .sdc ∉ s.resetParts) (he : s.sdc.toMatch.early = 0)
    (hr : s.matchReady = true) : exec .runResetMu s = .next ((s.setMu s.mu.runReset).answerPart .mu {}) :=
  if_pos ⟨(s.resetDue_iff _ _).mpr ⟨h, by simpa using hb⟩, he, hr⟩

theorem exec_runResetEvq_due (h : .evq ∈ s.resetParts) (hb : .mu ∉ s.resetParts) (he : ∀ x, (s.outbox x).early = 0) :
    exec .runResetEvq s = .next ((s.setEvq s.evq.runReset).answerPart .evq {}) :=
  if_pos ⟨(s.resetDue_iff _ _).mpr ⟨h, by simpa using hb⟩, by simp [he]⟩

end Due

/-! ## What the parts leave of their blocks -/

theorem Transmit.engine_runReset (t : Transmit) (o : Output) :
    ({ t with engines := t.engines.map Engine.runReset, queue := [] } : Transmit).engine o = (t.engine o).runReset := by
  simp [Transmit.engine]

/-- An engine after its part: at rest, with what it sent before still on its way (R189). -/
theorem Engine.runReset_rest (e : Engine) (now : Time) (unit : Nat) :
    e.runReset.state = .idle ∧ e.runReset.request = none ∧ e.runReset.toggle = false
      ∧ e.runReset.toQueue.msgs = e.toQueue.msgs ∧ e.runReset.pin now unit = false :=
  ⟨rfl, rfl, rfl, rfl, rfl⟩

theorem Lcu.runReset_enabled {l : Lcu} (now : Time) (h : l.capture ≠ .disabled) : l.runReset now = { l with
    capture := .discard, measuringStart := some now, handle := none, count := 0, blankCount := 0
    toStore := l.toStore.markEarly, toQueue := l.toQueue.markEarly } := if_neg h

theorem Lcu.runReset_disabled {l : Lcu} (now : Time) (h : l.capture = .disabled) : l.runReset now = { l with
    handle := none, count := 0, blankCount := 0
    toStore := l.toStore.markEarly, toQueue := l.toQueue.markEarly } := if_pos h

/-- Settles O47, part by part. -/
theorem runResetPartsEndTheWork : Obligations.RunResetPartsEndTheWork := by
  unfold Obligations.RunResetPartsEndTheWork
  refine ⟨fun s => ⟨?parts, s.storeRequest_eq, s.matchMessage_eq, s.queuePathOpen_eq_false_iff⟩,
    fun α m x => ⟨rfl, by rw [Mailbox.pop, List.drop_one], rfl⟩,
    fun s => ⟨fun h => ⟨_, exec_runResetTxe_due h, rfl, rfl, rfl, fun o unit => ?engine⟩, fun c h hb hw hc => ?lcu⟩,
    fun s => ⟨fun h hb hl he => ⟨_, exec_runResetPst_due h hb hl he, rfl, fun h => ?descriptor, fun b => ?block, rfl⟩,
      fun h hb => exec_runResetSdc_due h hb,
      fun h hb he ha hm => ⟨s.mu.runReset, exec_runResetMu_due h hb he (s.matchReady_iff.mpr ⟨ha, hm⟩), rfl,
        fun c => ?key⟩,
      fun h hb he => exec_runResetEvq_due h hb he⟩⟩
  case parts =>
    cases hf : s.bcu.inFlight with
    | none => exact State.resetParts_of_idle hf
    | some f => exact State.resetParts_of_inFlight hf
  case engine =>
    have rest := (s.txe.engine o).runReset_rest s.now unit
    rw [← Transmit.engine_runReset] at rest
    exact rest
  case lcu =>
    rw [exec_runResetLcu_due h hb hw hc]
    exact ⟨fun enabled => by rw [Lcu.runReset_enabled _ enabled], fun disabled => by rw [Lcu.runReset_disabled _ disabled]⟩
  case descriptor => simp [PulseStore.descriptor, PulseStore.reset]
  case block => exact List.count_eq_one_of_mem (List.nodup_finRange 32) (List.mem_finRange b)
  case key => simp [MatchUnit.key, MatchUnit.runReset]

end Sys2Proof.Machine
end


section
/-! The bus cycles and the events that they are taken as (R190, R191, R198, R199, R205), and the interrupt output (R163, R203,
R204). -/

namespace Sys2Proof.Machine

/-! ## Registers without a behaviour of their own (R191, R203, R204) -/

theorem Bcu.writeStatus_eq (b : Bcu) (v : Byte) : b.writeStatus v = { b with cmdDone := b.cmdDone && !v.getLsbD 3 } := by
  unfold Bcu.writeStatus
  cases v.getLsbD 3 <;> simp

/-- The three enables read back, and bits 7:3 as 0 (R204). -/
theorem natByte_lowBits (v : Byte) :
    natByte ((v.getLsbD 0).toNat + 2 * (v.getLsbD 1).toNat + 4 * (v.getLsbD 2).toNat) = v &&& 0x07#8 := by
  revert v
  decide

/-- A write to a register that cannot be written changes nothing. -/
theorem exec_registerWrite_readOnly {a : BitVec 6}
    (h : a.toNat ∈ [0x02, 0x03, 0x09, 0x0A] ∨ (0x0E ≤ a.toNat ∧ a.toNat ≤ 0x30) ∨ 0x36 ≤ a.toNat) (v : Byte) (s : State) :
    exec (.registerWrite a v) s = .next s := by
  have small := a.isLt
  change execRegisterWrite a v s = _
  unfold execRegisterWrite Bcu.writeArg
  generalize a.toNat = n at h small
  rcases h with h | ⟨low, high⟩ | low
  · fin_cases h <;> rfl
  · interval_cases n <;> rfl
  · interval_cases n <;> rfl

/-! ## The cycles (R190, R205) -/

/-- Levels that make no cycle. -/
theorem BusPins.cycle_eq_none {p : BusPins} (h : p.reset = false ∨ p.chipSelect = true ∨ p.readStrobe = p.writeStrobe) :
    p.cycle = none := by
  cases hc : p.cycle with
  | none => rfl
  | some x =>
    cases x with
    | read a =>
      obtain ⟨_, _, _, _, _⟩ := BusPins.cycle_eq_read.mp hc
      simp_all
    | write a v =>
      obtain ⟨_, _, _, _, _, _⟩ := BusPins.cycle_eq_write.mp hc
      simp_all

section Cycle

variable (s : State) {p : BusPins}

theorem State.dataLines_none (h : p.cycle = none) : s.dataLines p = none := by
  simp only [State.dataLines, h]

theorem State.dataLines_read {a : BitVec 6} (h : p.cycle = some (.read a)) : s.dataLines p = some (s.readRegister a) := by
  simp only [State.dataLines, h]

theorem State.dataLines_write {a : BitVec 6} {v : Byte} (h : p.cycle = some (.write a v)) : s.dataLines p = none := by
  simp only [State.dataLines, h]

theorem State.endCycle_none (h : p.cycle = none) : s.endCycle p = s := by
  simp [State.endCycle, h]

theorem State.endCycle_write {a : BitVec 6} {v : Byte} (h : p.cycle = some (.write a v)) :
    s.endCycle p = s.setPending (s.pending ++ [writeRow a v]) := by
  rw [State.endCycle_eq, h]
  rfl

/-- Two registers have reads that are events. -/
theorem State.endCycle_read {a : BitVec 6} (h : p.cycle = some (.read a)) : s.endCycle p =
    if a = 0x24#6 then s.setPending (s.pending ++ [.timeLatchRead])
    else if a = 0x35#6 then s.setPending (s.pending ++ [.winDataRead]) else s := by
  rw [State.endCycle_eq, h]
  by_cases latch : a = 0x24#6
  · subst latch
    rfl
  by_cases data : a = 0x35#6
  · subst data
    rfl
  have quiet : (BusCycle.read a).command = none := by
    have notLatch : a.toNat ≠ 0x24 := fun h => latch (BitVec.eq_of_toNat_eq h)
    have notData : a.toNat ≠ 0x35 := fun h => data (BitVec.eq_of_toNat_eq h)
    simp only [BusCycle.command]
  rw [if_neg latch, if_neg data, Option.bind_some, quiet, Option.toList_none, List.append_nil, State.setPending_self]

end Cycle

/-! ## The row of a write cycle (R191, R198, R199) -/

/-- The rows of the opcode writes, by the number of the opcode. -/
def opcodeRows : List Instr :=
  [.undefinedOpcode (.write 0x00#8), .channelSet .write, .channelGet .write, .channelEnable .write,
   .channelDisable .write, .channelFlush .write, .countersClear .write, .profileCommit .write,
   .profileRead .write, .profileClear .write, .entryCommit .write, .entryRead .write, .entryClear .write,
   .tableClear .write, .burstRelease .write, .learnStart .write, .learnAbort .write, .learnCommit .write,
   .learnDiscard .write, .txSubmit .write, .txStop .write, .txAbort .write, .runReset]

theorem opcodeWriteRow_eq (v : Byte) : opcodeWriteRow v = opcodeRows.getD v.toNat (.undefinedOpcode (.write v)) := by
  by_cases h : v.toNat < 23
  · obtain ⟨n, hn, rfl⟩ : ∃ n < 23, v = BitVec.ofNat 8 n := ⟨v.toNat, h, by simp⟩
    interval_cases n <;> rfl
  · have undefined : Cmd.ofOpcode v = none := (Cmd.ofOpcode_eq_none_iff v).mpr (.inr (by omega))
    rw [List.getD_eq_default _ _ (Nat.not_lt.mp h), opcodeWriteRow, undefined]

/-- The opcode of the command that a byte names is the byte (R200). -/
theorem Cmd.opcode_of_ofOpcode {v : Byte} {c : Cmd} (h : Cmd.ofOpcode v = some c) : c.opcode = v := by
  unfold Cmd.ofOpcode at h
  split at h <;> cases h <;> exact (BitVec.eq_of_toNat_eq ‹_›).symm

theorem exec_opcodeWriteRow (v : Byte) (s : State) :
    exec (opcodeWriteRow v) s = .next (s.setBcu (s.bcu.writeOpcode v)) := by
  cases h : Cmd.ofOpcode v with
  | none => simp only [opcodeWriteRow, h]; rfl
  | some c =>
    have row : exec (Cmd.writeRow c) s = .next (s.setBcu (s.bcu.writeOpcode c.opcode)) := by cases c <;> rfl
    simp only [opcodeWriteRow, h]
    rw [row, Cmd.opcode_of_ofOpcode h]

theorem wellFormed_opcodeWriteRow (v : Byte) : (opcodeWriteRow v).wellFormed = true := by
  cases h : Cmd.ofOpcode v with
  | none => simp only [opcodeWriteRow, h, Instr.wellFormed, Option.isNone_none]
  | some c =>
    simp only [opcodeWriteRow, h]
    cases c <;> rfl

/-- A REGISTER_WRITE is a write to a register without a row of its own (R191). -/
theorem wellFormed_registerWrite {a : BitVec 6} {v : Byte}
    (h : a.toNat ∉ [0x00, 0x08, 0x0B, 0x0C, 0x0D, 0x31, 0x32, 0x33, 0x34, 0x35])
    (hs : ¬(a.toNat = 0x01 ∧ v.getLsbD 3 = true)) : (Instr.registerWrite a v).wellFormed = true := by
  rw [Instr.wellFormed, hasOwnWriteRow, decide_eq_false h, Bool.not_false, Bool.true_and, Bool.not_eq_true',
    Bool.and_eq_false_iff, beq_eq_false_iff_ne, ← Bool.not_eq_true]
  exact not_and_or.mp hs

/-- The row of a write cycle is the event that its register names. -/
theorem wellFormed_writeRow (a : BitVec 6) (v : Byte) : (writeRow a v).wellFormed = true := by
  unfold writeRow
  split
  case h_1 => exact wellFormed_opcodeWriteRow v
  case h_2 h =>
    split
    · assumption
    · next hv => exact wellFormed_registerWrite (by simp [h]) fun both => hv both.2
  case h_12 =>
    refine wellFormed_registerWrite ?_ (by tauto)
    simp only [List.mem_cons, List.not_mem_nil, or_false]
    tauto
  all_goals rfl

/-- The row acts as the write to the register does (log 24). -/
theorem exec_writeRow (a : BitVec 6) (v : Byte) (s : State) : exec (writeRow a v) s = exec (.registerWrite a v) s := by
  change _ = execRegisterWrite a v s
  unfold writeRow
  split
  case h_1 h =>
    rw [exec_opcodeWriteRow]
    simp only [execRegisterWrite, h]
  case h_2 h =>
    split
    · simp only [execRegisterWrite, h]
      rfl
    · rfl
  case h_12 => rfl
  all_goals
    next h =>
    simp only [execRegisterWrite, h]
    rfl

/-! ## The interrupt output (R163) -/

theorem State.irqActive_iff (s : State) : s.irqActive = true ↔
    (s.evq.threshold.toNat ≤ s.evq.records.length ∧ s.bcu.enableLevel = true)
      ∨ (s.evq.evAge = true ∧ s.bcu.enableAge = true) ∨ (s.bcu.cmdDone = true ∧ s.bcu.enableDone = true) := by
  simp only [State.irqActive, Bool.or_eq_true, Bool.and_eq_true, EventQueue.evLevel_iff, or_assoc]

/-- Settles O48, by the levels of the pins, and a write by its register. -/
theorem plainRegistersAndTheInterruptLine : Obligations.PlainRegistersAndTheInterruptLine := by
  unfold Obligations.PlainRegistersAndTheInterruptLine
  refine ⟨fun s v a => ⟨?done, ⟨_, rfl, rfl, natByte_lowBits v⟩, rfl, rfl, rfl, rfl,
      fun h => exec_registerWrite_readOnly h v s⟩,
    fun s p => ⟨fun h => ?quiet, fun hr hc hrd hwr => ?read, fun hr hc hrd hwr => ?write, fun h => ?held, fun h => ?free⟩,
    State.irqActive_iff⟩
  case done => rw [← Bcu.writeStatus_eq]; rfl
  case quiet => exact ⟨s.dataLines_none (BusPins.cycle_eq_none h), s.endCycle_none (BusPins.cycle_eq_none h)⟩
  case read =>
    have cycle := BusPins.cycle_eq_read.mpr ⟨hr, hc, hrd, hwr, rfl⟩
    exact ⟨s.dataLines_read cycle, s.endCycle_read cycle⟩
  case write =>
    have cycle := BusPins.cycle_eq_write.mpr ⟨hr, hc, hrd, hwr, rfl, rfl⟩
    refine ⟨s.dataLines_write cycle, fun c row => ?_⟩
    have taken : c = writeRow p.address p.data := by
      rw [row, writeRow, opcodeWriteRow_eq]
      rfl
    subst taken
    exact ⟨s.endCycle_write cycle, wellFormed_writeRow _ _, exec_writeRow _ _⟩
  case held => simp [State.irqPin, State.txLevel, h]
  case free => simp [State.irqPin, State.txLevel, h]

end Sys2Proof.Machine
end


section
/-! The window on the spaces: the selection, the offset, and what a write or a read of WIN_DATA does (R192, R193). -/

namespace Sys2Proof.Machine

/-! ## The selection and the offset (R192, R193) -/

theorem spaceLength_eq (space : Byte) : spaceLength space = [10, 23, 25, 21, 36, 522, 28].getD space.toNat 0 := by
  unfold spaceLength
  generalize space.toNat = n
  match n with
  | 0 | 1 | 2 | 3 | 4 | 5 | 6 => rfl
  | _ + 7 => rfl

theorem Bcu.winOffset_writeOffset (b : Bcu) (high : Bool) (v : Byte) : (b.writeOffset high v).winOffset =
    min (spaceLength b.winSpace)
      (if high then 256 * v.toNat + b.winOffset % 256 else 256 * (b.winOffset / 256) + v.toNat) := by
  rw [Bcu.writeOffset, Nat.min_comm, Nat.mul_comm v.toNat, Nat.mul_comm (b.winOffset / 256)]

theorem Bcu.advance_inside {b : Bcu} (h : b.winOffset < spaceLength b.winSpace) :
    b.advance = { b with winOffset := b.winOffset + 1 } := by
  rw [Bcu.advance, if_pos h]

theorem Bcu.advance_atLength {b : Bcu} (h : spaceLength b.winSpace ≤ b.winOffset) : b.advance = b := by
  rw [Bcu.advance, if_neg (Nat.not_lt.mpr h)]

/-! ## Writes of WIN_DATA (R193) -/

theorem setIfInBounds_inside {k i : Nat} (r : Vector Byte k) (h : i < k) {v : Byte} : r.setIfInBounds i v = r.set i v := by
  ext j hj
  simp [Vector.getElem_setIfInBounds, Vector.getElem_set]

section Write

variable {b : Bcu} {v : Byte}

theorem Bcu.stageByte_channel (hs : b.winSpace = 0#8) (h : b.winOffset < 10) :
    b.stageByte v = { b with channelStaging := b.channelStaging.set b.winOffset v } := by
  rw [← setIfInBounds_inside b.channelStaging h]
  simp [Bcu.stageByte, hs]

theorem Bcu.stageByte_profile (hs : b.winSpace = 1#8) (h : b.winOffset < 23) :
    b.stageByte v = { b with profileStaging := b.profileStaging.set b.winOffset v } := by
  rw [← setIfInBounds_inside b.profileStaging h]
  simp [Bcu.stageByte, hs]

theorem Bcu.stageByte_entry (hs : b.winSpace = 2#8) (h : b.winOffset < 25) :
    b.stageByte v = { b with entryStaging := b.entryStaging.set b.winOffset v } := by
  rw [← setIfInBounds_inside b.entryStaging h]
  simp [Bcu.stageByte, hs]

theorem Bcu.stageByte_transmit (hs : b.winSpace = 3#8) (h : b.winOffset < 21) :
    b.stageByte v = { b with transmitStaging := b.transmitStaging.set b.winOffset v } := by
  rw [← setIfInBounds_inside b.transmitStaging h]
  simp [Bcu.stageByte, hs]

/-- The other spaces are read-only, or do not exist. -/
theorem Bcu.stageByte_readOnly (h : 4 ≤ b.winSpace.toNat) : b.stageByte v = b := by
  unfold Bcu.stageByte
  dsimp only
  split
  case h_5 => rfl
  all_goals omega

/-- At the length no byte is replaced. -/
theorem Bcu.stageByte_atLength (h : spaceLength b.winSpace ≤ b.winOffset) : b.stageByte v = b := by
  rw [spaceLength_eq] at h
  have outside {k : Nat} (r : Vector Byte k) (hk : k ≤ b.winOffset) : r.setIfInBounds b.winOffset v = r :=
    Vector.setIfInBounds_eq_of_size_le hk
  unfold Bcu.stageByte
  dsimp only
  split
  case h_5 => rfl
  case h_1 hs =>
    rw [hs] at h
    rw [outside b.channelStaging h]
  case h_2 hs =>
    rw [hs] at h
    rw [outside b.profileStaging h]
  case h_3 hs =>
    rw [hs] at h
    rw [outside b.entryStaging h]
  case h_4 hs =>
    rw [hs] at h
    rw [outside b.transmitStaging h]

end Write

theorem exec_winDataWrite (v : Byte) (s : State) :
    exec (.winDataWrite v) s = .next (s.setBcu (s.bcu.stageByte v).advance) := rfl

/-- Settles O50, by the space selected and the offset. -/
theorem windowSelectionOffsetAndWrites : Obligations.WindowSelectionOffsetAndWrites := by
  unfold Obligations.WindowSelectionOffsetAndWrites
  refine ⟨spaceLength_eq, fun s v => ⟨rfl, rfl, fun high => ⟨_, rfl, rfl, s.bcu.winOffset_writeOffset high v⟩⟩,
    fun s v n hn => ?_⟩
  subst hn
  refine ⟨fun h hs => ?channel, fun h hs => ?profile, fun h hs => ?entry, fun h hs => ?transmit,
    fun hs h => ?readOnly, fun h => ?atLength⟩
  case channel =>
    rw [exec_winDataWrite, Bcu.stageByte_channel hs h, Bcu.advance_inside]
    rw [hs]
    exact h
  case profile =>
    rw [exec_winDataWrite, Bcu.stageByte_profile hs h, Bcu.advance_inside]
    rw [hs]
    exact h
  case entry =>
    rw [exec_winDataWrite, Bcu.stageByte_entry hs h, Bcu.advance_inside]
    rw [hs]
    exact h
  case transmit =>
    rw [exec_winDataWrite, Bcu.stageByte_transmit hs h, Bcu.advance_inside]
    rw [hs]
    exact h
  case readOnly => rw [exec_winDataWrite, Bcu.stageByte_readOnly hs, Bcu.advance_inside h]
  case atLength => rw [exec_winDataWrite, Bcu.stageByte_atLength h, Bcu.advance_atLength h, State.setBcu_self]

end Sys2Proof.Machine
end


section
/-! What a read of WIN_DATA shows: the staging records, the counters, a retained burst and the learn session (R44, R144, R193,
R195). -/

namespace Sys2Proof.Machine

/-! ## The byte at the offset (R193, R195) -/

section Byte

variable {s : State}

theorem State.windowByte_atLength (h : spaceLength s.bcu.winSpace ≤ s.bcu.winOffset) : s.windowByte = 0 := by
  rw [State.windowByte, if_neg (Nat.not_lt.mpr h)]

theorem State.windowByte_channel (hs : s.bcu.winSpace = 0#8) (h : s.bcu.winOffset < 10) :
    s.windowByte = s.bcu.channelStaging[s.bcu.winOffset] := by
  simp [State.windowByte, hs, spaceLength, h]

theorem State.windowByte_profile (hs : s.bcu.winSpace = 1#8) (h : s.bcu.winOffset < 23) :
    s.windowByte = s.bcu.profileStaging[s.bcu.winOffset] := by
  simp [State.windowByte, hs, spaceLength, h]

theorem State.windowByte_entry (hs : s.bcu.winSpace = 2#8) (h : s.bcu.winOffset < 25) :
    s.windowByte = s.bcu.entryStaging[s.bcu.winOffset] := by
  simp [State.windowByte, hs, spaceLength, h]

theorem State.windowByte_transmit (hs : s.bcu.winSpace = 3#8) (h : s.bcu.winOffset < 21) :
    s.windowByte = s.bcu.transmitStaging[s.bcu.winOffset] := by
  simp [State.windowByte, hs, spaceLength, h]

theorem State.windowByte_burst {k : Handle} (hs : s.bcu.winSpace = 5#8) (hi : s.bcu.winIndex.toNat = k.val)
    (h : s.bcu.winOffset < 522) : s.windowByte = s.pst.burstByte k s.bcu.winOffset := by
  simp [State.windowByte, hs, spaceLength, h, handleOf_eq_some hi]

theorem State.windowByte_noHandle (hs : s.bcu.winSpace = 5#8) (hi : 15 < s.bcu.winIndex.toNat) : s.windowByte = 0 := by
  simp [State.windowByte, hs, handleOf_eq_none hi]

theorem State.windowByte_learn (hs : s.bcu.winSpace = 6#8) (h : s.bcu.winOffset < 28) :
    s.windowByte = s.mu.learn.bytes.getD s.bcu.winOffset 0 := by
  simp [State.windowByte, hs, spaceLength, h]

/-! ### The counters -/

section Counters

variable (hs : s.bcu.winSpace = 4#8)
include hs

theorem State.windowByte_low {x : Half} (h : s.bcu.winOffset < 36) (he : s.bcu.winOffset % 2 = 0)
    (hx : s.selectedCounter = some x) : s.windowByte = byteOf x 0 := by
  simp [State.windowByte, hs, spaceLength, h, he, hx]

theorem State.windowByte_high {x : Half} (h : s.bcu.winOffset < 36) (he : s.bcu.winOffset % 2 = 1)
    (hx : s.selectedCounter = some x) : s.windowByte = byteOf s.bcu.counterCapture 1 := by
  simp [State.windowByte, hs, spaceLength, h, he, hx]

theorem State.windowByte_noChannel (hx : s.selectedCounter = none) : s.windowByte = 0 := by
  simp [State.windowByte, hs, spaceLength, hx]

/-- The low byte of a counter captures the counter. -/
theorem State.capturedCounter_low {x : Half} (h : s.bcu.winOffset < 36) (he : s.bcu.winOffset % 2 = 0)
    (hx : s.selectedCounter = some x) : s.capturedCounter = x := by
  simp [State.capturedCounter, hs, spaceLength, h, he, hx]

end Counters

theorem State.capturedCounter_high (he : s.bcu.winOffset % 2 = 1) : s.capturedCounter = s.bcu.counterCapture :=
  if_neg fun h => by omega

theorem State.capturedCounter_elsewhere (hs : s.bcu.winSpace ≠ 4#8) : s.capturedCounter = s.bcu.counterCapture :=
  if_neg fun h => hs (BitVec.eq_of_toNat_eq h.1)

theorem State.capturedCounter_noChannel (hx : s.selectedCounter = none) : s.capturedCounter = s.bcu.counterCapture := by
  simp [State.capturedCounter, hx]

/-- The counter that the offset lies in. -/
theorem State.selectedCounter_eq {c : Channel} {k : Nat} {x : Half} (hc : s.bcu.winIndex.toNat = c.val)
    (hk : s.bcu.winOffset / 2 = k) (hx : (s.channelCounters c)[k]? = some x) : s.selectedCounter = some x := by
  simp only [State.selectedCounter, channelOf_eq_some hc, hk, hx]

theorem State.selectedCounter_none (h : 3 < s.bcu.winIndex.toNat) : s.selectedCounter = none := by
  simp only [State.selectedCounter, channelOf_eq_none h]

end Byte

theorem byteOf_low (x : Half) : byteOf x 0 = x.setWidth 8 := by
  refine BitVec.eq_of_getElem_eq fun i hi => ?_
  simp [byteOf]

theorem byteOf_high (x : Half) : byteOf x 1 = (x >>> 8).setWidth 8 := by
  refine BitVec.eq_of_getElem_eq fun i hi => ?_
  simp [byteOf]

/-! ## The BURST space (R44, R195) -/

section Burst

variable {p : PulseStore} {h : Handle}

theorem PulseStore.burstByte_free (hs : (p.descriptor h).state ≠ .retained) (n : Nat) : p.burstByte h n = 0 :=
  if_neg hs

section Retained

variable {d : Descriptor} (hd : d = p.descriptor h) (hs : d.state = .retained)
include hd hs

/-- The twelve bytes in front of the elements. -/
theorem PulseStore.burstByte_head {n : Nat} (hn : n < 12) : p.burstByte h n =
    (([channelByte d.channel, natByte d.count, byteOf d.openTime 0, byteOf d.openTime 1, byteOf d.openTime 2,
      byteOf d.openTime 3, byteOf d.closeTime 0, byteOf d.closeTime 1, byteOf d.closeTime 2, byteOf d.closeTime 3,
      boolByte d.hostHold, natByte d.transmitHolds])[n]?).getD 0 := by
  subst hd
  exact (if_pos hs).trans (if_pos hn)

/-- Each element below the count has two bytes, the low one first. -/
theorem PulseStore.burstByte_element {n q : Nat} (hn : n = 12 + 2 * q ∨ n = 13 + 2 * q) (hq : q < d.count) :
    p.burstByte h n = byteOf (p.elementAt d q) (n % 2) := by
  have place : (n - 12) / 2 = q := by omega
  subst hd
  refine (if_pos hs).trans ((if_neg (by omega)).trans ?_)
  rw [place, if_pos hq]

theorem PulseStore.burstByte_beyond {n q : Nat} (hn : n = 12 + 2 * q ∨ n = 13 + 2 * q) (hq : d.count ≤ q) :
    p.burstByte h n = 0 := by
  have place : (n - 12) / 2 = q := by omega
  subst hd
  refine (if_pos hs).trans ((if_neg (by omega)).trans ?_)
  rw [place, if_neg (Nat.not_lt.mpr hq)]

end Retained

end Burst

/-! ## The LEARN space (R144, R195) -/

section Learn

variable {x : LearnSession}

/-- The bytes of the session in front of its result. -/
theorem LearnSession.bytes_head (x : LearnSession) {n : Nat} (hn : n < 7) : x.bytes.getD n 0 =
    [x.state.code, channelByte x.channel, natByte x.k, natByte (x.remaining % 256), natByte (x.remaining / 256),
      natByte x.matchCount, natByte x.mismatches].getD n 0 := by
  rw [LearnSession.bytes, List.getD_append _ _ _ _ (by simpa using hn)]

theorem LearnSession.bytes_noResult (h : x.result = none) {n : Nat} (hn : 7 ≤ n) : x.bytes.getD n 0 = 0 := by
  rw [LearnSession.bytes, h, List.getD_append_right _ _ _ _ (by simpa using hn)]
  exact List.getElem?_getD_replicate_default_eq _ _ _

/-- The bytes of a result behind those of the session. -/
def LearnResult.bytes (r : LearnResult) : List Byte :=
  [channelByte r.channel, natByte r.profile.val, natByte r.bits] ++ payloadBytes r.payload ++ payloadBytes r.mask
    ++ [if r.existing.isSome then 4#8 else 0#8, (r.existing.elim 0 fun i => natByte i.val)]

theorem LearnSession.bytes_result {r : LearnResult} (h : x.result = some r) (n : Nat) :
    x.bytes.getD (7 + n) 0 = r.bytes.getD n 0 := by
  rw [LearnSession.bytes, h, List.getD_append_right _ _ _ _ (by simp)]
  simp only [List.length_cons, List.length_nil, Nat.reduceAdd, Nat.add_sub_cancel_left, LearnResult.bytes]
  cases r.existing <;> rfl

/-- The byte sequence of a session, by its fields. -/
theorem LearnSession.bytes_fields {byte : Nat → Byte} (hb : ∀ n, byte n = x.bytes.getD n 0) (hk : x.k < 256)
    (hr : x.remaining < 65536) (hm : x.matchCount < 256) (hmm : x.mismatches < 256) :
    byte 0 = x.state.code ∧ (byte 1).toNat = x.channel.val ∧ (byte 2).toNat = x.k
      ∧ (byte 4 ++ byte 3 : BitVec 16).toNat = x.remaining ∧ (byte 5).toNat = x.matchCount
      ∧ (byte 6).toNat = x.mismatches := by
  have field (n : Nat) (hn : n < 7) := (hb n).trans (x.bytes_head hn)
  have low : byte 3 = natByte (x.remaining % 256) := field 3 (by decide)
  have high : byte 4 = natByte (x.remaining / 256) := field 4 (by decide)
  refine ⟨field 0 (by decide), ?channel, ?k, ?remaining, ?matched, ?mismatched⟩
  case channel =>
    rw [field 1 (by decide)]
    exact toNat_natByte_of_lt (by omega)
  case k =>
    rw [field 2 (by decide)]
    exact toNat_natByte_of_lt hk
  case remaining =>
    have word := toNat_half (byte 3) (byte 4)
    rw [low, high, toNat_natByte_of_lt (Nat.mod_lt _ (by decide)), toNat_natByte_of_lt (by omega)] at word
    rw [low, high]
    exact word.trans (Nat.mod_add_div _ _)
  case matched =>
    rw [field 5 (by decide)]
    exact toNat_natByte_of_lt hm
  case mismatched =>
    rw [field 6 (by decide)]
    exact toNat_natByte_of_lt hmm

/-- The bytes of a result, by its fields. -/
theorem LearnSession.bytes_resultFields {byte : Nat → Byte} (hb : ∀ n, byte n = x.bytes.getD n 0) {r : LearnResult}
    (hx : x.result = some r) (hbits : r.bits < 256) :
    (byte 7).toNat = r.channel.val ∧ (byte 8).toNat = r.profile.val ∧ (byte 9).toNat = r.bits
      ∧ byte 17 ++ byte 16 ++ byte 15 ++ byte 14 ++ byte 13 ++ byte 12 ++ byte 11 ++ byte 10 = r.payload
      ∧ byte 25 ++ byte 24 ++ byte 23 ++ byte 22 ++ byte 21 ++ byte 20 ++ byte 19 ++ byte 18 = r.mask
      ∧ (r.existing = none → byte 26 = 0 ∧ byte 27 = 0)
      ∧ ∀ i, r.existing = some i → byte 26 = 4 ∧ (byte 27).toNat = i.val := by
  have field (n : Nat) : byte (7 + n) = r.bytes.getD n 0 := (hb _).trans (LearnSession.bytes_result hx n)
  have presence : byte 26 = if r.existing.isSome then 4#8 else 0#8 := field 19
  have entry : byte 27 = r.existing.elim 0 fun i => natByte i.val := field 20
  refine ⟨?channel, ?profile, ?bits, ?payload, ?mask, fun none => ?absent, fun i some => ?present⟩
  case channel =>
    rw [field 0]
    exact toNat_natByte_of_lt (by omega)
  case profile =>
    rw [field 1]
    exact toNat_natByte_of_lt (by omega)
  case bits =>
    rw [field 2]
    exact toNat_natByte_of_lt hbits
  case payload =>
    rw [field 3, field 4, field 5, field 6, field 7, field 8, field 9, field 10]
    exact payloadOf_byteOf r.payload
  case mask =>
    rw [field 11, field 12, field 13, field 14, field 15, field 16, field 17, field 18]
    exact payloadOf_byteOf r.mask
  case absent =>
    rw [presence, entry, none]
    exact ⟨rfl, rfl⟩
  case present =>
    rw [presence, entry, some]
    exact ⟨rfl, toNat_natByte_of_lt (by omega)⟩

theorem LearnSession.bytes_idle (n : Nat) : LearnSession.idle.bytes.getD n 0 = 0 :=
  List.getElem?_getD_replicate_default_eq 0 28 n

end Learn

/-! ## The read (R193) -/

theorem exec_winDataRead (s : State) : exec .winDataRead s =
    .next (s.setBcu { s.bcu.advance with dataOut := s.windowByte, counterCapture := s.capturedCounter }) := rfl

/-- Settles O51, by the space selected; the BURST space by the descriptor's state, the LEARN space by the result. -/
theorem winDataReadStreamsTheSpace : Obligations.WinDataReadStreamsTheSpace := by
  unfold Obligations.WinDataReadStreamsTheSpace
  refine ⟨fun s n hn => ?read, fun s h d hd => ⟨fun hs n => ?free, fun hs hcount hholds => ?retained⟩,
    fun x byte hb hk hr hm hmm => ?learn⟩
  case read =>
    subst hn
    refine ⟨_, exec_winDataRead s, rfl, rfl, fun h => ?inside, fun h => ?atLength,
      fun h hs => State.windowByte_channel hs h, fun h hs => State.windowByte_profile hs h,
      fun h hs => State.windowByte_entry hs h, fun h hs => State.windowByte_transmit hs h,
      fun c hs hc lcu sdc mu hlcu hsdc hmu k x hx => ?counter,
      fun k hs hi h => State.windowByte_burst hs hi h, fun hs h => State.windowByte_learn hs h, fun hs hi => ?noChannel,
      fun hs hi => ?noHandle, fun hs => State.capturedCounter_elsewhere hs⟩
    case inside =>
      have moves : s.bcu.advance.winOffset = s.bcu.winOffset + 1 := by rw [Bcu.advance_inside h]
      exact moves
    case atLength =>
      have stays : s.bcu.advance.winOffset = s.bcu.winOffset := by rw [Bcu.advance_atLength h]
      exact ⟨stays, State.windowByte_atLength h⟩
    case counter =>
      subst hlcu hsdc hmu
      obtain ⟨inside, _⟩ := List.getElem?_eq_some_iff.mp hx
      have few : k < 18 := inside
      refine ⟨fun hn => ?low, fun hn => ?high⟩
      case low =>
        have selected := State.selectedCounter_eq hc (by omega) hx
        exact ⟨(State.windowByte_low hs (by omega) (by omega) selected).trans (byteOf_low x),
          State.capturedCounter_low hs (by omega) (by omega) selected⟩
      case high =>
        have selected := State.selectedCounter_eq hc (by omega) hx
        exact ⟨(State.windowByte_high hs (by omega) (by omega) selected).trans (byteOf_high _),
          State.capturedCounter_high (by omega)⟩
    case noChannel =>
      exact ⟨State.windowByte_noChannel hs (State.selectedCounter_none hi),
        State.capturedCounter_noChannel (State.selectedCounter_none hi)⟩
    case noHandle => exact State.windowByte_noHandle hs hi
  case free => exact PulseStore.burstByte_free (hd ▸ hs) n
  case retained =>
    have field {i : Nat} (hi : i < 12) := PulseStore.burstByte_head hd hs hi
    refine ⟨?channel, ?count, ?opened, ?closed, field (by decide), ?holds, fun q hq => ?element, fun q hq => ?beyond⟩
    case channel =>
      rw [field (by decide)]
      exact toNat_natByte_of_lt (by omega)
    case count =>
      rw [field (by decide)]
      exact toNat_natByte_of_lt (by omega)
    case opened =>
      rw [field (by decide), field (by decide), field (by decide), field (by decide)]
      exact bytes_append d.openTime
    case closed =>
      rw [field (by decide), field (by decide), field (by decide), field (by decide)]
      exact bytes_append d.closeTime
    case holds =>
      rw [field (by decide)]
      exact toNat_natByte_of_lt (by omega)
    case element =>
      have low : (12 + 2 * q) % 2 = 0 := by omega
      have high : (13 + 2 * q) % 2 = 1 := by omega
      rw [PulseStore.burstByte_element hd hs (.inl rfl) hq, PulseStore.burstByte_element hd hs (.inr rfl) hq, low, high,
        halfBytes_append]
    case beyond =>
      exact ⟨PulseStore.burstByte_beyond hd hs (.inl rfl) hq, PulseStore.burstByte_beyond hd hs (.inr rfl) hq⟩
  case learn =>
    obtain ⟨state, channel, k, remaining, matched, mismatched⟩ := LearnSession.bytes_fields hb hk hr hm hmm
    refine ⟨state.trans ?code, channel, k, remaining, matched, mismatched,
      fun none n hn => (hb n).trans (LearnSession.bytes_noResult none hn),
      fun r result hbits => LearnSession.bytes_resultFields hb result hbits, fun idle n => ?idle⟩
    case code => cases x.state <;> rfl
    case idle => rw [hb, idle, LearnSession.bytes_idle]

end Sys2Proof.Machine
end
